-- ==== Sys2Proof/Word.lean ====
section
/-!
DEFINITION. The words of the HCC and their plainest names: a byte (the Symbol of R6, SYMBOL_BITS = 8), a 64-bit value
(FREQ_BITS = 64 of R6, and the width of the status port, R26), the 72-bit command word (R90), and a Code (R9).
-/

namespace Sys2Proof

/-- One byte: a Symbol, or one transfer of the IN or OUT port (R6, R60). -/
abbrev Byte := BitVec 8

/-- A 64-bit value: a frequency, an operand, a status value (R6, R26, R90). -/
abbrev Word64 := BitVec 64

/-- A command word `W[71:0]` (R90). -/
abbrev CmdWord := BitVec 72

/-- A Code, also Path: "an ordered sequence of bits (false=left/0, true=right/1)" (R9), the edge taken at the root
first. The length is part of the value. -/
abbrev Code := List Bool

end Sys2Proof
end

