-- ==== Sys2Proof/Config.lean ====
section
/-!
DEFINITION. What is fixed for one HCC: the constants the source fixes (R6), the parameters left to the implementation
(R7), and the values under no law (TIEBREAK and PAD, R7, R307), which are constants with no body.
-/

namespace Sys2Proof.Config

/-- DEPTH_CAP (R6, R161): the largest depth of the dense array. -/
def depthCap : Nat := 13

/-- CODE_LEN_MAX (R6): the largest length of a Code. -/
def codeLenMax : Nat := 255

/-- ALPHABET_MAX (R6): the number of Symbols. -/
def alphabetMax : Nat := 256

/-- ARR_MAX (R6): the index of the last word of ARR; its words are 1..16382 (R43). -/
def arrMax : Nat := 16382

/-- BIT_ORDER (R7, R65): which bit of a byte the first bit of a group of eight is. -/
inductive BitOrder where
  /-- the first bit of the stream is bit 7 of the byte -/
  | msbFirst
  /-- the first bit of the stream is bit 0 of the byte -/
  | lsbFirst
  deriving DecidableEq, Repr

/-- The parameters of R7 that are values: "kept as model arguments". They are "not run-time state" (R290); the
machine's state carries them as a constant that no step writes (log entry 4), so that a statement about every state is
a statement about every value of them. -/
structure Params where
  /-- BIT_ORDER (R65) -/
  bitOrder : BitOrder
  /-- TOKEN0: the byte that stands for a path bit 0 in a TOKEN path field (R102) -/
  token0 : Byte
  /-- TOKEN1: the byte that stands for a path bit 1 in a TOKEN path field (R102) -/
  token1 : Byte
  /-- CHUNK_BYTES: payload bytes of a full chunk (R107) -/
  chunkBytes : Nat
  deriving DecidableEq, Repr

/-- The domain R7 gives the parameters: "two distinct byte values" and 32 ≤ CHUNK_BYTES ≤ 2^32 − 1. -/
abbrev Params.wf (p : Params) : Prop :=
  p.token0 ≠ p.token1 ∧ 32 ≤ p.chunkBytes ∧ p.chunkBytes ≤ 2 ^ 32 - 1

/-- An unknown number from which CHUNK_BYTES of this hardware is made: R7 leaves CHUNK_BYTES open. -/
opaque chunkDraw : Nat

/-- CHUNK_BYTES of this hardware: some value of 32..2^32 − 1, and nothing says which (R7, D14). -/
def chunkBytes : Nat := 32 + chunkDraw % (2 ^ 32 - 32)

/-- This hardware's parameters: MSB_FIRST, 0x00, 0x01, and an open CHUNK_BYTES (R7). -/
def params : Params where
  bitOrder := .msbFirst
  token0 := 0x00
  token1 := 0x01
  chunkBytes := chunkBytes

/-- TIEBREAK (R7, R132): an unknown number for every pop of the priority queue, which picks one of the members of least
frequency. Nothing is known of it, and the choice may differ at every pop. -/
opaque tieBreak : Nat → Nat

/-- PAD (R7, R204): an unknown bit for every `draw()`. Nothing is known of it. -/
opaque padBit : Nat → Bool

end Sys2Proof.Config
end

