-- ==== Sys2Proof/Syntax.lean ====
section
/-!
DEFINITION. The eleven commands (R93), one constructor per row of spec/opcode_table.json. A format-Z command has no
operand, a format-N command its LEN, format C the 64-bit operand whose fields SET_CFG itself reads (R91).
-/

namespace Sys2Proof

/-- A command of the HCC. `n` is LEN, "an unsigned 64-bit byte count" (R92): a count, so a natural number, whose bound
WellFormed states. `v` is the whole operand of SET_CFG, whose bits 63:6 "are checked by the command, not the decoder"
(R91). -/
inductive Instr where
  /-- 0x01 CLEAR, format Z (R231) -/
  | clear
  /-- 0x02 SET_CFG, format C (R232) -/
  | setCfg (v : Word64)
  /-- 0x10 COUNT, format N (R131) -/
  | count (n : Nat)
  /-- 0x11 MERGE, format Z (R133) -/
  | merge
  /-- 0x12 GET_CODES, format Z (R152) -/
  | getCodes
  /-- 0x20 BUILD_DECODER, format Z (R163) -/
  | buildDecoder
  /-- 0x21 RESOLVE, format Z (R168) -/
  | resolve
  /-- 0x30 WRITE_DICT, format Z (R184) -/
  | writeDict
  /-- 0x31 READ_DICT, format N (R186) -/
  | readDict (n : Nat)
  /-- 0x32 ENCODE, format N (R203) -/
  | encode (n : Nat)
  /-- 0x33 DECODE, format N (R213) -/
  | decode (n : Nat)
  deriving DecidableEq, Repr

end Sys2Proof
end

