-- ==== Sys2Proof/WellFormed.lean ====
section
/-!
DEFINITION. The check on a command as syntax: LEN fits its 64 bits (R91, R92). Every other command has no operand or an
operand of exactly 64 bits, so there is nothing to check.
-/

namespace Sys2Proof

/-- LEN is the 64-bit field `W[63:0]` (R92): "an unsigned 64-bit byte count". -/
def lenFits (n : Nat) : Bool := n < 2 ^ 64

/-- The check, command by command. -/
def Instr.wellFormed : Instr → Bool
  | .clear => true
  | .setCfg _ => true
  | .count n => lenFits n
  | .merge => true
  | .getCodes => true
  | .buildDecoder => true
  | .resolve => true
  | .writeDict => true
  | .readDict n => lenFits n
  | .encode n => lenFits n
  | .decode n => lenFits n

/-- A command that some command word encodes. -/
abbrev WellFormed (i : Instr) : Prop := i.wellFormed = true

end Sys2Proof
end

