-- ==== Sys2Proof/Decode.lean ====
section
/-!
DEFINITION. The command word (R90 to R95): the decoder, total over all 72-bit words and rejecting by name, then the
encoder, written from the same table, and the table of spec/opcode_table.json itself as mask and match rows (R94).
-/

namespace Sys2Proof

/-- `op = W[71:64]` (R90). -/
def opOf (w : CmdWord) : Byte := w.extractLsb' 64 8

/-- `arg = W[63:0]` (R90). -/
def argOf (w : CmdWord) : Word64 := w.extractLsb' 0 64

/-- `LEN = W[63:0]` as an unsigned count, "used as it stands" (R92). -/
def lenOf (w : CmdWord) : Nat := (argOf w).toNat

/-- Why a word is no command (R95). -/
inductive Illegal where
  /-- an opcode other than the eleven of R93 -/
  | unknownOpcode (op : Byte)
  /-- "every format-Z opcode with arg ≠ 0" -/
  | operandNotZero (op : Byte)
  deriving DecidableEq, Repr

/-- A format-Z word is the command only if its operand is zero: "For format Z the mask is all 72 bits, so a non-zero
operand matches no row" (R94). -/
def formatZ (i : Instr) (w : CmdWord) : Except Illegal Instr :=
  if argOf w = 0 then .ok i else .error (.operandNotZero (opOf w))

/-- The opcode map (R93): which command a word is (R94). -/
def decode (w : CmdWord) : Except Illegal Instr :=
  match opOf w with
  | 0x01#8 => formatZ .clear w
  | 0x02#8 => .ok (.setCfg (argOf w))
  | 0x10#8 => .ok (.count (lenOf w))
  | 0x11#8 => formatZ .merge w
  | 0x12#8 => formatZ .getCodes w
  | 0x20#8 => formatZ .buildDecoder w
  | 0x21#8 => formatZ .resolve w
  | 0x30#8 => formatZ .writeDict w
  | 0x31#8 => .ok (.readDict (lenOf w))
  | 0x32#8 => .ok (.encode (lenOf w))
  | 0x33#8 => .ok (.decode (lenOf w))
  | op => .error (.unknownOpcode op)

/-- The opcode byte of a command (R93). -/
def Instr.opcode : Instr → Byte
  | .clear => 0x01
  | .setCfg _ => 0x02
  | .count _ => 0x10
  | .merge => 0x11
  | .getCodes => 0x12
  | .buildDecoder => 0x20
  | .resolve => 0x21
  | .writeDict => 0x30
  | .readDict _ => 0x31
  | .encode _ => 0x32
  | .decode _ => 0x33

/-- The 64-bit operand of a command (R91). -/
def Instr.operand : Instr → Word64
  | .clear => 0
  | .setCfg v => v
  | .count n => BitVec.ofNat 64 n
  | .merge => 0
  | .getCodes => 0
  | .buildDecoder => 0
  | .resolve => 0
  | .writeDict => 0
  | .readDict n => BitVec.ofNat 64 n
  | .encode n => BitVec.ofNat 64 n
  | .decode n => BitVec.ofNat 64 n

/-- The word of a command: opcode in bits 71:64, operand in bits 63:0 (R90). -/
def encode (i : Instr) : CmdWord := i.opcode ++ i.operand

/-- One row of spec/opcode_table.json. -/
structure OpcodeRow where
  /-- the row's "mnemonic" -/
  mnemonic : String
  /-- the row's "mask" -/
  mask : CmdWord
  /-- the row's "match" -/
  pattern : CmdWord
  deriving DecidableEq, Repr

/-- A word selects a row when `(W AND mask) = match` (R94). -/
def OpcodeRow.selects (r : OpcodeRow) (w : CmdWord) : Bool := w &&& r.mask == r.pattern

/-- The rows of spec/opcode_table.json, letter for letter. -/
def opcodeTable : List OpcodeRow :=
  [⟨"CLEAR", 0xFFFFFFFFFFFFFFFFFF, 0x010000000000000000⟩,
   ⟨"SET_CFG", 0xFF0000000000000000, 0x020000000000000000⟩,
   ⟨"COUNT", 0xFF0000000000000000, 0x100000000000000000⟩,
   ⟨"MERGE", 0xFFFFFFFFFFFFFFFFFF, 0x110000000000000000⟩,
   ⟨"GET_CODES", 0xFFFFFFFFFFFFFFFFFF, 0x120000000000000000⟩,
   ⟨"BUILD_DECODER", 0xFFFFFFFFFFFFFFFFFF, 0x200000000000000000⟩,
   ⟨"RESOLVE", 0xFFFFFFFFFFFFFFFFFF, 0x210000000000000000⟩,
   ⟨"WRITE_DICT", 0xFFFFFFFFFFFFFFFFFF, 0x300000000000000000⟩,
   ⟨"READ_DICT", 0xFF0000000000000000, 0x310000000000000000⟩,
   ⟨"ENCODE", 0xFF0000000000000000, 0x320000000000000000⟩,
   ⟨"DECODE", 0xFF0000000000000000, 0x330000000000000000⟩]

/-- The table's name of a command. -/
def Instr.mnemonic : Instr → String
  | .clear => "CLEAR"
  | .setCfg _ => "SET_CFG"
  | .count _ => "COUNT"
  | .merge => "MERGE"
  | .getCodes => "GET_CODES"
  | .buildDecoder => "BUILD_DECODER"
  | .resolve => "RESOLVE"
  | .writeDict => "WRITE_DICT"
  | .readDict _ => "READ_DICT"
  | .encode _ => "ENCODE"
  | .decode _ => "DECODE"

/-- The command the decoder reads from a word numbered as spec/opcode_table.json numbers it. A command is one transfer
of 72 bits with no byte order (R65, R90), so the number is the word; bits at or above `nbits` are zero. -/
def decodeTableWord (nbits w : Nat) : Option Instr :=
  if 2 ^ 72 ≤ w % 2 ^ nbits then none
  else match decode (BitVec.ofNat 72 (w % 2 ^ nbits)) with
    | .ok i => some i
    | .error _ => none

end Sys2Proof
end

