-- ==== Sys2Proof/Machine/State.lean ====
section
/-!
DEFINITION. The state of the HCC (10_state.md), its state after reset (R50), and the names of what stops it. State is
plain data and holds every register, memory, queue and transient register the spec names; INVENTORY.md lists them.
-/

namespace Sys2Proof.Machine

open Sys2Proof.Config

/-- The faults the hardware can raise (R251). A fault is NOT a stop of the model: it is an ordinary next state, with
ERRCODE, ERRINFO and PHASE written as R262 says. -/
inductive Err where
  /-- 0x10, InputError, MERGE: no symbol has a non-zero frequency -/
  | empty
  /-- 0x11, InputError, ENCODE: a byte has no code -/
  | noSym
  /-- 0x20, FormatError, READ_DICT: LEN ran out before the terminator -/
  | truncDict
  /-- 0x21, FormatError, READ_DICT and RESOLVE: a path byte is neither token -/
  | badToken
  /-- 0x22, FormatError, READ_DICT: a symbol appears twice -/
  | dupSym
  /-- 0x23, FormatError, WRITE_DICT: a present code of length 0 -/
  | zeroLen
  /-- 0x24, FormatError, DECODE: a trailing-bit count larger than the payload -/
  | badTrail
  /-- 0x25, FormatError, strict DECODE: a bit source ended inside a code -/
  | truncBody
  /-- 0x26, FormatError, strict DECODE: a candidate as long as the longest code did not resolve -/
  | noCode
  /-- 0x27, FormatError, BUILD_DECODER: two symbols have the same code -/
  | dupCode
  /-- 0x30, CapacityError, WRITE_DICT: a code longer than one length byte can say -/
  | codeLen
  /-- 0x31, CapacityError, BUILD_DECODER: an index outside the array; the one fatal fault -/
  | bounds
  /-- 0x40, usage: the word is not a command -/
  | illCmd
  /-- 0x41, usage: the structure the command reads is not valid -/
  | seq
  /-- 0x42, usage, SET_CFG: reserved operand bits are not zero -/
  | badCfg
  deriving DecidableEq, Repr

/-- Where a command stands while PHASE is BUSY: between two `InByte`s of its pseudocode. The model's own state, for the
place in the pseudocode that R62's hold stops at, with the local variables that are alive there (log entry 16). -/
inductive Pos where
  /-- executing; no byte is awaited. Seen only inside a step -/
  | running
  /-- COUNT, at the loop's `InByte` (R131) -/
  | counting
  /-- READ_DICT, at a record's length byte (R186) -/
  | dictLength
  /-- READ_DICT, inside the path of a record of length `len`; `got` is the path read so far (R183) -/
  | dictPath (len : Byte) (got : Code)
  /-- READ_DICT, at the symbol byte of a record whose path is `path` (R186) -/
  | dictSymbol (path : Code)
  /-- RESOLVE, at its length byte (R168) -/
  | lookupLength
  /-- RESOLVE, inside the path of length `len`; the path read so far is `cand` (R168) -/
  | lookupPath (len : Byte)
  /-- ENCODE, at the loop's `InByte`; `trail` is the pseudocode's `t` (R203) -/
  | encoding (trail : Nat)
  /-- DECODE, SIMPLE, at the loop's `InByte` (R213) -/
  | decoding
  /-- DECODE, CHUNKED, at a chunk's trailing-bit count (R213) -/
  | chunkTrail
  /-- DECODE, CHUNKED, inside a payload: `bytes` payload bytes to come, `bits` code bits to come (R213's `left`) -/
  | chunkPayload (bytes bits : Nat)
  deriving DecidableEq, Repr

/-- PHASE (R23). -/
inductive Phase where
  /-- 0: no command in progress, no fault recorded -/
  | idle
  /-- 1: a command is latched in CMD and executing, or holding at `pos` -/
  | busy (pos : Pos)
  /-- 2: a command ended by a recoverable fault -/
  | fault
  /-- 3: an internal invariant violation was detected -/
  | fatal
  deriving DecidableEq, Repr

/-- A word of NODE (R41). Its `kind` is the constructor; the fields the kind leaves unused are not represented. -/
inductive Node where
  /-- kind 0: "owns one Symbol and its frequency, no children" -/
  | leaf (sym : Byte) (freq : Word64)
  /-- kind 1: "owns exactly two children", given by their indices in NODE -/
  | branch (freq : Word64) (left right : Nat)
  deriving DecidableEq, Repr

/-- A sparse memory: address and word, in one canonical form (`Memory.wf`): addresses strictly rising, no word equal to
what an unlisted address reads as. The spec's memories hold words wider than a byte (R69), so the words are not
`Host.Cell`s. -/
abbrev Memory (α : Type) := List (Nat × α)

/-- ARR (R43): the words listed, and the value every other word has since the last fill (R163: "Fill every slot with
the sentinel"). -/
structure Slots where
  /-- what a word that is not listed reads as -/
  fill : BitVec 9
  /-- the other words, by index 1..16382 -/
  cells : Memory (BitVec 9)
  deriving DecidableEq, Repr

/-- An entry of OVF (R44): the Code (its length and bits) and its Symbol. -/
structure OvfEntry where
  /-- `(len, bits)` -/
  code : Code
  /-- `sym` -/
  sym : Byte
  deriving DecidableEq, Repr

/-- A step of the agent Host (R12, R60): what it does next at one of the ports, or at the reset input. -/
inductive HostAct where
  /-- offer a command word at the command port (R61) -/
  | command (w : CmdWord)
  /-- push one byte into INQ (R62) -/
  | push (b : Byte)
  /-- pop one byte from OUTQ (R63) -/
  | pop
  /-- read status register `r` (R64) -/
  | read (r : Byte)
  /-- assert and release reset (R280) -/
  | reset
  deriving DecidableEq, Repr

/-- The frequency table: FREQ and what FREQ_VALID guards (R24). -/
structure FreqTable where
  /-- FREQ_VALID (R24) -/
  valid : Bool
  /-- FREQ: the frequency of every Symbol; an unlisted word reads 0 (R40) -/
  freq : Memory Word64
  /-- TOTAL (R32) -/
  total : Word64
  deriving DecidableEq, Repr

/-- The Huffman tree: NODE and what TREE_VALID guards (R24). -/
structure TreeArena where
  /-- TREE_VALID (R24) -/
  valid : Bool
  /-- NODE: words 0, 1, … of the arena; words at or beyond the list's end are unspecified (R41) -/
  node : List Node
  /-- NNODES (R34) -/
  nnodes : BitVec 10
  /-- ROOT (R34) -/
  root : BitVec 9
  deriving DecidableEq, Repr

/-- The Symbol-to-Code dictionary: CODE and what CODES_VALID guards (R24). -/
structure CodeTable where
  /-- CODES_VALID (R24) -/
  valid : Bool
  /-- CODE: the code of every present Symbol; `present` is 0 for an unlisted Symbol (R42) -/
  code : Memory Code
  /-- NSYM (R35) -/
  nsym : BitVec 9
  /-- MAXLEN (R35) -/
  maxlen : BitVec 8
  deriving DecidableEq, Repr

/-- The compact decoder: ARR, OVF and what DEC_VALID guards (R24). -/
structure Decoder where
  /-- DEC_VALID (R24) -/
  valid : Bool
  /-- ARR: the dense array (R43) -/
  arr : Slots
  /-- OVF: entries 0, 1, … of the overflow mapping (R44) -/
  ovf : List OvfEntry
  /-- DEPTH: 4 bits, values 0..13 (R36) -/
  depth : Fin 14
  /-- SENTINEL (R36, R162) -/
  sentinel : BitVec 9
  /-- NOVF (R36) -/
  novf : BitVec 9
  /-- DEC_MAXLEN (R36) -/
  maxlen : BitVec 8
  deriving DecidableEq, Repr

/-- The working registers and the transient state (R21, R47 to R49): "They hold a meaning only inside the command named;
outside it their value is unspecified and no rule reads it". -/
structure Work where
  /-- `consumed`: bytes taken from INQ by this command so far -/
  consumed : Word64
  /-- `produced`: bytes appended to OUTQ by this command so far -/
  produced : Word64
  /-- HEAP: the members of the priority queue, node indices rising; HEAPN is its length (R47) -/
  heap : List Nat
  /-- `path`: root-to-node edges of the traversal (R48) -/
  path : Code
  /-- the traversal stack, top first: a node, and whether its right child is still to be visited; `sp` is its length
  (R48) -/
  stack : List (Nat × Bool)
  /-- whether the traversal has just gone down to the node on top of the stack, or just come back up to it -/
  goingDown : Bool
  /-- `idx`: the array index of a code -/
  idx : BitVec 14
  /-- `acc`: bits not yet forming a whole byte (ENCODE, SIMPLE) -/
  acc : Code
  /-- `chunk`: bits of the open chunk (ENCODE, CHUNKED) -/
  chunk : Code
  /-- `cand`: the candidate Code (DECODE, RESOLVE; R49) -/
  cand : Code
  deriving DecidableEq, Repr

/-- The machine and, in `script`, what its host does next. The registers of the status port stand with the structure
their valid flag guards; STATUS is PHASE and the four flags (R27). -/
structure State where
  /-- PHASE (R23) -/
  phase : Phase
  /-- CMD: the command word being executed while PHASE = BUSY (R22) -/
  cmd : CmdWord
  /-- FREQ, TOTAL, FREQ_VALID -/
  freqs : FreqTable
  /-- NODE, NNODES, ROOT, TREE_VALID -/
  tree : TreeArena
  /-- CODE, NSYM, MAXLEN, CODES_VALID -/
  codes : CodeTable
  /-- ARR, OVF, DEPTH, SENTINEL, NOVF, DEC_MAXLEN, DEC_VALID -/
  dec : Decoder
  /-- ERRCODE (R28) -/
  errcode : BitVec 8
  /-- ERRINFO (R29) -/
  errinfo : Word64
  /-- CFG: DICT_FMT, BODY_FMT, STRICT, TAIL_DISCARD (R33) -/
  cfg : BitVec 6
  /-- CONSUMED (R30) -/
  consumedReg : Word64
  /-- PRODUCED (R31) -/
  producedReg : Word64
  /-- ENC_TRAIL (R37) -/
  encTrail : BitVec 8
  /-- RESULT: HIT and SYM (R38) -/
  result : BitVec 9
  /-- INQ, head first (R45) -/
  inq : List Byte
  /-- OUTQ, head first (R45) -/
  outq : List Byte
  /-- not of the block: the bytes the host has popped from OUTQ since the last reset, first byte first (R14: "all bytes
  ever appended to OUTQ" are these and the bytes still in OUTQ; log entry 18) -/
  received : List Byte
  /-- the working registers and the transient state -/
  work : Work
  /-- not state of the spec: the parameters of R7; no step writes them -/
  params : Params
  /-- not of the block: what the host does next, first act first -/
  script : List HostAct
  /-- not of the spec: how many times TIEBREAK has chosen, the argument of `Config.tieBreak` -/
  ties : Nat
  /-- not of the spec: how many pad bits have been drawn, the argument of `Config.padBit` -/
  draws : Nat
  deriving DecidableEq, Repr

/-- The state hardware reset leaves (R50). Where R50 says "unspecified" (the CMD latch, the internal memories, the
working registers) the value here is the model's choice, and no statement rests on it (log entries 7 and 8). -/
def State.reset : State where
  phase := .idle
  cmd := 0
  freqs := { valid := false, freq := [], total := 0 }
  tree := { valid := false, node := [], nnodes := 0, root := 0 }
  codes := { valid := false, code := [], nsym := 0, maxlen := 0 }
  dec := { valid := false, arr := { fill := 0, cells := [] }, ovf := [], depth := 0, sentinel := 0, novf := 0,
           maxlen := 0 }
  errcode := 0
  errinfo := 0
  cfg := 0
  consumedReg := 0
  producedReg := 0
  encTrail := 0
  result := 0
  inq := []
  outq := []
  received := []
  work := { consumed := 0, produced := 0, heap := [], path := [], stack := [], goingDown := false, idx := 0, acc := [],
            chunk := [], cand := [] }
  params := Config.params
  script := []
  ties := 0
  draws := 0

/-- Why the MODEL stops. The hardware's own faults are next states (`Err`). -/
inductive Fault where
  /-- Raised by GET_CODES alone, where TREE_VALID = 1 and yet NODE holds no binary tree below ROOT (a child index with
  no node, a node below itself, a path longer than the 255 bits of the `path` register). R52 (b) says that there is no
  such state, no step makes one, and R151 gives it no result. Safe: the model stops where nothing is said. -/
  | brokenTree
  deriving DecidableEq, Repr

/-- Why the model gives a word no meaning. -/
inductive Refusal where
  /-- An instruction that has no meaning yet, by its mnemonic. No arm of `exec` answers it: every command of R93 has
  its meaning. Safe. -/
  | notModelled (mnemonic : String)
  deriving DecidableEq, Repr

end Sys2Proof.Machine
end

