-- ==== Sys2Proof/Machine/Flags.lean ====
section
/-!
DEFINITION. PHASE as a number (R23), the prerequisite check on the valid flags (R24, R258), RESULT.HIT (R25, R38), and
what the status port reads (R26 to R39).
-/

namespace Sys2Proof.Machine

open Sys2Proof

/-- PHASE as the 2-bit value of STATUS[1:0] (R23). -/
def Phase.code : Phase → BitVec 2
  | .idle => 0
  | .busy _ => 1
  | .fault => 2
  | .fatal => 3

/-- PHASE = BUSY. -/
def Phase.isBusy : Phase → Bool
  | .busy _ => true
  | _ => false

/-- PHASE = BUSY and the command holds at an `InByte` (R62). -/
def State.awaiting (s : State) : Bool :=
  match s.phase with
  | .busy .running => false
  | .busy _ => true
  | _ => false

/-- "The core is ready to accept a command word exactly when PHASE is IDLE or FAULT" (R61). -/
def State.portReady (s : State) : Bool :=
  match s.phase with
  | .idle => true
  | .fault => true
  | _ => false

/-- The prerequisite of every command (R258). -/
def ready (i : Instr) (s : State) : Bool :=
  match i with
  | .clear => true
  | .setCfg _ => true
  | .count _ => true
  | .readDict _ => true
  | .merge => s.freqs.valid
  | .getCodes => s.tree.valid
  | .buildDecoder => s.codes.valid
  | .resolve => s.dec.valid
  | .writeDict => s.codes.valid
  | .encode _ => s.codes.valid
  | .decode _ => s.dec.valid

/-- RESULT as RESOLVE writes it (R25, R38): HIT = 1 and the Symbol, or HIT = 0 and SYM = 0. -/
def resultWord : Option Byte → BitVec 9
  | some y => 0x100#9 ||| y.zeroExtend 9
  | none => 0

/-- STATUS (R27): PHASE in bits 1:0, FREQ_VALID, TREE_VALID, CODES_VALID, DEC_VALID in bits 2 to 5. -/
def State.status (s : State) : BitVec 6 :=
  BitVec.ofBool s.dec.valid ++ BitVec.ofBool s.codes.valid ++ BitVec.ofBool s.tree.valid ++ BitVec.ofBool s.freqs.valid ++
    s.phase.code

/-- The status port (R26): the register of number `r`, zero-extended to 64 bits; a reserved number reads 0 (R39). A
function of the state that changes nothing: "A read has no side effect, is allowed in every phase". -/
def State.statusPort (s : State) (r : Byte) : Word64 :=
  match r with
  | 0#8 => s.status.zeroExtend 64
  | 1#8 => s.errcode.zeroExtend 64
  | 2#8 => s.errinfo
  | 3#8 => s.cfg.zeroExtend 64
  | 4#8 => s.consumedReg
  | 5#8 => s.producedReg
  | 6#8 => s.freqs.total
  | 7#8 => s.tree.nnodes.zeroExtend 64
  | 8#8 => s.tree.root.zeroExtend 64
  | 9#8 => s.codes.nsym.zeroExtend 64
  | 10#8 => s.codes.maxlen.zeroExtend 64
  | 11#8 => BitVec.ofNat 64 s.dec.depth.val
  | 12#8 => s.dec.sentinel.zeroExtend 64
  | 13#8 => s.dec.novf.zeroExtend 64
  | 14#8 => s.dec.maxlen.zeroExtend 64
  | 15#8 => s.encTrail.zeroExtend 64
  | 16#8 => s.result.zeroExtend 64
  | _ => 0

end Sys2Proof.Machine
end

