-- ==== Sys2Proof/Machine/Ops.lean ====
section
/-!
DEFINITION. The operations every command is written with: the sparse memories; bits and bytes (R65, R66, R70); the two
queues (R62, R63); the common frame of a command (R130); raising a fault, which is the one way a command ends early
(R262), and completing; holding on an empty INQ and going on (R62); the values under no law (R7).
-/

namespace Sys2Proof.Machine

open Sys2Proof Sys2Proof.Config

/-! ## Sparse memories -/

/-- The word listed at address `a`, if one is. -/
def Memory.get? {α : Type} : Memory α → Nat → Option α
  | [], _ => none
  | (k, v) :: m, a => if k = a then some v else Memory.get? m a

/-- List the word `v` at address `a`, in address order, in place of any word listed there. -/
def Memory.set {α : Type} : Memory α → Nat → α → Memory α
  | [], a, v => [(a, v)]
  | (k, w) :: m, a, v =>
    if a < k then (a, v) :: (k, w) :: m
    else if a = k then (a, v) :: m
    else (k, w) :: Memory.set m a v

/-- List no word at address `a`. -/
def Memory.erase {α : Type} : Memory α → Nat → Memory α
  | [], _ => []
  | (k, w) :: m, a => if k = a then m else (k, w) :: Memory.erase m a

/-- Read a memory whose unlisted addresses read as `d`. -/
def Memory.read {α : Type} (d : α) (m : Memory α) (a : Nat) : α := (m.get? a).getD d

/-- Write a memory whose unlisted addresses read as `d`, keeping its canonical form. -/
def Memory.write {α : Type} [DecidableEq α] (d : α) (m : Memory α) (a : Nat) (v : α) : Memory α :=
  if v = d then m.erase a else m.set a v

/-- The addresses are strictly rising, all of them are at least `lo`. -/
def Memory.rising {α : Type} : Nat → Memory α → Bool
  | _, [] => true
  | lo, (k, _) :: m => decide (lo ≤ k) && Memory.rising (k + 1) m

/-- The canonical form of a memory over the addresses `lo..hi` whose unlisted addresses read as `d` (`none` where no
word of the memory can equal what an unlisted address reads as): addresses strictly rising and in range, and no word
equal to `d`. -/
def Memory.wf {α : Type} [DecidableEq α] (lo hi : Nat) (d : Option α) (m : Memory α) : Bool :=
  m.rising lo && m.all fun e => decide (e.1 ≤ hi) && decide (some e.2 ≠ d)

/-- FREQ[y] (R40). -/
def FreqTable.freqOf (f : FreqTable) (y : Nat) : Word64 := f.freq.read 0 y

/-- The code of Symbol `y`, if `y` is present (R42). -/
def CodeTable.codeOf (c : CodeTable) (y : Byte) : Option Code := c.code.get? y.toNat

/-- `CODE[y] <- (present = 1, len = |c|, bits = c)`. -/
def CodeTable.put (y : Byte) (c : Code) (t : CodeTable) : CodeTable := { t with code := t.code.set y.toNat c }

/-- "for s in 0..255 ascending with CODE[s].present = 1": the present symbols with their codes. -/
def presentCodes (m : Memory Code) : List (Byte × Code) :=
  (List.range alphabetMax).filterMap fun y => (m.get? y).map fun c => (BitVec.ofNat 8 y, c)

/-- ARR[i] (R43). -/
def Slots.read (a : Slots) (i : Nat) : BitVec 9 := Memory.read a.fill a.cells i

/-- ARR[i] <- v (R43). -/
def Slots.write (a : Slots) (i : Nat) (v : BitVec 9) : Slots := { a with cells := Memory.write a.fill a.cells i v }

/-- `for i in 1..N: ARR[i] <- v`, N being the last word in use (R163); the words above it are unspecified, and the fill
takes them too (log entry 9). -/
def Slots.filledWith (v : BitVec 9) : Slots := { fill := v, cells := [] }

/-- The entries of OVF in use: 0..NOVF − 1 (R44). -/
def Decoder.overflow (d : Decoder) : List OvfEntry := d.ovf.take d.novf.toNat

/-! ## Bits and bytes -/

/-- PackBits (R65): the byte of a group of eight bits, first in stream order first. A bit the group does not have is
taken as 0; no rule packs a shorter group. -/
def packBits (o : BitOrder) (g : Code) : Byte :=
  BitVec.ofNat 8 (((List.range 8).map fun j =>
    (g.getD j false).toNat * 2 ^ (match o with | .msbFirst => 7 - j | .lsbFirst => j)).sum)

/-- UnpackBits (R66): the inverse of PackBits. -/
def unpackBits (o : BitOrder) (b : Byte) : Code :=
  (List.range 8).map fun j => b.getLsbD (match o with | .msbFirst => 7 - j | .lsbFirst => j)

/-- `m` bytes of a bit sequence: "earlier bits in earlier bytes" (R65). -/
def packBytes (o : BitOrder) : Nat → Code → List Byte
  | 0, _ => []
  | m + 1, z => packBits o (z.take 8) :: packBytes o m (z.drop 8)

/-- The bits of a byte sequence, "earlier bytes first" (R66). -/
def unpackBytes (o : BitOrder) (bs : List Byte) : Code := bs.flatMap (unpackBits o)

/-- Index (R70): `Index([]) = 0`, `Index(c ++ [b]) = 2 * Index(c) + 1 + b`. -/
def index (c : Code) : Nat := c.foldl (fun i b => 2 * i + 1 + b.toNat) 0

/-- ceil(k / 8). -/
def ceil8 (k : Nat) : Nat := (k + 7) / 8

/-! ## Queues and registers -/

/-- `OutByte` of every byte of a list in order (R63): each is appended to the tail of OUTQ, and counted. -/
def State.outBytes (bs : List Byte) (s : State) : State :=
  { s with
    outq := s.outq ++ bs
    work := { s.work with produced := s.work.produced + BitVec.ofNat 64 bs.length } }

/-- `InByte()` on an INQ whose head is a byte with `rest` behind it (R62): the byte leaves, and is counted. -/
def State.inByte (rest : List Byte) (s : State) : State :=
  { s with inq := rest, work := { s.work with consumed := s.work.consumed + 1 } }

/-- LEN of the command being executed: `CMD[63:0]` (R92). -/
def State.len (s : State) : Word64 := argOf s.cmd

/-- The working register `cand` (R49) takes a value. -/
def State.setCand (c : Code) (s : State) : State := { s with work := { s.work with cand := c } }

/-- The working register `acc` (R21) takes a value. -/
def State.setAcc (c : Code) (s : State) : State := { s with work := { s.work with acc := c } }

/-- The working register `chunk` (R21) takes a value. -/
def State.setChunk (c : Code) (s : State) : State := { s with work := { s.work with chunk := c } }

/-- The command goes on to an `InByte` (R62); where INQ is empty it holds there. -/
def State.await (pos : Pos) (s : State) : State := { s with phase := .busy pos }

/-- Going on as far as INQ allows (R62): while the command awaits a byte and INQ has one, take it and run the
pseudocode `f` up to the next `InByte`, a `raise`, or the end. With INQ empty the command holds. `q` is INQ. -/
def pump (f : Byte → State → State) : List Byte → State → State
  | [], s => s
  | b :: rest, s => if s.awaiting then pump f rest (f b (s.inByte rest)) else s

/-! ## Faults -/

/-- The codes of R251. -/
def Err.code : Err → BitVec 8
  | .empty => 0x10
  | .noSym => 0x11
  | .truncDict => 0x20
  | .badToken => 0x21
  | .dupSym => 0x22
  | .zeroLen => 0x23
  | .badTrail => 0x24
  | .truncBody => 0x25
  | .noCode => 0x26
  | .dupCode => 0x27
  | .codeLen => 0x30
  | .bounds => 0x31
  | .illCmd => 0x40
  | .seq => 0x41
  | .badCfg => 0x42

/-- "PHASE <- (if E = E_BOUNDS then FATAL else FAULT)" (R262). -/
def Err.phase : Err → Phase
  | .bounds => .fatal
  | _ => .fault

/-- `raise E(info)` (R262), the entry of every fault: the first code and its information are kept, the byte counts are
copied, and the command ends. -/
def State.raise (e : Err) (info : Word64) (s : State) : State :=
  { s with
    errcode := if s.errcode = 0 then e.code else s.errcode
    errinfo := if s.errcode = 0 then info else s.errinfo
    consumedReg := s.work.consumed
    producedReg := s.work.produced
    phase := e.phase }

/-- Step (5) of the common frame (R130): the command reached the end of its pseudocode. -/
def State.complete (s : State) : State :=
  { s with consumedReg := s.work.consumed, producedReg := s.work.produced, phase := .idle }

/-! ## The common frame (R130) -/

/-- Acceptance in IDLE and step (1): the word is latched into CMD (R22, R61), PHASE <- BUSY, the counters are 0. -/
def State.begin (w : CmdWord) (s : State) : State :=
  { s with cmd := w, phase := .busy .running, work := { s.work with consumed := 0, produced := 0 } }

/-- The common frame of a command other than CLEAR. In IDLE: step (1), the prerequisite check of step (3), which raises
E_SEQ with the opcode before any effect (R258), and the body. In FAULT the word is discarded with no state change
(R265). In BUSY and FATAL the port is not ready and the word is not accepted (R61, R266); the step leaves it with the
host. -/
def accept (i : Instr) (body : State → Host.Outcome State Fault Refusal) (s : State) :
    Host.Outcome State Fault Refusal :=
  match s.phase with
  | .idle =>
    if ready i s then body (s.begin (encode i))
    else .next ((s.begin (encode i)).raise .seq (i.opcode.zeroExtend 64))
  | _ => .next s

/-- A word that is no command (R95): E_ILLCMD with the opcode byte in IDLE, discarded in FAULT. -/
def illegalWord (w : CmdWord) (s : State) : State :=
  match s.phase with
  | .idle => (s.begin w).raise .illCmd ((opOf w).zeroExtend 64)
  | _ => s

/-! ## The values under no law -/

/-- `choose(S)` (R10, R132): the member of a set (listed in order) that TIEBREAK picks. A set of one member leaves no
choice; of an empty set, which no rule asks about, 0. -/
def choose (k : Nat) : List Nat → Nat
  | [] => 0
  | [x] => x
  | x :: xs => (x :: xs).getD (tieBreak k % (x :: xs).length) x

/-- `draw()` repeated `t` times (R10, R204). -/
def State.drawn (t : Nat) (s : State) : Code := (List.range t).map fun j => padBit (s.draws + j)

/-- The draws of `drawn t` are used up: the next draw is another. -/
def State.afterDraws (t : Nat) (s : State) : State := { s with draws := s.draws + t }

end Sys2Proof.Machine
end

