-- ==== Sys2Proof/Machine/Operands.lean ====
section
/-!
DEFINITION. The operand forms of the commands: the fields of CFG (R33), and the path field of a dictionary record or of
RESOLVE's operand, written (R182) and read (R183) in both representations (R102, R103).
-/

namespace Sys2Proof.Machine

open Sys2Proof Sys2Proof.Config

/-! ## CFG (R33) -/

/-- DICT_FMT = RAW. -/
def State.dictRaw (s : State) : Bool := s.cfg.getLsbD 0

/-- BODY_FMT = CHUNKED. -/
def State.bodyChunked (s : State) : Bool := s.cfg.getLsbD 1

/-- STRICT = 1. -/
def State.strict (s : State) : Bool := s.cfg.getLsbD 2

/-- TAIL_DISCARD, 0..7. -/
def State.tailDiscard (s : State) : Nat := (s.cfg.extractLsb' 3 3).toNat

/-! ## The path field -/

/-- PathBytes(L) (R104). -/
def pathBytes (raw : Bool) (l : Nat) : Nat := if raw then ceil8 l else l

/-- The token of a path bit (R102). -/
def tokenOf (p : Params) (x : Bool) : Byte := if x then p.token1 else p.token0

/-- The bytes `EmitPath(c)` appends (R182). -/
def pathField (p : Params) (raw : Bool) (c : Code) : List Byte :=
  if raw then
    packBytes p.bitOrder (ceil8 c.length) (c ++ List.replicate (8 * ceil8 c.length - c.length) false)
  else c.map (tokenOf p)

/-- One round of `ReadPath`'s loop (R183): the path read so far with the bits of one more byte of the field; `none` is a
byte that is neither token. -/
def pathByte (p : Params) (raw : Bool) (got : Code) (b : Byte) : Option Code :=
  if raw then some (got ++ unpackBits p.bitOrder b)
  else if b = p.token0 then some (got ++ [false])
  else if b = p.token1 then some (got ++ [true])
  else none

/-- Whether the path field of a path of length `l` has been read: it holds `PathBytes(l)` bytes, eight bits each in RAW
and one in TOKEN, so it ends at the byte that brings the bits to `l`. -/
def pathRead (l : Byte) (got : Code) : Bool := decide (l.toNat ≤ got.length)

end Sys2Proof.Machine
end

