-- ==== Sys2Proof/Machine/CompactDecoder.lean ====
section
/-!
DEFINITION. The compact decoder (43_compact_decoder.md): the lookup `Resolve`, BUILD_DECODER and RESOLVE.
-/

namespace Sys2Proof.Machine

open Sys2Proof Sys2Proof.Config

/-! ## Resolve (R166) -/

/-- The register `idx` for a code `c`: `Index(c)`, for a code that the dense array can hold (R21, R70). -/
def Decoder.idxFor (d : Decoder) (c : Code) (idx : BitVec 14) : BitVec 14 :=
  if c.length ≤ d.depth.val then BitVec.ofNat 14 (index c) else idx

/-- `Resolve(c)` with `Index(c)` in `idx`: OVF for a code longer than DEPTH, else ARR; `none` is NotFound. -/
def Decoder.lookup (d : Decoder) (c : Code) (idx : BitVec 14) : Option Byte :=
  if d.depth.val < c.length then (d.overflow.find? fun e => e.code = c).map fun e => e.sym
  else if idx = 0 then none
  else if d.arr.read idx.toNat = d.sentinel then none
  else some ((d.arr.read idx.toNat).truncate 8)

/-- `Resolve(c)` (R166): a function of the decoder and the code. -/
def Decoder.resolve (d : Decoder) (c : Code) : Option Byte := d.lookup c (d.idxFor c 0)

/-- `i <- Index(c)` in the working register `idx`. -/
def State.loadIdx (c : Code) (s : State) : State :=
  { s with work := { s.work with idx := s.dec.idxFor c s.work.idx } }

/-- `Resolve(c)` through the working register `idx`. -/
def State.lookup (c : Code) (s : State) : Option Byte := s.dec.lookup c s.work.idx

/-! ## BUILD_DECODER (R163) -/

/-- The sentinel policy (R162): "least v in 0..256 such that v is not a present symbol". -/
def sentinelFor (m : Memory Code) : Nat := ((List.range 257).find? fun v => (m.get? v).isNone).getD 256

/-- DEPTH = min(13, MAXLEN) (R161). -/
def depthFor (maxlen : BitVec 8) : Fin 14 := ⟨min 13 maxlen.toNat, by omega⟩

/-- `N`: the last index in use for the depth, `2^(DEPTH+1) - 2` (R71). -/
def slotsOf (depth : Fin 14) : Nat := 2 ^ (depth.val + 1) - 2

/-- The decoder before the store loop. OVF entries at or beyond NOVF are unspecified: with NOVF at 0 none is listed. -/
def Decoder.start (c : CodeTable) (d : Decoder) : Decoder :=
  { d with
    valid := false
    depth := depthFor c.maxlen
    maxlen := c.maxlen
    sentinel := BitVec.ofNat 9 (sentinelFor c.code)
    arr := Slots.filledWith (BitVec.ofNat 9 (sentinelFor c.code))
    ovf := []
    novf := 0 }

/-- `ARR[i] <- y`. -/
def Decoder.putSlot (i : Nat) (y : Byte) (d : Decoder) : Decoder := { d with arr := d.arr.write i (y.zeroExtend 9) }

/-- `OVF[NOVF] <- (len = |c|, bits = c, sym = y)`, NOVF <- NOVF + 1. -/
def Decoder.putOverflow (c : Code) (y : Byte) (d : Decoder) : Decoder :=
  { d with ovf := d.overflow ++ [{ code := c, sym := y }], novf := d.novf + 1 }

/-- One round of the store loop: Symbol `y` with code `c`. -/
def storeCode (y : Byte) (c : Code) (s : State) : State :=
  if c.length ≤ s.dec.depth.val then
    let t := s.loadIdx c
    if index c < 1 ∨ slotsOf s.dec.depth < index c then t.raise .bounds (BitVec.ofNat 64 (index c))
    else if t.dec.arr.read (index c) ≠ t.dec.sentinel then t.raise .dupCode (y.zeroExtend 64)
    else { t with dec := t.dec.putSlot (index c) y }
  else if s.dec.overflow.any (fun e => e.code = c) then s.raise .dupCode (y.zeroExtend 64)
  else { s with dec := s.dec.putOverflow c y }

/-- The store loop and the end of BUILD_DECODER; a `raise` ends it. -/
def storeLoop : List (Byte × Code) → State → State
  | [], s => { s with dec := { s.dec with valid := true } }.complete
  | (y, c) :: rest, s => if (storeCode y c s).phase.isBusy then storeLoop rest (storeCode y c s) else storeCode y c s

/-- BUILD_DECODER up to its store loop. -/
def buildStart (s : State) : State := { s with dec := s.dec.start s.codes }

/-- BUILD_DECODER (R163). -/
def execBuildDecoder (s : State) : Host.Outcome State Fault Refusal :=
  accept .buildDecoder (fun s => .next (storeLoop (presentCodes s.codes.code) (buildStart s))) s

/-! ## RESOLVE (R168) -/

/-- The end of RESOLVE, its code in `cand`. -/
def lookupEnd (s : State) : State :=
  let t := s.loadIdx s.work.cand
  { t with result := resultWord (t.lookup t.work.cand) }.complete

/-- RESOLVE from one `InByte` to the next: the length byte, then the path bytes. -/
def lookupByte (b : Byte) (s : State) : State :=
  match s.phase with
  | .busy .lookupLength => if b = 0 then lookupEnd s else s.await (.lookupPath b)
  | .busy (.lookupPath l) =>
    match pathByte s.params s.dictRaw s.work.cand b with
    | none => s.raise .badToken (s.work.consumed - 1)
    | some c => if pathRead l c then lookupEnd (s.setCand (c.take l.toNat)) else s.setCand c
  | _ => s

/-- RESOLVE up to its first `InByte`. -/
def lookupStart (s : State) : State := (s.setCand []).await .lookupLength

/-- RESOLVE (R168). -/
def execResolve (s : State) : Host.Outcome State Fault Refusal :=
  accept .resolve (fun s => .next (pump lookupByte s.inq (lookupStart s))) s

end Sys2Proof.Machine
end

