-- ==== Sys2Proof/Machine/Bitstream.lean ====
section
/-!
DEFINITION. The bitstream writer and reader (45_bitstream.md): ENCODE and DECODE.
-/

namespace Sys2Proof.Machine

open Sys2Proof Sys2Proof.Config

/-! ## ENCODE (R203) -/

/-- Flush8 (R201): "emit whole bytes while there are any". -/
def State.flush8 (s : State) : State :=
  (s.outBytes (packBytes s.params.bitOrder (s.work.acc.length / 8) s.work.acc)).setAcc
    (s.work.acc.drop (8 * (s.work.acc.length / 8)))

/-- The trailing-bit count of the open chunk when its payload is `m` bytes (R202). -/
def State.chunkTrail (m : Nat) (s : State) : Nat := 8 * m - s.work.chunk.length

/-- CloseChunk(m) (R202): the count, then the payload of `m` bytes, its pad bits drawn. -/
def State.closeChunk (m : Nat) (s : State) : State :=
  ((s.outBytes (BitVec.ofNat 8 (s.chunkTrail m) ::
    packBytes s.params.bitOrder m (s.work.chunk ++ s.drawn (s.chunkTrail m)))).afterDraws (s.chunkTrail m)).setChunk []

/-- The end of ENCODE: ENC_TRAIL <- t. -/
def encodeEnd (t : Nat) (s : State) : State := { s with encTrail := BitVec.ofNat 8 t }.complete

/-- The last byte of the SIMPLE body, its `t` pad bits drawn. -/
def State.lastByte (t : Nat) (s : State) : State :=
  (s.outBytes [packBits s.params.bitOrder (s.work.acc ++ s.drawn t)]).afterDraws t

/-- ENCODE, SIMPLE, after its loop. -/
def encodeEndSimple (s : State) : State :=
  if s.work.acc = [] then encodeEnd 0 s
  else encodeEnd (8 - s.work.acc.length) (s.lastByte (8 - s.work.acc.length))

/-- ENCODE, CHUNKED, after its loop: the last chunk, possibly short; `t` is the last count so far. -/
def encodeEndChunked (t : Nat) (s : State) : State :=
  if s.work.chunk = [] then encodeEnd t s
  else encodeEnd (s.chunkTrail (ceil8 s.work.chunk.length)) (s.closeChunk (ceil8 s.work.chunk.length))

/-- The head of ENCODE's `repeat n times`. -/
def encodeLoop (t : Nat) (s : State) : State :=
  if s.work.consumed = s.len then
    if s.bodyChunked then encodeEndChunked t s else encodeEndSimple s
  else s.await (.encoding t)

/-- The capacity of a chunk in bits: `C = 8 · CHUNK_BYTES` (R202). -/
def State.chunkBits (s : State) : Nat := 8 * s.params.chunkBytes

/-- `chunk <- chunk ++ c`. -/
def State.addChunk (c : Code) (s : State) : State := s.setChunk (s.work.chunk ++ c)

/-- ENCODE's loop body with the code `c` of the byte taken. -/
def encodeCode (t : Nat) (c : Code) (s : State) : State :=
  if s.bodyChunked then
    if s.chunkBits < s.work.chunk.length + c.length then
      encodeLoop (s.chunkTrail s.params.chunkBytes) ((s.closeChunk s.params.chunkBytes).addChunk c)
    else encodeLoop t (s.addChunk c)
  else encodeLoop t (s.setAcc (s.work.acc ++ c)).flush8

/-- ENCODE from one `InByte` to the next; a symbol with no code raises E_NOSYM (R208). -/
def encodeByte (b : Byte) (s : State) : State :=
  match s.phase with
  | .busy (.encoding t) =>
    match s.codes.codeOf b with
    | none => s.raise .noSym (b.zeroExtend 64)
    | some c => encodeCode t c s
  | _ => s

/-- ENCODE up to its first `InByte`. -/
def encodeStart (s : State) : State := encodeLoop 0 ((s.setAcc []).setChunk [])

/-- ENCODE n (R203). -/
def execEncode (n : Nat) (s : State) : Host.Outcome State Fault Refusal :=
  accept (.encode n) (fun s => .next (pump encodeByte s.inq (encodeStart s))) s

/-! ## DECODE (R211, R213) -/

/-- Step(x) (R211) with the bit appended to the candidate and its index loaded: the lookup, and what follows it. -/
def decodeQuery (s : State) : State :=
  match s.lookup s.work.cand with
  | some y => (s.outBytes [y]).setCand []
  | none =>
    if s.strict && decide (s.dec.maxlen.toNat ≤ s.work.cand.length) then
      s.raise .noCode (BitVec.ofNat 64 s.work.cand.length)
    else s

/-- Step(x) (R211). -/
def decodeBit (x : Bool) (s : State) : State :=
  decodeQuery ((s.setCand (s.work.cand ++ [x])).loadIdx (s.work.cand ++ [x]))

/-- `for x in g in order: Step(x)`; a `raise` ends it. -/
def decodeBits : Code → State → State
  | [], s => s
  | x :: xs, s => if (decodeBit x s).phase.isBusy then decodeBits xs (decodeBit x s) else decodeBit x s

/-- Finish() (R211): a partial code is a truncation error (strict) or discarded (lenient). -/
def decodeFinish (s : State) : State :=
  if s.work.cand = [] then s
  else if s.strict then s.raise .truncBody (BitVec.ofNat 64 s.work.cand.length)
  else s.setCand []

/-- Going on with `k` unless a `raise` has ended the command. -/
def State.unlessEnded (k : State → State) (s : State) : State := if s.phase.isBusy then k s else s

/-- SIMPLE: the head of `for j in 1..n`, and `Finish()` after the last byte. -/
def decodeLoop (s : State) : State :=
  if s.work.consumed = s.len then (decodeFinish s).unlessEnded State.complete else s.await .decoding

/-- CHUNKED: the head of `while consumed < n`. -/
def chunkLoop (s : State) : State :=
  if s.work.consumed = s.len then s.complete else s.await .chunkTrail

/-- CHUNKED: the head of `repeat m times`, `bytes` of them to come, and `Finish()` after the last. -/
def payloadLoop (bytes bits : Nat) (s : State) : State :=
  if bytes = 0 then (decodeFinish s).unlessEnded chunkLoop else s.await (.chunkPayload bytes bits)

/-- The body bytes that remain: `n - consumed`. -/
def State.remaining (s : State) : Nat := s.len.toNat - s.work.consumed.toNat

/-- The bits DECODE, SIMPLE, takes of a byte: all eight, but of the last byte the first `8 - TAIL_DISCARD` (R214). -/
def State.simpleBits (b : Byte) (s : State) : Code :=
  if s.work.consumed = s.len then (unpackBits s.params.bitOrder b).take (8 - s.tailDiscard)
  else unpackBits s.params.bitOrder b

/-- DECODE from one `InByte` to the next. -/
def decodeByte (b : Byte) (s : State) : State :=
  match s.phase with
  | .busy .decoding => (decodeBits (s.simpleBits b) s).unlessEnded decodeLoop
  | .busy .chunkTrail =>
    let m := min s.params.chunkBytes s.remaining
    if 8 * m < b.toNat then s.raise .badTrail (s.work.consumed - 1)
    else payloadLoop m (8 * m - b.toNat) (s.setCand [])
  | .busy (.chunkPayload bytes bits) =>
    let g := (unpackBits s.params.bitOrder b).take bits
    (decodeBits g s).unlessEnded (payloadLoop (bytes - 1) (bits - g.length))
  | _ => s

/-- DECODE up to its first `InByte`. -/
def decodeStart (s : State) : State :=
  if s.bodyChunked then chunkLoop (s.setCand []) else decodeLoop (s.setCand [])

/-- DECODE n (R213). -/
def execDecode (n : Nat) (s : State) : Host.Outcome State Fault Refusal :=
  accept (.decode n) (fun s => .next (pump decodeByte s.inq (decodeStart s))) s

end Sys2Proof.Machine
end

