-- ==== Sys2Proof/Machine/CodeExtractor.lean ====
section
/-!
DEFINITION. The code extractor (42_code_extractor.md): GET_CODES, by the explicit stack and `path` register of R48 and
R155. Sys2Proof/Laws/Walk.lean proves that this computes R151's recursive `Walk`.
-/

namespace Sys2Proof.Machine

open Sys2Proof Sys2Proof.Config

/-- The largest length of a table's codes, 0 if there are none. -/
def maxLength (codes : List (Byte × Code)) : Nat := (codes.map fun e => e.2.length).foldr max 0

/-- The end of GET_CODES and of READ_DICT (R152, R186): NSYM is the number of present symbols, MAXLEN the largest length,
0 if none; CODES_VALID <- 1. -/
def codesEnd (s : State) : State :=
  { s with
    codes := { s.codes with
      nsym := BitVec.ofNat 9 (presentCodes s.codes.code).length
      maxlen := BitVec.ofNat 8 (maxLength (presentCodes s.codes.code))
      valid := true } }.complete

/-- The start of both: CODES_VALID <- 0, and no symbol is present. -/
def codesStart (s : State) : State := { s with codes := { s.codes with valid := false, code := [] } }

/-- A word of CODE is written. -/
def State.setCode (y : Byte) (c : Code) (s : State) : State := { s with codes := s.codes.put y c }

/-- The traversal state of R48 takes new values. -/
def State.setWalk (path : Code) (stack : List (Nat × Bool)) (goingDown : Bool) (s : State) : State :=
  { s with work := { s.work with path := path, stack := stack, goingDown := goingDown } }

/-- One move of the traversal (R155). At a leaf: write the code and go back up. At a branch: coming down, "push a bit 0
onto `path` and descend left"; back from the left child, "replace that bit by 1 and descend right"; back from the right
child, "pop the bit" and go back up. `none`: the node is not there, or `path` has no place for another bit. -/
def walkMove (s : State) : Option State :=
  match s.work.stack with
  | [] => some s
  | (i, rightToVisit) :: below =>
    match s.tree.node[i]? with
    | none => none
    | some (.leaf y _) => some ((s.setCode y s.work.path).setWalk s.work.path below false)
    | some (.branch _ l r) =>
      if s.work.goingDown then
        if codeLenMax ≤ s.work.path.length then none
        else some (s.setWalk (s.work.path ++ [false]) ((l, true) :: (i, true) :: below) true)
      else if rightToVisit then
        some (s.setWalk (s.work.path.dropLast ++ [true]) ((r, true) :: (i, false) :: below) true)
      else some (s.setWalk s.work.path.dropLast below false)

/-- The traversal until the stack is empty, in at most `k` moves. -/
def walk : Nat → State → Option State
  | 0, s => if s.work.stack = [] then some s else none
  | k + 1, s => if s.work.stack = [] then some s else (walkMove s).bind (walk k)

/-- More moves than a traversal of the 511 nodes of NODE takes: one at each leaf, three at each branch. -/
def walkBound : Nat := 3 * 511

/-- GET_CODES's pseudocode (R152); the alphabet of size 1 gets the code `0` (R153). -/
def getCodesBody (s : State) : Host.Outcome State Fault Refusal :=
  match s.tree.node[s.tree.root.toNat]? with
  | none => .fault .brokenTree
  | some (.leaf y _) => .next (codesEnd ((codesStart s).setCode y [false]))
  | some (.branch _ _ _) =>
    match walk walkBound ((codesStart s).setWalk [] [(s.tree.root.toNat, true)] true) with
    | none => .fault .brokenTree
    | some u => .next (codesEnd u)

/-- GET_CODES (R152). -/
def execGetCodes (s : State) : Host.Outcome State Fault Refusal :=
  accept .getCodes getCodesBody s

end Sys2Proof.Machine
end

