-- ==== Sys2Proof/Machine/Dictionary.lean ====
section
/-!
DEFINITION. The dictionary serializer and deserializer (44_dictionary.md): WRITE_DICT and READ_DICT.
-/

namespace Sys2Proof.Machine

open Sys2Proof Sys2Proof.Config

/-! ## WRITE_DICT (R184) -/

/-- The first symbol, ascending, that fails a check of WRITE_DICT's first loop, E_ZEROLEN before E_CODELEN. -/
def firstBadLength : List (Byte × Code) → Option (Err × Byte)
  | [] => none
  | (y, c) :: rest =>
    if c.length = 0 then some (.zeroLen, y)
    else if codeLenMax < c.length then some (.codeLen, y)
    else firstBadLength rest

/-- The record of one symbol (R101). -/
def record (p : Params) (raw : Bool) (e : Byte × Code) : List Byte :=
  BitVec.ofNat 8 e.2.length :: pathField p raw e.2 ++ [e.1]

/-- The dictionary section of a table (R100, R105): its records, then "a single length-0 byte". -/
def dictSection (p : Params) (raw : Bool) (codes : List (Byte × Code)) : List Byte :=
  codes.flatMap (record p raw) ++ [0]

/-- WRITE_DICT's pseudocode. -/
def writeDictBody (s : State) : State :=
  match firstBadLength (presentCodes s.codes.code) with
  | some (e, y) => s.raise e (y.zeroExtend 64)
  | none => (s.outBytes (dictSection s.params s.dictRaw (presentCodes s.codes.code))).complete

/-- WRITE_DICT (R184). -/
def execWriteDict (s : State) : Host.Outcome State Fault Refusal :=
  accept .writeDict (fun s => .next (writeDictBody s)) s

/-! ## READ_DICT (R186) -/

/-- `NextByte()` before its `InByte`: "if consumed = n: raise E_TRUNC_DICT(n)". -/
def dictNext (pos : Pos) (s : State) : State :=
  if s.work.consumed = s.len then s.raise .truncDict s.len else s.await pos

/-- READ_DICT from one `InByte` to the next: a length byte (0 ends the section), the path bytes, the symbol byte. -/
def dictByte (b : Byte) (s : State) : State :=
  match s.phase with
  | .busy .dictLength => if b = 0 then codesEnd s else dictNext (.dictPath b []) s
  | .busy (.dictPath l got) =>
    match pathByte s.params s.dictRaw got b with
    | none => s.raise .badToken (s.work.consumed - 1)
    | some c => if pathRead l c then dictNext (.dictSymbol (c.take l.toNat)) s else dictNext (.dictPath l c) s
  | .busy (.dictSymbol c) =>
    if (s.codes.codeOf b).isSome then s.raise .dupSym (b.zeroExtend 64) else dictNext .dictLength (s.setCode b c)
  | _ => s

/-- READ_DICT up to its first `InByte`. -/
def dictStart (s : State) : State := dictNext .dictLength (codesStart s)

/-- READ_DICT n (R186). -/
def execReadDict (n : Nat) (s : State) : Host.Outcome State Fault Refusal :=
  accept (.readDict n) (fun s => .next (pump dictByte s.inq (dictStart s))) s

end Sys2Proof.Machine
end

