-- ==== Sys2Proof/Machine/TreeBuilder.lean ====
section
/-!
DEFINITION. The tree builder (41_tree_builder.md): COUNT and MERGE.
-/

namespace Sys2Proof.Machine

open Sys2Proof Sys2Proof.Config

/-! ## COUNT (R131) -/

/-- `FREQ[b] <- FREQ[b] + 1`. -/
def FreqTable.countUp (b : Byte) (f : FreqTable) : FreqTable :=
  { f with freq := f.freq.write 0 b.toNat (f.freqOf b.toNat + 1) }

/-- The head of COUNT's `repeat n times`: after `n` bytes, TOTAL <- n and FREQ_VALID <- 1. -/
def countLoop (s : State) : State :=
  if s.work.consumed = s.len then
    { s with freqs := { s.freqs with total := s.len, valid := true } }.complete
  else s.await .counting

/-- COUNT's loop body. -/
def countByte (b : Byte) (s : State) : State := countLoop { s with freqs := s.freqs.countUp b }

/-- COUNT up to its loop. -/
def countStart (s : State) : State := countLoop { s with freqs := { valid := false, freq := [], total := 0 } }

/-- COUNT n (R131). -/
def execCount (n : Nat) (s : State) : Host.Outcome State Fault Refusal :=
  accept (.count n) (fun s => .next (pump countByte s.inq (countStart s))) s

/-! ## The priority queue (R132) -/

/-- NODE[i].freq (R41). -/
def nodeFreq (node : List Node) (i : Nat) : Word64 :=
  match node[i]? with
  | some (.leaf _ f) => f
  | some (.branch f _ _) => f
  | none => 0

/-- The members of a queue of least frequency: R132's `M`. "The ordering key is `freq` alone", unsigned. -/
def minima (node : List Node) (heap : List Nat) : List Nat :=
  heap.filter fun i => heap.all fun j => decide (nodeFreq node i ≤ nodeFreq node j)

/-- PopMin (R132): which member is popped. -/
def State.popped (s : State) : Nat := choose s.ties (minima s.tree.node s.work.heap)

/-- PopMin (R132): the queue without that member; TIEBREAK has chosen once more. -/
def State.afterPop (s : State) : State :=
  { s with work := { s.work with heap := s.work.heap.erase s.popped }, ties := s.ties + 1 }

/-! ## MERGE (R133) -/

/-- The leaves of MERGE's first loop: "one leaf node per distinct symbol", ascending. -/
def FreqTable.leaves (f : FreqTable) : List Node :=
  (List.range alphabetMax).filterMap fun y =>
    if f.freqOf y ≠ 0 then some (.leaf (BitVec.ofNat 8 y) (f.freqOf y)) else none

/-- MERGE up to its test of an empty queue. -/
def mergeStart (s : State) : State :=
  { s with
    tree := { s.tree with valid := false, node := s.freqs.leaves, nnodes := BitVec.ofNat 10 s.freqs.leaves.length }
    work := { s.work with heap := List.range s.freqs.leaves.length } }

/-- "create a new branch node whose children are (first-popped, second-popped) in that pop order ... and push it back". -/
def State.join (a b : Nat) (s : State) : State :=
  { s with
    tree := { s.tree with
      node := s.tree.node ++ [.branch (nodeFreq s.tree.node a + nodeFreq s.tree.node b) a b]
      nnodes := s.tree.nnodes + 1 }
    work := { s.work with heap := s.work.heap ++ [s.tree.node.length] } }

/-- One round of MERGE's loop. -/
def mergeOnce (s : State) : State := s.afterPop.afterPop.join s.popped s.afterPop.popped

/-- `while |H| > 1`: each round leaves one member less (R138), so `k` rounds are enough for `k + 1` members. -/
def mergeLoop : Nat → State → State
  | 0, s => s
  | k + 1, s => if 1 < s.work.heap.length then mergeLoop k (mergeOnce s) else s

/-- The end of MERGE: "ROOT <- the single member of H". -/
def mergeEnd (s : State) : State :=
  { s with tree := { s.tree with root := BitVec.ofNat 9 (s.work.heap.headD 0), valid := true } }.complete

/-- MERGE's pseudocode. -/
def mergeBody (s : State) : State :=
  if (mergeStart s).work.heap = [] then (mergeStart s).raise .empty 0
  else mergeEnd (mergeLoop (mergeStart s).work.heap.length (mergeStart s))

/-- MERGE (R133). -/
def execMerge (s : State) : Host.Outcome State Fault Refusal :=
  accept .merge (fun s => .next (mergeBody s)) s

end Sys2Proof.Machine
end

