-- ==== Sys2Proof/Machine/Advance.lean ====
section
/-!
DEFINITION. Going on with a command that held on an empty INQ (R62, R293): every input-taking command resumes at the
`InByte` its position names.
-/

namespace Sys2Proof.Machine

open Sys2Proof

/-- The pseudocode that runs after the `InByte` of a position. -/
def afterByte (pos : Pos) : Byte → State → State :=
  match pos with
  | .running => fun _ s => s
  | .counting => countByte
  | .dictLength => dictByte
  | .dictPath _ _ => dictByte
  | .dictSymbol _ => dictByte
  | .lookupLength => lookupByte
  | .lookupPath _ => lookupByte
  | .encoding _ => encodeByte
  | .decoding => decodeByte
  | .chunkTrail => decodeByte
  | .chunkPayload _ _ => decodeByte

/-- The core's step on a command that is BUSY: it takes bytes as long as it needs one and INQ has one. -/
def resume (s : State) : State :=
  match s.phase with
  | .busy pos => pump (afterByte pos) s.inq s
  | _ => s

/-- The core can go on: a command awaits a byte and INQ has one. -/
def State.coreMoves (s : State) : Bool := s.awaiting && !s.inq.isEmpty

end Sys2Proof.Machine
end

