-- ==== Sys2Proof/Machine/System.lean ====
section
/-!
DEFINITION. The system commands (46_system.md): CLEAR, which is also the one return from a fault (R267), and SET_CFG.
-/

namespace Sys2Proof.Machine

open Sys2Proof

/-! ## CLEAR (R231) -/

/-- CLEAR's pseudocode: every register its reset value but CFG, INQ emptied, OUTQ kept. The contents of the memories
"become unspecified": the model lists nothing in them (log entry 8). -/
def State.cleared (s : State) : State :=
  { s with
    freqs := { valid := false, freq := [], total := 0 }
    tree := { valid := false, node := [], nnodes := 0, root := 0 }
    codes := { valid := false, code := [], nsym := 0, maxlen := 0 }
    dec := { valid := false, arr := Slots.filledWith 0, ovf := [], depth := 0, sentinel := 0, novf := 0, maxlen := 0 }
    errcode := 0
    errinfo := 0
    encTrail := 0
    result := 0
    inq := []
    consumedReg := 0
    producedReg := 0
    phase := .idle }

/-- CLEAR (R231): "Accepted in PHASE = IDLE and in PHASE = FAULT". -/
def execClear (s : State) : Host.Outcome State Fault Refusal :=
  if s.portReady then .next (s.begin (encode .clear)).cleared else .next s

/-! ## SET_CFG (R232) -/

/-- SET_CFG's pseudocode. -/
def setCfgBody (v : Word64) (s : State) : State :=
  if v >>> 6 ≠ 0 then s.raise .badCfg v else { s with cfg := v.truncate 6 }.complete

/-- SET_CFG v (R232). -/
def execSetCfg (v : Word64) (s : State) : Host.Outcome State Fault Refusal :=
  accept (.setCfg v) (fun s => .next (setCfgBody v s)) s

end Sys2Proof.Machine
end

