-- ==== Sys2Proof/Machine/Dispatch.lean ====
section
/-!
DEFINITION. One arm per command (R93): which meaning runs.
-/

namespace Sys2Proof.Machine

open Sys2Proof

def exec (i : Instr) (s : State) : Host.Outcome State Fault Refusal :=
  match i with
  | .clear => Sys2Proof.Machine.execClear s
  | .setCfg v => Sys2Proof.Machine.execSetCfg v s
  | .count n => Sys2Proof.Machine.execCount n s
  | .merge => Sys2Proof.Machine.execMerge s
  | .getCodes => Sys2Proof.Machine.execGetCodes s
  | .buildDecoder => Sys2Proof.Machine.execBuildDecoder s
  | .resolve => Sys2Proof.Machine.execResolve s
  | .writeDict => Sys2Proof.Machine.execWriteDict s
  | .readDict n => Sys2Proof.Machine.execReadDict n s
  | .encode n => Sys2Proof.Machine.execEncode n s
  | .decode n => Sys2Proof.Machine.execDecode n s

end Sys2Proof.Machine
end

