-- ==== Sys2Proof/Machine/HostPorts.lean ====
section
/-!
DEFINITION. What the host does at the ports (R60 to R64) and at the reset input (R280), each as a function on the state.
-/

namespace Sys2Proof.Machine

open Sys2Proof

/-- A host push: "appends one byte to the tail of INQ" (R62), in any phase. -/
def hostPush (b : Byte) (s : State) : State := { s with inq := s.inq ++ [b] }

/-- A host pop: "removes the byte at the head" of OUTQ (R63), in any phase. The host has received that byte (R14). -/
def hostPop (s : State) : State := { s with outq := s.outq.drop 1, received := s.received ++ s.outq.take 1 }

/-- Hardware reset (R280): the state of R50 from any phase. The parameters are not run-time state, the host goes on with
its script, and the draws under no law go on to new ones (log entry 22). A run begins at the reset state (R14), so nothing has been
received. -/
def hardReset (s : State) : State :=
  { State.reset with params := s.params, script := s.script, ties := s.ties, draws := s.draws }

end Sys2Proof.Machine
end

