-- ==== Sys2Proof/Machine/Step.lean ====
section
/-!
DEFINITION. One step of the machine with its host (R12): the core goes on with a command that can go on, else the host
does its next act; and where a word stands that the next step accepts.
-/

namespace Sys2Proof.Machine

open Sys2Proof

/-- A word accepted at the command port (R61): decoded (R94) and executed, or illegal (R95). -/
def issue (w : CmdWord) (s : State) : Host.Outcome State Fault Refusal :=
  match decode w with
  | .ok i => exec i s
  | .error _ => .next (illegalWord w s)

/-- The host's next act. A command word waits while the port is not ready: "a host that offers a word while PHASE = BUSY
or FATAL simply waits" (R61), and so does one that pops while OUTQ is empty (R60, R63). A status read changes nothing
(R64). -/
def hostStep (s : State) : Host.Outcome State Fault Refusal :=
  match s.script with
  | [] => .next s
  | .command w :: rest => if s.portReady then issue w { s with script := rest } else .next s
  | .push b :: rest => .next (hostPush b { s with script := rest })
  | .pop :: rest => if s.outq = [] then .next s else .next (hostPop { s with script := rest })
  | .read _ :: rest => .next { s with script := rest }
  | .reset :: rest => .next (hardReset { s with script := rest })

/-- One step. Where neither agent can move (the core waits in IDLE, FAULT or FATAL, or holds on an empty INQ, and the
host has nothing to do or waits) the step answers the same state: "it keeps all state, and the awaited host step is the
only thing that resumes it" (R277). -/
def step (s : State) : Host.Outcome State Fault Refusal :=
  if s.coreMoves then .next (resume s) else hostStep s

/-- `s` with the word `w` as the host's next act, at a command port that is ready: a port that is not is made ready by
setting PHASE to IDLE, so that the very next step accepts the word. -/
def State.withFetchWord (s : State) (nbits w : Nat) : State :=
  { s with
    phase := if s.portReady then s.phase else .idle
    script := .command (BitVec.ofNat 72 (w % 2 ^ nbits)) :: s.script }

end Sys2Proof.Machine
end

