-- ==== Sys2Proof/Safety.lean ====
section
/-!
DEFINITION. The terms claims are stated in: the tree that NODE lays out (R52 (b)) and the codes of its leaves (R151);
reading a path field (R183); the bit-level decoder as a function (R211, R212, R219); the chunks of a body (R107, R206); a
run and what it yields (R14); and the invariant of the data model (R28, R52), which every step keeps.
-/

namespace Sys2Proof.Machine

open Sys2Proof Sys2Proof.Config

/-! ## Trees -/

/-- A binary tree as NODE lays it out: every node with its index in NODE. -/
inductive HTree where
  /-- a leaf: its index, its Symbol, its frequency -/
  | leaf (i : Nat) (y : Byte) (f : Word64)
  /-- a branch: its index, its frequency, its children -/
  | branch (i : Nat) (f : Word64) (l r : HTree)
  deriving DecidableEq, Repr

/-- The index of the root of a tree. -/
def HTree.idx : HTree → Nat
  | .leaf i _ _ => i
  | .branch i _ _ _ => i

/-- The frequency of the root of a tree. -/
def HTree.freq : HTree → Word64
  | .leaf _ _ f => f
  | .branch _ f _ _ => f

/-- The indices of the nodes of a tree. -/
def HTree.nodes : HTree → List Nat
  | .leaf i _ _ => [i]
  | .branch i _ l r => i :: l.nodes ++ r.nodes

/-- The leaves of a tree, left to right: Symbol and frequency. -/
def HTree.leaves : HTree → List (Byte × Word64)
  | .leaf _ y f => [(y, f)]
  | .branch _ _ l r => l.leaves ++ r.leaves

/-- The tree lies in NODE: "children stored as index pairs" (R41). -/
def HTree.In (node : List Node) : HTree → Prop
  | .leaf i y f => node[i]? = some (.leaf y f)
  | .branch i f l r => node[i]? = some (.branch f l.idx r.idx) ∧ l.In node ∧ r.In node

/-- A branch has "a frequency equal to the sum of its children's frequencies" (R41), which does not wrap (R137), and its
left child is no heavier than its right child (R135 (c)). -/
def HTree.Weighted : HTree → Prop
  | .leaf _ _ _ => True
  | .branch _ f l r => f.toNat = l.freq.toNat + r.freq.toNat ∧ l.freq ≤ r.freq ∧ l.Weighted ∧ r.Weighted

/-- What `Walk(root, p)` writes (R151): each leaf's Symbol with the edges from the root to it behind `p`. -/
def HTree.codes : Code → HTree → List (Byte × Code)
  | p, .leaf _ y _ => [(y, p)]
  | p, .branch _ _ l r => l.codes (p ++ [false]) ++ r.codes (p ++ [true])

/-- The table GET_CODES writes for a tree (R152): what `Walk` writes, or the code `0` of the one leaf (R153). -/
def HTree.table : HTree → List (Byte × Code)
  | .leaf _ y _ => [(y, [false])]
  | .branch i f l r => (HTree.branch i f l r).codes []

/-- NODE[0..NNODES − 1] is the tree `T` rooted at ROOT, and every node of it is in `T` just once (R52 (b)). -/
structure TreeArena.Holds (a : TreeArena) (T : HTree) : Prop where
  placed : T.In a.node
  root : T.idx = a.root.toNat
  size : a.nnodes.toNat = a.node.length
  distinct : T.nodes.Nodup
  covers : T.nodes.length = a.node.length
  weighted : T.Weighted
  symbols : (T.leaves.map Prod.fst).Nodup

/-- The symbols present in the input with their frequencies, ascending: "a symbol is present exactly when FREQ[s] > 0"
(R40). -/
def FreqTable.present (f : FreqTable) : List (Byte × Word64) :=
  (List.range alphabetMax).filterMap fun y => if f.freqOf y ≠ 0 then some (BitVec.ofNat 8 y, f.freqOf y) else none

/-- The sum of all FREQ words (R52 (a)). -/
def FreqTable.sum (f : FreqTable) : Nat := ((List.range alphabetMax).map fun y => (f.freqOf y).toNat).sum

/-- Node `i` is a child of a node made before node `j`: it has left the queue by then (R133). -/
def Popped (node : List Node) (j i : Nat) : Prop :=
  ∃ m, m < j ∧ ∃ f a b, node[m]? = some (.branch f a b) ∧ (i = a ∨ i = b)

/-- "Repeatedly pop the two lowest-frequency nodes" (R132, R133): the children of a branch are two nodes that stood in
the queue when it was made, the first no heavier than the second, and the second no heavier than any other node that
stood there. -/
def Greedy (node : List Node) : Prop :=
  ∀ j f a b, node[j]? = some (.branch f a b) →
    a < j ∧ b < j ∧ a ≠ b ∧ ¬ Popped node j a ∧ ¬ Popped node j b ∧ nodeFreq node a ≤ nodeFreq node b ∧
      ∀ i, i < j → i ≠ a → i ≠ b → ¬ Popped node j i → nodeFreq node b ≤ nodeFreq node i

/-- What MERGE leaves in NODE, NNODES and ROOT for a table with a present symbol (R133, R135). -/
structure MergedTree (f : FreqTable) (a : TreeArena) (T : HTree) : Prop where
  valid : a.valid = true
  holds : a.Holds T
  leaves : T.leaves.Perm f.present
  total : T.freq.toNat = f.sum
  nnodes : a.nnodes.toNat = 2 * f.present.length - 1
  root : a.root.toNat = 2 * f.present.length - 2
  leafNodes : a.node.take f.present.length = f.present.map fun e => .leaf e.1 e.2
  branches : ∀ i j, f.present.length ≤ i → i ≤ j → j < a.nnodes.toNat → nodeFreq a.node i ≤ nodeFreq a.node j
  greedy : Greedy a.node

/-! ## Tables of codes -/

/-- The bits of a code read as a binary number, first bit most significant (R70). -/
def codeValue (c : Code) : Nat := ((List.range c.length).map fun i => (c.getD i false).toNat * 2 ^ (c.length - 1 - i)).sum

/-- Neither of two codes is a prefix of the other. -/
def Apart (c d : Code) : Prop := ¬ c <+: d ∧ ¬ d <+: c

/-- The set of present codes is prefix-free (R154 (c)): codes of distinct Symbols are apart. -/
def CodeTable.PrefixFree (t : CodeTable) : Prop :=
  ∀ y z c d, t.codeOf y = some c → t.codeOf z = some d → y ≠ z → Apart c d

/-- The mapping from present symbols to codes is injective (R154 (d)). -/
def CodeTable.Injective (t : CodeTable) : Prop :=
  ∀ y z c, t.codeOf y = some c → t.codeOf z = some c → y = z

/-- The codes of a byte sequence one after another: the bit sequence `B` of R106. -/
def CodeTable.bitsOf (t : CodeTable) (x : List Byte) : Code := x.flatMap fun b => (t.codeOf b).getD []

/-- Every byte of the sequence has a code. -/
def CodeTable.Covers (t : CodeTable) (x : List Byte) : Prop := ∀ b ∈ x, (t.codeOf b).isSome = true

/-- The decoder resolves exactly the codes of the table (R167 (a)). -/
def Decoder.BuiltFrom (d : Decoder) (t : CodeTable) : Prop :=
  d.maxlen = t.maxlen ∧ ∀ c y, d.resolve c = some y ↔ t.codeOf y = some c

/-! ## Reading a path field -/

/-- The bits of a TOKEN path field (R102), or `none` where a byte is neither token. -/
def tokenBits (p : Params) : List Byte → Option Code
  | [] => some []
  | b :: bs =>
    if b = p.token0 then (tokenBits p bs).map fun c => false :: c
    else if b = p.token1 then (tokenBits p bs).map fun c => true :: c
    else none

/-- `ReadPath(L)` on the bytes of its field (R183). -/
def readPath (p : Params) (raw : Bool) (l : Nat) (field : List Byte) : Option Code :=
  if raw then some ((unpackBytes p.bitOrder field).take l) else tokenBits p field

/-- A record as it may stand in INQ (R101): the Symbol, its Code, and the bytes of the path field. In RAW the pad bits
may have any value (R103). -/
structure DictRecord where
  sym : Byte
  code : Code
  field : List Byte
  deriving DecidableEq, Repr

/-- The record is one: a length of 1..255, and a path field that has the size of that length and reads as the code. -/
def DictRecord.wf (p : Params) (raw : Bool) (r : DictRecord) : Prop :=
  1 ≤ r.code.length ∧ r.code.length ≤ 255 ∧ r.field.length = pathBytes raw r.code.length ∧
    readPath p raw r.code.length r.field = some r.code

/-- The bytes of the record. -/
def DictRecord.bytes (r : DictRecord) : List Byte := BitVec.ofNat 8 r.code.length :: r.field ++ [r.sym]

/-- The bytes of a dictionary section (R100, R105). -/
def sectionBytes (rs : List DictRecord) : List Byte := rs.flatMap DictRecord.bytes ++ [0]

/-! ## The bit-level decoder (R212) -/

/-- What decoding a bit sequence gives: the bytes emitted, the bits taken, and the fault that ended it, if one did. -/
structure Decoded where
  out : List Byte
  taken : Nat
  fault : Option (Err × Nat)
  deriving DecidableEq, Repr

/-- One more bit was taken before. -/
def Decoded.bit (d : Decoded) : Decoded := { d with taken := d.taken + 1 }

/-- A byte was emitted before. -/
def Decoded.emit (y : Byte) (d : Decoded) : Decoded := { d with out := y :: d.out }

/-- `Step` for each bit of a sequence, then `Finish` (R211), from the candidate `cand`. -/
def decodeFrom (d : Decoder) (strict : Bool) : Code → Code → Decoded
  | cand, [] =>
    { out := [], taken := 0, fault := if strict && !cand.isEmpty then some (.truncBody, cand.length) else none }
  | cand, x :: xs =>
    match d.resolve (cand ++ [x]) with
    | some y => ((decodeFrom d strict [] xs).emit y).bit
    | none =>
      if strict && decide (d.maxlen.toNat ≤ (cand ++ [x]).length) then
        { out := [], taken := 1, fault := some (.noCode, (cand ++ [x]).length) }
      else (decodeFrom d strict (cand ++ [x]) xs).bit

/-- `DecodeBits(S)` (R212). -/
def decodeAll (d : Decoder) (strict : Bool) (bits : Code) : Decoded := decodeFrom d strict [] bits

/-- How many of `m` payload bytes are taken: up to the byte whose bit raised E_NOCODE, else all of them. -/
def Decoded.bytes (m : Nat) (r : Decoded) : Nat :=
  match r.fault with
  | some (.noCode, _) => ceil8 r.taken
  | _ => m

/-- What decoding a body gives: the bytes emitted, the body bytes taken, and the fault that ended it, if one did. -/
structure Body where
  out : List Byte
  used : Nat
  fault : Option (Err × Nat)
  deriving DecidableEq, Repr

/-- A simple body (R213, R214): its bit source is the `8n - TAIL_DISCARD` first bits. -/
def decodeSimple (o : BitOrder) (d : Decoder) (strict : Bool) (tail : Nat) (y : List Byte) : Body :=
  let r := decodeAll d strict ((unpackBytes o y).take (8 * y.length - tail))
  { out := r.out, used := r.bytes y.length, fault := r.fault }

/-- A fault of what stands `n` bytes into a command's input: the offset of E_BADTRAIL counts from the start of the
command's input (R251). -/
def faultAt (n : Nat) : Err × Nat → Err × Nat
  | (.badTrail, k) => (.badTrail, n + k)
  | f => f

/-- A body behind a chunk of `n` bytes that emitted `out`. -/
def Body.behind (out : List Byte) (n : Nat) (b : Body) : Body where
  out := out ++ b.out
  used := n + b.used
  fault := b.fault.map (faultAt n)

/-- A chunked body (R108, R213): a chunk is a count byte and `min(CHUNK_BYTES, rest)` payload bytes. Each chunk takes a
byte, so the body's length is enough for the first argument. -/
def decodeChunks (o : BitOrder) (d : Decoder) (strict : Bool) (chunkBytes : Nat) : Nat → List Byte → Body
  | 0, _ => { out := [], used := 0, fault := none }
  | _ + 1, [] => { out := [], used := 0, fault := none }
  | k + 1, t :: y =>
    let m := min chunkBytes y.length
    if 8 * m < t.toNat then { out := [], used := 1, fault := some (.badTrail, 0) }
    else
      let r := decodeAll d strict ((unpackBytes o (y.take m)).take (8 * m - t.toNat))
      match r.fault with
      | some f => { out := r.out, used := 1 + r.bytes m, fault := some f }
      | none => (decodeChunks o d strict chunkBytes k (y.drop m)).behind r.out (1 + m)

/-- "decoding each chunk in isolation (given the shared dictionary)" (R219): each of the chunks `Ks` is decoded as a body
of its own, and the outputs stand one after another. -/
def decodeIsolated (o : BitOrder) (d : Decoder) (strict : Bool) (chunkBytes : Nat) (Ks : List (List Byte)) : List Byte :=
  Ks.flatMap fun K => (decodeChunks o d strict chunkBytes K.length K).out

/-! ## Bodies -/

/-- A chunk (R107): its code bits, its pad bits, and the number of bytes of its payload. -/
structure Chunk where
  bits : Code
  pad : Code
  bytes : Nat
  deriving DecidableEq, Repr

/-- The code bits and the pad bits fill the payload. -/
def Chunk.wf (k : Chunk) : Prop := k.bits.length + k.pad.length = 8 * k.bytes

/-- The bytes of a chunk (R107): the trailing-bit count, then the payload. -/
def Chunk.render (o : BitOrder) (k : Chunk) : List Byte :=
  BitVec.ofNat 8 k.pad.length :: packBytes o k.bytes (k.bits ++ k.pad)

/-- How ENCODE lays codes into chunks of `cap` bits (R203, R206): the open chunk is closed before a code that would
overflow it. -/
def chunked (cap : Nat) : Code → List Code → List Code
  | cur, [] => if cur = [] then [] else [cur]
  | cur, c :: cs =>
    if cap < cur.length + c.length then cur :: chunked cap c cs else chunked cap (cur ++ c) cs

/-- The payload sizes of R107: CHUNK_BYTES for every chunk but the last, and as few bytes as hold the bits for the
last. -/
def payloadSizes (chunkBytes : Nat) : List Code → List Nat
  | [] => []
  | [c] => [ceil8 c.length]
  | _ :: c :: cs => chunkBytes :: payloadSizes chunkBytes (c :: cs)

/-- The codes of a byte sequence, one by one. -/
def CodeTable.codesOf (t : CodeTable) (x : List Byte) : List Code := x.map fun b => (t.codeOf b).getD []

/-- The chunks of a body: what they hold, and how they look in OUTQ. -/
structure ChunkRun (cap bytes : Nat) (cur : Code) (codes : List Code) (ks : List Chunk) : Prop where
  bits : ks.map Chunk.bits = chunked cap cur codes
  sizes : ks.map Chunk.bytes = payloadSizes bytes (chunked cap cur codes)
  wf : ∀ k ∈ ks, k.wf

/-- The trailing-bit count of the last chunk, `t` if there is none (R207). -/
def lastTrail (t : Nat) (ks : List Chunk) : Nat := (ks.getLast?.map fun k => k.pad.length).getD t

/-- The bytes of chunks (R107). -/
def renderAll (o : BitOrder) (ks : List Chunk) : List Byte := ks.flatMap (Chunk.render o)

/-! ## Commands one after another -/

/-- `i`, then `k` on the state it answers. -/
def thenDo (o : Host.Outcome State Fault Refusal) (k : State → Host.Outcome State Fault Refusal) :
    Host.Outcome State Fault Refusal :=
  match o with
  | .next s => k s
  | .fault r => .fault r
  | .refused r => .refused r

/-- BUILD_TREE n (R236). -/
def buildTree (n : Nat) (s : State) : Host.Outcome State Fault Refusal := thenDo (exec (.count n) s) fun s => exec .merge s

/-- COMPRESS n (R237). -/
def compress (n : Nat) (s : State) : Host.Outcome State Fault Refusal :=
  thenDo (exec (.count n) s) fun s =>
    thenDo (exec .merge s) fun s =>
      thenDo (exec .getCodes s) fun s =>
        thenDo (exec .writeDict s) fun s => exec (.encode n) s

/-- DECOMPRESS n (R238): "host reads CONSUMED = d after READ_DICT". -/
def decompress (n : Nat) (s : State) : Host.Outcome State Fault Refusal :=
  thenDo (exec (.readDict n) s) fun s =>
    thenDo (exec .buildDecoder s) fun t => exec (.decode (n - s.consumedReg.toNat)) t

/-! ## How a command ends -/

/-- `s` after the command `i` ended without a fault (R130 (5)): the word is in CMD, the byte counts in CONSUMED and
PRODUCED, PHASE is IDLE; `w` is what its working registers last held. Nothing else is changed. -/
def State.ended (i : Instr) (consumed produced : Nat) (w : Work) (s : State) : State :=
  { s with
    phase := .idle
    cmd := encode i
    consumedReg := BitVec.ofNat 64 consumed
    producedReg := BitVec.ofNat 64 produced
    work := w }

/-- `s` after the command `i` ended by a recoverable fault (R262): beside that, ERRCODE and ERRINFO hold the fault, and
PHASE is FAULT. Nothing else is changed. -/
def State.faulted (i : Instr) (code : BitVec 8) (info : Word64) (consumed produced : Nat) (w : Work) (s : State) : State :=
  { s with
    phase := .fault
    cmd := encode i
    errcode := code
    errinfo := info
    consumedReg := BitVec.ofNat 64 consumed
    producedReg := BitVec.ofNat 64 produced
    work := w }

/-- The machine waits for a command with no fault recorded (R23, R28). -/
abbrev State.Waiting (s : State) : Prop := s.phase = .idle ∧ s.errcode = 0

/-! ## Runs (R14) -/

/-- `n` steps, one after another. -/
def runSteps : Nat → State → Host.Outcome State Fault Refusal
  | 0, s => .next s
  | n + 1, s => thenDo (step s) (runSteps n)

/-- `s` with a host that does `acts`. -/
def State.hosting (acts : List HostAct) (s : State) : State := { s with script := acts }

/-- The run has ended: "PHASE is IDLE, FAULT or FATAL and the command port has no word pending". A word further back in
the script is still to be offered: the run ends "when the last command of the sequence has completed". -/
def State.RunEnded (s : State) : Prop := s.phase.isBusy = false ∧ ∀ w, HostAct.command w ∉ s.script

/-- "The run ended *successfully* only if PHASE = IDLE and ERRCODE = 0." -/
def State.RunSucceeded (s : State) : Prop := s.RunEnded ∧ s.Waiting

/-- "the sequence of all bytes ever appended to OUTQ, in order": those the host has popped, then those it has not. -/
def State.yield (s : State) : List Byte := s.received ++ s.outq

/-- Where a run begins: the reset state with a host that does `acts`. TIEBREAK and the pad draws may differ from run to
run (R132, R204, R302), so their counters begin at numbers of the run's own, `ties` and `draws` (log entries 5 and 6). -/
def runStart (acts : List HostAct) (ties draws : Nat) : State :=
  { State.reset.hosting acts with ties := ties, draws := draws }

/-- `t` ends the run in which the host does `acts` from the reset state, with the choices and draws that the counters
`ties` and `draws` stand for. A reset begins another run, so `acts` has none. -/
structure Run (acts : List HostAct) (ties draws : Nat) (t : State) : Prop where
  noReset : HostAct.reset ∉ acts
  reached : ∃ n, runSteps n (runStart acts ties draws) = .next t
  ended : t.RunEnded

/-! ## The invariant of the data model -/

/-- Every memory has its canonical form, with its addresses in the range R69 gives. -/
def State.MemoriesOk (s : State) : Prop :=
  s.freqs.freq.wf 0 255 (some 0) = true ∧ s.codes.code.wf 0 255 none = true ∧
    s.dec.arr.cells.wf 1 arrMax (some s.dec.arr.fill) = true

/-- R28: "ERRCODE ≠ 0 exactly when PHASE is FAULT or FATAL". (A step never ends inside CLEAR.) -/
def State.ErrOk (s : State) : Prop := s.errcode ≠ 0 ↔ s.phase = .fault ∨ s.phase = .fatal

/-- R52 (b). -/
def TreeArena.Ok (a : TreeArena) : Prop := a.valid = true → ∃ T, a.Holds T

/-- R52 (c), (d): every code that is present has a length of 1..255; NSYM and MAXLEN are what R35 says. -/
def CodeTable.Ok (t : CodeTable) : Prop :=
  (∀ y c, t.codeOf y = some c → 1 ≤ c.length ∧ c.length ≤ 255) ∧
    (t.valid = true → t.nsym.toNat = (presentCodes t.code).length ∧ t.maxlen.toNat = maxLength (presentCodes t.code))

/-- R52 (e), with R161 and R165: DEPTH is min(13, DEC_MAXLEN); every ARR word in use that is not the sentinel is a Symbol
and none is stored above the size in use; OVF has NOVF entries, each longer than DEPTH and no longer than DEC_MAXLEN,
no two with the same Code; SENTINEL is the symbol of none. -/
structure Decoder.Shape (d : Decoder) : Prop where
  depth : d.depth = depthFor d.maxlen
  fill : d.arr.fill = d.sentinel
  cells : ∀ i v, d.arr.cells.get? i = some v → i ≤ slotsOf d.depth ∧ v.toNat ≤ 255
  novf : d.novf.toNat = d.ovf.length
  longer : ∀ e ∈ d.ovf, d.depth.val < e.code.length ∧ e.code.length ≤ d.maxlen.toNat
  sentinel : ∀ e ∈ d.ovf, e.sym.zeroExtend 9 ≠ d.sentinel
  distinct : (d.ovf.map OvfEntry.code).Nodup

/-- R52 (e). -/
def Decoder.Ok (d : Decoder) : Prop := d.valid = true → d.Shape

/-- R52 (a). -/
def FreqTable.Ok (f : FreqTable) : Prop := f.valid = true → f.sum = f.total.toNat

/-- What is true while a command holds on an empty INQ (R62, R277): which command it is, its valid flag (R24), that LEN
is not used up, and the bounds R21 gives the registers it owns. -/
def State.HeldOk (s : State) : Prop :=
  match s.phase with
  | .busy .running => False
  | .busy .counting =>
    opOf s.cmd = 0x10 ∧ s.freqs.valid = false ∧ s.freqs.sum = s.work.consumed.toNat ∧ s.work.consumed.toNat < s.len.toNat
  | .busy .dictLength => opOf s.cmd = 0x31 ∧ s.codes.valid = false ∧ s.work.consumed.toNat < s.len.toNat
  | .busy (.dictPath l got) =>
    opOf s.cmd = 0x31 ∧ s.codes.valid = false ∧ s.work.consumed.toNat < s.len.toNat ∧ got.length < l.toNat
  | .busy (.dictSymbol c) =>
    opOf s.cmd = 0x31 ∧ s.codes.valid = false ∧ s.work.consumed.toNat < s.len.toNat ∧ 1 ≤ c.length ∧ c.length ≤ 255
  | .busy .lookupLength => opOf s.cmd = 0x21 ∧ s.dec.valid = true ∧ s.work.cand = []
  | .busy (.lookupPath l) => opOf s.cmd = 0x21 ∧ s.dec.valid = true ∧ s.work.cand.length < l.toNat
  | .busy (.encoding t) =>
    opOf s.cmd = 0x32 ∧ s.codes.valid = true ∧ s.work.consumed.toNat < s.len.toNat ∧ t ≤ 254 ∧
      s.work.acc.length ≤ 7 ∧ s.work.chunk.length ≤ s.chunkBits
  | .busy .decoding =>
    opOf s.cmd = 0x33 ∧ s.dec.valid = true ∧ s.bodyChunked = false ∧ s.work.consumed.toNat < s.len.toNat
  | .busy .chunkTrail =>
    opOf s.cmd = 0x33 ∧ s.dec.valid = true ∧ s.bodyChunked = true ∧ s.work.consumed.toNat < s.len.toNat
  | .busy (.chunkPayload bytes bits) =>
    opOf s.cmd = 0x33 ∧ s.dec.valid = true ∧ s.bodyChunked = true ∧ 1 ≤ bytes ∧ bits ≤ 8 * bytes ∧
      s.work.consumed.toNat + bytes ≤ s.len.toNat
  | _ => True

/-- The invariant of the machine: what the spec says of every state. -/
structure State.Inv (s : State) : Prop where
  params : s.params.wf
  memories : s.MemoriesOk
  err : s.ErrOk
  notFatal : s.phase ≠ .fatal
  freqs : s.freqs.Ok
  tree : s.tree.Ok
  codes : s.codes.Ok
  dec : s.dec.Ok
  held : s.HeldOk

end Sys2Proof.Machine
end

