-- ==== Sys2Proof/Certificates/Slice0/Obligations.lean ====
section
/-!
DEFINITION. The statements for the provers. In each, a record update of `s` says the frame: what it does not name is
unchanged. `s.ended i c p w` and `s.faulted i code info c p w` (Safety.lean) are `s` after a command that ended without
or by a fault; `w` stands for the working registers, which hold no meaning outside a command (R21).
-/

open Sys2Proof Sys2Proof.Config Sys2Proof.Machine

/-! ## The command word -/

/-- No bit of a command is dropped: decoding an encoded command gives the command back, with every operand (R90 to
R93). -/
def Obligations.EncodedCommandDecodesBack : Prop :=
  ∀ i : Instr, WellFormed i → decode (encode i) = .ok i

/-- Each word that is a command is the command's one encoding, and LEN fits its field (R90, R92). -/
def Obligations.DecodedWordIsTheEncoding : Prop :=
  ∀ (w : CmdWord) (i : Instr), decode w = .ok i → WellFormed i ∧ encode i = w

/-- R94: the decoder and the opcode table agree. A word that decodes selects exactly one row, its command's; a word that
does not decode selects none. -/
def Obligations.DecoderAgreesWithOpcodeTable : Prop :=
  ∀ w : CmdWord,
    (∀ i, decode w = .ok i → (opcodeTable.filter fun r => r.selects w).map OpcodeRow.mnemonic = [i.mnemonic]) ∧
      (∀ e, decode w = .error e → (opcodeTable.filter fun r => r.selects w) = [])

/-- R95: which words are illegal, and what one does in IDLE and in FAULT. A SET_CFG word with `arg[63:6] ≠ 0` is none of
them: it is SET_CFG, and raises E_BADCFG. -/
def Obligations.IllegalWordsRaiseIllcmd : Prop :=
  ∀ w : CmdWord,
    ((∃ e, decode w = .error e) ↔
      opOf w ∉ [0x01#8, 0x02, 0x10, 0x11, 0x12, 0x20, 0x21, 0x30, 0x31, 0x32, 0x33] ∨
        (opOf w ∈ [0x01#8, 0x11, 0x12, 0x20, 0x21, 0x30] ∧ argOf w ≠ 0)) ∧
      (∀ e, decode w = .error e →
        (∀ s : State, s.Waiting → ∃ v : Work, issue w s = .next
          { s with phase := .fault, cmd := w, errcode := 0x40, errinfo := (opOf w).zeroExtend 64, consumedReg := 0,
                   producedReg := 0, work := v }) ∧
        (∀ s : State, s.phase = .fault → issue w s = .next s)) ∧
      (opOf w = 0x02 → (argOf w).extractLsb' 6 58 ≠ 0 → decode w = .ok (.setCfg (argOf w)) ∧
        ∀ s : State, s.Waiting → ∃ v : Work, issue w s = .next (s.faulted (.setCfg (argOf w)) 0x42 (argOf w) 0 0 v))

/-- Words written out from R93 decode to the commands they stand for, and an all-zero word to none. -/
def Obligations.SampleWordsDecode : Prop :=
  decode 0x010000000000000000 = .ok .clear ∧
    decode 0x02000000000000003F = .ok (.setCfg 0x3F) ∧
    decode 0x100000000000000004 = .ok (.count 4) ∧
    decode 0x110000000000000000 = .ok .merge ∧
    decode 0x120000000000000000 = .ok .getCodes ∧
    decode 0x200000000000000000 = .ok .buildDecoder ∧
    decode 0x210000000000000000 = .ok .resolve ∧
    decode 0x300000000000000000 = .ok .writeDict ∧
    decode 0x31FFFFFFFFFFFFFFFF = .ok (.readDict (2 ^ 64 - 1)) ∧
    decode 0x32000000000000000F = .ok (.encode 15) ∧
    decode 0x330000000100000000 = .ok (.decode (2 ^ 32)) ∧
    decode 0 = .error (.unknownOpcode 0)

/-! ## Steps, ports, reset -/

/-- A step runs the decoded command: where the core does not go on with a held command and its command port is ready,
a word that the host offers is the command it decodes to, executed at that state without the word (R61, R94, R130). That
the core moves before the host, and what the host's script is, are the model's choices (log entries 1 to 3). -/
def Obligations.StepRunsDecodedCommand : Prop :=
  ∀ (s : State) (w : CmdWord) (rest : List HostAct) (i : Instr), s.coreMoves = false → s.portReady = true →
    s.script = .command w :: rest → decode w = .ok i → step s = exec i { s with script := rest }

/-- R61: the port is ready exactly in IDLE and FAULT; a word offered in BUSY or FATAL waits; an accepted word is latched
(in IDLE). That the core moves before the host is the model's choice (log entry 2). -/
def Obligations.CommandPortReadiness : Prop :=
  ∀ s : State,
    (s.portReady = true ↔ s.phase = .idle ∨ s.phase = .fault) ∧
      (∀ w rest, s.portReady = false → s.coreMoves = false → s.script = .command w :: rest → step s = .next s) ∧
      (∀ w t, s.phase = .idle → issue w s = .next t → t.cmd = w)

/-- Bytes that come while a command holds are taken as if they had been there when it was accepted, and bytes it does
not need stay behind what it left (R12, R62, R292). The atomic run with a hold in it is the model's reading of R12 (log
entry 1); the two executions compared are with the same choices and pad draws, whatever these are (log entries 5 and 6). -/
def Obligations.LateBytesMakeNoDifference : Prop :=
  ∀ (i : Instr) (s t : State) (b : List Byte), i ≠ .clear → s.phase = .idle → exec i s = .next t →
    (t.awaiting = true → t.inq = [] ∧ exec i { s with inq := s.inq ++ b } = .next (resume { t with inq := b })) ∧
      (t.awaiting = false → exec i { s with inq := s.inq ++ b } = .next { t with inq := t.inq ++ b })

/-- R293: a command that holds on an empty INQ keeps all state, whatever the host does other than push a byte or assert
reset: it can pop OUTQ, and no word it offers is accepted. How the two agents take turns is the model's choice (log
entry 2). -/
def Obligations.HeldCommandKeepsItsState : Prop :=
  ∀ s t : State, s.awaiting = true → s.inq = [] → step s = .next t →
    (∀ b rest, s.script ≠ .push b :: rest) → (∀ rest, s.script ≠ .reset :: rest) →
    ∃ (l : List HostAct) (q got : List Byte), t = { s with script := l, outq := q, received := s.received ++ got } ∧
      s.outq = got ++ q ∧ (got = [] ∨ s.script = .pop :: l ∧ got.length = 1)

/-- The IN and OUT ports (R62, R63): a push appends to the tail of INQ, a pop removes the head of OUTQ, in any phase,
when it is the host's turn (the model's order of the two agents: log entry 2). `received`, the model's own, says what the
host has popped (log entry 18). -/
def Obligations.HostPushesAndPops : Prop :=
  ∀ s : State, s.coreMoves = false →
    (∀ b rest, s.script = .push b :: rest → step s = .next { s with script := rest, inq := s.inq ++ [b] }) ∧
      (∀ b q rest, s.script = .pop :: rest → s.outq = b :: q → step s =
        .next { s with script := rest, outq := q, received := s.received ++ [b] })

/-- R50: the state after reset. Every register it gives a value has that value, both queues are empty, and the core waits
in IDLE for the first command. -/
def Obligations.ResetStateHasTheResetValues : Prop :=
  State.reset.phase = .idle ∧ State.reset.freqs.valid = false ∧ State.reset.tree.valid = false ∧
    State.reset.codes.valid = false ∧ State.reset.dec.valid = false ∧ State.reset.cfg = 0 ∧
    (∀ r, State.reset.statusPort r = 0) ∧ State.reset.inq = [] ∧ State.reset.outq = [] ∧
    State.reset.portReady = true ∧ step State.reset = .next State.reset

/-- Hardware reset from any phase in which it is the host's turn (R280): IDLE, every status register 0, both queues
empty, the parameters kept. Whose turn it is, is the model's choice (log entry 2). -/
def Obligations.ResetInputGivesTheResetState : Prop :=
  ∀ (s : State) (rest : List HostAct), s.coreMoves = false → s.script = .reset :: rest →
      ∃ t, step s = .next t ∧ t.phase = .idle ∧ (∀ r, t.statusPort r = 0) ∧ t.inq = [] ∧ t.outq = [] ∧
        t.script = rest ∧ t.params = s.params

/-- The status port: the fields of STATUS (R27), and which register each number 1 to 16 shows, zero-extended (the map of
R26). -/
def Obligations.StatusPortShowsTheRegisters : Prop :=
  ∀ s : State,
    (s.statusPort 0).extractLsb' 0 2 = s.phase.code ∧ (s.statusPort 0).getLsbD 2 = s.freqs.valid ∧
      (s.statusPort 0).getLsbD 3 = s.tree.valid ∧ (s.statusPort 0).getLsbD 4 = s.codes.valid ∧
      (s.statusPort 0).getLsbD 5 = s.dec.valid ∧ (∀ k, 6 ≤ k → (s.statusPort 0).getLsbD k = false) ∧
      State.reset.statusPort 0 = 0 ∧
      Phase.idle.code = 0 ∧ (∀ p, (Phase.busy p).code = 1) ∧ Phase.fault.code = 2 ∧ Phase.fatal.code = 3 ∧
      s.statusPort 1 = s.errcode.zeroExtend 64 ∧ s.statusPort 2 = s.errinfo ∧ s.statusPort 3 = s.cfg.zeroExtend 64 ∧
      s.statusPort 4 = s.consumedReg ∧ s.statusPort 5 = s.producedReg ∧ s.statusPort 6 = s.freqs.total ∧
      s.statusPort 7 = s.tree.nnodes.zeroExtend 64 ∧ s.statusPort 8 = s.tree.root.zeroExtend 64 ∧
      s.statusPort 9 = s.codes.nsym.zeroExtend 64 ∧ s.statusPort 10 = s.codes.maxlen.zeroExtend 64 ∧
      (s.statusPort 11).toNat = s.dec.depth.val ∧ s.statusPort 12 = s.dec.sentinel.zeroExtend 64 ∧
      s.statusPort 13 = s.dec.novf.zeroExtend 64 ∧ s.statusPort 14 = s.dec.maxlen.zeroExtend 64 ∧
      s.statusPort 15 = s.encTrail.zeroExtend 64 ∧ s.statusPort 16 = s.result.zeroExtend 64

/-- R39: a reserved register number reads 0, and a read of any number changes nothing. -/
def Obligations.ReservedRegistersReadZero : Prop :=
  ∀ s : State,
    (∀ r : Byte, 17 ≤ r.toNat → s.statusPort r = 0) ∧
      (∀ r rest, s.coreMoves = false → s.script = .read r :: rest → step s = .next { s with script := rest })

/-! ## System commands and faults -/

/-- R231: CLEAR in IDLE and in FAULT. Every register has its reset value but CFG; INQ is emptied; OUTQ is kept. -/
def Obligations.ClearResetsAllButCfgAndOutq : Prop :=
  ∀ s : State, s.phase = .idle ∨ s.phase = .fault →
    ∃ t, exec .clear s = .next t ∧ t.phase = .idle ∧ (∀ r, r ≠ 3 → t.statusPort r = 0) ∧ t.cfg = s.cfg ∧ t.inq = [] ∧
      t.outq = s.outq ∧ t.params = s.params ∧ t.script = s.script

/-- R232: SET_CFG. All 64 values of the low six bits are legal; another operand raises E_BADCFG. -/
def Obligations.SetCfgWritesCfgOrFaults : Prop :=
  ∀ (s : State) (v : Word64), s.Waiting →
    (v.extractLsb' 6 58 = 0 → ∃ (t : State) (w : Work), exec (.setCfg v) s = .next t ∧
      t = { s.ended (.setCfg v) 0 0 w with cfg := v.extractLsb' 0 6 } ∧
      t.dictRaw = v.getLsbD 0 ∧ t.bodyChunked = v.getLsbD 1 ∧ t.strict = v.getLsbD 2 ∧
      t.tailDiscard = (v.extractLsb' 3 3).toNat) ∧
    (v.extractLsb' 6 58 ≠ 0 → ∃ w : Work, exec (.setCfg v) s = .next (s.faulted (.setCfg v) 0x42 v 0 0 w))

/-- R258: the prerequisite of every command. Where it does not hold the command raises E_SEQ with its opcode and touches
nothing else; CLEAR, SET_CFG, COUNT and READ_DICT require nothing. -/
def Obligations.UnmetPrerequisiteRaisesSeq : Prop :=
  ∀ s : State, s.Waiting →
    (s.freqs.valid = false → ∃ w : Work, exec .merge s = .next (s.faulted .merge 0x41 0x11 0 0 w)) ∧
    (s.tree.valid = false → ∃ w : Work, exec .getCodes s = .next (s.faulted .getCodes 0x41 0x12 0 0 w)) ∧
    (s.codes.valid = false → ∃ w : Work, exec .buildDecoder s = .next (s.faulted .buildDecoder 0x41 0x20 0 0 w)) ∧
    (s.dec.valid = false → ∃ w : Work, exec .resolve s = .next (s.faulted .resolve 0x41 0x21 0 0 w)) ∧
    (s.codes.valid = false → ∃ w : Work, exec .writeDict s = .next (s.faulted .writeDict 0x41 0x30 0 0 w)) ∧
    (s.codes.valid = false → ∀ n, ∃ w : Work, exec (.encode n) s = .next (s.faulted (.encode n) 0x41 0x32 0 0 w)) ∧
    (s.dec.valid = false → ∀ n, ∃ w : Work, exec (.decode n) s = .next (s.faulted (.decode n) 0x41 0x33 0 0 w)) ∧
    (∀ i t, i = .clear ∨ (∃ v, i = .setCfg v) ∨ (∃ n, i = .count n) ∨ (∃ n, i = .readDict n) → exec i s = .next t →
      t.errcode ≠ 0x41)

/-- R265: in FAULT every word but a well-formed CLEAR is discarded; no state changes at all. -/
def Obligations.FaultDiscardsAllButClear : Prop :=
  ∀ (s : State) (w : CmdWord), s.phase = .fault → w ≠ 0x010000000000000000 → s.portReady = true ∧ issue w s = .next s

/-- The first fault is kept: once ERRCODE holds a fault, no step changes it or ERRINFO but one that runs CLEAR or a reset,
and that one sets both to 0 (R28, R29, R265, R266). -/
def Obligations.FirstFaultIsKept : Prop :=
  ∀ s t : State, s.phase = .fault ∨ s.phase = .fatal → step s = .next t →
    (t.phase = s.phase ∧ t.errcode = s.errcode ∧ t.errinfo = s.errinfo) ∨
      (t.phase = .idle ∧ t.errcode = 0 ∧ t.errinfo = 0 ∧
        ((s.phase = .fault ∧ ∃ rest, s.script = .command 0x010000000000000000 :: rest) ∨
          ∃ rest, s.script = .reset :: rest))

/-- The codes of R251. -/
def Obligations.FaultCodes : Prop :=
  Err.empty.code = 0x10 ∧ Err.noSym.code = 0x11 ∧ Err.truncDict.code = 0x20 ∧ Err.badToken.code = 0x21 ∧
    Err.dupSym.code = 0x22 ∧ Err.zeroLen.code = 0x23 ∧ Err.badTrail.code = 0x24 ∧ Err.truncBody.code = 0x25 ∧
    Err.noCode.code = 0x26 ∧ Err.dupCode.code = 0x27 ∧ Err.codeLen.code = 0x30 ∧ Err.bounds.code = 0x31 ∧
    Err.illCmd.code = 0x40 ∧ Err.seq.code = 0x41 ∧ Err.badCfg.code = 0x42

/-! ## The tree builder -/

/-- R131: COUNT n. -/
def Obligations.CountCountsEveryByte : Prop :=
  ∀ (s : State) (x rest : List Byte), s.phase = .idle → x.length < 2 ^ 64 → s.inq = x ++ rest →
    ∃ (f : FreqTable) (w : Work), exec (.count x.length) s =
        .next { s.ended (.count x.length) x.length 0 w with freqs := f, inq := rest } ∧
      f.valid = true ∧ f.total.toNat = x.length ∧ (∀ y : Byte, (f.freqOf y.toNat).toNat = x.count y) ∧
      f.sum = f.total.toNat

/-- COUNT with fewer bytes than LEN holds with all of them taken and FREQ_VALID at 0 (R62, R293). -/
def Obligations.CountHoldsWhenStarved : Prop :=
  ∀ (s : State) (n : Nat), s.phase = .idle → n < 2 ^ 64 → s.inq.length < n →
    ∃ (f : FreqTable) (w : Work), exec (.count n) s = .next
        { s with phase := .busy .counting, cmd := encode (.count n), freqs := f, inq := [], work := w } ∧
      f.valid = false ∧ w.consumed.toNat = s.inq.length ∧ ∀ y : Byte, (f.freqOf y.toNat).toNat = s.inq.count y

/-- R133: MERGE on a table with a present Symbol, whatever TIEBREAK picks: the tree, its numbering, and at every branch
the two nodes of least frequency then in the queue. The table's sum is TOTAL (R52 (a)), so nothing wraps (R137). -/
def Obligations.MergeBuildsTheTree : Prop :=
  ∀ s : State, s.phase = .idle → s.freqs.valid = true → s.freqs.Ok → (∃ y : Byte, s.freqs.freqOf y.toNat ≠ 0) →
    ∃ (a : TreeArena) (w : Work) (n : Nat) (T : HTree),
      exec .merge s = .next { s.ended .merge 0 0 w with tree := a, ties := n } ∧ MergedTree s.freqs a T ∧
        T.freq = s.freqs.total

/-- MERGE on a table with no present Symbol raises E_EMPTY; TREE_VALID stays 0, NNODES is 0 and ROOT is what it was (R133,
R262). -/
def Obligations.MergeOfNothingRaisesEmpty : Prop :=
  ∀ s : State, s.Waiting → s.freqs.valid = true → (∀ y : Byte, s.freqs.freqOf y.toNat = 0) →
    ∃ (a : TreeArena) (w : Work), exec .merge s = .next { s.faulted .merge 0x10 0 0 0 w with tree := a } ∧
      a.valid = false ∧ a.nnodes = 0 ∧ a.root = s.tree.root

/-- R134: an alphabet of size 1. -/
def Obligations.MergeOfOneSymbolIsItsLeaf : Prop :=
  ∀ (s : State) (y : Byte), s.phase = .idle → s.freqs.valid = true →
    (∀ z : Byte, s.freqs.freqOf z.toNat ≠ 0 ↔ z = y) →
    ∃ (a : TreeArena) (w : Work) (n : Nat),
      exec .merge s = .next { s.ended .merge 0 0 w with tree := a, ties := n } ∧ a.valid = true ∧
      a.node = [.leaf y (s.freqs.freqOf y.toNat)] ∧ a.nnodes = 1 ∧ a.root = 0

/-! ## The code extractor -/

/-- R152: GET_CODES writes the codes of the tree `T` that NODE holds: to each leaf's Symbol the edges from the root
(R151), or the code `0` where the root is a leaf (R153). -/
def Obligations.GetCodesWritesThePaths : Prop :=
  ∀ (s : State) (T : HTree), s.phase = .idle → s.tree.valid = true → s.tree.Holds T →
    ∃ (c : CodeTable) (w : Work), exec .getCodes s = .next { s.ended .getCodes 0 0 w with codes := c } ∧ c.valid = true ∧
      (∀ y p, c.codeOf y = some p ↔ (y, p) ∈ T.table) ∧ c.nsym.toNat = T.leaves.length ∧
      2 * c.nsym.toNat = s.tree.nnodes.toNat + 1 ∧ c.maxlen.toNat = (T.table.map fun e => e.2.length).foldr max 0

/-- The table GET_CODES writes (R154 (a) to (e)): present Symbols are the leaves; lengths are 1..255; the codes are
prefix-free and the mapping injective; with two Symbols or more every infinite bit sequence has exactly one present code
as a prefix, and with one Symbol none that begins with 1 has. -/
def Obligations.ExtractedCodesArePrefixFreeAndComplete : Prop :=
  ∀ (s t : State) (T : HTree), s.phase = .idle → s.tree.valid = true → s.tree.Holds T → exec .getCodes s = .next t →
    (∀ y, (t.codes.codeOf y).isSome = true ↔ y ∈ T.leaves.map Prod.fst) ∧
      (∀ y c, t.codes.codeOf y = some c → 1 ≤ c.length ∧ c.length ≤ 255) ∧
      t.codes.PrefixFree ∧ t.codes.Injective ∧
      (2 ≤ t.codes.nsym.toNat → ∀ f : Nat → Bool, ∃ y c, t.codes.codeOf y = some c ∧ c = (List.range c.length).map f ∧
        ∀ z d, t.codes.codeOf z = some d → d = (List.range d.length).map f → z = y) ∧
      (t.codes.nsym.toNat = 1 → ∀ f : Nat → Bool, f 0 = true →
        ∀ y c, t.codes.codeOf y = some c → c ≠ (List.range c.length).map f)

/-! ## The compact decoder -/

/-- R70: the recurrence, its closed form, and that the index tells codes of all lengths apart. -/
def Obligations.IndexClosedForm : Prop :=
  index [] = 0 ∧ (∀ c b, index (c ++ [b]) = 2 * index c + 1 + b.toNat) ∧
    (∀ c, index c = 2 ^ c.length - 1 + codeValue c) ∧
    (∀ c, 2 ^ c.length - 1 ≤ index c ∧ index c ≤ 2 ^ (c.length + 1) - 2) ∧
    (∀ c d, index c = index d → c = d) ∧ (∀ c, index c = 0 ↔ c = []) ∧
    (∀ c : Code, c.length ≤ 13 → index c ≤ 16382)

/-- R163, for a table whose codes are distinct: BUILD_DECODER stores every code, the short ones in ARR at their index and
the long ones in OVF, every other word of ARR in use holds the sentinel (R162), and then the lookup answers exactly the
table's codes (R167 (a)). -/
def Obligations.BuildDecoderStoresEveryCode : Prop :=
  ∀ s : State, s.phase = .idle → s.codes.valid = true → s.codes.Ok → s.codes.Injective →
    ∃ (d : Decoder) (w : Work),
      exec .buildDecoder s = .next { s.ended .buildDecoder 0 0 w with dec := d } ∧ d.valid = true ∧
      d.depth.val = min 13 s.codes.maxlen.toNat ∧ d.maxlen = s.codes.maxlen ∧
      d.sentinel.toNat ≤ 256 ∧ (∀ y : Byte, (s.codes.codeOf y).isSome = true → y.toNat ≠ d.sentinel.toNat) ∧
      (∀ v < d.sentinel.toNat, ∃ y : Byte, y.toNat = v ∧ (s.codes.codeOf y).isSome = true) ∧
      (∀ y c, s.codes.codeOf y = some c → c.length ≤ d.depth.val → d.arr.read (index c) = y.zeroExtend 9) ∧
      (∀ i, 1 ≤ i → i ≤ 2 ^ (d.depth.val + 1) - 2 → (∀ y c, s.codes.codeOf y = some c → index c ≠ i) →
        d.arr.read i = d.sentinel) ∧
      (∀ e, e ∈ d.overflow ↔ d.depth.val < e.code.length ∧ s.codes.codeOf e.sym = some e.code) ∧
      d.novf.toNat = d.overflow.length ∧ (d.overflow.map OvfEntry.code).Nodup ∧ d.BuiltFrom s.codes

/-- Two Symbols with one code: BUILD_DECODER reports the later Symbol of the first such pair, and DEC_VALID stays 0
(R163). -/
def Obligations.BuildDecoderRejectsEqualCodes : Prop :=
  ∀ (s : State) (y z : Byte) (c : Code), s.Waiting → s.codes.valid = true → s.codes.Ok → z < y →
    s.codes.codeOf y = some c → s.codes.codeOf z = some c →
    (∀ y' z' c', y' < y → z' < y' → s.codes.codeOf y' = some c' → s.codes.codeOf z' ≠ some c') →
    ∃ (d : Decoder) (w : Work),
      exec .buildDecoder s = .next { s.faulted .buildDecoder 0x27 (y.zeroExtend 64) 0 0 w with dec := d } ∧
        d.valid = false

/-- R166: the lookup. A code longer than DEPTH is looked up in OVF, the empty code is not found, any other code in
ARR. -/
def Obligations.ResolveLooksUpCodes : Prop :=
  ∀ (d : Decoder) (c : Code), d.Shape →
    (d.depth.val < c.length → ∀ y, d.resolve c = some y ↔ { code := c, sym := y } ∈ d.overflow) ∧
      (c = [] → d.resolve c = none) ∧
      (c ≠ [] → c.length ≤ d.depth.val → d.arr.read (index c) = d.sentinel → d.resolve c = none) ∧
      (c ≠ [] → c.length ≤ d.depth.val → d.arr.read (index c) ≠ d.sentinel →
        d.resolve c = some ((d.arr.read (index c)).truncate 8)) ∧
      (255 < c.length → d.resolve c = none)

/-- R168: RESOLVE on an operand that reads as the code `c`. -/
def Obligations.ResolveWritesTheResult : Prop :=
  ∀ (s : State) (c : Code) (field rest : List Byte), s.phase = .idle → s.dec.valid = true → c.length ≤ 255 →
    field.length = pathBytes s.dictRaw c.length → readPath s.params s.dictRaw c.length field = some c →
    s.inq = BitVec.ofNat 8 c.length :: field ++ rest →
    ∃ (r : BitVec 9) (w : Work), exec .resolve s =
        .next { s.ended .resolve (1 + pathBytes s.dictRaw c.length) 0 w with result := r, inq := rest } ∧
      (∀ y, s.dec.resolve c = some y → r.getLsbD 8 = true ∧ r.extractLsb' 0 8 = y) ∧
      (s.dec.resolve c = none → r = 0)

/-- R183: a byte that is neither token ends `ReadPath` at once, in RESOLVE. RESULT is unchanged (R168). -/
def Obligations.ResolveStopsAtBadToken : Prop :=
  ∀ (s : State) (l bad : Byte) (good rest : List Byte), s.Waiting → s.dec.valid = true → s.dictRaw = false →
    (∀ b ∈ good, b = s.params.token0 ∨ b = s.params.token1) → bad ≠ s.params.token0 → bad ≠ s.params.token1 →
    good.length < l.toNat → s.inq = l :: good ++ bad :: rest →
    ∃ w : Work, exec .resolve s = .next
      { s.faulted .resolve 0x21 (BitVec.ofNat 64 (1 + good.length)) (2 + good.length) 0 w with inq := rest }

/-! ## The dictionary -/

/-- R184: WRITE_DICT appends one record for every present Symbol, in ascending order, and the terminator; in RAW the pad
bits of a path field are 0. -/
def Obligations.WriteDictWritesTheRecords : Prop :=
  ∀ s : State, s.phase = .idle → s.codes.valid = true → s.codes.Ok → s.params.token0 ≠ s.params.token1 →
    ∃ (rs : List DictRecord) (w : Work), exec .writeDict s =
        .next { s.ended .writeDict 0 (1 + (rs.map fun r => 2 + pathBytes s.dictRaw r.code.length).sum) w with
          outq := s.outq ++ sectionBytes rs } ∧
      (rs.map DictRecord.sym).Pairwise (· < ·) ∧
      (∀ y c, s.codes.codeOf y = some c ↔ ∃ r ∈ rs, r.sym = y ∧ r.code = c) ∧
      (∀ r ∈ rs, r.wf s.params s.dictRaw) ∧
      (s.dictRaw = false → ∀ r ∈ rs, r.field = r.code.map fun x => if x then s.params.token1 else s.params.token0) ∧
      (s.dictRaw = true → ∀ r ∈ rs, unpackBytes s.params.bitOrder r.field =
        r.code ++ List.replicate (8 * ceil8 r.code.length - r.code.length) false)

/-- The two checks of WRITE_DICT (R184): the first present Symbol whose code has length 0 (E_ZEROLEN) or a length above
255 (E_CODELEN) ends it before any output. No run makes such a code (R185); the statement is about every state. -/
def Obligations.WriteDictRejectsBadLengths : Prop :=
  ∀ (s : State) (y : Byte) (c : Code), s.Waiting → s.codes.valid = true → s.codes.codeOf y = some c →
    (∀ z d, z < y → s.codes.codeOf z = some d → 1 ≤ d.length ∧ d.length ≤ 255) →
    (c.length = 0 → ∃ w : Work, exec .writeDict s = .next (s.faulted .writeDict 0x23 (y.zeroExtend 64) 0 0 w)) ∧
      (255 < c.length → ∃ w : Work, exec .writeDict s = .next (s.faulted .writeDict 0x30 (y.zeroExtend 64) 0 0 w))

/-- R186: READ_DICT on a dictionary section within LEN, its records in any order. What stands behind the section is left
in INQ. -/
def Obligations.ReadDictRebuildsTheTable : Prop :=
  ∀ (s : State) (n : Nat) (rs : List DictRecord) (rest : List Byte), s.phase = .idle → n < 2 ^ 64 →
    (∀ r ∈ rs, r.wf s.params s.dictRaw) → (rs.map DictRecord.sym).Nodup → (sectionBytes rs).length ≤ n →
    s.inq = sectionBytes rs ++ rest →
    ∃ (c : CodeTable) (w : Work), exec (.readDict n) s =
        .next { s.ended (.readDict n) (sectionBytes rs).length 0 w with codes := c, inq := rest } ∧ c.valid = true ∧
      (∀ y p, c.codeOf y = some p ↔ ∃ r ∈ rs, r.sym = y ∧ r.code = p) ∧ c.nsym.toNat = rs.length ∧
      c.maxlen.toNat = (rs.map fun r => r.code.length).foldr max 0

/-- The faults of READ_DICT (R186): LEN runs out inside a section, of which INQ holds at least the first LEN bytes
(E_TRUNC_DICT, all LEN bytes taken); a Symbol comes twice (E_DUPSYM, taken up to its symbol byte); a byte of a TOKEN path
field is neither token (E_BADTOKEN, taken up to that byte). CODES_VALID stays 0. -/
def Obligations.ReadDictFaults : Prop :=
  ∀ (s : State) (n : Nat) (rs : List DictRecord) (rest : List Byte), s.Waiting → n < 2 ^ 64 →
    (∀ r ∈ rs, r.wf s.params s.dictRaw) → (rs.map DictRecord.sym).Nodup →
    (n < (sectionBytes rs).length → s.inq = (sectionBytes rs).take n ++ rest →
      ∃ (c : CodeTable) (w : Work), exec (.readDict n) s =
        .next { s.faulted (.readDict n) 0x20 (BitVec.ofNat 64 n) n 0 w with codes := c, inq := rest } ∧
          c.valid = false) ∧
    (∀ r : DictRecord, r.wf s.params s.dictRaw → r.sym ∈ rs.map DictRecord.sym →
      s.inq = rs.flatMap DictRecord.bytes ++ r.bytes ++ rest →
      (rs.flatMap DictRecord.bytes ++ r.bytes).length ≤ n →
      ∃ (c : CodeTable) (w : Work), exec (.readDict n) s =
        .next { s.faulted (.readDict n) 0x22 (r.sym.zeroExtend 64) (rs.flatMap DictRecord.bytes ++ r.bytes).length 0 w with
          codes := c, inq := rest } ∧ c.valid = false) ∧
    (∀ (l bad : Byte) (good : List Byte), s.dictRaw = false →
      (∀ b ∈ good, b = s.params.token0 ∨ b = s.params.token1) → bad ≠ s.params.token0 → bad ≠ s.params.token1 →
      good.length < l.toNat → s.inq = rs.flatMap DictRecord.bytes ++ l :: good ++ bad :: rest →
      (rs.flatMap DictRecord.bytes ++ l :: good).length + 1 ≤ n →
      ∃ (c : CodeTable) (w : Work), exec (.readDict n) s =
        .next { s.faulted (.readDict n) 0x21 (BitVec.ofNat 64 (rs.flatMap DictRecord.bytes ++ l :: good).length)
          ((rs.flatMap DictRecord.bytes ++ l :: good).length + 1) 0 w with codes := c, inq := rest } ∧ c.valid = false)

/-- R188: the dictionary round trip, from a machine `s` that writes to a machine `r` that reads. -/
def Obligations.DictionaryRoundTrip : Prop :=
  ∀ (s r : State) (n : Nat) (rest : List Byte), s.phase = .idle → s.codes.valid = true → s.codes.Ok →
    s.params.token0 ≠ s.params.token1 → r.phase = .idle → r.params = s.params → r.dictRaw = s.dictRaw →
    ∃ (t : State) (D : List Byte), exec .writeDict s = .next t ∧ t.outq = s.outq ++ D ∧
      (D.length ≤ n → n < 2 ^ 64 → r.inq = D ++ rest →
        ∃ u, exec (.readDict n) r = .next u ∧ u.phase = .idle ∧ u.consumedReg.toNat = D.length ∧ u.inq = rest ∧
          (∀ y, u.codes.codeOf y = s.codes.codeOf y) ∧ u.codes.valid = true ∧ u.codes.nsym = s.codes.nsym ∧
          u.codes.maxlen = s.codes.maxlen)

/-! ## The body -/

/-- PackBits puts the first bit of a group into bit 7 of its byte in MSB_FIRST and into bit 0 in LSB_FIRST, and the other
bits in order behind it (R65); UnpackBits is its inverse, in both orders, byte by byte and over a sequence, earlier bits
in earlier bytes (R66). -/
def Obligations.PackingPlacesBitsAndUnpackingInverts : Prop :=
  ∀ o : BitOrder,
    (∀ (g : Code) (j : Nat), g.length = 8 → j < 8 →
      (packBits o g).getLsbD (if o = .msbFirst then 7 - j else j) = g.getD j false) ∧
      (∀ g : Code, g.length = 8 → unpackBits o (packBits o g) = g) ∧ (∀ b, packBits o (unpackBits o b) = b) ∧
      (∀ m (z : Code), z.length = 8 * m → unpackBytes o (packBytes o m z) = z) ∧
      (∀ b bs, unpackBytes o (b :: bs) = unpackBits o b ++ unpackBytes o bs)

/-- R106: ENCODE, SIMPLE. The body is the codes' bits `B` and fewer than eight pad bits of any value, packed; ENC_TRAIL is
the number of pad bits (R203, R207). -/
def Obligations.EncodeSimpleWritesTheBody : Prop :=
  ∀ (s : State) (x rest : List Byte), s.phase = .idle → s.codes.valid = true → s.bodyChunked = false →
    s.codes.Covers x → x.length < 2 ^ 64 → s.inq = x ++ rest →
    ∃ (pad : Code) (w : Work), exec (.encode x.length) s =
        .next { s.ended (.encode x.length) x.length (ceil8 (s.codes.bitsOf x).length) w with
          inq := rest
          outq := s.outq ++
            packBytes s.params.bitOrder (ceil8 (s.codes.bitsOf x).length) (s.codes.bitsOf x ++ pad)
          encTrail := BitVec.ofNat 8 pad.length
          draws := s.draws + pad.length } ∧
      pad.length ≤ 7 ∧ (s.codes.bitsOf x).length + pad.length = 8 * ceil8 (s.codes.bitsOf x).length

/-- R107: ENCODE, CHUNKED. The chunks hold whole codes, in order; every chunk but the last has a full payload and at most
254 pad bits, the last is as short as its bits allow; ENC_TRAIL is the last chunk's count, 0 if there is none (R203,
R206, R207). -/
def Obligations.EncodeChunkedWritesTheChunks : Prop :=
  ∀ (s : State) (x rest : List Byte), s.phase = .idle → s.params.wf → s.codes.valid = true → s.codes.Ok →
    s.bodyChunked = true → s.codes.Covers x → x.length < 2 ^ 64 → s.inq = x ++ rest →
    ∃ (ks : List Chunk) (gs : List (List Byte)) (w : Work) (k : Nat), exec (.encode x.length) s =
        .next { s.ended (.encode x.length) x.length (renderAll s.params.bitOrder ks).length w with
          inq := rest
          outq := s.outq ++ renderAll s.params.bitOrder ks
          encTrail := BitVec.ofNat 8 (lastTrail 0 ks)
          draws := k } ∧
      gs.flatten = x ∧ ks.map Chunk.bits = gs.map s.codes.bitsOf ∧ (∀ c ∈ ks, c.wf ∧ c.bits ≠ []) ∧
      (∀ c ∈ ks.dropLast, c.bytes = s.params.chunkBytes ∧ c.pad.length ≤ 254) ∧
      (∀ c, ks.getLast? = some c → 1 ≤ c.bytes ∧ c.bytes ≤ s.params.chunkBytes ∧ c.pad.length ≤ 7) ∧
      ks.map Chunk.bits = chunked (8 * s.params.chunkBytes) [] (s.codes.codesOf x)

/-- R208: a byte with no code ends ENCODE. CONSUMED counts it; OUTQ holds the whole bytes (SIMPLE) or the closed chunks
(CHUNKED) emitted before it; ENC_TRAIL is unchanged (R207). -/
def Obligations.EncodeStopsAtSymbolWithoutCode : Prop :=
  ∀ (s : State) (n : Nat) (x : List Byte) (b : Byte) (rest : List Byte), s.Waiting → s.params.wf → s.codes.valid = true →
    s.codes.Ok → s.codes.Covers x → s.codes.codeOf b = none → x.length < n → n < 2 ^ 64 → s.inq = x ++ b :: rest →
    ∃ (out : List Byte) (w : Work) (k : Nat), exec (.encode n) s =
        .next { s.faulted (.encode n) 0x11 (b.zeroExtend 64) (x.length + 1) out.length w with
          inq := rest, outq := s.outq ++ out, draws := k } ∧
      (s.bodyChunked = false → out = packBytes s.params.bitOrder ((s.codes.bitsOf x).length / 8) (s.codes.bitsOf x)) ∧
      (s.bodyChunked = true → ∃ ks : List Chunk, out = renderAll s.params.bitOrder ks ∧
        ks.map Chunk.bits = (chunked (8 * s.params.chunkBytes) [] (s.codes.codesOf x)).dropLast ∧
        ∀ c ∈ ks, c.wf ∧ c.bytes = s.params.chunkBytes)

/-- R213, SIMPLE: DECODE of the body `y` emits and takes what `decodeSimple` says (Step for every bit, then Finish: R211),
and ends without a fault or by the fault it says. -/
def Obligations.DecodeSimpleDecodesTheBits : Prop :=
  ∀ (s : State) (y rest : List Byte), s.Waiting → s.dec.valid = true → s.bodyChunked = false → y.length < 2 ^ 64 →
    s.inq = y ++ rest →
    ∃ (r : Body) (w : Work), r = decodeSimple s.params.bitOrder s.dec s.strict s.tailDiscard y ∧
      (r.fault = none → exec (.decode y.length) s = .next { s.ended (.decode y.length) y.length r.out.length w with
        inq := rest, outq := s.outq ++ r.out }) ∧
      (∀ e k, r.fault = some (e, k) → exec (.decode y.length) s =
        .next { s.faulted (.decode y.length) e.code (BitVec.ofNat 64 k) r.used r.out.length w with
          inq := s.inq.drop r.used, outq := s.outq ++ r.out } ∧ (e = .noCode ∨ e = .truncBody))

/-- R213, CHUNKED: the same for a body of chunks. -/
def Obligations.DecodeChunkedDecodesTheChunks : Prop :=
  ∀ (s : State) (y rest : List Byte), s.Waiting → s.dec.valid = true → s.bodyChunked = true → y.length < 2 ^ 64 →
    s.inq = y ++ rest →
    ∃ (r : Body) (w : Work), r = decodeChunks s.params.bitOrder s.dec s.strict s.params.chunkBytes y.length y ∧
      (r.fault = none → exec (.decode y.length) s = .next { s.ended (.decode y.length) y.length r.out.length w with
        inq := rest, outq := s.outq ++ r.out }) ∧
      (∀ e k, r.fault = some (e, k) → exec (.decode y.length) s =
        .next { s.faulted (.decode y.length) e.code (BitVec.ofNat 64 k) r.used r.out.length w with
          inq := s.inq.drop r.used, outq := s.outq ++ r.out } ∧ (e = .noCode ∨ e = .truncBody ∨ e = .badTrail))

/-- Lenient DECODE (R213, R217): a SIMPLE body decodes to some output whatever its bytes are; the only fault of a CHUNKED
body is E_BADTRAIL, at a count byte that is larger than the payload behind it. A body of `m` bytes gives at most `8m`. -/
def Obligations.LenientDecodeFaultsOnlyAtBadTrail : Prop :=
  ∀ (s : State) (y rest : List Byte), s.Waiting → s.dec.valid = true → s.strict = false → y.length < 2 ^ 64 →
    s.inq = y ++ rest →
    ∃ (out : List Byte) (w : Work), out.length ≤ 8 * y.length ∧
      (exec (.decode y.length) s =
          .next { s.ended (.decode y.length) y.length out.length w with inq := rest, outq := s.outq ++ out } ∨
        s.bodyChunked = true ∧ ∃ (k : Nat) (count : Byte), y[k]? = some count ∧
          8 * min s.params.chunkBytes (y.length - (k + 1)) < count.toNat ∧
          exec (.decode y.length) s = .next
            { s.faulted (.decode y.length) 0x24 (BitVec.ofNat 64 k) (k + 1) out.length w with
              inq := s.inq.drop (k + 1), outq := s.outq ++ out })

/-- R216: chunks decode independently. Where DECODE of each chunk alone ends without a fault, DECODE of the whole body
emits what they emit, one after another. -/
def Obligations.ChunksDecodeIndependently : Prop :=
  ∀ (s : State) (Ks : List (List Byte)) (outs : List (List Byte)) (rest : List Byte), s.phase = .idle →
    s.dec.valid = true → s.bodyChunked = true → Ks.flatten.length < 2 ^ 64 →
    (∀ K ∈ Ks.dropLast, K.length = 1 + s.params.chunkBytes) →
    (∀ K ∈ Ks, 1 ≤ K.length ∧ K.length ≤ 1 + s.params.chunkBytes) →
    List.Forall₂ (fun K A => ∃ t, exec (.decode K.length) { s with inq := K } = .next t ∧ t.phase = .idle ∧
      t.outq = s.outq ++ A) Ks outs →
    ∃ t, exec (.decode Ks.flatten.length) { s with inq := Ks.flatten ++ rest } = .next t ∧ t.phase = .idle ∧
      t.outq = s.outq ++ outs.flatten ∧ t.inq = rest

/-- R218: the round trip of the body, from a machine `s` that encodes with a prefix-free table to a machine `r` whose
decoder was built from that table: (a) CHUNKED; (b) SIMPLE with TAIL_DISCARD = ENC_TRAIL; (c) SIMPLE, lenient, with
TAIL_DISCARD = 0. Whatever the pad bits, STRICT and BIT_ORDER. -/
def Obligations.BodyRoundTrip : Prop :=
  ∀ (s r : State) (x rest rest' : List Byte), s.phase = .idle → s.params.wf → s.codes.valid = true → s.codes.Ok →
    s.codes.PrefixFree → s.codes.Covers x → x.length < 2 ^ 64 → s.inq = x ++ rest →
    r.phase = .idle → r.params = s.params → r.dec.valid = true → r.dec.BuiltFrom s.codes →
    r.bodyChunked = s.bodyChunked →
    ∃ (t : State) (Y : List Byte), exec (.encode x.length) s = .next t ∧ t.phase = .idle ∧ t.outq = s.outq ++ Y ∧
      (Y.length < 2 ^ 64 → r.inq = Y ++ rest' →
        (r.bodyChunked = true ∨ r.tailDiscard = t.encTrail.toNat →
          ∃ u, exec (.decode Y.length) r = .next u ∧ u.phase = .idle ∧ u.outq = r.outq ++ x ∧ u.inq = rest') ∧
        (r.bodyChunked = false → r.tailDiscard = 0 → r.strict = false →
          ∃ (u : State) (extra : List Byte), exec (.decode Y.length) r = .next u ∧ u.phase = .idle ∧
            u.outq = r.outq ++ x ++ extra ∧ u.inq = rest' ∧ extra.length ≤ t.encTrail.toNat ∧ t.encTrail.toNat ≤ 7))

/-- R219: the chunked body equals the simple body. Under the hypotheses of R218, a machine `s` that encodes `x` CHUNKED
and a machine `s'` that encodes it SIMPLE write bodies `Y` and `Y'`. `Y` is the chunks `ks` into which R206 splits the
codes of `x`, one after another. Decoding each chunk in isolation, decoding `Y` whole, and decoding `Y'` with
TAIL_DISCARD = ENC_TRAIL all emit the same bytes, `x`. -/
def Obligations.ChunkedDecodesAsSimple : Prop :=
  ∀ (s s' r r' : State) (x rest rest' : List Byte), s.phase = .idle → s.params.wf → s.codes.valid = true → s.codes.Ok →
    s.codes.PrefixFree → s.codes.Covers x → x.length < 2 ^ 64 → s.inq = x ++ rest → s.bodyChunked = true →
    s'.phase = .idle → s'.params = s.params → s'.codes = s.codes → s'.inq = x ++ rest' → s'.bodyChunked = false →
    r.phase = .idle → r.params = s.params → r.dec.valid = true → r.dec.BuiltFrom s.codes → r.bodyChunked = true →
    r'.phase = .idle → r'.params = s.params → r'.dec.valid = true → r'.dec.BuiltFrom s.codes → r'.bodyChunked = false →
    ∃ (t t' : State) (ks : List Chunk) (Y Y' : List Byte),
      exec (.encode x.length) s = .next t ∧ t.phase = .idle ∧ t.outq = s.outq ++ Y ∧
      ChunkRun (8 * s.params.chunkBytes) s.params.chunkBytes [] (s.codes.codesOf x) ks ∧
      Y = (ks.map (Chunk.render s.params.bitOrder)).flatten ∧
      (∀ k ∈ ks.dropLast, (k.render s.params.bitOrder).length = 1 + s.params.chunkBytes) ∧
      (∀ k ∈ ks, 1 < (k.render s.params.bitOrder).length ∧
        (k.render s.params.bitOrder).length ≤ 1 + s.params.chunkBytes) ∧
      exec (.encode x.length) s' = .next t' ∧ t'.phase = .idle ∧ t'.outq = s'.outq ++ Y' ∧
      (Y.length < 2 ^ 64 → Y'.length < 2 ^ 64 → r'.tailDiscard = t'.encTrail.toNat → ∀ after after' : List Byte,
        ∃ (outs : List (List Byte)) (A A' : List Byte) (u u' : State),
          List.Forall₂ (fun K out => ∃ v, exec (.decode K.length) { r with inq := K } = .next v ∧ v.phase = .idle ∧
            v.outq = r.outq ++ out) (ks.map (Chunk.render s.params.bitOrder)) outs ∧
          exec (.decode Y.length) { r with inq := Y ++ after } = .next u ∧ u.phase = .idle ∧ u.outq = r.outq ++ A ∧
          exec (.decode Y'.length) { r' with inq := Y' ++ after' } = .next u' ∧ u'.phase = .idle ∧
          u'.outq = r'.outq ++ A' ∧ outs.flatten = A' ∧ A = A' ∧ A' = x)

/-- R239: the end-to-end law. COMPRESS of any non-empty input, supplied twice, appends a file `F`, and DECOMPRESS of `F` on
a machine with the same parameters, the same DICT_FMT and the same BODY_FMT (TAIL_DISCARD being ENC_TRAIL where that is
SIMPLE) gives the input back. -/
def Obligations.CompressThenDecompressIsIdentity : Prop :=
  ∀ (s : State) (x rest : List Byte), s.phase = .idle → s.params.wf → x ≠ [] → x.length < 2 ^ 64 →
    s.inq = x ++ x ++ rest →
    ∃ (t : State) (F : List Byte), compress x.length s = .next t ∧ t.phase = .idle ∧ t.inq = rest ∧ t.outq = s.outq ++ F ∧
      ∀ (r : State) (rest' : List Byte), r.phase = .idle → r.params = s.params → r.dictRaw = s.dictRaw →
        r.bodyChunked = s.bodyChunked → (r.bodyChunked = true ∨ r.tailDiscard = t.encTrail.toNat) →
        F.length < 2 ^ 64 → r.inq = F ++ rest' →
        ∃ u, decompress F.length r = .next u ∧ u.phase = .idle ∧ u.outq = r.outq ++ x ∧ u.inq = rest'

/-! ## Whole-machine rules -/

/-- R92: COUNT, ENCODE and DECODE take exactly LEN bytes when they end without a fault, READ_DICT at most LEN; the bytes
are taken from the head of INQ, and CONSUMED says how many. -/
def Obligations.CommandsOwnLenBytes : Prop :=
  ∀ (s t : State) (n : Nat), s.phase = .idle → n < 2 ^ 64 →
    (∀ i ∈ [Instr.count n, .encode n, .decode n], exec i s = .next t → t.phase = .idle →
      ∃ x : List Byte, s.inq = x ++ t.inq ∧ x.length = n ∧ t.consumedReg.toNat = n) ∧
    (exec (.readDict n) s = .next t → ∃ x : List Byte, s.inq = x ++ t.inq ∧ x.length ≤ n ∧
      (t.awaiting = false → t.consumedReg.toNat = x.length))

/-- The queues are first-in first-out and the counts are right (R30, R31, R62, R63, R75 (c)): a command other than CLEAR
takes bytes from the head of INQ and appends bytes to the tail of OUTQ, and where it ends (fault or not) CONSUMED and
PRODUCED are their numbers. Only COUNT, READ_DICT, ENCODE, DECODE and RESOLVE take bytes, only WRITE_DICT, ENCODE and
DECODE append bytes. -/
def Obligations.QueuesAreFifoAndCounted : Prop :=
  ∀ (i : Instr) (s t : State), i ≠ .clear → s.phase = .idle → exec i s = .next t →
    ∃ x out : List Byte, s.inq = x ++ t.inq ∧ t.outq = s.outq ++ out ∧
      (t.awaiting = false → t.consumedReg = BitVec.ofNat 64 x.length ∧ t.producedReg = BitVec.ofNat 64 out.length) ∧
      (x ≠ [] → i = .resolve ∨ ∃ n, i = .count n ∨ i = .readDict n ∨ i = .encode n ∨ i = .decode n) ∧
      (out ≠ [] → i = .writeDict ∨ ∃ n, i = .encode n ∨ i = .decode n)

/-- R14: what a run yields is all bytes ever appended to OUTQ, in order, whenever the host pops them. A step that is no
reset appends bytes to OUTQ, or hands its head to the host; so what is yielded only grows. From a state in which the run
has ended no step changes PHASE, what is yielded or a status register: a run has one yield. It is the run's own: another
run of the same acts may choose at TIEBREAK and draw pad bits otherwise and yield something else (R132, R204, R302), so
the two states compared end a run with the same choices and draws, whatever these are. A run ends successfully, or in
FAULT with a fault recorded. That the host is a script, that choices and draws are opaque functions of counters, and that
a run has no reset in it, are the model's choices (log entries 2, 3, 5, 6, 18). -/
def Obligations.RunYieldsEveryByteAppended : Prop :=
  (∀ s t : State, step s = .next t → (s.coreMoves = false → ∀ rest, s.script ≠ .reset :: rest) →
    (t.received = s.received ∧ ∃ out, t.outq = s.outq ++ out) ∨
      ∃ b, s.outq = b :: t.outq ∧ t.received = s.received ++ [b]) ∧
    (∀ (n : Nat) (s t : State), .reset ∉ s.script → runSteps n s = .next t → ∃ out, t.yield = s.yield ++ out) ∧
    (∀ (n : Nat) (s t : State), s.RunEnded → .reset ∉ s.script → runSteps n s = .next t →
      t.RunEnded ∧ t.phase = s.phase ∧ t.yield = s.yield ∧ ∀ r, t.statusPort r = s.statusPort r) ∧
    (∀ (acts : List HostAct) (ties draws : Nat) (t u : State), Run acts ties draws t → Run acts ties draws u →
      u.phase = t.phase ∧ u.yield = t.yield ∧ ∀ r, u.statusPort r = t.statusPort r) ∧
    (∀ (acts : List HostAct) (ties draws : Nat) (t : State), Run acts ties draws t →
      t.RunSucceeded ∨ t.phase = .fault ∧ t.errcode ≠ 0)

/-- No command modifies a structure it does not own (R51, R284): a step changes FREQ only by COUNT, NODE only by MERGE,
CODE only by GET_CODES and READ_DICT, the decoder only by BUILD_DECODER, CFG only by SET_CFG, RESULT only by RESOLVE and
ENC_TRAIL only by ENCODE, beside CLEAR; in particular no fault changes CFG (R263 (d)). -/
def Obligations.StructuresAreWrittenByTheirOwnCommands : Prop :=
  ∀ (i : Instr) (s t : State), i ≠ .clear → exec i s = .next t →
    ((∀ n, i ≠ .count n) → t.freqs = s.freqs) ∧ (i ≠ .merge → t.tree = s.tree) ∧
      (i ≠ .getCodes → (∀ n, i ≠ .readDict n) → t.codes = s.codes) ∧ (i ≠ .buildDecoder → t.dec = s.dec) ∧
      ((∀ v, i ≠ .setCfg v) → t.cfg = s.cfg) ∧ (i ≠ .resolve → t.result = s.result) ∧
      ((∀ n, i ≠ .encode n) → t.encTrail = s.encTrail) ∧ t.params = s.params ∧ t.script = s.script ∧
      t.received = s.received

/-- The same of going on with a held command: it changes what its command owns, and no configuration (R51). -/
def Obligations.ResumedCommandKeepsTheFrame : Prop :=
  ∀ s : State,
    ((resume s).freqs = s.freqs ∨ s.phase = .busy .counting) ∧ (resume s).tree = s.tree ∧
      ((resume s).codes = s.codes ∨ s.phase = .busy .dictLength ∨ (∃ l c, s.phase = .busy (.dictPath l c)) ∨
        ∃ c, s.phase = .busy (.dictSymbol c)) ∧
      ((resume s).result = s.result ∨ s.phase = .busy .lookupLength ∨ ∃ l, s.phase = .busy (.lookupPath l)) ∧
      ((resume s).encTrail = s.encTrail ∨ ∃ k, s.phase = .busy (.encoding k)) ∧
      (resume s).dec = s.dec ∧ (resume s).cfg = s.cfg ∧ (resume s).cmd = s.cmd ∧ (resume s).params = s.params ∧
      (resume s).script = s.script ∧ (resume s).received = s.received

/-- With every byte of its LEN in INQ a command ends, with or without a fault: it does not hold (R138, R189, R220). -/
def Obligations.CommandsEndWithEnoughInput : Prop :=
  ∀ (s : State) (n : Nat), s.Inv → s.phase = .idle → n < 2 ^ 64 → n ≤ s.inq.length →
    ∀ i ∈ [Instr.count n, .readDict n, .encode n, .decode n],
      ∃ t, exec i s = .next t ∧ (t.phase = .idle ∨ t.phase = .fault)

/-- Every memory keeps its canonical form and its address range (R69), at every step from every state whose memories have
them. -/
def Obligations.StepKeepsMemoriesCanonical : Prop :=
  ∀ s t : State, s.MemoriesOk → step s = .next t → t.MemoriesOk

/-- The machine's reset state meets the invariant of the data model. Where R50 says "unspecified" this is by the model's
choice of values (log entries 7 and 8). -/
def Obligations.ResetMeetsTheInvariant : Prop := State.reset.Inv

/-- R52 and R28 at every state: each step from a state that meets the invariant of the data model (Safety.lean: the valid
flags guard what R52 says, ERRCODE is set exactly in FAULT and FATAL, memories are in range, a held command is one that
can go on, and the machine is not in FATAL) answers a state that meets it. The places where a command holds are the
model's (log entry 16). -/
def Obligations.StepKeepsTheInvariant : Prop := ∀ s t : State, s.Inv → step s = .next t → t.Inv

/-- From a state that meets the invariant the model never stops: each step answers a next state, so R257's unreachable
faults and the model's own fault cannot arise. -/
def Obligations.StepNeverStops : Prop := ∀ s : State, s.Inv → ∃ t, step s = .next t ∧ t.phase ≠ .fatal
end

