-- ==== Sys2Proof/Laws/Bits.lean ====
section
/-!
SUPPORT. Bits and bytes: PackBits and UnpackBits are inverse (R66), the array index of a code is injective and in range
(R70), and the path field of a code is read back (R182, R183).
-/

namespace Sys2Proof.Machine

open Sys2Proof Sys2Proof.Config

/-! ## PackBits and UnpackBits -/

@[simp] theorem unpackBits_length (o : BitOrder) (b : Byte) : (unpackBits o b).length = 8 := by simp [unpackBits]

theorem exists_of_length_eight {g : Code} (h : g.length = 8) :
    ∃ b0 b1 b2 b3 b4 b5 b6 b7, g = [b0, b1, b2, b3, b4, b5, b6, b7] := by
  match g, h with
  | [b0, b1, b2, b3, b4, b5, b6, b7], _ => exact ⟨b0, b1, b2, b3, b4, b5, b6, b7, rfl⟩

/-- Where PackBits puts the bit `g_j` (R65). -/
theorem packBits_getLsbD (o : BitOrder) {g : Code} {j : Nat} (h : g.length = 8) (hj : j < 8) :
    (packBits o g).getLsbD (if o = .msbFirst then 7 - j else j) = g.getD j false := by
  obtain ⟨b0, b1, b2, b3, b4, b5, b6, b7, rfl⟩ := exists_of_length_eight h
  revert b0 b1 b2 b3 b4 b5 b6 b7
  interval_cases j <;> cases o <;> decide +kernel

/-- `UnpackBits(PackBits(g)) = g` (R66). -/
theorem unpackBits_packBits (o : BitOrder) {g : Code} (h : g.length = 8) : unpackBits o (packBits o g) = g := by
  obtain ⟨b0, b1, b2, b3, b4, b5, b6, b7, rfl⟩ := exists_of_length_eight h
  revert b0 b1 b2 b3 b4 b5 b6 b7 o
  intro o
  cases o <;> decide +kernel

theorem packBits_unpackBits (o : BitOrder) (b : Byte) : packBits o (unpackBits o b) = b := by
  revert b o
  intro o
  cases o <;> decide +kernel

@[simp] theorem packBytes_length (o : BitOrder) (m : Nat) (z : Code) : (packBytes o m z).length = m := by
  induction m generalizing z with
  | zero => rfl
  | succ m ih => simp [packBytes, ih]

/-- Unpacking `m` packed bytes gives the bits back. -/
theorem unpackBytes_packBytes (o : BitOrder) (m : Nat) {z : Code} (h : z.length = 8 * m) :
    unpackBytes o (packBytes o m z) = z := by
  induction m generalizing z with
  | zero => simpa [packBytes, unpackBytes] using (List.length_eq_zero_iff.1 h).symm
  | succ m ih =>
    have hd : (z.drop 8).length = 8 * m := by simp; omega
    have ht : (z.take 8).length = 8 := by simp; omega
    have := ih hd
    simp only [unpackBytes, packBytes, List.flatMap_cons] at this ⊢
    rw [this, unpackBits_packBits o ht, List.take_append_drop]

@[simp] theorem unpackBytes_nil (o : BitOrder) : unpackBytes o [] = [] := rfl

@[simp] theorem unpackBytes_cons (o : BitOrder) (b : Byte) (bs : List Byte) :
    unpackBytes o (b :: bs) = unpackBits o b ++ unpackBytes o bs := rfl

theorem unpackBytes_append (o : BitOrder) (as bs : List Byte) :
    unpackBytes o (as ++ bs) = unpackBytes o as ++ unpackBytes o bs := by simp [unpackBytes]

@[simp] theorem unpackBytes_length (o : BitOrder) (bs : List Byte) : (unpackBytes o bs).length = 8 * bs.length := by
  induction bs with
  | nil => rfl
  | cons b bs ih => simp [ih]; omega

/-! ## Index -/

@[simp] theorem index_nil : index [] = 0 := rfl

/-- The recurrence of R70. -/
@[simp] theorem index_append (c : Code) (b : Bool) : index (c ++ [b]) = 2 * index c + 1 + b.toNat := by
  simp [index]

/-- "codes of length L occupy exactly the indices 2^L - 1 to 2^(L+1) - 2" (R70). -/
theorem index_bounds (c : Code) : 2 ^ c.length ≤ index c + 1 ∧ index c + 2 ≤ 2 ^ (c.length + 1) := by
  induction c using List.reverseRecOn with
  | nil => simp
  | append_singleton c b ih =>
    simp only [index_append, List.length_append, List.length_singleton]
    have : b.toNat ≤ 1 := Bool.toNat_le b
    have h1 : 2 ^ (c.length + 1) = 2 * 2 ^ c.length := by ring
    have h2 : 2 ^ (c.length + 1 + 1) = 2 * 2 ^ (c.length + 1) := by ring
    omega

theorem index_pos {c : Code} (h : c ≠ []) : 0 < index c := by
  have hb := (index_bounds c).1
  have : 2 ^ 1 ≤ 2 ^ c.length := Nat.pow_le_pow_right (by decide) (List.length_pos_iff.2 h)
  omega

/-- "Index is injective over all codes of all lengths" (R70). -/
theorem index_injective : Function.Injective index := by
  intro c
  induction c using List.reverseRecOn with
  | nil =>
    intro d h
    by_contra hne
    have := index_pos (Ne.symm hne)
    simp at h
    omega
  | append_singleton c b ih =>
    intro d h
    induction d using List.reverseRecOn with
    | nil =>
      simp at h
    | append_singleton d b' _ =>
      simp only [index_append] at h
      have hb : b.toNat ≤ 1 := Bool.toNat_le b
      have hb' : b'.toNat ≤ 1 := Bool.toNat_le b'
      have hcd : index c = index d := by omega
      have hbb : b.toNat = b'.toNat := by omega
      rw [ih hcd]
      cases b <;> cases b' <;> simp_all

/-- The index of a code of 1..13 bits is the index of a word of ARR, and of one in use for its depth (R71, R164). -/
theorem index_in_slots {c : Code} {d : Nat} (h : c ≠ []) (hd : c.length ≤ d) :
    1 ≤ index c ∧ index c ≤ 2 ^ (d + 1) - 2 := by
  have hp : (2 : Nat) ^ (c.length + 1) ≤ 2 ^ (d + 1) := Nat.pow_le_pow_right (by decide) (by omega)
  have hb := (index_bounds c).2
  exact ⟨index_pos h, by omega⟩

theorem index_le_arrMax {c : Code} (h : c.length ≤ 13) : index c ≤ 16382 := by
  have hp : (2 : Nat) ^ (c.length + 1) ≤ 2 ^ 14 := Nat.pow_le_pow_right (by decide) (by omega)
  have hb := (index_bounds c).2
  omega

/-- The index of such a code fits the register `idx`. -/
theorem toNat_idx {c : Code} (h : c.length ≤ 13) : (BitVec.ofNat 14 (index c)).toNat = index c := by
  have := index_le_arrMax h
  simp only [BitVec.toNat_ofNat]
  exact Nat.mod_eq_of_lt (by omega)

/-! ## ceil(k / 8) -/

theorem ceil8_spec (k : Nat) : k ≤ 8 * ceil8 k ∧ 8 * ceil8 k < k + 8 := by unfold ceil8; omega

/-! ## The path field -/

/-- `EmitPath(c)` "appends exactly PathBytes(L) bytes" (R182). -/
@[simp] theorem pathField_length (p : Params) (raw : Bool) (c : Code) :
    (pathField p raw c).length = pathBytes raw c.length := by
  cases raw <;> simp [pathField, pathBytes]

/-- `ReadPath`'s loop (R183), byte by byte, from the path read so far. -/
def readFrom (p : Params) (raw : Bool) (got : Code) : List Byte → Option Code
  | [] => some got
  | b :: bs => (pathByte p raw got b).bind fun got => readFrom p raw got bs

theorem readFrom_token (p : Params) (hp : p.token0 ≠ p.token1) (got c : Code) :
    readFrom p false got (c.map (tokenOf p)) = some (got ++ c) := by
  induction c generalizing got with
  | nil => simp [readFrom]
  | cons x c ih =>
    cases x <;> simp [readFrom, pathByte, tokenOf, ih, Ne.symm hp]

theorem readFrom_raw (p : Params) (got : Code) (bs : List Byte) :
    readFrom p true got bs = some (got ++ unpackBytes p.bitOrder bs) := by
  induction bs generalizing got with
  | nil => simp [readFrom]
  | cons b bs ih => simp [readFrom, pathByte, ih]

end Sys2Proof.Machine
end

