-- ==== Sys2Proof/Laws/Decode.lean ====
section
/-!
SUPPORT. The fields of a command word (R90): what they are in an encoded command, and that they are the whole word.
-/

namespace Sys2Proof

@[simp] theorem argOf_encode (i : Instr) : argOf (encode i) = i.operand := by
  unfold argOf encode
  exact BitVec.extractLsb'_append_eq_right

@[simp] theorem opOf_encode (i : Instr) : opOf (encode i) = i.opcode := by
  unfold opOf encode
  exact BitVec.extractLsb'_append_eq_left

theorem append_op_arg (w : CmdWord) : (opOf w ++ argOf w : BitVec 72) = w := by
  unfold opOf argOf
  exact BitVec.extractLsb'_append_extractLsb'_eq_extractLsb' (by rfl) |>.trans (by simp)

@[simp] theorem lenOf_encode (i : Instr) : lenOf (encode i) = i.operand.toNat := by simp [lenOf]

/-- Two words of opcode and operand are equal exactly when the parts are. -/
theorem word_append_inj {a c : Byte} {b d : Word64} : (a ++ b : BitVec 72) = c ++ d ↔ a = c ∧ b = d := by
  constructor
  · intro h
    have h1 := congrArg (fun w : CmdWord => w.extractLsb' 64 8) h
    have h2 := congrArg (fun w : CmdWord => w.extractLsb' 0 64) h
    simp only [BitVec.extractLsb'_append_eq_left] at h1
    simp only [BitVec.extractLsb'_append_eq_right] at h2
    exact ⟨h1, h2⟩
  · rintro ⟨rfl, rfl⟩; rfl

/-- A row of the table selects by its opcode and its operand (R94). -/
theorem selects_iff (n : String) (mo po : Byte) (ma pa : Word64) (w : CmdWord) :
    OpcodeRow.selects ⟨n, mo ++ ma, po ++ pa⟩ w = ((opOf w &&& mo) == po && (argOf w &&& ma) == pa) := by
  have h : w &&& (mo ++ ma) = (opOf w &&& mo) ++ (argOf w &&& ma) := by
    conv_lhs => rw [← append_op_arg w]
    rw [BitVec.and_append]
  show (w &&& (mo ++ ma) == po ++ pa) = _
  rw [h, Bool.eq_iff_iff]
  simp [word_append_inj]

/-- The table's rows, opcode and operand apart. -/
theorem opcodeTable_eq : opcodeTable =
  [⟨"CLEAR", 0xFF#8 ++ 0xFFFFFFFFFFFFFFFF#64, 0x01#8 ++ 0#64⟩,
   ⟨"SET_CFG", 0xFF#8 ++ 0#64, 0x02#8 ++ 0#64⟩,
   ⟨"COUNT", 0xFF#8 ++ 0#64, 0x10#8 ++ 0#64⟩,
   ⟨"MERGE", 0xFF#8 ++ 0xFFFFFFFFFFFFFFFF#64, 0x11#8 ++ 0#64⟩,
   ⟨"GET_CODES", 0xFF#8 ++ 0xFFFFFFFFFFFFFFFF#64, 0x12#8 ++ 0#64⟩,
   ⟨"BUILD_DECODER", 0xFF#8 ++ 0xFFFFFFFFFFFFFFFF#64, 0x20#8 ++ 0#64⟩,
   ⟨"RESOLVE", 0xFF#8 ++ 0xFFFFFFFFFFFFFFFF#64, 0x21#8 ++ 0#64⟩,
   ⟨"WRITE_DICT", 0xFF#8 ++ 0xFFFFFFFFFFFFFFFF#64, 0x30#8 ++ 0#64⟩,
   ⟨"READ_DICT", 0xFF#8 ++ 0#64, 0x31#8 ++ 0#64⟩,
   ⟨"ENCODE", 0xFF#8 ++ 0#64, 0x32#8 ++ 0#64⟩,
   ⟨"DECODE", 0xFF#8 ++ 0#64, 0x33#8 ++ 0#64⟩] := by decide

theorem and_ones8 (a : Byte) : a &&& 0xFF#8 = a := BitVec.and_allOnes
theorem and_ones64 (a : Word64) : a &&& 0xFFFFFFFFFFFFFFFF#64 = a := BitVec.and_allOnes

/-- What a word that decodes says. -/
theorem decode_ok {w : CmdWord} {i : Instr} (h : decode w = .ok i) :
    opOf w = i.opcode ∧ argOf w = i.operand ∧ WellFormed i := by
  have hlt := (argOf w).isLt
  unfold decode formatZ at h
  split at h <;> (try split at h) <;> simp only [Except.ok.injEq, reduceCtorEq] at h <;> subst h <;>
    simp_all [Instr.opcode, Instr.operand, WellFormed, Instr.wellFormed, lenFits, lenOf]

end Sys2Proof
end

