-- ==== Sys2Proof/Laws/Memory.lean ====
section
/-!
SUPPORT. The sparse memories: a read after a write, and the canonical form, which every operation keeps.
-/

namespace Sys2Proof.Machine

open Sys2Proof Sys2Proof.Config

variable {α : Type}

/-! ## Read after write -/

@[simp] theorem Memory.get?_nil (a : Nat) : Memory.get? ([] : Memory α) a = none := rfl

@[simp] theorem Memory.get?_set_self (m : Memory α) (a : Nat) (v : α) : (m.set a v).get? a = some v := by
  induction m with
  | nil => simp [Memory.set, Memory.get?]
  | cons e m ih =>
    obtain ⟨k, w⟩ := e
    simp only [Memory.set]
    split
    · simp [Memory.get?]
    · split
      · simp [Memory.get?]
      · simp [Memory.get?, ih, Ne.symm ‹¬a = k›]

theorem Memory.get?_set_ne (m : Memory α) {a b : Nat} (v : α) (h : b ≠ a) : (m.set a v).get? b = m.get? b := by
  induction m with
  | nil => simp [Memory.set, Memory.get?, Ne.symm h]
  | cons e m ih =>
    obtain ⟨k, w⟩ := e
    simp only [Memory.set]
    split
    · simp [Memory.get?, Ne.symm h]
    · split
      · subst a
        simp [Memory.get?, Ne.symm h]
      · simp [Memory.get?, ih]

theorem Memory.get?_set (m : Memory α) (a b : Nat) (v : α) :
    (m.set a v).get? b = if b = a then some v else m.get? b := by
  split
  · subst b; exact m.get?_set_self a v
  · exact m.get?_set_ne v ‹_›

theorem Memory.get?_erase_ne (m : Memory α) {a b : Nat} (h : b ≠ a) : (m.erase a).get? b = m.get? b := by
  induction m with
  | nil => rfl
  | cons e m ih =>
    obtain ⟨k, w⟩ := e
    simp only [Memory.erase]
    split
    · subst a
      simp [Memory.get?, Ne.symm h]
    · simp [Memory.get?, ih]

/-- Below its lowest address a rising memory lists nothing. -/
theorem Memory.get?_of_lt {m : Memory α} {lo a : Nat} (h : m.rising lo = true) (ha : a < lo) : m.get? a = none := by
  induction m generalizing lo with
  | nil => rfl
  | cons e m ih =>
    obtain ⟨k, w⟩ := e
    simp only [Memory.rising, Bool.and_eq_true, decide_eq_true_eq] at h
    have hk : k ≠ a := by omega
    simpa [Memory.get?, hk] using ih h.2 (by omega)

theorem Memory.get?_erase_self {m : Memory α} {lo : Nat} (a : Nat) (h : m.rising lo = true) :
    (m.erase a).get? a = none := by
  induction m generalizing lo with
  | nil => rfl
  | cons e m ih =>
    obtain ⟨k, w⟩ := e
    simp only [Memory.rising, Bool.and_eq_true, decide_eq_true_eq] at h
    simp only [Memory.erase]
    split
    · subst a
      exact Memory.get?_of_lt h.2 (by omega)
    · simpa [Memory.get?, ‹¬k = a›] using ih h.2

theorem Memory.read_write [DecidableEq α] {m : Memory α} {lo : Nat} (d : α) (a b : Nat) (v : α)
    (h : m.rising lo = true) : Memory.read d (m.write d a v) b = if b = a then v else Memory.read d m b := by
  unfold Memory.write Memory.read
  split
  · subst v
    split
    · subst b; simp [Memory.get?_erase_self a h]
    · rw [Memory.get?_erase_ne _ ‹_›]
  · rw [Memory.get?_set]
    split <;> simp

/-! ## The canonical form -/

theorem Memory.rising_mono {m : Memory α} {lo lo' : Nat} (h : m.rising lo = true) (hle : lo' ≤ lo) :
    m.rising lo' = true := by
  cases m with
  | nil => rfl
  | cons e m =>
    simp only [Memory.rising, Bool.and_eq_true, decide_eq_true_eq] at h ⊢
    exact ⟨by omega, h.2⟩

theorem Memory.rising_set {m : Memory α} {lo a : Nat} (v : α) (h : m.rising lo = true) (ha : lo ≤ a) :
    (m.set a v).rising lo = true := by
  induction m generalizing lo with
  | nil => simp [Memory.set, Memory.rising, ha]
  | cons e m ih =>
    obtain ⟨k, w⟩ := e
    simp only [Memory.rising, Bool.and_eq_true, decide_eq_true_eq] at h
    simp only [Memory.set]
    split
    · simp only [Memory.rising, Bool.and_eq_true, decide_eq_true_eq]
      exact ⟨ha, by omega, h.2⟩
    · split
      · simp only [Memory.rising, Bool.and_eq_true, decide_eq_true_eq]
        subst a
        exact ⟨ha, h.2⟩
      · simp only [Memory.rising, Bool.and_eq_true, decide_eq_true_eq]
        exact ⟨h.1, ih h.2 (by omega)⟩

theorem Memory.rising_erase {m : Memory α} {lo : Nat} (a : Nat) (h : m.rising lo = true) :
    (m.erase a).rising lo = true := by
  induction m generalizing lo with
  | nil => rfl
  | cons e m ih =>
    obtain ⟨k, w⟩ := e
    simp only [Memory.rising, Bool.and_eq_true, decide_eq_true_eq] at h
    simp only [Memory.erase]
    split
    · exact Memory.rising_mono h.2 (by omega)
    · simp only [Memory.rising, Bool.and_eq_true, decide_eq_true_eq]
      exact ⟨h.1, ih h.2⟩

theorem Memory.mem_set {m : Memory α} {a : Nat} {v : α} {e : Nat × α} (h : e ∈ m.set a v) : e = (a, v) ∨ e ∈ m := by
  induction m with
  | nil => simpa [Memory.set] using h
  | cons x m ih =>
    obtain ⟨k, w⟩ := x
    simp only [Memory.set] at h
    split at h
    · simpa using h
    · split at h
      · rcases List.mem_cons.1 h with h | h
        · exact .inl h
        · exact .inr (List.mem_cons_of_mem _ h)
      · rcases List.mem_cons.1 h with h | h
        · exact .inr (h ▸ List.mem_cons_self)
        · exact (ih h).imp_right (List.mem_cons_of_mem _)

theorem Memory.mem_erase {m : Memory α} {a : Nat} {e : Nat × α} (h : e ∈ m.erase a) : e ∈ m := by
  induction m with
  | nil => exact h
  | cons x m ih =>
    obtain ⟨k, w⟩ := x
    simp only [Memory.erase] at h
    split at h
    · exact List.mem_cons_of_mem _ h
    · rcases List.mem_cons.1 h with h | h
      · exact h ▸ List.mem_cons_self
      · exact List.mem_cons_of_mem _ (ih h)

/-- What the canonical form says. -/
theorem Memory.wf_iff [DecidableEq α] {lo hi : Nat} {d : Option α} {m : Memory α} :
    m.wf lo hi d = true ↔ m.rising lo = true ∧ ∀ e ∈ m, e.1 ≤ hi ∧ some e.2 ≠ d := by
  simp [Memory.wf, List.all_eq_true]

@[simp] theorem Memory.wf_nil [DecidableEq α] (lo hi : Nat) (d : Option α) : Memory.wf lo hi d ([] : Memory α) = true :=
  rfl

theorem Memory.wf_set [DecidableEq α] {lo hi a : Nat} {d : Option α} {m : Memory α} {v : α} (h : m.wf lo hi d = true)
    (hlo : lo ≤ a) (hhi : a ≤ hi) (hv : some v ≠ d) : (m.set a v).wf lo hi d = true := by
  rw [Memory.wf_iff] at h ⊢
  refine ⟨Memory.rising_set v h.1 hlo, fun e he => ?_⟩
  rcases Memory.mem_set he with rfl | he
  · exact ⟨hhi, hv⟩
  · exact h.2 e he

theorem Memory.wf_erase [DecidableEq α] {lo hi : Nat} {d : Option α} {m : Memory α} (a : Nat) (h : m.wf lo hi d = true) :
    (m.erase a).wf lo hi d = true := by
  rw [Memory.wf_iff] at h ⊢
  exact ⟨Memory.rising_erase a h.1, fun e he => h.2 e (Memory.mem_erase he)⟩

theorem Memory.wf_write [DecidableEq α] {lo hi a : Nat} {d : α} {m : Memory α} (v : α) (h : m.wf lo hi (some d) = true)
    (hlo : lo ≤ a) (hhi : a ≤ hi) : (m.write d a v).wf lo hi (some d) = true := by
  unfold Memory.write
  split
  · exact Memory.wf_erase a h
  · exact Memory.wf_set h hlo hhi (by simpa using ‹_›)

/-- A listed word is in range and is not what an unlisted one reads as. -/
theorem Memory.mem_of_get? {m : Memory α} {a : Nat} {v : α} (h : m.get? a = some v) : (a, v) ∈ m := by
  induction m with
  | nil => simp at h
  | cons e m ih =>
    obtain ⟨k, w⟩ := e
    simp only [Memory.get?] at h
    split at h
    · simp_all
    · exact List.mem_cons_of_mem _ (ih h)

theorem Memory.get?_range [DecidableEq α] {lo hi a : Nat} {d : Option α} {m : Memory α} {v : α}
    (h : m.wf lo hi d = true) (ha : m.get? a = some v) : lo ≤ a ∧ a ≤ hi := by
  rw [Memory.wf_iff] at h
  refine ⟨?_, (h.2 _ (Memory.mem_of_get? ha)).1⟩
  by_contra hlt
  simp [Memory.get?_of_lt h.1 (by omega : a < lo)] at ha

/-- In a rising memory every listed word is read back. -/
theorem Memory.get?_of_mem {m : Memory α} {lo a : Nat} {v : α} (h : m.rising lo = true) (ha : (a, v) ∈ m) :
    m.get? a = some v := by
  induction m generalizing lo with
  | nil => simp at ha
  | cons e m ih =>
    obtain ⟨k, w⟩ := e
    simp only [Memory.rising, Bool.and_eq_true, decide_eq_true_eq] at h
    rcases List.mem_cons.1 ha with ha | ha
    · simp only [Prod.mk.injEq] at ha
      simp [Memory.get?, ha]
    · have hk : k ≠ a := by
        rintro rfl
        have := ih h.2 ha
        simp [Memory.get?_of_lt h.2 (by omega : k < k + 1)] at this
      simpa [Memory.get?, hk] using ih h.2 ha

/-- Two canonical memories that read alike are the same list. -/
theorem Memory.ext_get? {m m' : Memory α} {lo : Nat} (h : m.rising lo = true) (h' : m'.rising lo = true)
    (heq : ∀ a, m.get? a = m'.get? a) : m = m' := by
  induction m generalizing m' lo with
  | nil =>
    cases m' with
    | nil => rfl
    | cons e m' => simpa [Memory.get?] using heq e.1
  | cons e m ih =>
    obtain ⟨k, w⟩ := e
    cases m' with
    | nil => simpa [Memory.get?] using heq k
    | cons e' m' =>
      obtain ⟨k', w'⟩ := e'
      simp only [Memory.rising, Bool.and_eq_true, decide_eq_true_eq] at h h'
      have hkk : k = k' := by
        by_contra hne
        rcases Nat.lt_or_gt_of_ne hne with hlt | hlt
        · have := heq k
          have h0 : Memory.get? m' k = none := Memory.get?_of_lt h'.2 (by omega)
          simp [Memory.get?, Ne.symm hne, h0] at this
        · have := heq k'
          have h0 : Memory.get? m k' = none := Memory.get?_of_lt h.2 (by omega)
          simp [Memory.get?, hne, h0] at this
      subst hkk
      have hw : w = w' := by simpa [Memory.get?] using heq k
      subst hw
      congr 1
      refine ih h.2 h'.2 fun a => ?_
      by_cases ha : k = a
      · subst ha
        rw [Memory.get?_of_lt h.2 (by omega), Memory.get?_of_lt h'.2 (by omega)]
      · simpa [Memory.get?, ha] using heq a

/-! ## The present codes -/

theorem mem_presentCodes {m : Memory Code} {y : Byte} {c : Code} :
    (y, c) ∈ presentCodes m ↔ m.get? y.toNat = some c := by
  simp only [presentCodes, List.mem_filterMap, List.mem_range, Option.map_eq_some_iff, Prod.mk.injEq, alphabetMax]
  constructor
  · rintro ⟨k, hk, c', hc, rfl, rfl⟩
    simpa [Nat.mod_eq_of_lt hk] using hc
  · intro h
    exact ⟨y.toNat, y.isLt, c, h, by simp, rfl⟩

/-- The present symbols ascend. -/
theorem presentCodes_ascending (m : Memory Code) : (presentCodes m).Pairwise fun a b => a.1 < b.1 := by
  rw [presentCodes, List.pairwise_filterMap]
  refine List.pairwise_lt_range.imp_of_mem fun {a b} ha hb hab => ?_
  simp only [alphabetMax, List.mem_range] at ha hb
  rintro ⟨y, c⟩ hy ⟨z, d⟩ hz
  simp only [Option.map_eq_some_iff, Prod.mk.injEq] at hy hz
  obtain ⟨_, _, rfl, rfl⟩ := hy
  obtain ⟨_, _, rfl, rfl⟩ := hz
  simp [BitVec.lt_def, Nat.mod_eq_of_lt ha, Nat.mod_eq_of_lt hb, hab]

theorem presentCodes_nodup (m : Memory Code) : ((presentCodes m).map Prod.fst).Nodup := by
  rw [List.nodup_iff_pairwise_ne, List.pairwise_map]
  exact (presentCodes_ascending m).imp fun h => BitVec.ne_of_lt h

theorem presentCodes_length_le (m : Memory Code) : (presentCodes m).length ≤ 256 := by
  simpa [presentCodes, alphabetMax] using List.length_filterMap_le (fun y => (m.get? y).map fun c => (BitVec.ofNat 8 y, c)) (List.range alphabetMax)

/-- Tables that read alike have the same present codes. -/
theorem presentCodes_congr {m m' : Memory Code} (h : ∀ y : Byte, m.get? y.toNat = m'.get? y.toNat) :
    presentCodes m = presentCodes m' := by
  unfold presentCodes
  refine List.filterMap_congr fun y hy => ?_
  simp only [alphabetMax, List.mem_range] at hy
  have := h (BitVec.ofNat 8 y)
  simp only [BitVec.toNat_ofNat, Nat.reducePow, Nat.mod_eq_of_lt hy] at this
  rw [this]

end Sys2Proof.Machine
end

