-- ==== Sys2Proof/Laws/State.lean ====
section
/-!
SUPPORT. One lemma per field of State for each of the named updates the commands are made of (Machine/Ops.lean,
Machine/TreeBuilder.lean, Machine/CodeExtractor.lean, Machine/CompactDecoder.lean), so that no proof unfolds a record
update.
-/

namespace Sys2Proof.Machine

open Sys2Proof

/-- `s` with another input queue. -/
def State.withInq (q : List Byte) (s : State) : State := { s with inq := q }

/-! ### `State.raise` ends a command by a fault (R262) -/

@[simp] theorem State.raise_phase (s : State) (e : Err) (info : Word64) : (s.raise e info).phase = e.phase := rfl
@[simp] theorem State.raise_cmd (s : State) (e : Err) (info : Word64) : (s.raise e info).cmd = s.cmd := rfl
@[simp] theorem State.raise_freqs (s : State) (e : Err) (info : Word64) : (s.raise e info).freqs = s.freqs := rfl
@[simp] theorem State.raise_tree (s : State) (e : Err) (info : Word64) : (s.raise e info).tree = s.tree := rfl
@[simp] theorem State.raise_codes (s : State) (e : Err) (info : Word64) : (s.raise e info).codes = s.codes := rfl
@[simp] theorem State.raise_dec (s : State) (e : Err) (info : Word64) : (s.raise e info).dec = s.dec := rfl
@[simp] theorem State.raise_errcode (s : State) (e : Err) (info : Word64) :
    (s.raise e info).errcode = if s.errcode = 0 then e.code else s.errcode := rfl
@[simp] theorem State.raise_errinfo (s : State) (e : Err) (info : Word64) :
    (s.raise e info).errinfo = if s.errcode = 0 then info else s.errinfo := rfl
@[simp] theorem State.raise_cfg (s : State) (e : Err) (info : Word64) : (s.raise e info).cfg = s.cfg := rfl
@[simp] theorem State.raise_consumedReg (s : State) (e : Err) (info : Word64) :
    (s.raise e info).consumedReg = s.work.consumed := rfl
@[simp] theorem State.raise_producedReg (s : State) (e : Err) (info : Word64) :
    (s.raise e info).producedReg = s.work.produced := rfl
@[simp] theorem State.raise_encTrail (s : State) (e : Err) (info : Word64) :
    (s.raise e info).encTrail = s.encTrail := rfl
@[simp] theorem State.raise_result (s : State) (e : Err) (info : Word64) : (s.raise e info).result = s.result := rfl
@[simp] theorem State.raise_inq (s : State) (e : Err) (info : Word64) : (s.raise e info).inq = s.inq := rfl
@[simp] theorem State.raise_outq (s : State) (e : Err) (info : Word64) : (s.raise e info).outq = s.outq := rfl
@[simp] theorem State.raise_received (s : State) (e : Err) (info : Word64) :
    (s.raise e info).received = s.received := rfl
@[simp] theorem State.raise_work (s : State) (e : Err) (info : Word64) : (s.raise e info).work = s.work := rfl
@[simp] theorem State.raise_params (s : State) (e : Err) (info : Word64) : (s.raise e info).params = s.params := rfl
@[simp] theorem State.raise_script (s : State) (e : Err) (info : Word64) : (s.raise e info).script = s.script := rfl
@[simp] theorem State.raise_ties (s : State) (e : Err) (info : Word64) : (s.raise e info).ties = s.ties := rfl
@[simp] theorem State.raise_draws (s : State) (e : Err) (info : Word64) : (s.raise e info).draws = s.draws := rfl

/-! ### `State.complete` ends a command without a fault (R130) -/

@[simp] theorem State.complete_phase (s : State) : (s.complete).phase = .idle := rfl
@[simp] theorem State.complete_cmd (s : State) : (s.complete).cmd = s.cmd := rfl
@[simp] theorem State.complete_freqs (s : State) : (s.complete).freqs = s.freqs := rfl
@[simp] theorem State.complete_tree (s : State) : (s.complete).tree = s.tree := rfl
@[simp] theorem State.complete_codes (s : State) : (s.complete).codes = s.codes := rfl
@[simp] theorem State.complete_dec (s : State) : (s.complete).dec = s.dec := rfl
@[simp] theorem State.complete_errcode (s : State) : (s.complete).errcode = s.errcode := rfl
@[simp] theorem State.complete_errinfo (s : State) : (s.complete).errinfo = s.errinfo := rfl
@[simp] theorem State.complete_cfg (s : State) : (s.complete).cfg = s.cfg := rfl
@[simp] theorem State.complete_consumedReg (s : State) : (s.complete).consumedReg = s.work.consumed := rfl
@[simp] theorem State.complete_producedReg (s : State) : (s.complete).producedReg = s.work.produced := rfl
@[simp] theorem State.complete_encTrail (s : State) : (s.complete).encTrail = s.encTrail := rfl
@[simp] theorem State.complete_result (s : State) : (s.complete).result = s.result := rfl
@[simp] theorem State.complete_inq (s : State) : (s.complete).inq = s.inq := rfl
@[simp] theorem State.complete_outq (s : State) : (s.complete).outq = s.outq := rfl
@[simp] theorem State.complete_received (s : State) : (s.complete).received = s.received := rfl
@[simp] theorem State.complete_work (s : State) : (s.complete).work = s.work := rfl
@[simp] theorem State.complete_params (s : State) : (s.complete).params = s.params := rfl
@[simp] theorem State.complete_script (s : State) : (s.complete).script = s.script := rfl
@[simp] theorem State.complete_ties (s : State) : (s.complete).ties = s.ties := rfl
@[simp] theorem State.complete_draws (s : State) : (s.complete).draws = s.draws := rfl

/-! ### `State.await` goes on to an `InByte` (R62) -/

@[simp] theorem State.await_phase (s : State) (pos : Pos) : (s.await pos).phase = .busy pos := rfl
@[simp] theorem State.await_cmd (s : State) (pos : Pos) : (s.await pos).cmd = s.cmd := rfl
@[simp] theorem State.await_freqs (s : State) (pos : Pos) : (s.await pos).freqs = s.freqs := rfl
@[simp] theorem State.await_tree (s : State) (pos : Pos) : (s.await pos).tree = s.tree := rfl
@[simp] theorem State.await_codes (s : State) (pos : Pos) : (s.await pos).codes = s.codes := rfl
@[simp] theorem State.await_dec (s : State) (pos : Pos) : (s.await pos).dec = s.dec := rfl
@[simp] theorem State.await_errcode (s : State) (pos : Pos) : (s.await pos).errcode = s.errcode := rfl
@[simp] theorem State.await_errinfo (s : State) (pos : Pos) : (s.await pos).errinfo = s.errinfo := rfl
@[simp] theorem State.await_cfg (s : State) (pos : Pos) : (s.await pos).cfg = s.cfg := rfl
@[simp] theorem State.await_consumedReg (s : State) (pos : Pos) : (s.await pos).consumedReg = s.consumedReg := rfl
@[simp] theorem State.await_producedReg (s : State) (pos : Pos) : (s.await pos).producedReg = s.producedReg := rfl
@[simp] theorem State.await_encTrail (s : State) (pos : Pos) : (s.await pos).encTrail = s.encTrail := rfl
@[simp] theorem State.await_result (s : State) (pos : Pos) : (s.await pos).result = s.result := rfl
@[simp] theorem State.await_inq (s : State) (pos : Pos) : (s.await pos).inq = s.inq := rfl
@[simp] theorem State.await_outq (s : State) (pos : Pos) : (s.await pos).outq = s.outq := rfl
@[simp] theorem State.await_received (s : State) (pos : Pos) : (s.await pos).received = s.received := rfl
@[simp] theorem State.await_work (s : State) (pos : Pos) : (s.await pos).work = s.work := rfl
@[simp] theorem State.await_params (s : State) (pos : Pos) : (s.await pos).params = s.params := rfl
@[simp] theorem State.await_script (s : State) (pos : Pos) : (s.await pos).script = s.script := rfl
@[simp] theorem State.await_ties (s : State) (pos : Pos) : (s.await pos).ties = s.ties := rfl
@[simp] theorem State.await_draws (s : State) (pos : Pos) : (s.await pos).draws = s.draws := rfl

/-! ### `State.begin` starts a command (R130) -/

@[simp] theorem State.begin_phase (s : State) (w : CmdWord) : (s.begin w).phase = .busy .running := rfl
@[simp] theorem State.begin_cmd (s : State) (w : CmdWord) : (s.begin w).cmd = w := rfl
@[simp] theorem State.begin_freqs (s : State) (w : CmdWord) : (s.begin w).freqs = s.freqs := rfl
@[simp] theorem State.begin_tree (s : State) (w : CmdWord) : (s.begin w).tree = s.tree := rfl
@[simp] theorem State.begin_codes (s : State) (w : CmdWord) : (s.begin w).codes = s.codes := rfl
@[simp] theorem State.begin_dec (s : State) (w : CmdWord) : (s.begin w).dec = s.dec := rfl
@[simp] theorem State.begin_errcode (s : State) (w : CmdWord) : (s.begin w).errcode = s.errcode := rfl
@[simp] theorem State.begin_errinfo (s : State) (w : CmdWord) : (s.begin w).errinfo = s.errinfo := rfl
@[simp] theorem State.begin_cfg (s : State) (w : CmdWord) : (s.begin w).cfg = s.cfg := rfl
@[simp] theorem State.begin_consumedReg (s : State) (w : CmdWord) : (s.begin w).consumedReg = s.consumedReg := rfl
@[simp] theorem State.begin_producedReg (s : State) (w : CmdWord) : (s.begin w).producedReg = s.producedReg := rfl
@[simp] theorem State.begin_encTrail (s : State) (w : CmdWord) : (s.begin w).encTrail = s.encTrail := rfl
@[simp] theorem State.begin_result (s : State) (w : CmdWord) : (s.begin w).result = s.result := rfl
@[simp] theorem State.begin_inq (s : State) (w : CmdWord) : (s.begin w).inq = s.inq := rfl
@[simp] theorem State.begin_outq (s : State) (w : CmdWord) : (s.begin w).outq = s.outq := rfl
@[simp] theorem State.begin_received (s : State) (w : CmdWord) : (s.begin w).received = s.received := rfl
@[simp] theorem State.begin_work (s : State) (w : CmdWord) :
    (s.begin w).work = { s.work with consumed := 0, produced := 0 } := rfl
@[simp] theorem State.begin_params (s : State) (w : CmdWord) : (s.begin w).params = s.params := rfl
@[simp] theorem State.begin_script (s : State) (w : CmdWord) : (s.begin w).script = s.script := rfl
@[simp] theorem State.begin_ties (s : State) (w : CmdWord) : (s.begin w).ties = s.ties := rfl
@[simp] theorem State.begin_draws (s : State) (w : CmdWord) : (s.begin w).draws = s.draws := rfl

/-! ### `State.outBytes` appends to OUTQ (R63) -/

@[simp] theorem State.outBytes_phase (s : State) (bs : List Byte) : (s.outBytes bs).phase = s.phase := rfl
@[simp] theorem State.outBytes_cmd (s : State) (bs : List Byte) : (s.outBytes bs).cmd = s.cmd := rfl
@[simp] theorem State.outBytes_freqs (s : State) (bs : List Byte) : (s.outBytes bs).freqs = s.freqs := rfl
@[simp] theorem State.outBytes_tree (s : State) (bs : List Byte) : (s.outBytes bs).tree = s.tree := rfl
@[simp] theorem State.outBytes_codes (s : State) (bs : List Byte) : (s.outBytes bs).codes = s.codes := rfl
@[simp] theorem State.outBytes_dec (s : State) (bs : List Byte) : (s.outBytes bs).dec = s.dec := rfl
@[simp] theorem State.outBytes_errcode (s : State) (bs : List Byte) : (s.outBytes bs).errcode = s.errcode := rfl
@[simp] theorem State.outBytes_errinfo (s : State) (bs : List Byte) : (s.outBytes bs).errinfo = s.errinfo := rfl
@[simp] theorem State.outBytes_cfg (s : State) (bs : List Byte) : (s.outBytes bs).cfg = s.cfg := rfl
@[simp] theorem State.outBytes_consumedReg (s : State) (bs : List Byte) :
    (s.outBytes bs).consumedReg = s.consumedReg := rfl
@[simp] theorem State.outBytes_producedReg (s : State) (bs : List Byte) :
    (s.outBytes bs).producedReg = s.producedReg := rfl
@[simp] theorem State.outBytes_encTrail (s : State) (bs : List Byte) : (s.outBytes bs).encTrail = s.encTrail := rfl
@[simp] theorem State.outBytes_result (s : State) (bs : List Byte) : (s.outBytes bs).result = s.result := rfl
@[simp] theorem State.outBytes_inq (s : State) (bs : List Byte) : (s.outBytes bs).inq = s.inq := rfl
@[simp] theorem State.outBytes_outq (s : State) (bs : List Byte) : (s.outBytes bs).outq = s.outq ++ bs := rfl
@[simp] theorem State.outBytes_received (s : State) (bs : List Byte) : (s.outBytes bs).received = s.received := rfl
@[simp] theorem State.outBytes_work (s : State) (bs : List Byte) :
    (s.outBytes bs).work = { s.work with produced := s.work.produced + BitVec.ofNat 64 bs.length } := rfl
@[simp] theorem State.outBytes_params (s : State) (bs : List Byte) : (s.outBytes bs).params = s.params := rfl
@[simp] theorem State.outBytes_script (s : State) (bs : List Byte) : (s.outBytes bs).script = s.script := rfl
@[simp] theorem State.outBytes_ties (s : State) (bs : List Byte) : (s.outBytes bs).ties = s.ties := rfl
@[simp] theorem State.outBytes_draws (s : State) (bs : List Byte) : (s.outBytes bs).draws = s.draws := rfl

/-! ### `State.inByte` takes the head of INQ (R62) -/

@[simp] theorem State.inByte_phase (s : State) (rest : List Byte) : (s.inByte rest).phase = s.phase := rfl
@[simp] theorem State.inByte_cmd (s : State) (rest : List Byte) : (s.inByte rest).cmd = s.cmd := rfl
@[simp] theorem State.inByte_freqs (s : State) (rest : List Byte) : (s.inByte rest).freqs = s.freqs := rfl
@[simp] theorem State.inByte_tree (s : State) (rest : List Byte) : (s.inByte rest).tree = s.tree := rfl
@[simp] theorem State.inByte_codes (s : State) (rest : List Byte) : (s.inByte rest).codes = s.codes := rfl
@[simp] theorem State.inByte_dec (s : State) (rest : List Byte) : (s.inByte rest).dec = s.dec := rfl
@[simp] theorem State.inByte_errcode (s : State) (rest : List Byte) : (s.inByte rest).errcode = s.errcode := rfl
@[simp] theorem State.inByte_errinfo (s : State) (rest : List Byte) : (s.inByte rest).errinfo = s.errinfo := rfl
@[simp] theorem State.inByte_cfg (s : State) (rest : List Byte) : (s.inByte rest).cfg = s.cfg := rfl
@[simp] theorem State.inByte_consumedReg (s : State) (rest : List Byte) :
    (s.inByte rest).consumedReg = s.consumedReg := rfl
@[simp] theorem State.inByte_producedReg (s : State) (rest : List Byte) :
    (s.inByte rest).producedReg = s.producedReg := rfl
@[simp] theorem State.inByte_encTrail (s : State) (rest : List Byte) : (s.inByte rest).encTrail = s.encTrail := rfl
@[simp] theorem State.inByte_result (s : State) (rest : List Byte) : (s.inByte rest).result = s.result := rfl
@[simp] theorem State.inByte_inq (s : State) (rest : List Byte) : (s.inByte rest).inq = rest := rfl
@[simp] theorem State.inByte_outq (s : State) (rest : List Byte) : (s.inByte rest).outq = s.outq := rfl
@[simp] theorem State.inByte_received (s : State) (rest : List Byte) : (s.inByte rest).received = s.received := rfl
@[simp] theorem State.inByte_work (s : State) (rest : List Byte) :
    (s.inByte rest).work = { s.work with consumed := s.work.consumed + 1 } := rfl
@[simp] theorem State.inByte_params (s : State) (rest : List Byte) : (s.inByte rest).params = s.params := rfl
@[simp] theorem State.inByte_script (s : State) (rest : List Byte) : (s.inByte rest).script = s.script := rfl
@[simp] theorem State.inByte_ties (s : State) (rest : List Byte) : (s.inByte rest).ties = s.ties := rfl
@[simp] theorem State.inByte_draws (s : State) (rest : List Byte) : (s.inByte rest).draws = s.draws := rfl

/-! ### `State.setCand` writes `cand` (R49) -/

@[simp] theorem State.setCand_phase (s : State) (c : Code) : (s.setCand c).phase = s.phase := rfl
@[simp] theorem State.setCand_cmd (s : State) (c : Code) : (s.setCand c).cmd = s.cmd := rfl
@[simp] theorem State.setCand_freqs (s : State) (c : Code) : (s.setCand c).freqs = s.freqs := rfl
@[simp] theorem State.setCand_tree (s : State) (c : Code) : (s.setCand c).tree = s.tree := rfl
@[simp] theorem State.setCand_codes (s : State) (c : Code) : (s.setCand c).codes = s.codes := rfl
@[simp] theorem State.setCand_dec (s : State) (c : Code) : (s.setCand c).dec = s.dec := rfl
@[simp] theorem State.setCand_errcode (s : State) (c : Code) : (s.setCand c).errcode = s.errcode := rfl
@[simp] theorem State.setCand_errinfo (s : State) (c : Code) : (s.setCand c).errinfo = s.errinfo := rfl
@[simp] theorem State.setCand_cfg (s : State) (c : Code) : (s.setCand c).cfg = s.cfg := rfl
@[simp] theorem State.setCand_consumedReg (s : State) (c : Code) : (s.setCand c).consumedReg = s.consumedReg := rfl
@[simp] theorem State.setCand_producedReg (s : State) (c : Code) : (s.setCand c).producedReg = s.producedReg := rfl
@[simp] theorem State.setCand_encTrail (s : State) (c : Code) : (s.setCand c).encTrail = s.encTrail := rfl
@[simp] theorem State.setCand_result (s : State) (c : Code) : (s.setCand c).result = s.result := rfl
@[simp] theorem State.setCand_inq (s : State) (c : Code) : (s.setCand c).inq = s.inq := rfl
@[simp] theorem State.setCand_outq (s : State) (c : Code) : (s.setCand c).outq = s.outq := rfl
@[simp] theorem State.setCand_received (s : State) (c : Code) : (s.setCand c).received = s.received := rfl
@[simp] theorem State.setCand_work (s : State) (c : Code) : (s.setCand c).work = { s.work with cand := c } := rfl
@[simp] theorem State.setCand_params (s : State) (c : Code) : (s.setCand c).params = s.params := rfl
@[simp] theorem State.setCand_script (s : State) (c : Code) : (s.setCand c).script = s.script := rfl
@[simp] theorem State.setCand_ties (s : State) (c : Code) : (s.setCand c).ties = s.ties := rfl
@[simp] theorem State.setCand_draws (s : State) (c : Code) : (s.setCand c).draws = s.draws := rfl

/-! ### `State.setAcc` writes `acc` (R21) -/

@[simp] theorem State.setAcc_phase (s : State) (c : Code) : (s.setAcc c).phase = s.phase := rfl
@[simp] theorem State.setAcc_cmd (s : State) (c : Code) : (s.setAcc c).cmd = s.cmd := rfl
@[simp] theorem State.setAcc_freqs (s : State) (c : Code) : (s.setAcc c).freqs = s.freqs := rfl
@[simp] theorem State.setAcc_tree (s : State) (c : Code) : (s.setAcc c).tree = s.tree := rfl
@[simp] theorem State.setAcc_codes (s : State) (c : Code) : (s.setAcc c).codes = s.codes := rfl
@[simp] theorem State.setAcc_dec (s : State) (c : Code) : (s.setAcc c).dec = s.dec := rfl
@[simp] theorem State.setAcc_errcode (s : State) (c : Code) : (s.setAcc c).errcode = s.errcode := rfl
@[simp] theorem State.setAcc_errinfo (s : State) (c : Code) : (s.setAcc c).errinfo = s.errinfo := rfl
@[simp] theorem State.setAcc_cfg (s : State) (c : Code) : (s.setAcc c).cfg = s.cfg := rfl
@[simp] theorem State.setAcc_consumedReg (s : State) (c : Code) : (s.setAcc c).consumedReg = s.consumedReg := rfl
@[simp] theorem State.setAcc_producedReg (s : State) (c : Code) : (s.setAcc c).producedReg = s.producedReg := rfl
@[simp] theorem State.setAcc_encTrail (s : State) (c : Code) : (s.setAcc c).encTrail = s.encTrail := rfl
@[simp] theorem State.setAcc_result (s : State) (c : Code) : (s.setAcc c).result = s.result := rfl
@[simp] theorem State.setAcc_inq (s : State) (c : Code) : (s.setAcc c).inq = s.inq := rfl
@[simp] theorem State.setAcc_outq (s : State) (c : Code) : (s.setAcc c).outq = s.outq := rfl
@[simp] theorem State.setAcc_received (s : State) (c : Code) : (s.setAcc c).received = s.received := rfl
@[simp] theorem State.setAcc_work (s : State) (c : Code) : (s.setAcc c).work = { s.work with acc := c } := rfl
@[simp] theorem State.setAcc_params (s : State) (c : Code) : (s.setAcc c).params = s.params := rfl
@[simp] theorem State.setAcc_script (s : State) (c : Code) : (s.setAcc c).script = s.script := rfl
@[simp] theorem State.setAcc_ties (s : State) (c : Code) : (s.setAcc c).ties = s.ties := rfl
@[simp] theorem State.setAcc_draws (s : State) (c : Code) : (s.setAcc c).draws = s.draws := rfl

/-! ### `State.setChunk` writes `chunk` (R21) -/

@[simp] theorem State.setChunk_phase (s : State) (c : Code) : (s.setChunk c).phase = s.phase := rfl
@[simp] theorem State.setChunk_cmd (s : State) (c : Code) : (s.setChunk c).cmd = s.cmd := rfl
@[simp] theorem State.setChunk_freqs (s : State) (c : Code) : (s.setChunk c).freqs = s.freqs := rfl
@[simp] theorem State.setChunk_tree (s : State) (c : Code) : (s.setChunk c).tree = s.tree := rfl
@[simp] theorem State.setChunk_codes (s : State) (c : Code) : (s.setChunk c).codes = s.codes := rfl
@[simp] theorem State.setChunk_dec (s : State) (c : Code) : (s.setChunk c).dec = s.dec := rfl
@[simp] theorem State.setChunk_errcode (s : State) (c : Code) : (s.setChunk c).errcode = s.errcode := rfl
@[simp] theorem State.setChunk_errinfo (s : State) (c : Code) : (s.setChunk c).errinfo = s.errinfo := rfl
@[simp] theorem State.setChunk_cfg (s : State) (c : Code) : (s.setChunk c).cfg = s.cfg := rfl
@[simp] theorem State.setChunk_consumedReg (s : State) (c : Code) : (s.setChunk c).consumedReg = s.consumedReg := rfl
@[simp] theorem State.setChunk_producedReg (s : State) (c : Code) : (s.setChunk c).producedReg = s.producedReg := rfl
@[simp] theorem State.setChunk_encTrail (s : State) (c : Code) : (s.setChunk c).encTrail = s.encTrail := rfl
@[simp] theorem State.setChunk_result (s : State) (c : Code) : (s.setChunk c).result = s.result := rfl
@[simp] theorem State.setChunk_inq (s : State) (c : Code) : (s.setChunk c).inq = s.inq := rfl
@[simp] theorem State.setChunk_outq (s : State) (c : Code) : (s.setChunk c).outq = s.outq := rfl
@[simp] theorem State.setChunk_received (s : State) (c : Code) : (s.setChunk c).received = s.received := rfl
@[simp] theorem State.setChunk_work (s : State) (c : Code) : (s.setChunk c).work = { s.work with chunk := c } := rfl
@[simp] theorem State.setChunk_params (s : State) (c : Code) : (s.setChunk c).params = s.params := rfl
@[simp] theorem State.setChunk_script (s : State) (c : Code) : (s.setChunk c).script = s.script := rfl
@[simp] theorem State.setChunk_ties (s : State) (c : Code) : (s.setChunk c).ties = s.ties := rfl
@[simp] theorem State.setChunk_draws (s : State) (c : Code) : (s.setChunk c).draws = s.draws := rfl

/-! ### `State.setCode` writes a word of CODE (R42) -/

@[simp] theorem State.setCode_phase (s : State) (y : Byte) (c : Code) : (s.setCode y c).phase = s.phase := rfl
@[simp] theorem State.setCode_cmd (s : State) (y : Byte) (c : Code) : (s.setCode y c).cmd = s.cmd := rfl
@[simp] theorem State.setCode_freqs (s : State) (y : Byte) (c : Code) : (s.setCode y c).freqs = s.freqs := rfl
@[simp] theorem State.setCode_tree (s : State) (y : Byte) (c : Code) : (s.setCode y c).tree = s.tree := rfl
@[simp] theorem State.setCode_codes (s : State) (y : Byte) (c : Code) : (s.setCode y c).codes = s.codes.put y c := rfl
@[simp] theorem State.setCode_dec (s : State) (y : Byte) (c : Code) : (s.setCode y c).dec = s.dec := rfl
@[simp] theorem State.setCode_errcode (s : State) (y : Byte) (c : Code) : (s.setCode y c).errcode = s.errcode := rfl
@[simp] theorem State.setCode_errinfo (s : State) (y : Byte) (c : Code) : (s.setCode y c).errinfo = s.errinfo := rfl
@[simp] theorem State.setCode_cfg (s : State) (y : Byte) (c : Code) : (s.setCode y c).cfg = s.cfg := rfl
@[simp] theorem State.setCode_consumedReg (s : State) (y : Byte) (c : Code) :
    (s.setCode y c).consumedReg = s.consumedReg := rfl
@[simp] theorem State.setCode_producedReg (s : State) (y : Byte) (c : Code) :
    (s.setCode y c).producedReg = s.producedReg := rfl
@[simp] theorem State.setCode_encTrail (s : State) (y : Byte) (c : Code) : (s.setCode y c).encTrail = s.encTrail := rfl
@[simp] theorem State.setCode_result (s : State) (y : Byte) (c : Code) : (s.setCode y c).result = s.result := rfl
@[simp] theorem State.setCode_inq (s : State) (y : Byte) (c : Code) : (s.setCode y c).inq = s.inq := rfl
@[simp] theorem State.setCode_outq (s : State) (y : Byte) (c : Code) : (s.setCode y c).outq = s.outq := rfl
@[simp] theorem State.setCode_received (s : State) (y : Byte) (c : Code) : (s.setCode y c).received = s.received := rfl
@[simp] theorem State.setCode_work (s : State) (y : Byte) (c : Code) : (s.setCode y c).work = s.work := rfl
@[simp] theorem State.setCode_params (s : State) (y : Byte) (c : Code) : (s.setCode y c).params = s.params := rfl
@[simp] theorem State.setCode_script (s : State) (y : Byte) (c : Code) : (s.setCode y c).script = s.script := rfl
@[simp] theorem State.setCode_ties (s : State) (y : Byte) (c : Code) : (s.setCode y c).ties = s.ties := rfl
@[simp] theorem State.setCode_draws (s : State) (y : Byte) (c : Code) : (s.setCode y c).draws = s.draws := rfl

/-! ### `State.setWalk` writes the traversal state (R48) -/

@[simp] theorem State.setWalk_phase (s : State) (p : Code) (k : List (Nat × Bool)) (d : Bool) :
    (s.setWalk p k d).phase = s.phase := rfl
@[simp] theorem State.setWalk_cmd (s : State) (p : Code) (k : List (Nat × Bool)) (d : Bool) :
    (s.setWalk p k d).cmd = s.cmd := rfl
@[simp] theorem State.setWalk_freqs (s : State) (p : Code) (k : List (Nat × Bool)) (d : Bool) :
    (s.setWalk p k d).freqs = s.freqs := rfl
@[simp] theorem State.setWalk_tree (s : State) (p : Code) (k : List (Nat × Bool)) (d : Bool) :
    (s.setWalk p k d).tree = s.tree := rfl
@[simp] theorem State.setWalk_codes (s : State) (p : Code) (k : List (Nat × Bool)) (d : Bool) :
    (s.setWalk p k d).codes = s.codes := rfl
@[simp] theorem State.setWalk_dec (s : State) (p : Code) (k : List (Nat × Bool)) (d : Bool) :
    (s.setWalk p k d).dec = s.dec := rfl
@[simp] theorem State.setWalk_errcode (s : State) (p : Code) (k : List (Nat × Bool)) (d : Bool) :
    (s.setWalk p k d).errcode = s.errcode := rfl
@[simp] theorem State.setWalk_errinfo (s : State) (p : Code) (k : List (Nat × Bool)) (d : Bool) :
    (s.setWalk p k d).errinfo = s.errinfo := rfl
@[simp] theorem State.setWalk_cfg (s : State) (p : Code) (k : List (Nat × Bool)) (d : Bool) :
    (s.setWalk p k d).cfg = s.cfg := rfl
@[simp] theorem State.setWalk_consumedReg (s : State) (p : Code) (k : List (Nat × Bool)) (d : Bool) :
    (s.setWalk p k d).consumedReg = s.consumedReg := rfl
@[simp] theorem State.setWalk_producedReg (s : State) (p : Code) (k : List (Nat × Bool)) (d : Bool) :
    (s.setWalk p k d).producedReg = s.producedReg := rfl
@[simp] theorem State.setWalk_encTrail (s : State) (p : Code) (k : List (Nat × Bool)) (d : Bool) :
    (s.setWalk p k d).encTrail = s.encTrail := rfl
@[simp] theorem State.setWalk_result (s : State) (p : Code) (k : List (Nat × Bool)) (d : Bool) :
    (s.setWalk p k d).result = s.result := rfl
@[simp] theorem State.setWalk_inq (s : State) (p : Code) (k : List (Nat × Bool)) (d : Bool) :
    (s.setWalk p k d).inq = s.inq := rfl
@[simp] theorem State.setWalk_outq (s : State) (p : Code) (k : List (Nat × Bool)) (d : Bool) :
    (s.setWalk p k d).outq = s.outq := rfl
@[simp] theorem State.setWalk_received (s : State) (p : Code) (k : List (Nat × Bool)) (d : Bool) :
    (s.setWalk p k d).received = s.received := rfl
@[simp] theorem State.setWalk_work (s : State) (p : Code) (k : List (Nat × Bool)) (d : Bool) :
    (s.setWalk p k d).work = { s.work with path := p, stack := k, goingDown := d } := rfl
@[simp] theorem State.setWalk_params (s : State) (p : Code) (k : List (Nat × Bool)) (d : Bool) :
    (s.setWalk p k d).params = s.params := rfl
@[simp] theorem State.setWalk_script (s : State) (p : Code) (k : List (Nat × Bool)) (d : Bool) :
    (s.setWalk p k d).script = s.script := rfl
@[simp] theorem State.setWalk_ties (s : State) (p : Code) (k : List (Nat × Bool)) (d : Bool) :
    (s.setWalk p k d).ties = s.ties := rfl
@[simp] theorem State.setWalk_draws (s : State) (p : Code) (k : List (Nat × Bool)) (d : Bool) :
    (s.setWalk p k d).draws = s.draws := rfl

/-! ### `State.afterDraws` uses up pad bits (R204) -/

@[simp] theorem State.afterDraws_phase (s : State) (t : Nat) : (s.afterDraws t).phase = s.phase := rfl
@[simp] theorem State.afterDraws_cmd (s : State) (t : Nat) : (s.afterDraws t).cmd = s.cmd := rfl
@[simp] theorem State.afterDraws_freqs (s : State) (t : Nat) : (s.afterDraws t).freqs = s.freqs := rfl
@[simp] theorem State.afterDraws_tree (s : State) (t : Nat) : (s.afterDraws t).tree = s.tree := rfl
@[simp] theorem State.afterDraws_codes (s : State) (t : Nat) : (s.afterDraws t).codes = s.codes := rfl
@[simp] theorem State.afterDraws_dec (s : State) (t : Nat) : (s.afterDraws t).dec = s.dec := rfl
@[simp] theorem State.afterDraws_errcode (s : State) (t : Nat) : (s.afterDraws t).errcode = s.errcode := rfl
@[simp] theorem State.afterDraws_errinfo (s : State) (t : Nat) : (s.afterDraws t).errinfo = s.errinfo := rfl
@[simp] theorem State.afterDraws_cfg (s : State) (t : Nat) : (s.afterDraws t).cfg = s.cfg := rfl
@[simp] theorem State.afterDraws_consumedReg (s : State) (t : Nat) : (s.afterDraws t).consumedReg = s.consumedReg := rfl
@[simp] theorem State.afterDraws_producedReg (s : State) (t : Nat) : (s.afterDraws t).producedReg = s.producedReg := rfl
@[simp] theorem State.afterDraws_encTrail (s : State) (t : Nat) : (s.afterDraws t).encTrail = s.encTrail := rfl
@[simp] theorem State.afterDraws_result (s : State) (t : Nat) : (s.afterDraws t).result = s.result := rfl
@[simp] theorem State.afterDraws_inq (s : State) (t : Nat) : (s.afterDraws t).inq = s.inq := rfl
@[simp] theorem State.afterDraws_outq (s : State) (t : Nat) : (s.afterDraws t).outq = s.outq := rfl
@[simp] theorem State.afterDraws_received (s : State) (t : Nat) : (s.afterDraws t).received = s.received := rfl
@[simp] theorem State.afterDraws_work (s : State) (t : Nat) : (s.afterDraws t).work = s.work := rfl
@[simp] theorem State.afterDraws_params (s : State) (t : Nat) : (s.afterDraws t).params = s.params := rfl
@[simp] theorem State.afterDraws_script (s : State) (t : Nat) : (s.afterDraws t).script = s.script := rfl
@[simp] theorem State.afterDraws_ties (s : State) (t : Nat) : (s.afterDraws t).ties = s.ties := rfl
@[simp] theorem State.afterDraws_draws (s : State) (t : Nat) : (s.afterDraws t).draws = s.draws + t := rfl

/-! ### `State.afterPop` pops the queue (R132) -/

@[simp] theorem State.afterPop_phase (s : State) : (s.afterPop).phase = s.phase := rfl
@[simp] theorem State.afterPop_cmd (s : State) : (s.afterPop).cmd = s.cmd := rfl
@[simp] theorem State.afterPop_freqs (s : State) : (s.afterPop).freqs = s.freqs := rfl
@[simp] theorem State.afterPop_tree (s : State) : (s.afterPop).tree = s.tree := rfl
@[simp] theorem State.afterPop_codes (s : State) : (s.afterPop).codes = s.codes := rfl
@[simp] theorem State.afterPop_dec (s : State) : (s.afterPop).dec = s.dec := rfl
@[simp] theorem State.afterPop_errcode (s : State) : (s.afterPop).errcode = s.errcode := rfl
@[simp] theorem State.afterPop_errinfo (s : State) : (s.afterPop).errinfo = s.errinfo := rfl
@[simp] theorem State.afterPop_cfg (s : State) : (s.afterPop).cfg = s.cfg := rfl
@[simp] theorem State.afterPop_consumedReg (s : State) : (s.afterPop).consumedReg = s.consumedReg := rfl
@[simp] theorem State.afterPop_producedReg (s : State) : (s.afterPop).producedReg = s.producedReg := rfl
@[simp] theorem State.afterPop_encTrail (s : State) : (s.afterPop).encTrail = s.encTrail := rfl
@[simp] theorem State.afterPop_result (s : State) : (s.afterPop).result = s.result := rfl
@[simp] theorem State.afterPop_inq (s : State) : (s.afterPop).inq = s.inq := rfl
@[simp] theorem State.afterPop_outq (s : State) : (s.afterPop).outq = s.outq := rfl
@[simp] theorem State.afterPop_received (s : State) : (s.afterPop).received = s.received := rfl
@[simp] theorem State.afterPop_work (s : State) :
    (s.afterPop).work = { s.work with heap := s.work.heap.erase s.popped } := rfl
@[simp] theorem State.afterPop_params (s : State) : (s.afterPop).params = s.params := rfl
@[simp] theorem State.afterPop_script (s : State) : (s.afterPop).script = s.script := rfl
@[simp] theorem State.afterPop_ties (s : State) : (s.afterPop).ties = s.ties + 1 := rfl
@[simp] theorem State.afterPop_draws (s : State) : (s.afterPop).draws = s.draws := rfl

/-! ### `State.join` adds a branch node (R133) -/

@[simp] theorem State.join_phase (s : State) (a b : Nat) : (s.join a b).phase = s.phase := rfl
@[simp] theorem State.join_cmd (s : State) (a b : Nat) : (s.join a b).cmd = s.cmd := rfl
@[simp] theorem State.join_freqs (s : State) (a b : Nat) : (s.join a b).freqs = s.freqs := rfl
@[simp] theorem State.join_tree (s : State) (a b : Nat) :
    (s.join a b).tree =
      { s.tree with node := s.tree.node ++ [.branch (nodeFreq s.tree.node a + nodeFreq s.tree.node b) a b], nnodes := s.tree.nnodes + 1 } := rfl
@[simp] theorem State.join_codes (s : State) (a b : Nat) : (s.join a b).codes = s.codes := rfl
@[simp] theorem State.join_dec (s : State) (a b : Nat) : (s.join a b).dec = s.dec := rfl
@[simp] theorem State.join_errcode (s : State) (a b : Nat) : (s.join a b).errcode = s.errcode := rfl
@[simp] theorem State.join_errinfo (s : State) (a b : Nat) : (s.join a b).errinfo = s.errinfo := rfl
@[simp] theorem State.join_cfg (s : State) (a b : Nat) : (s.join a b).cfg = s.cfg := rfl
@[simp] theorem State.join_consumedReg (s : State) (a b : Nat) : (s.join a b).consumedReg = s.consumedReg := rfl
@[simp] theorem State.join_producedReg (s : State) (a b : Nat) : (s.join a b).producedReg = s.producedReg := rfl
@[simp] theorem State.join_encTrail (s : State) (a b : Nat) : (s.join a b).encTrail = s.encTrail := rfl
@[simp] theorem State.join_result (s : State) (a b : Nat) : (s.join a b).result = s.result := rfl
@[simp] theorem State.join_inq (s : State) (a b : Nat) : (s.join a b).inq = s.inq := rfl
@[simp] theorem State.join_outq (s : State) (a b : Nat) : (s.join a b).outq = s.outq := rfl
@[simp] theorem State.join_received (s : State) (a b : Nat) : (s.join a b).received = s.received := rfl
@[simp] theorem State.join_work (s : State) (a b : Nat) :
    (s.join a b).work = { s.work with heap := s.work.heap ++ [s.tree.node.length] } := rfl
@[simp] theorem State.join_params (s : State) (a b : Nat) : (s.join a b).params = s.params := rfl
@[simp] theorem State.join_script (s : State) (a b : Nat) : (s.join a b).script = s.script := rfl
@[simp] theorem State.join_ties (s : State) (a b : Nat) : (s.join a b).ties = s.ties := rfl
@[simp] theorem State.join_draws (s : State) (a b : Nat) : (s.join a b).draws = s.draws := rfl

/-! ### `State.loadIdx` writes `idx` (R70) -/

@[simp] theorem State.loadIdx_phase (s : State) (c : Code) : (s.loadIdx c).phase = s.phase := rfl
@[simp] theorem State.loadIdx_cmd (s : State) (c : Code) : (s.loadIdx c).cmd = s.cmd := rfl
@[simp] theorem State.loadIdx_freqs (s : State) (c : Code) : (s.loadIdx c).freqs = s.freqs := rfl
@[simp] theorem State.loadIdx_tree (s : State) (c : Code) : (s.loadIdx c).tree = s.tree := rfl
@[simp] theorem State.loadIdx_codes (s : State) (c : Code) : (s.loadIdx c).codes = s.codes := rfl
@[simp] theorem State.loadIdx_dec (s : State) (c : Code) : (s.loadIdx c).dec = s.dec := rfl
@[simp] theorem State.loadIdx_errcode (s : State) (c : Code) : (s.loadIdx c).errcode = s.errcode := rfl
@[simp] theorem State.loadIdx_errinfo (s : State) (c : Code) : (s.loadIdx c).errinfo = s.errinfo := rfl
@[simp] theorem State.loadIdx_cfg (s : State) (c : Code) : (s.loadIdx c).cfg = s.cfg := rfl
@[simp] theorem State.loadIdx_consumedReg (s : State) (c : Code) : (s.loadIdx c).consumedReg = s.consumedReg := rfl
@[simp] theorem State.loadIdx_producedReg (s : State) (c : Code) : (s.loadIdx c).producedReg = s.producedReg := rfl
@[simp] theorem State.loadIdx_encTrail (s : State) (c : Code) : (s.loadIdx c).encTrail = s.encTrail := rfl
@[simp] theorem State.loadIdx_result (s : State) (c : Code) : (s.loadIdx c).result = s.result := rfl
@[simp] theorem State.loadIdx_inq (s : State) (c : Code) : (s.loadIdx c).inq = s.inq := rfl
@[simp] theorem State.loadIdx_outq (s : State) (c : Code) : (s.loadIdx c).outq = s.outq := rfl
@[simp] theorem State.loadIdx_received (s : State) (c : Code) : (s.loadIdx c).received = s.received := rfl
@[simp] theorem State.loadIdx_work (s : State) (c : Code) :
    (s.loadIdx c).work = { s.work with idx := s.dec.idxFor c s.work.idx } := rfl
@[simp] theorem State.loadIdx_params (s : State) (c : Code) : (s.loadIdx c).params = s.params := rfl
@[simp] theorem State.loadIdx_script (s : State) (c : Code) : (s.loadIdx c).script = s.script := rfl
@[simp] theorem State.loadIdx_ties (s : State) (c : Code) : (s.loadIdx c).ties = s.ties := rfl
@[simp] theorem State.loadIdx_draws (s : State) (c : Code) : (s.loadIdx c).draws = s.draws := rfl

/-! ### `State.withInq` is the same machine with another INQ -/

@[simp] theorem State.withInq_phase (s : State) (q : List Byte) : (s.withInq q).phase = s.phase := rfl
@[simp] theorem State.withInq_cmd (s : State) (q : List Byte) : (s.withInq q).cmd = s.cmd := rfl
@[simp] theorem State.withInq_freqs (s : State) (q : List Byte) : (s.withInq q).freqs = s.freqs := rfl
@[simp] theorem State.withInq_tree (s : State) (q : List Byte) : (s.withInq q).tree = s.tree := rfl
@[simp] theorem State.withInq_codes (s : State) (q : List Byte) : (s.withInq q).codes = s.codes := rfl
@[simp] theorem State.withInq_dec (s : State) (q : List Byte) : (s.withInq q).dec = s.dec := rfl
@[simp] theorem State.withInq_errcode (s : State) (q : List Byte) : (s.withInq q).errcode = s.errcode := rfl
@[simp] theorem State.withInq_errinfo (s : State) (q : List Byte) : (s.withInq q).errinfo = s.errinfo := rfl
@[simp] theorem State.withInq_cfg (s : State) (q : List Byte) : (s.withInq q).cfg = s.cfg := rfl
@[simp] theorem State.withInq_consumedReg (s : State) (q : List Byte) : (s.withInq q).consumedReg = s.consumedReg := rfl
@[simp] theorem State.withInq_producedReg (s : State) (q : List Byte) : (s.withInq q).producedReg = s.producedReg := rfl
@[simp] theorem State.withInq_encTrail (s : State) (q : List Byte) : (s.withInq q).encTrail = s.encTrail := rfl
@[simp] theorem State.withInq_result (s : State) (q : List Byte) : (s.withInq q).result = s.result := rfl
@[simp] theorem State.withInq_inq (s : State) (q : List Byte) : (s.withInq q).inq = q := rfl
@[simp] theorem State.withInq_outq (s : State) (q : List Byte) : (s.withInq q).outq = s.outq := rfl
@[simp] theorem State.withInq_received (s : State) (q : List Byte) : (s.withInq q).received = s.received := rfl
@[simp] theorem State.withInq_work (s : State) (q : List Byte) : (s.withInq q).work = s.work := rfl
@[simp] theorem State.withInq_params (s : State) (q : List Byte) : (s.withInq q).params = s.params := rfl
@[simp] theorem State.withInq_script (s : State) (q : List Byte) : (s.withInq q).script = s.script := rfl
@[simp] theorem State.withInq_ties (s : State) (q : List Byte) : (s.withInq q).ties = s.ties := rfl
@[simp] theorem State.withInq_draws (s : State) (q : List Byte) : (s.withInq q).draws = s.draws := rfl

/-! ### PHASE -/

@[simp] theorem Phase.isBusy_busy (pos : Pos) : (Phase.busy pos).isBusy = true := rfl
@[simp] theorem Phase.isBusy_idle : Phase.idle.isBusy = false := rfl
@[simp] theorem Phase.isBusy_fault : Phase.fault.isBusy = false := rfl
@[simp] theorem Phase.isBusy_fatal : Phase.fatal.isBusy = false := rfl
@[simp] theorem Err.isBusy_phase (e : Err) : e.phase.isBusy = false := by cases e <;> rfl
@[simp] theorem Err.phase_ne_idle (e : Err) : e.phase ≠ .idle := by cases e <;> decide
@[simp] theorem Err.phase_ne_busy (e : Err) (pos : Pos) : e.phase ≠ .busy pos := by cases e <;> simp [Err.phase]
@[simp] theorem Err.code_ne_zero (e : Err) : e.code ≠ 0 := by cases e <;> decide
theorem Err.phase_eq_fatal (e : Err) : e.phase = .fatal ↔ e = .bounds := by cases e <;> decide
theorem Err.phase_eq_fault (e : Err) : e.phase = .fault ↔ e ≠ .bounds := by cases e <;> decide

theorem State.isBusy_of_awaiting {s : State} (h : s.awaiting = true) : s.phase.isBusy = true := by
  unfold State.awaiting at h
  split at h <;> simp_all

theorem State.isBusy_iff {s : State} : s.phase.isBusy = true ↔ ∃ pos, s.phase = .busy pos := by
  cases h : s.phase <;> simp

end Sys2Proof.Machine
end

