-- ==== Sys2Proof/Laws/Frame.lean ====
section
/-!
SUPPORT. What every command shares: the common frame (R130) said once, going on byte by byte (R62), and what a step can
do (R12). Proofs about commands cite these and do not unfold `accept`, `pump` or `step`.
-/

namespace Sys2Proof.Machine

open Sys2Proof

/-! ## The common frame -/

/-- Everything `accept` can do when it answers a next state. -/
theorem accept_next {i : Instr} {body : State → Host.Outcome State Fault Refusal} {s t : State}
    (h : accept i body s = .next t) :
    (s.phase ≠ .idle ∧ t = s) ∨
    (s.phase = .idle ∧ ready i s = false ∧ t = (s.begin (encode i)).raise .seq (i.opcode.zeroExtend 64)) ∨
    (s.phase = .idle ∧ ready i s = true ∧ body (s.begin (encode i)) = .next t) := by
  unfold accept at h
  split at h
  · rename_i hp
    split at h
    · exact .inr (.inr ⟨hp, ‹_›, h⟩)
    · rename_i hr
      simp only [Host.Outcome.next.injEq] at h
      exact .inr (.inl ⟨hp, by simpa using hr, h.symm⟩)
  · simp only [Host.Outcome.next.injEq] at h
    exact .inl ⟨‹_›, h.symm⟩

theorem accept_of_ready {i : Instr} {body : State → Host.Outcome State Fault Refusal} {s : State}
    (hp : s.phase = .idle) (hr : ready i s = true) : accept i body s = body (s.begin (encode i)) := by
  simp [accept, hp, hr]

theorem accept_of_not_ready {i : Instr} {body : State → Host.Outcome State Fault Refusal} {s : State}
    (hp : s.phase = .idle) (hr : ready i s = false) :
    accept i body s = .next ((s.begin (encode i)).raise .seq (i.opcode.zeroExtend 64)) := by
  simp [accept, hp, hr]

theorem accept_of_not_idle {i : Instr} {body : State → Host.Outcome State Fault Refusal} {s : State}
    (hp : s.phase ≠ .idle) : accept i body s = .next s := by
  unfold accept
  split
  · exact absurd ‹_› hp
  · rfl

/-- The LEN of a format-N command's word is its operand (R92). -/
theorem len_begin_encode (s : State) (i : Instr) : (s.begin (encode i)).len = i.operand := by
  simp [State.len]

/-- The pseudocode of every command other than CLEAR: step (4) of the common frame (R130). -/
def bodyOf : Instr → State → Host.Outcome State Fault Refusal
  | .clear => fun s => .next s
  | .setCfg v => fun s => .next (setCfgBody v s)
  | .count _ => fun s => .next (pump countByte s.inq (countStart s))
  | .merge => fun s => .next (mergeBody s)
  | .getCodes => getCodesBody
  | .buildDecoder => fun s => .next (storeLoop (presentCodes s.codes.code) (buildStart s))
  | .resolve => fun s => .next (pump lookupByte s.inq (lookupStart s))
  | .writeDict => fun s => .next (writeDictBody s)
  | .readDict _ => fun s => .next (pump dictByte s.inq (dictStart s))
  | .encode _ => fun s => .next (pump encodeByte s.inq (encodeStart s))
  | .decode _ => fun s => .next (pump decodeByte s.inq (decodeStart s))

/-- Every command other than CLEAR is the common frame around its pseudocode. -/
theorem exec_eq_accept {i : Instr} (hi : i ≠ .clear) (s : State) : exec i s = accept i (bodyOf i) s := by
  cases i <;> first | exact absurd rfl hi | rfl

/-- What an instruction other than CLEAR does outside IDLE: nothing (R265, R266, R61). -/
theorem exec_of_not_idle {i : Instr} {s : State} (hi : i ≠ .clear) (hp : s.phase ≠ .idle) : exec i s = .next s := by
  rw [exec_eq_accept hi, accept_of_not_idle hp]

/-- What an instruction whose prerequisite fails does in IDLE (R258). -/
theorem exec_of_not_ready {i : Instr} {s : State} (hp : s.phase = .idle) (hr : ready i s = false) :
    exec i s = .next ((s.begin (encode i)).raise .seq (i.opcode.zeroExtend 64)) := by
  rw [exec_eq_accept (by rintro rfl; simp [ready] at hr), accept_of_not_ready hp hr]

/-- What an instruction whose prerequisite holds does in IDLE. -/
theorem exec_of_ready {i : Instr} {s : State} (hi : i ≠ .clear) (hp : s.phase = .idle) (hr : ready i s = true) :
    exec i s = bodyOf i (s.begin (encode i)) := by
  rw [exec_eq_accept hi, accept_of_ready hp hr]

/-- Everything an instruction other than CLEAR can do. -/
theorem exec_next {i : Instr} {s t : State} (hi : i ≠ .clear) (h : exec i s = .next t) :
    (s.phase ≠ .idle ∧ t = s) ∨
    (s.phase = .idle ∧ ready i s = false ∧ t = (s.begin (encode i)).raise .seq (i.opcode.zeroExtend 64)) ∨
    (s.phase = .idle ∧ ready i s = true ∧ bodyOf i (s.begin (encode i)) = .next t) := by
  rw [exec_eq_accept hi] at h
  exact accept_next h

/-! ## Going on byte by byte -/

@[simp] theorem State.withInq_self (s : State) : s.withInq s.inq = s := rfl

@[simp] theorem State.withInq_withInq (s : State) (q q' : List Byte) : (s.withInq q).withInq q' = s.withInq q' := rfl

@[simp] theorem State.withInq_awaiting (s : State) (q : List Byte) : (s.withInq q).awaiting = s.awaiting := rfl

theorem State.inByte_eq_withInq (s : State) (rest q : List Byte) : s.inByte rest = ((s.withInq q).inByte rest) := rfl

/-- The pseudocode between two `InByte`s does not touch INQ: it neither changes it nor depends on it. -/
def InqFree (f : Byte → State → State) : Prop := ∀ b q s, f b (s.withInq q) = (f b s).withInq q

theorem InqFree.inq {f : Byte → State → State} (hf : InqFree f) (b : Byte) (s : State) : (f b s).inq = s.inq := by
  have := congrArg State.inq (hf b s.inq s)
  simpa using this

/-- An invariant that every round keeps holds after going on. -/
theorem pump_keeps {f : Byte → State → State} (hf : InqFree f) {P : State → Prop}
    (hstep : ∀ b rest s, s.awaiting = true → s.inq = b :: rest → P s → P (f b (s.inByte rest))) :
    ∀ {q : List Byte} {s : State}, s.inq = q → P s → P (pump f q s)
  | [], _, _, hs => hs
  | b :: rest, s, hq, hs => by
    simp only [pump]
    split
    · refine pump_keeps hf hstep ?_ (hstep b rest s ‹_› hq hs)
      simp [hf.inq]
    · exact hs

/-- Going on ends where the command awaits nothing, or where INQ is empty. -/
theorem pump_ends {f : Byte → State → State} (hf : InqFree f) :
    ∀ {q : List Byte} {s : State}, s.inq = q → (pump f q s).awaiting = true → (pump f q s).inq = []
  | [], _, hq, _ => hq
  | b :: rest, s, hq, h => by
    simp only [pump] at h ⊢
    split at h
    · rw [if_pos ‹_›]
      exact pump_ends hf (by simp [hf.inq]) h
    · exact absurd h ‹_›

/-- Bytes that come later are taken as if they had been there (R12). -/
theorem pump_append {f : Byte → State → State} (hf : InqFree f) (b : List Byte) :
    ∀ (a : List Byte) (s : State), s.inq = a →
      pump f (a ++ b) (s.withInq (a ++ b)) =
        pump f ((pump f a s).inq ++ b) ((pump f a s).withInq ((pump f a s).inq ++ b))
  | [], s, hs => by simp [pump, hs]
  | x :: a, s, hs => by
    by_cases hw : s.awaiting = true
    · have hq : (f x (s.inByte a)).inq = a := by simp [hf.inq]
      have hstep : f x ((s.withInq (x :: a ++ b)).inByte (a ++ b)) = (f x (s.inByte a)).withInq (a ++ b) := by
        rw [← hf]; rfl
      simp only [pump, List.cons_append, State.withInq_awaiting, hw, if_true] at hstep ⊢
      rw [hstep]
      exact pump_append hf b a _ hq
    · simp [pump, hw, hs]

/-- One byte at a time. -/
theorem pump_cons {f : Byte → State → State} {b : Byte} {rest : List Byte} {s : State} (h : s.awaiting = true) :
    pump f (b :: rest) s = pump f rest (f b (s.inByte rest)) := by simp [pump, h]

theorem pump_of_not_awaiting {f : Byte → State → State} {q : List Byte} {s : State} (h : s.awaiting = false) :
    pump f q s = s := by
  cases q <;> simp [pump, h]

@[simp] theorem awaiting_of_idle {s : State} (h : s.phase = .idle) : s.awaiting = false := by
  simp [State.awaiting, h]

@[simp] theorem raise_awaiting (s : State) (e : Err) (i : Word64) : (s.raise e i).awaiting = false := by
  cases e <;> rfl

@[simp] theorem complete_awaiting (s : State) : s.complete.awaiting = false := rfl

/-! ## What a step can do -/

/-- A property that every command, every illegal word, going on, and every act of the host keeps, every step keeps. -/
theorem step_keeps {P : State → Prop}
    (hexec : ∀ i s t, P s → exec i s = .next t → P t)
    (hillegal : ∀ w s, P s → P (illegalWord w s))
    (hresume : ∀ s, P s → P (resume s))
    (hscript : ∀ s l, P s → P { s with script := l })
    (hpush : ∀ b s, P s → P (hostPush b s))
    (hpop : ∀ s, P s → P (hostPop s))
    (hreset : ∀ s, P (hardReset s))
    {s t : State} (hs : P s) (h : step s = .next t) : P t := by
  unfold step at h
  split at h
  · simp only [Host.Outcome.next.injEq] at h
    exact h ▸ hresume s hs
  · unfold hostStep at h
    split at h
    · simp only [Host.Outcome.next.injEq] at h; exact h ▸ hs
    · split at h
      · unfold issue at h
        split at h
        · exact hexec _ _ _ (hscript s _ hs) h
        · simp only [Host.Outcome.next.injEq] at h; exact h ▸ hillegal _ _ (hscript s _ hs)
      · simp only [Host.Outcome.next.injEq] at h; exact h ▸ hs
    · simp only [Host.Outcome.next.injEq] at h; exact h ▸ hpush _ _ (hscript s _ hs)
    · split at h
      · simp only [Host.Outcome.next.injEq] at h; exact h ▸ hs
      · simp only [Host.Outcome.next.injEq] at h; exact h ▸ hpop _ (hscript s _ hs)
    · simp only [Host.Outcome.next.injEq] at h; exact h ▸ hscript s _ hs
    · simp only [Host.Outcome.next.injEq] at h; exact h ▸ hreset _

end Sys2Proof.Machine
end

