-- ==== Sys2Proof/Laws/Bodies.lean ====
section
/-!
SUPPORT. What the pseudocode of a command can change (R51), said once: `frameOf i` blanks out what command `i` owns, and
its body keeps the rest.
-/

namespace Sys2Proof.Machine

open Sys2Proof Sys2Proof.Config

/-! ## What is not the command's -/

/-- What every command may write is blanked out: PHASE, the fault and count registers, the working registers. -/
def State.blank (s : State) : State :=
  { s with
    phase := .idle
    errcode := 0
    errinfo := 0
    consumedReg := 0
    producedReg := 0
    work := State.reset.work }

/-- What the command may write beside that is blanked out too (R51). -/
def frameOf : Instr → State → State
  | .clear, s => s.blank
  | .setCfg _, s => { s.blank with cfg := 0 }
  | .count _, s => { s.blank with freqs := State.reset.freqs, inq := [] }
  | .merge, s => { s.blank with tree := State.reset.tree, ties := 0 }
  | .getCodes, s => { s.blank with codes := State.reset.codes }
  | .buildDecoder, s => { s.blank with dec := State.reset.dec }
  | .resolve, s => { s.blank with result := 0, inq := [] }
  | .writeDict, s => { s.blank with outq := [] }
  | .readDict _, s => { s.blank with codes := State.reset.codes, inq := [] }
  | .encode _, s => { s.blank with encTrail := 0, draws := 0, inq := [], outq := [] }
  | .decode _, s => { s.blank with inq := [], outq := [] }

theorem frameOf_cmd {i : Instr} {s t : State} (h : frameOf i t = frameOf i s) : t.cmd = s.cmd := by
  have := congrArg State.cmd h
  cases i <;> exact this

/-- What a round keeps, going on keeps. -/
theorem pump_frame {α : Type} {m : State → α} {f : Byte → State → State} (hf : ∀ b s, m (f b s) = m s)
    (hin : ∀ rest s, m (State.inByte rest s) = m s) : ∀ (q : List Byte) (s : State), m (pump f q s) = m s
  | [], _ => rfl
  | b :: rest, s => by
    simp only [pump]
    split
    · rw [pump_frame hf hin rest, hf, hin]
    · rfl

/-! ## Round by round -/

theorem countLoop_frame (n : Nat) (s : State) : frameOf (.count n) (countLoop s) = frameOf (.count n) s := by
  unfold countLoop; split <;> rfl

theorem countByte_frame (n : Nat) (b : Byte) (s : State) : frameOf (.count n) (countByte b s) = frameOf (.count n) s :=
  countLoop_frame n _

theorem dictNext_frame (n : Nat) (pos : Pos) (s : State) :
    frameOf (.readDict n) (dictNext pos s) = frameOf (.readDict n) s := by
  unfold dictNext; split <;> rfl

theorem dictByte_frame (n : Nat) (b : Byte) (s : State) :
    frameOf (.readDict n) (dictByte b s) = frameOf (.readDict n) s := by
  unfold dictByte
  split
  · split
    · rfl
    · exact dictNext_frame n _ s
  · split
    · rfl
    · split <;> exact dictNext_frame n _ s
  · split
    · rfl
    · exact dictNext_frame n _ (s.setCode b _)
  · rfl

theorem lookupByte_frame (b : Byte) (s : State) : frameOf .resolve (lookupByte b s) = frameOf .resolve s := by
  unfold lookupByte
  split
  · split <;> rfl
  · split
    · rfl
    · split <;> rfl
  · rfl

theorem encodeLoop_frame (n t : Nat) (s : State) : frameOf (.encode n) (encodeLoop t s) = frameOf (.encode n) s := by
  unfold encodeLoop encodeEndChunked encodeEndSimple
  split
  · split <;> split <;> rfl
  · rfl

theorem encodeCode_frame (n t : Nat) (c : Code) (s : State) :
    frameOf (.encode n) (encodeCode t c s) = frameOf (.encode n) s := by
  unfold encodeCode
  split
  · split <;> exact encodeLoop_frame n _ _
  · exact encodeLoop_frame n _ _

theorem encodeByte_frame (n : Nat) (b : Byte) (s : State) : frameOf (.encode n) (encodeByte b s) = frameOf (.encode n) s := by
  unfold encodeByte
  split
  · split
    · rfl
    · exact encodeCode_frame n _ _ s
  · rfl

theorem decodeQuery_frame (n : Nat) (s : State) : frameOf (.decode n) (decodeQuery s) = frameOf (.decode n) s := by
  unfold decodeQuery
  generalize s.lookup s.work.cand = r
  cases r with
  | some y => rfl
  | none =>
    simp only
    split <;> rfl

theorem decodeBit_frame (n : Nat) (x : Bool) (s : State) : frameOf (.decode n) (decodeBit x s) = frameOf (.decode n) s :=
  decodeQuery_frame n ((s.setCand (s.work.cand ++ [x])).loadIdx (s.work.cand ++ [x]))

theorem decodeBits_frame (n : Nat) (xs : Code) (s : State) : frameOf (.decode n) (decodeBits xs s) = frameOf (.decode n) s := by
  induction xs generalizing s with
  | nil => rfl
  | cons x xs ih =>
    simp only [decodeBits]
    split
    · rw [ih, decodeBit_frame]
    · exact decodeBit_frame n x s

theorem unlessEnded_frame {n : Nat} {k : State → State} (hk : ∀ s, frameOf (.decode n) (k s) = frameOf (.decode n) s)
    (s : State) : frameOf (.decode n) (s.unlessEnded k) = frameOf (.decode n) s := by
  unfold State.unlessEnded
  split
  · exact hk s
  · rfl

theorem decodeFinish_frame (n : Nat) (s : State) : frameOf (.decode n) (decodeFinish s) = frameOf (.decode n) s := by
  unfold decodeFinish
  split
  · rfl
  · split <;> rfl

theorem decodeLoop_frame (n : Nat) (s : State) : frameOf (.decode n) (decodeLoop s) = frameOf (.decode n) s := by
  unfold decodeLoop
  split
  · rw [unlessEnded_frame (k := State.complete) (fun _ => rfl), decodeFinish_frame]
  · rfl

theorem chunkLoop_frame (n : Nat) (s : State) : frameOf (.decode n) (chunkLoop s) = frameOf (.decode n) s := by
  unfold chunkLoop; split <;> rfl

theorem payloadLoop_frame (n m k : Nat) (s : State) : frameOf (.decode n) (payloadLoop m k s) = frameOf (.decode n) s := by
  unfold payloadLoop
  split
  · rw [unlessEnded_frame (chunkLoop_frame n), decodeFinish_frame]
  · rfl

theorem decodeByte_frame (n : Nat) (b : Byte) (s : State) : frameOf (.decode n) (decodeByte b s) = frameOf (.decode n) s := by
  unfold decodeByte
  split
  · rw [unlessEnded_frame (decodeLoop_frame n), decodeBits_frame]
  · simp only
    split
    · rfl
    · exact payloadLoop_frame n _ _ (s.setCand [])
  · simp only
    rw [unlessEnded_frame (payloadLoop_frame n _ _), decodeBits_frame]
  · rfl

/-! ## The other commands -/

theorem mergeLoop_keeps (k : Nat) (s : State) : frameOf .merge (mergeLoop k s) = frameOf .merge s := by
  induction k generalizing s with
  | zero => rfl
  | succ k ih =>
    simp only [mergeLoop]
    split
    · rw [ih]; rfl
    · rfl

theorem mergeBody_frame (s : State) : frameOf .merge (mergeBody s) = frameOf .merge s := by
  unfold mergeBody
  split
  · rfl
  · exact (mergeLoop_keeps _ (mergeStart s)).trans rfl

theorem walkMove_frame {s u : State} (h : walkMove s = some u) : frameOf .getCodes u = frameOf .getCodes s := by
  unfold walkMove at h
  split at h
  · obtain rfl := Option.some.inj h; rfl
  · split at h
    · cases h
    · obtain rfl := Option.some.inj h; rfl
    · split at h
      · split at h
        · cases h
        · obtain rfl := Option.some.inj h; rfl
      · split at h <;> (obtain rfl := Option.some.inj h; rfl)

theorem walk_frame (k : Nat) {s u : State} (h : walk k s = some u) : frameOf .getCodes u = frameOf .getCodes s := by
  induction k generalizing s with
  | zero =>
    simp only [walk] at h
    split at h
    · obtain rfl := Option.some.inj h; rfl
    · cases h
  | succ k ih =>
    simp only [walk] at h
    split at h
    · obtain rfl := Option.some.inj h; rfl
    · obtain ⟨v, hv, hu⟩ := Option.bind_eq_some_iff.1 h
      rw [ih hu, walkMove_frame hv]

theorem getCodesBody_frame {s u : State} (h : getCodesBody s = .next u) : frameOf .getCodes u = frameOf .getCodes s := by
  unfold getCodesBody at h
  split at h
  · cases h
  · obtain rfl := Host.Outcome.next.inj h; rfl
  · split at h
    · cases h
    · obtain rfl := Host.Outcome.next.inj h
      rename_i u hu
      exact (walk_frame _ hu).trans rfl

theorem storeCode_frame (y : Byte) (c : Code) (s : State) :
    frameOf .buildDecoder (storeCode y c s) = frameOf .buildDecoder s := by
  unfold storeCode
  split
  · simp only
    split
    · rfl
    · split <;> rfl
  · split <;> rfl

theorem storeLoop_frame (l : List (Byte × Code)) (s : State) :
    frameOf .buildDecoder (storeLoop l s) = frameOf .buildDecoder s := by
  induction l generalizing s with
  | nil => rfl
  | cons e l ih =>
    obtain ⟨y, c⟩ := e
    simp only [storeLoop]
    split
    · rw [ih, storeCode_frame]
    · exact storeCode_frame y c s

/-- Step (4) of a command changes only what the command owns. -/
theorem bodyOf_frame {i : Instr} {s t : State} (h : bodyOf i s = .next t) : frameOf i t = frameOf i s := by
  cases i with
  | clear => obtain rfl := Host.Outcome.next.inj h; rfl
  | setCfg v =>
    obtain rfl := Host.Outcome.next.inj h
    unfold setCfgBody
    split <;> rfl
  | count n =>
    obtain rfl := Host.Outcome.next.inj h
    rw [pump_frame (countByte_frame n) (fun _ _ => rfl)]
    exact countLoop_frame n _
  | merge => obtain rfl := Host.Outcome.next.inj h; exact mergeBody_frame s
  | getCodes => exact getCodesBody_frame h
  | buildDecoder => obtain rfl := Host.Outcome.next.inj h; exact (storeLoop_frame _ _).trans rfl
  | resolve =>
    obtain rfl := Host.Outcome.next.inj h
    rw [pump_frame lookupByte_frame (fun _ _ => rfl)]
    rfl
  | writeDict =>
    obtain rfl := Host.Outcome.next.inj h
    unfold writeDictBody
    split <;> rfl
  | readDict n =>
    obtain rfl := Host.Outcome.next.inj h
    rw [pump_frame (dictByte_frame n) (fun _ _ => rfl)]
    exact dictNext_frame n _ (codesStart s)
  | encode n =>
    obtain rfl := Host.Outcome.next.inj h
    rw [pump_frame (encodeByte_frame n) (fun _ _ => rfl)]
    exact encodeLoop_frame n _ _
  | decode n =>
    obtain rfl := Host.Outcome.next.inj h
    rw [pump_frame (decodeByte_frame n) (fun _ _ => rfl)]
    unfold decodeStart
    split
    · exact chunkLoop_frame n _
    · exact decodeLoop_frame n _

/-- A command other than CLEAR, accepted in IDLE, changes only what it owns, and CMD. -/
theorem exec_frame {i : Instr} {s t : State} (hi : i ≠ .clear) (hp : s.phase = .idle) (h : exec i s = .next t) :
    frameOf i t = frameOf i (s.begin (encode i)) := by
  rcases exec_next hi h with ⟨h1, -⟩ | ⟨-, -, rfl⟩ | ⟨-, -, hb⟩
  · exact absurd hp h1
  · cases i <;> rfl
  · exact bodyOf_frame hb

/-- CMD holds the word of the command that was accepted (R22). -/
theorem exec_cmd {i : Instr} {s t : State} (hp : s.phase = .idle) (h : exec i s = .next t) : t.cmd = encode i := by
  by_cases hi : i = .clear
  · subst hi
    have : execClear s = .next t := h
    simp only [execClear, State.portReady, hp, if_true] at this
    obtain rfl := Host.Outcome.next.inj this
    rfl
  · have := exec_frame hi hp h
    cases i <;> exact congrArg State.cmd this

end Sys2Proof.Machine
end

