-- ==== Sys2Proof/Laws/Count.lean ====
section
/-!
SUPPORT. COUNT (R131): the table after some bytes, and the whole run of the loop.
-/

namespace Sys2Proof.Machine

open Sys2Proof Sys2Proof.Config

/-! ## The table -/

/-- The canonical form of FREQ. -/
abbrev FreqTable.wf (f : FreqTable) : Prop := f.freq.wf 0 255 (some 0) = true

theorem FreqTable.wf_countUp {f : FreqTable} (b : Byte) (h : f.wf) : (f.countUp b).wf :=
  Memory.wf_write _ h (Nat.zero_le _) (by have := b.isLt; omega)

theorem FreqTable.freqOf_countUp {f : FreqTable} (b : Byte) (y : Nat) (h : f.wf) :
    (f.countUp b).freqOf y = if y = b.toNat then f.freqOf y + 1 else f.freqOf y := by
  unfold FreqTable.freqOf FreqTable.countUp
  rw [Memory.read_write (lo := 0) _ _ _ _ (Memory.wf_iff.1 h).1]
  split
  · subst y; rfl
  · rfl

@[simp] theorem FreqTable.countUp_valid (f : FreqTable) (b : Byte) : (f.countUp b).valid = f.valid := rfl
@[simp] theorem FreqTable.countUp_total (f : FreqTable) (b : Byte) : (f.countUp b).total = f.total := rfl

/-- The table after the bytes `x`. -/
def FreqTable.countAll (x : List Byte) (f : FreqTable) : FreqTable := x.foldl (fun f b => f.countUp b) f

@[simp] theorem FreqTable.countAll_nil (f : FreqTable) : f.countAll [] = f := rfl
@[simp] theorem FreqTable.countAll_cons (b : Byte) (x : List Byte) (f : FreqTable) :
    f.countAll (b :: x) = (f.countUp b).countAll x := rfl

theorem FreqTable.wf_countAll (x : List Byte) {f : FreqTable} (h : f.wf) : (f.countAll x).wf := by
  induction x generalizing f with
  | nil => exact h
  | cons b x ih => exact ih (FreqTable.wf_countUp b h)

@[simp] theorem FreqTable.countAll_valid (x : List Byte) (f : FreqTable) : (f.countAll x).valid = f.valid := by
  induction x generalizing f with
  | nil => rfl
  | cons b x ih => simp [ih]

theorem FreqTable.freqOf_countAll (x : List Byte) {f : FreqTable} (y : Byte) (h : f.wf) :
    (f.countAll x).freqOf y.toNat = f.freqOf y.toNat + BitVec.ofNat 64 (x.count y) := by
  induction x generalizing f with
  | nil => simp
  | cons b x ih =>
    rw [FreqTable.countAll_cons, ih (FreqTable.wf_countUp b h), FreqTable.freqOf_countUp b _ h, List.count_cons]
    by_cases hb : y = b
    · subst hb
      simp only [if_true, beq_self_eq_true, BitVec.ofNat_add]
      rw [BitVec.add_assoc, BitVec.add_comm 1]
      rfl
    · have h1 : y.toNat ≠ b.toNat := fun hc => hb (BitVec.eq_of_toNat_eq hc)
      have h2 : (b == y) = false := by simpa using Ne.symm hb
      simp [h1, h2]

/-! ## The sum -/

theorem sum_map_update {g : Nat → Nat} {b n : Nat} (hb : b < n) (d : Nat) :
    ((List.range n).map fun y => if y = b then g y + d else g y).sum = ((List.range n).map g).sum + d := by
  induction n with
  | zero => omega
  | succ n ih =>
    rw [List.range_succ, List.map_append, List.map_append, List.sum_append, List.sum_append]
    by_cases h : b = n
    · subst h
      have : ((List.range b).map fun y => if y = b then g y + d else g y) = (List.range b).map g := by
        refine List.map_congr_left fun y hy => ?_
        have : y ≠ b := by have := List.mem_range.1 hy; omega
        simp [this]
      simp [this]
      omega
    · have hn : n ≠ b := Ne.symm h
      rw [ih (by omega)]
      simp [hn]
      omega

theorem FreqTable.freqOf_le_sum (f : FreqTable) {y : Nat} (hy : y < 256) : (f.freqOf y).toNat ≤ f.sum :=
  List.le_sum_of_mem (List.mem_map.2 ⟨y, List.mem_range.2 hy, rfl⟩)

/-- One more byte counted: the sum grows by one, as long as it fits (R137). -/
theorem FreqTable.sum_countUp {f : FreqTable} (b : Byte) (h : f.wf) (hs : f.sum < 2 ^ 64 - 1) :
    (f.countUp b).sum = f.sum + 1 := by
  unfold FreqTable.sum
  rw [← sum_map_update (g := fun y => (f.freqOf y).toNat) (b := b.toNat) (n := alphabetMax) b.isLt 1]
  congr 1
  refine List.map_congr_left fun y _ => ?_
  rw [FreqTable.freqOf_countUp b y h]
  split
  · subst y
    have := f.freqOf_le_sum b.isLt
    rw [BitVec.toNat_add, Nat.mod_eq_of_lt] <;> simp
    omega
  · rfl

theorem FreqTable.sum_empty (v : Bool) (t : Word64) : FreqTable.sum { valid := v, freq := [], total := t } = 0 := by
  simp [FreqTable.sum, FreqTable.freqOf, Memory.read]

theorem FreqTable.sum_countAll (x : List Byte) {f : FreqTable} (h : f.wf) (hs : f.sum + x.length < 2 ^ 64) :
    (f.countAll x).sum = f.sum + x.length := by
  induction x generalizing f with
  | nil => simp
  | cons b x ih =>
    simp only [List.length_cons] at hs
    have h1 := FreqTable.sum_countUp b h (by omega)
    rw [FreqTable.countAll_cons, ih (FreqTable.wf_countUp b h) (by rw [h1]; omega), h1, List.length_cons]
    omega

/-! ## The loop -/

/-- COUNT's registers after the bytes `x`, `rest` being what is left in INQ. -/
def State.counted (x rest : List Byte) (s : State) : State :=
  { s with
    freqs := s.freqs.countAll x
    inq := rest
    work := { s.work with consumed := s.work.consumed + BitVec.ofNat 64 x.length } }

/-- The end of COUNT. -/
def countEnd (s : State) : State := State.complete { s with freqs := { s.freqs with total := s.len, valid := true } }

theorem countLoop_of_eq {s : State} (h : s.work.consumed = s.len) : countLoop s = countEnd s := by
  simp [countLoop, h, countEnd]

theorem countLoop_of_ne {s : State} (h : s.work.consumed ≠ s.len) : countLoop s = s.await .counting := by
  simp [countLoop, h]

/-- The loop's head does not look at where the command stands. -/
theorem countLoop_await (s : State) (pos : Pos) : countLoop (s.await pos) = countLoop s := by
  by_cases h : s.work.consumed = s.len
  · rw [countLoop_of_eq h, countLoop_of_eq (s := s.await pos) h]; rfl
  · rw [countLoop_of_ne h, countLoop_of_ne (s := s.await pos) h]; rfl

theorem countLoop_inq (s : State) : (countLoop s).inq = s.inq := by
  by_cases h : s.work.consumed = s.len
  · rw [countLoop_of_eq h]; rfl
  · rw [countLoop_of_ne h]; rfl

/-- One round at the loop's head. -/
theorem countByte_inByte (b : Byte) (q : List Byte) (s : State) :
    countByte b ((s.await .counting).inByte q) = countLoop (s.counted [b] q) := by
  rw [← countLoop_await (s.counted [b] q) .counting]
  rfl

theorem State.counted_counted (x y q r : List Byte) (s : State) :
    (s.counted x q).counted y r = s.counted (x ++ y) r := by
  simp [State.counted, FreqTable.countAll, BitVec.ofNat_add, BitVec.add_assoc]

theorem consumed_succ {s : State} {n : Nat} (h : s.work.consumed.toNat + (n + 1) ≤ s.len.toNat) :
    (s.work.consumed + 1).toNat = s.work.consumed.toNat + 1 := by
  have := s.len.isLt
  rw [BitVec.toNat_add, Nat.mod_eq_of_lt] <;> simp
  omega

/-- COUNT's loop over exactly the bytes it still needs. -/
theorem pump_count (x rest : List Byte) :
    ∀ {s : State}, s.inq = x ++ rest → s.work.consumed.toNat + x.length = s.len.toNat →
      pump countByte s.inq (countLoop s) = countEnd (s.counted x rest) := by
  induction x with
  | nil =>
    intro s hq h
    have hc : s.work.consumed = s.len := BitVec.eq_of_toNat_eq (by simpa using h)
    have hs : s.counted [] rest = s := by
      rw [List.nil_append] at hq
      simp [State.counted, ← hq]
    rw [countLoop_of_eq hc, pump_of_not_awaiting rfl, hs]
  | cons b x ih =>
    intro s hq h
    simp only [List.length_cons] at h
    have hc : s.work.consumed ≠ s.len := fun hc => by rw [hc] at h; omega
    have hk := consumed_succ (s := s) (n := x.length) (by omega)
    rw [hq, countLoop_of_ne hc, List.cons_append, pump_cons rfl, countByte_inByte]
    have := @ih (s.counted [b] (x ++ rest)) rfl (by
      show (s.work.consumed + 1).toNat + x.length = s.len.toNat
      omega)
    rw [show (s.counted [b] (x ++ rest)).inq = x ++ rest from rfl] at this
    rw [this, State.counted_counted]
    rfl

/-- COUNT's loop over fewer bytes than it still needs: it holds (R62). -/
theorem pump_count_short (x : List Byte) :
    ∀ {s : State}, s.inq = x → s.work.consumed.toNat + x.length < s.len.toNat →
      pump countByte s.inq (countLoop s) = (s.counted x []).await .counting := by
  induction x with
  | nil =>
    intro s hq h
    have hc : s.work.consumed ≠ s.len := fun hc => by rw [hc] at h; simp at h
    have hs : s.counted [] s.inq = s := by simp [State.counted]
    rw [hq] at hs
    rw [countLoop_of_ne hc, hq, hs]
    rfl
  | cons b x ih =>
    intro s hq h
    simp only [List.length_cons] at h
    have hc : s.work.consumed ≠ s.len := fun hc => by rw [hc] at h; omega
    have hk := consumed_succ (s := s) (n := x.length) (by omega)
    rw [hq, countLoop_of_ne hc, pump_cons rfl, countByte_inByte]
    have := @ih (s.counted [b] x) rfl (by
      show (s.work.consumed + 1).toNat + x.length < s.len.toNat
      omega)
    rw [show (s.counted [b] x).inq = x from rfl] at this
    rw [this, State.counted_counted]
    rfl

end Sys2Proof.Machine
end

