-- ==== Sys2Proof/Laws/Merge.lean ====
section
/-!
SUPPORT. MERGE (R133): what PopMin pops, the forest that NODE and HEAP hold at every round, and the tree at the end.
-/

namespace Sys2Proof.Machine

open Sys2Proof Sys2Proof.Config

/-! ## PopMin -/

theorem choose_mem {k : Nat} {l : List Nat} (h : l ≠ []) : choose k l ∈ l := by
  match l, h with
  | [x], _ => simp [choose]
  | x :: y :: l, _ =>
    have hlt : tieBreak k % (x :: y :: l).length < (x :: y :: l).length := Nat.mod_lt _ (by simp)
    simp only [choose, List.getD_eq_getElem?_getD, List.getElem?_eq_getElem hlt, Option.getD_some]
    exact List.getElem_mem hlt

theorem mem_minima {node : List Node} {heap : List Nat} {i : Nat} :
    i ∈ minima node heap ↔ i ∈ heap ∧ ∀ j ∈ heap, nodeFreq node i ≤ nodeFreq node j := by
  simp [minima, List.mem_filter, List.all_eq_true]

theorem exists_least (f : Nat → Nat) {l : List Nat} (h : l ≠ []) : ∃ i ∈ l, ∀ j ∈ l, f i ≤ f j := by
  induction l with
  | nil => exact absurd rfl h
  | cons a l ih =>
    by_cases hl : l = []
    · exact ⟨a, by simp, by simp [hl]⟩
    · obtain ⟨i, hi, hmin⟩ := ih hl
      by_cases hai : f a ≤ f i
      · exact ⟨a, by simp, fun j hj => by rcases List.mem_cons.1 hj with rfl | hj; exacts [le_rfl, hai.trans (hmin j hj)]⟩
      · exact ⟨i, by simp [hi], fun j hj => by rcases List.mem_cons.1 hj with rfl | hj; exacts [by omega, hmin j hj]⟩

theorem minima_ne_nil {node : List Node} {heap : List Nat} (h : heap ≠ []) : minima node heap ≠ [] := by
  obtain ⟨i, hi, hmin⟩ := exists_least (fun i => (nodeFreq node i).toNat) h
  exact List.ne_nil_of_mem (mem_minima.2 ⟨hi, fun j hj => BitVec.le_def.2 (hmin j hj)⟩)

/-- PopMin pops a member of least frequency (R132). -/
theorem State.popped_spec {s : State} (h : s.work.heap ≠ []) :
    s.popped ∈ s.work.heap ∧ ∀ j ∈ s.work.heap, nodeFreq s.tree.node s.popped ≤ nodeFreq s.tree.node j :=
  mem_minima.1 (choose_mem (minima_ne_nil h))

/-! ## Trees in NODE -/

theorem HTree.idx_mem_nodes (T : HTree) : T.idx ∈ T.nodes := by cases T <;> simp [HTree.idx, HTree.nodes]

@[simp] theorem HTree.freq_branch (i : Nat) (f : Word64) (l r : HTree) : (HTree.branch i f l r).freq = f := rfl

/-- A tree stays in NODE when a node is added. -/
theorem HTree.In.append {node : List Node} {T : HTree} (h : T.In node) (l : List Node) : T.In (node ++ l) := by
  have hget : ∀ {i : Nat} {x : Node}, node[i]? = some x → (node ++ l)[i]? = some x := by
    intro i x hx
    rw [List.getElem?_append_left (List.getElem?_eq_some_iff.1 hx).1, hx]
  induction T with
  | leaf i y f => exact hget h
  | branch i f l' r ihl ihr => exact ⟨hget h.1, ihl h.2.1, ihr h.2.2⟩

/-- The frequency of a tree in NODE is that of its root's node. -/
theorem HTree.In.nodeFreq {node : List Node} {T : HTree} (h : T.In node) : nodeFreq node T.idx = T.freq := by
  cases T with
  | leaf i y f => simp [Machine.nodeFreq, HTree.idx, HTree.freq, show node[i]? = _ from h]
  | branch i f l r => simp [Machine.nodeFreq, HTree.idx, HTree.freq, h.1]

theorem HTree.In.idx_lt {node : List Node} {T : HTree} (h : T.In node) : T.idx < node.length := by
  cases T with
  | leaf i y f => exact (List.getElem?_eq_some_iff.1 h).1
  | branch i f l r => exact (List.getElem?_eq_some_iff.1 h.1).1

/-- A tree of `k` leaves has `2k - 1` nodes. -/
theorem HTree.length_nodes (T : HTree) : T.nodes.length + 1 = 2 * T.leaves.length := by
  induction T with
  | leaf => rfl
  | branch i f l r ihl ihr => simp only [HTree.nodes, HTree.leaves, List.length_append, List.length_cons]; omega

/-- The frequency of a weighted tree is the sum of its leaves' frequencies. -/
theorem HTree.Weighted.sum {T : HTree} (h : T.Weighted) : T.freq.toNat = (T.leaves.map fun e => e.2.toNat).sum := by
  induction T with
  | leaf => simp [HTree.freq, HTree.leaves]
  | branch i f l r ihl ihr =>
    simp only [HTree.freq, HTree.leaves, List.map_append, List.sum_append, ← ihl h.2.2.1, ← ihr h.2.2.2]
    exact h.1

/-! ## The forest -/

/-- The trees whose roots are the members of the queue. -/
structure Forest (node : List Node) (heap : List Nat) (F : List HTree) : Prop where
  roots : heap.Perm (F.map HTree.idx)
  placed : ∀ T ∈ F, T.In node
  weighted : ∀ T ∈ F, T.Weighted
  nodes : (F.flatMap HTree.nodes).Perm (List.range node.length)

/-- Take the tree of a member of the queue out of the forest. -/
theorem Forest.take {heap : List Nat} {F : List HTree} (h : heap.Perm (F.map HTree.idx)) {i : Nat}
    (hi : i ∈ heap) : ∃ T F', F.Perm (T :: F') ∧ T.idx = i ∧ (heap.erase i).Perm (F'.map HTree.idx) := by
  obtain ⟨T, hT, rfl⟩ := List.mem_map.1 (h.mem_iff.1 hi)
  refine ⟨T, F.erase T, List.perm_cons_erase hT, rfl, ?_⟩
  have := (h.trans ((List.perm_cons_erase hT).map HTree.idx)).erase T.idx
  simpa using this

/-- One round of MERGE: two least trees become one. -/
theorem Forest.mergeOnce {s : State} {F : List HTree} {W : Nat} (h : Forest s.tree.node s.work.heap F)
    (hW : (F.map fun T => T.freq.toNat).sum = W) (hlt : W < 2 ^ 64) (hlen : 1 < s.work.heap.length) :
    ∃ A B F', F.Perm (A :: B :: F') ∧ A.freq ≤ B.freq ∧ (∀ T ∈ F', B.freq ≤ T.freq) ∧
      (mergeOnce s).tree.node = s.tree.node ++ [.branch (A.freq + B.freq) A.idx B.idx] ∧
      Forest (mergeOnce s).tree.node (mergeOnce s).work.heap
        (F' ++ [.branch s.tree.node.length (A.freq + B.freq) A B]) ∧
      (A.freq + B.freq).toNat = A.freq.toNat + B.freq.toNat ∧
      (mergeOnce s).work.heap.length + 1 = s.work.heap.length := by
  have hne : s.work.heap ≠ [] := List.ne_nil_of_length_pos (by omega)
  obtain ⟨hp, hmin⟩ := State.popped_spec hne
  obtain ⟨A, F1, hF1, hA, hh1⟩ := Forest.take h.roots hp
  have hlen1 : s.afterPop.work.heap.length + 1 = s.work.heap.length := by
    show (s.work.heap.erase s.popped).length + 1 = _
    rw [List.length_erase_of_mem hp]; omega
  have hne1 : s.afterPop.work.heap ≠ [] := List.ne_nil_of_length_pos (by omega)
  obtain ⟨hp1, hmin1⟩ := State.popped_spec hne1
  obtain ⟨B, F', hF', hB, hh'⟩ := Forest.take (heap := s.afterPop.work.heap) hh1 hp1
  have hperm : F.Perm (A :: B :: F') := hF1.trans (hF'.cons A)
  have hmemA : A ∈ F := hperm.mem_iff.2 (by simp)
  have hmemB : B ∈ F := hperm.mem_iff.2 (by simp)
  have hin : ∀ T ∈ F', T ∈ F := fun T hT => hperm.mem_iff.2 (by simp [hT])
  have hfA := (h.placed A hmemA).nodeFreq
  have hfB := (h.placed B hmemB).nodeFreq
  have hpopB : s.afterPop.popped = B.idx := hB.symm
  have hpopA : s.popped = A.idx := hA.symm
  have hroot : ∀ T ∈ F, T.idx ∈ s.work.heap := fun T hT => h.roots.mem_iff.2 (List.mem_map.2 ⟨T, hT, rfl⟩)
  have hAB : A.freq ≤ B.freq := by
    have := hmin B.idx (hroot B hmemB)
    rwa [hpopA, hfA, hfB] at this
  have hBT : ∀ T ∈ F', B.freq ≤ T.freq := by
    intro T hT
    have hTh : T.idx ∈ s.afterPop.work.heap :=
      hh1.mem_iff.2 (List.mem_map.2 ⟨T, hF'.mem_iff.2 (by simp [hT]), rfl⟩)
    have : nodeFreq s.tree.node s.afterPop.popped ≤ nodeFreq s.tree.node T.idx := hmin1 T.idx hTh
    rwa [hpopB, hfB, (h.placed T (hin T hT)).nodeFreq] at this
  have hsum : A.freq.toNat + (B.freq.toNat + (F'.map fun T => T.freq.toNat).sum) = W := by
    have := (hperm.map fun T => T.freq.toNat).sum_eq
    simpa [hW] using this.symm
  have hadd : (A.freq + B.freq).toNat = A.freq.toNat + B.freq.toNat := by
    rw [BitVec.toNat_add, Nat.mod_eq_of_lt]; omega
  have hnode : (Machine.mergeOnce s).tree.node = s.tree.node ++ [.branch (A.freq + B.freq) A.idx B.idx] := by
    show s.tree.node ++ [.branch (nodeFreq s.tree.node s.popped + nodeFreq s.tree.node s.afterPop.popped) s.popped
      s.afterPop.popped] = _
    rw [hpopA, hpopB, hfA, hfB]
  have hheap : (Machine.mergeOnce s).work.heap = (s.work.heap.erase s.popped).erase s.afterPop.popped ++ [s.tree.node.length] :=
    rfl
  refine ⟨A, B, F', hperm, hAB, hBT, hnode, ⟨?_, ?_, ?_, ?_⟩, hadd, ?_⟩
  · rw [hheap, List.map_append]
    exact hh'.append (List.Perm.refl _)
  · intro T hT
    rw [hnode]
    rcases List.mem_append.1 hT with hT | hT
    · exact (h.placed T (hin T hT)).append _
    · rw [List.mem_singleton.1 hT]
      exact ⟨by simp, (h.placed A hmemA).append _, (h.placed B hmemB).append _⟩
  · intro T hT
    rcases List.mem_append.1 hT with hT | hT
    · exact h.weighted T (hin T hT)
    · rw [List.mem_singleton.1 hT]
      exact ⟨hadd, hAB, h.weighted A hmemA, h.weighted B hmemB⟩
  · rw [hnode]
    have h1 : ((A :: B :: F').flatMap HTree.nodes).Perm (List.range s.tree.node.length) :=
      (List.Perm.flatMap_right _ hperm).symm.trans h.nodes
    simp only [List.flatMap_append, List.flatMap_cons, List.flatMap_nil, List.append_nil, HTree.nodes,
      List.length_append, List.length_singleton, List.range_succ] at h1 ⊢
    refine List.Perm.trans ?_ (h1.append_right [s.tree.node.length])
    refine List.perm_iff_count.2 fun a => ?_
    simp only [List.count_append, List.count_cons, List.count_nil]
    omega
  · have h2 : ((s.work.heap.erase s.popped).erase s.afterPop.popped).length = (s.work.heap.erase s.popped).length - 1 :=
      List.length_erase_of_mem hp1
    have h3 : (s.work.heap.erase s.popped).length + 1 = s.work.heap.length := hlen1
    have h4 : 0 < (s.work.heap.erase s.popped).length := List.length_pos_of_mem hp1
    rw [hheap, List.length_append, h2, List.length_singleton]
    omega

/-- MERGE's loop over the forest of a table: the leaves are the first `k` nodes, and the branches' frequencies do not
fall in creation order (R135 (d)). `W` is the sum of the leaves' frequencies. -/
structure Merging (k W : Nat) (L : List (Byte × Word64)) (s : State) (F : List HTree) : Prop where
  forest : Forest s.tree.node s.work.heap F
  leaves : (F.flatMap HTree.leaves).Perm L
  weight : (F.map fun T => T.freq.toNat).sum = W
  count : s.tree.node.length + s.work.heap.length = 2 * k
  nnodes : s.tree.nnodes = BitVec.ofNat 10 s.tree.node.length
  last : s.tree.node.length = k ∨ s.tree.node.length - 1 ∈ s.work.heap
  branches : ∃ least, (∀ T ∈ F, least ≤ T.freq.toNat) ∧
    (∀ i, k ≤ i → i < s.tree.node.length → (nodeFreq s.tree.node i).toNat ≤ 2 * least) ∧
    ∀ i j, k ≤ i → i ≤ j → j < s.tree.node.length → nodeFreq s.tree.node i ≤ nodeFreq s.tree.node j
  queue : ∀ i, i ∈ s.work.heap ↔ i < s.tree.node.length ∧ ¬ Popped s.tree.node s.tree.node.length i
  least : Greedy s.tree.node

theorem nodeFreq_append {node : List Node} {i : Nat} (h : i < node.length) (l : List Node) :
    nodeFreq (node ++ l) i = nodeFreq node i := by
  simp [nodeFreq, List.getElem?_append_left h]

theorem nodeFreq_last (node : List Node) (f : Word64) (a b : Nat) :
    nodeFreq (node ++ [.branch f a b]) node.length = f := by
  simp [nodeFreq]

theorem Forest.roots_nodup {node : List Node} {heap : List Nat} {F : List HTree} (h : Forest node heap F) :
    (F.map HTree.idx).Nodup := by
  have hn : (F.flatMap HTree.nodes).Nodup := h.nodes.nodup_iff.2 List.nodup_range
  refine hn.sublist ?_
  clear hn h
  induction F with
  | nil => exact List.Sublist.refl _
  | cons T F ih =>
    rw [List.map_cons, List.flatMap_cons]
    have : [T.idx].Sublist T.nodes := List.singleton_sublist.2 T.idx_mem_nodes
    exact this.append ih

theorem popped_append {node : List Node} {f : Word64} {a b j i : Nat} (hj : j ≤ node.length) :
    Popped (node ++ [.branch f a b]) j i ↔ Popped node j i := by
  unfold Popped
  constructor <;>
  · rintro ⟨m, hm, g, x, y, hn, hi⟩
    refine ⟨m, hm, g, x, y, ?_, hi⟩
    rw [List.getElem?_append_left (by omega)] at *
    exact hn

theorem popped_last {node : List Node} {f : Word64} {a b i : Nat} :
    Popped (node ++ [.branch f a b]) (node.length + 1) i ↔ Popped node node.length i ∨ i = a ∨ i = b := by
  constructor
  · rintro ⟨m, hm, g, x, y, hn, hi⟩
    by_cases hml : m < node.length
    · rw [List.getElem?_append_left hml] at hn
      exact .inl ⟨m, hml, g, x, y, hn, hi⟩
    · obtain rfl : m = node.length := by omega
      rw [List.getElem?_append_right le_rfl] at hn
      simp at hn
      obtain ⟨rfl, rfl, rfl⟩ := hn
      exact .inr hi
  · rintro (⟨m, hm, g, x, y, hn, hi⟩ | hi)
    · exact ⟨m, by omega, g, x, y, by rw [List.getElem?_append_left hm]; exact hn, hi⟩
    · exact ⟨node.length, by omega, f, a, b, by simp, hi⟩

theorem Greedy.not_popped {node : List Node} (h : Greedy node) : ¬ Popped node node.length node.length := by
  rintro ⟨m, hm, g, x, y, hn, hi⟩
  have := h m g x y hn
  omega

/-- The branch of two least members of the queue. -/
theorem Greedy.append {node : List Node} {f : Word64} {a b : Nat} (h : Greedy node) (hab : a ≠ b) (ha : a < node.length)
    (hb : b < node.length) (hpa : ¬ Popped node node.length a) (hpb : ¬ Popped node node.length b)
    (hle : nodeFreq node a ≤ nodeFreq node b)
    (hmin : ∀ i, i < node.length → i ≠ a → i ≠ b → ¬ Popped node node.length i → nodeFreq node b ≤ nodeFreq node i) :
    Greedy (node ++ [.branch f a b]) := by
  intro j g x y hj
  by_cases hjl : j < node.length
  · rw [List.getElem?_append_left hjl] at hj
    obtain ⟨h1, h2, h3, h4, h5, h6, h7⟩ := h j g x y hj
    refine ⟨h1, h2, h3, ?_, ?_, ?_, ?_⟩
    · rwa [popped_append (by omega)]
    · rwa [popped_append (by omega)]
    · rwa [nodeFreq_append (by omega), nodeFreq_append (by omega)]
    · intro i hi hia hib hp
      rw [popped_append (by omega)] at hp
      rw [nodeFreq_append (by omega), nodeFreq_append (by omega)]
      exact h7 i hi hia hib hp
  · have hjn : j < (node ++ [Node.branch f a b]).length := by
      by_contra hc
      rw [List.getElem?_eq_none (by omega)] at hj
      cases hj
    rw [List.length_append, List.length_singleton] at hjn
    obtain rfl : j = node.length := by omega
    rw [List.getElem?_append_right le_rfl] at hj
    simp at hj
    obtain ⟨rfl, rfl, rfl⟩ := hj
    refine ⟨ha, hb, hab, ?_, ?_, ?_, ?_⟩
    · rwa [popped_append le_rfl]
    · rwa [popped_append le_rfl]
    · rwa [nodeFreq_append ha, nodeFreq_append hb]
    · intro i hi hia hib hp
      rw [popped_append le_rfl] at hp
      rw [nodeFreq_append hb, nodeFreq_append hi]
      exact hmin i hi hia hib hp

theorem Merging.once {k W : Nat} {L : List (Byte × Word64)} {s : State} {F : List HTree} (h : Merging k W L s F)
    (hW : W < 2 ^ 64) (hlen : 1 < s.work.heap.length) :
    ∃ F', Merging k W L (mergeOnce s) F' ∧ (mergeOnce s).work.heap.length + 1 = s.work.heap.length ∧
      ∃ f a b, (mergeOnce s).tree.node = s.tree.node ++ [.branch f a b] := by
  obtain ⟨A, B, F', hp, hAB, hBT, hnode, hforest, hadd, hheap⟩ := Forest.mergeOnce h.forest h.weight hW hlen
  have hnd := (hp.map HTree.idx).nodup_iff.1 h.forest.roots_nodup
  simp only [List.map_cons, List.nodup_cons, List.mem_cons, not_or] at hnd
  have hmem : ∀ i, i ∈ s.work.heap ↔ i = A.idx ∨ i = B.idx ∨ i ∈ F'.map HTree.idx := fun i => by
    rw [h.forest.roots.mem_iff, (hp.map HTree.idx).mem_iff]
    simp
  have hAin : A.In s.tree.node := h.forest.placed A (hp.mem_iff.2 (by simp))
  have hBin : B.In s.tree.node := h.forest.placed B (hp.mem_iff.2 (by simp))
  have hAq := (h.queue A.idx).1 ((hmem _).2 (.inl rfl))
  have hBq := (h.queue B.idx).1 ((hmem _).2 (.inr (.inl rfl)))
  refine ⟨_, ⟨hforest, ?_, ?_, ?_, ?_, ?_, ?_, ?_, ?_⟩, hheap, _, _, _, hnode⟩
  · refine List.Perm.trans ?_ ((List.Perm.flatMap_right HTree.leaves hp).symm.trans h.leaves)
    simp only [List.flatMap_append, List.flatMap_cons, List.flatMap_nil, List.append_nil, HTree.leaves]
    exact List.perm_append_comm.trans (by rw [List.append_assoc])
  · have := (hp.map fun T => T.freq.toNat).sum_eq
    rw [← h.weight, this]
    simp only [List.map_append, List.map_cons, List.map_nil, List.sum_append, List.sum_cons, List.sum_nil,
      HTree.freq_branch]
    omega
  · have := h.count
    rw [hnode, List.length_append, List.length_singleton]
    omega
  · show s.tree.nnodes + 1 = _
    rw [hnode, h.nnodes, List.length_append, List.length_singleton, BitVec.ofNat_add]
    rfl
  · right
    rw [hnode, List.length_append, List.length_singleton]
    exact List.mem_append_right _ (by simp)
  · obtain ⟨least, hleast, hle, hmono⟩ := h.branches
    have hA : least ≤ A.freq.toNat := hleast A (hp.mem_iff.2 (by simp))
    have hAB' : A.freq.toNat ≤ B.freq.toNat := BitVec.le_def.1 hAB
    have hnew : nodeFreq (mergeOnce s).tree.node s.tree.node.length = A.freq + B.freq := by
      rw [hnode]; exact nodeFreq_last _ _ _ _
    have hold : ∀ i, i < s.tree.node.length → nodeFreq (mergeOnce s).tree.node i = nodeFreq s.tree.node i := by
      intro i hi
      rw [hnode]; exact nodeFreq_append hi _
    have hl : (mergeOnce s).tree.node.length = s.tree.node.length + 1 := by rw [hnode]; simp
    refine ⟨B.freq.toNat, ?_, ?_, ?_⟩
    · intro T hT
      rcases List.mem_append.1 hT with hT | hT
      · exact BitVec.le_def.1 (hBT T hT)
      · rw [List.mem_singleton.1 hT, HTree.freq, hadd]
        omega
    · intro i hk hi
      by_cases hi' : i < s.tree.node.length
      · rw [hold i hi']
        have := hle i hk hi'
        omega
      · obtain rfl : i = s.tree.node.length := by omega
        rw [hnew, hadd]
        omega
    · intro i j hk hij hj
      by_cases hj' : j < s.tree.node.length
      · rw [hold i (by omega), hold j hj']
        exact hmono i j hk hij hj'
      · obtain rfl : j = s.tree.node.length := by omega
        by_cases hi' : i < s.tree.node.length
        · rw [hold i hi', hnew, BitVec.le_def, hadd]
          have := hle i hk hi'
          omega
        · obtain rfl : i = s.tree.node.length := by omega
          exact BitVec.le_refl _
  · intro i
    rw [hforest.roots.mem_iff, hnode, List.length_append, List.length_singleton, popped_last]
    have hidx : HTree.idx (.branch s.tree.node.length (A.freq + B.freq) A B) = s.tree.node.length := rfl
    simp only [List.map_append, List.map_cons, List.map_nil, List.mem_append, List.mem_singleton, hidx]
    have hq := h.queue i
    rw [hmem] at hq
    constructor
    · rintro (hi | rfl)
      · obtain ⟨h1, h2⟩ := hq.1 (.inr (.inr hi))
        refine ⟨by omega, ?_⟩
        rintro (hx | rfl | rfl)
        · exact h2 hx
        · exact hnd.1.2 hi
        · exact hnd.2.1 hi
      · refine ⟨by omega, ?_⟩
        rintro (hx | hx | hx)
        · exact h.least.not_popped hx
        · have := hAq.1; omega
        · have := hBq.1; omega
    · rintro ⟨h1, h2⟩
      simp only [not_or] at h2
      by_cases hi : i = s.tree.node.length
      · exact .inr hi
      · rcases hq.2 ⟨by omega, h2.1⟩ with hx | hx | hx
        · exact absurd hx h2.2.1
        · exact absurd hx h2.2.2
        · exact .inl hx
  · rw [hnode]
    refine h.least.append hnd.1.1 hAq.1 hBq.1 hAq.2 hBq.2 ?_ ?_
    · rw [hAin.nodeFreq, hBin.nodeFreq]; exact hAB
    · intro i hi hia hib hnp
      rcases (hmem i).1 ((h.queue i).2 ⟨hi, hnp⟩) with hx | hx | hx
      · exact absurd hx hia
      · exact absurd hx hib
      · obtain ⟨T, hT, rfl⟩ := List.mem_map.1 hx
        rw [hBin.nodeFreq, (h.forest.placed T (hp.mem_iff.2 (by simp [hT]))).nodeFreq]
        exact hBT T hT

/-- What MERGE's loop changes. -/
theorem mergeLoop_frame (n : Nat) (s : State) :
    ∃ node nn heap ties, mergeLoop n s =
      { s with tree := { s.tree with node := node, nnodes := nn }, work := { s.work with heap := heap }, ties := ties } := by
  induction n generalizing s with
  | zero => exact ⟨s.tree.node, s.tree.nnodes, s.work.heap, s.ties, rfl⟩
  | succ n ih =>
    simp only [mergeLoop]
    split
    · obtain ⟨node, nn, heap, ties, h⟩ := ih (mergeOnce s)
      exact ⟨node, nn, heap, ties, h⟩
    · exact ⟨s.tree.node, s.tree.nnodes, s.work.heap, s.ties, rfl⟩

/-- MERGE's loop ends with one tree (R138), and the nodes it found are still there. -/
theorem Merging.loop {k W : Nat} {L : List (Byte × Word64)} (hW : W < 2 ^ 64) :
    ∀ (n : Nat) {s : State} {F : List HTree}, Merging k W L s F → s.work.heap ≠ [] → s.work.heap.length ≤ n + 1 →
      ∃ T, Merging k W L (mergeLoop n s) [T] ∧ ∃ l, (mergeLoop n s).tree.node = s.tree.node ++ l
  | 0, s, F, h, hne, hn => by
    have h1 : F.length = 1 := by
      have := h.forest.roots.length_eq
      have := List.length_pos_iff.2 hne
      simp only [List.length_map] at *
      omega
    obtain ⟨T, rfl⟩ := List.length_eq_one_iff.1 h1
    exact ⟨T, h, [], by simp [mergeLoop]⟩
  | n + 1, s, F, h, hne, hn => by
    by_cases hlen : 1 < s.work.heap.length
    · obtain ⟨F', h', hl, f, a, b, hnode⟩ := h.once hW hlen
      obtain ⟨T, hT, l, hl'⟩ := Merging.loop hW n h' (List.ne_nil_of_length_pos (by omega)) (by omega)
      refine ⟨T, by simpa [mergeLoop, hlen] using hT, .branch f a b :: l, ?_⟩
      simp [mergeLoop, hlen, hl', hnode]
    · have h1 : F.length = 1 := by
        have := h.forest.roots.length_eq
        have := List.length_pos_iff.2 hne
        simp only [List.length_map] at *
        omega
      obtain ⟨T, rfl⟩ := List.length_eq_one_iff.1 h1
      exact ⟨T, by simpa [mergeLoop, hlen] using h, [], by simp [mergeLoop, hlen]⟩

/-! ## The leaves -/

theorem FreqTable.leaves_eq (f : FreqTable) : f.leaves = f.present.map fun e => Node.leaf e.1 e.2 := by
  rw [FreqTable.leaves, FreqTable.present, List.map_filterMap]
  refine List.filterMap_congr fun y _ => ?_
  split <;> simp

theorem FreqTable.length_present_le (f : FreqTable) : f.present.length ≤ 256 := by
  simpa [FreqTable.present, alphabetMax] using List.length_filterMap_le
    (fun y => if f.freqOf y ≠ 0 then some (BitVec.ofNat 8 y, f.freqOf y) else none) (List.range alphabetMax)

theorem FreqTable.mem_present {f : FreqTable} {y : Byte} {w : Word64} :
    (y, w) ∈ f.present ↔ f.freqOf y.toNat = w ∧ w ≠ 0 := by
  simp only [FreqTable.present, List.mem_filterMap, List.mem_range, alphabetMax]
  constructor
  · rintro ⟨k, hk, h⟩
    split at h
    · simp only [Option.some.injEq, Prod.mk.injEq] at h
      obtain ⟨rfl, rfl⟩ := h
      rw [BitVec.toNat_ofNat, Nat.mod_eq_of_lt hk]
      exact ⟨rfl, ‹_›⟩
    · cases h
  · rintro ⟨rfl, h⟩
    exact ⟨y.toNat, y.isLt, by rw [if_pos h]; simp⟩

theorem FreqTable.present_nodup (f : FreqTable) : (f.present.map Prod.fst).Nodup := by
  rw [List.nodup_iff_pairwise_ne, List.pairwise_map, FreqTable.present, List.pairwise_filterMap]
  refine List.pairwise_lt_range.imp_of_mem fun {a b} ha hb hab => ?_
  simp only [alphabetMax, List.mem_range] at ha hb
  rintro x hx z hz hxz
  split at hx <;> split at hz <;> simp at hx hz
  subst hx; subst hz
  have := congrArg BitVec.toNat hxz
  simp [Nat.mod_eq_of_lt ha, Nat.mod_eq_of_lt hb] at this
  omega

theorem sum_filterMap_present (g : Nat → Word64) (l : List Nat) :
    ((l.filterMap fun y => if g y ≠ 0 then some (BitVec.ofNat 8 y, g y) else none).map fun e => e.2.toNat).sum =
      (l.map fun y => (g y).toNat).sum := by
  induction l with
  | nil => rfl
  | cons y l ih =>
    by_cases h : g y = 0
    · rw [List.filterMap_cons, if_neg (by simpa using h), List.map_cons, List.sum_cons, h]
      simpa using ih
    · rw [List.filterMap_cons, if_pos h, List.map_cons, List.sum_cons, List.map_cons, List.sum_cons, ih]

theorem FreqTable.sum_present (f : FreqTable) : (f.present.map fun e => e.2.toNat).sum = f.sum :=
  sum_filterMap_present f.freqOf _

theorem FreqTable.present_eq_nil {f : FreqTable} : f.present = [] ↔ ∀ y : Byte, f.freqOf y.toNat = 0 := by
  constructor
  · intro h y
    by_contra hy
    have := FreqTable.mem_present.2 ⟨rfl, hy⟩
    simp [h] at this
  · intro h
    refine List.eq_nil_iff_forall_not_mem.2 fun ⟨y, w⟩ hw => ?_
    obtain ⟨hw, h0⟩ := FreqTable.mem_present.1 hw
    exact h0 (hw ▸ h y)

/-! ## The start and the end -/

/-- The leaves as trees. -/
def leafTrees (l : List (Byte × Word64)) : List HTree := l.mapIdx fun i e => .leaf i e.1 e.2

theorem leafTrees_idx (l : List (Byte × Word64)) : (leafTrees l).map HTree.idx = List.range l.length := by
  apply List.ext_getElem <;> simp [leafTrees, HTree.idx]

theorem leafTrees_nodes (l : List (Byte × Word64)) : (leafTrees l).flatMap HTree.nodes = List.range l.length := by
  rw [← leafTrees_idx, List.flatMap_def]
  have : (leafTrees l).map HTree.nodes = ((leafTrees l).map HTree.idx).map fun i => [i] := by
    rw [List.map_map]
    refine List.map_congr_left fun T hT => ?_
    obtain ⟨i, h, rfl⟩ := List.mem_mapIdx.1 hT
    rfl
  rw [this, ← List.flatMap_def, List.flatMap_singleton']

theorem leafTrees_leaves (l : List (Byte × Word64)) : (leafTrees l).flatMap HTree.leaves = l := by
  have : (leafTrees l).map HTree.leaves = l.map fun e => [e] := by
    apply List.ext_getElem <;> simp [leafTrees, HTree.leaves]
  rw [List.flatMap_def, this, ← List.flatMap_def, List.flatMap_singleton']

theorem leafTrees_freq (l : List (Byte × Word64)) :
    ((leafTrees l).map fun T => T.freq.toNat) = l.map fun e => e.2.toNat := by
  apply List.ext_getElem <;> simp [leafTrees, HTree.freq]

theorem Merging.start (s : State) :
    Merging s.freqs.present.length s.freqs.sum s.freqs.present (mergeStart s) (leafTrees s.freqs.present) := by
  have hl : (mergeStart s).tree.node = s.freqs.present.map fun e => Node.leaf e.1 e.2 := s.freqs.leaves_eq
  have hlen : (mergeStart s).tree.node.length = s.freqs.present.length := by rw [hl]; simp
  have hheap : (mergeStart s).work.heap = List.range s.freqs.present.length := by
    show List.range s.freqs.leaves.length = _
    rw [s.freqs.leaves_eq]; simp
  have hnb : ∀ (j : Nat) f a b, (mergeStart s).tree.node[j]? ≠ some (Node.branch f a b) := by
    intro j f a b hj
    rw [hl, List.getElem?_map] at hj
    obtain ⟨e, -, he⟩ := Option.map_eq_some_iff.1 hj
    cases he
  refine ⟨⟨?_, ?_, ?_, ?_⟩, ?_, ?_, ?_, ?_, .inl hlen, ⟨0, ?_, ?_, ?_⟩, ?_, fun j f a b hj => absurd hj (hnb j f a b)⟩
  · rw [hheap, leafTrees_idx]
  · intro T hT
    obtain ⟨i, h, rfl⟩ := List.mem_mapIdx.1 hT
    show (mergeStart s).tree.node[i]? = _
    rw [hl, List.getElem?_map, List.getElem?_eq_getElem h]
    rfl
  · intro T hT
    obtain ⟨i, h, rfl⟩ := List.mem_mapIdx.1 hT
    trivial
  · rw [leafTrees_nodes, hlen]
  · rw [leafTrees_leaves]
  · rw [leafTrees_freq, FreqTable.sum_present]
  · rw [hlen, hheap, List.length_range]; omega
  · rfl
  · intros; omega
  · intro i h1 h2; omega
  · intro i j h1 h2 h3; omega
  · intro i
    rw [hheap, hlen, List.mem_range]
    refine ⟨fun h => ⟨h, ?_⟩, And.left⟩
    rintro ⟨m, -, f, a, b, hm, -⟩
    exact hnb m f a b hm

theorem mergeBody_empty {s : State} (h : s.freqs.present = []) : mergeBody s = (mergeStart s).raise .empty 0 := by
  have : (mergeStart s).work.heap = [] := by
    show List.range s.freqs.leaves.length = []
    rw [s.freqs.leaves_eq, h]; rfl
  simp [mergeBody, this]

/-- The whole of MERGE on a table with a present symbol whose frequencies have a 64-bit sum (R137). -/
theorem mergeBody_spec {s : State} (h : s.freqs.present ≠ []) (hW : s.freqs.sum < 2 ^ 64) :
    ∃ tree heap ties T, MergedTree s.freqs tree T ∧
      mergeBody s = State.complete { s with tree := tree, work := { s.work with heap := heap }, ties := ties } := by
  have hstart := Merging.start s
  have hlen : (mergeStart s).work.heap.length = s.freqs.present.length := by
    show (List.range s.freqs.leaves.length).length = _
    rw [s.freqs.leaves_eq]; simp
  have hpos := List.length_pos_iff.2 h
  have hne : (mergeStart s).work.heap ≠ [] := List.ne_nil_of_length_pos (by omega)
  obtain ⟨T, hT, l, hl⟩ := Merging.loop hW (mergeStart s).work.heap.length hstart hne (by omega)
  obtain ⟨node, nn, heap, ties, hf⟩ := mergeLoop_frame (mergeStart s).work.heap.length (mergeStart s)
  rw [hf] at hT hl
  have hheap : heap = [T.idx] := by
    have := hT.forest.roots
    exact List.perm_singleton.1 this
  have hle := s.freqs.length_present_le
  have hk : node.length = 2 * s.freqs.present.length - 1 := by
    have : node.length + heap.length = 2 * s.freqs.present.length := hT.count
    rw [hheap] at this
    simp at this
    omega
  have hin : T.In node := hT.forest.placed T (by simp)
  have hnodes : T.nodes.Perm (List.range node.length) := by simpa using hT.forest.nodes
  have hleaves : T.leaves.Perm s.freqs.present := by simpa using hT.leaves
  have hw : T.Weighted := hT.forest.weighted T (by simp)
  have hnn : nn.toNat = node.length := by
    have : nn = BitVec.ofNat 10 node.length := hT.nnodes
    rw [this, BitVec.toNat_ofNat, Nat.mod_eq_of_lt]
    omega
  -- the root is the last node created
  have hidx : T.idx = 2 * s.freqs.present.length - 2 := by
    have hlt : T.idx < node.length := hin.idx_lt
    have hlast : node.length = s.freqs.present.length ∨ node.length - 1 ∈ heap := hT.last
    rcases hlast with h1 | h1
    · omega
    · rw [hheap, List.mem_singleton] at h1
      omega
  refine ⟨{ s.tree with valid := true, node := node, nnodes := nn, root := BitVec.ofNat 9 T.idx }, heap, ties, T, ?_, ?_⟩
  · have hroot : T.idx = (BitVec.ofNat 9 T.idx).toNat := by
      rw [BitVec.toNat_ofNat, Nat.mod_eq_of_lt]
      omega
    refine ⟨rfl, ⟨hin, hroot, hnn, hnodes.nodup_iff.2 List.nodup_range, by simpa using hnodes.length_eq, hw, ?_⟩, hleaves,
      ?_, ?_, ?_, ?_, ?_, ?_⟩
    · exact (hleaves.map Prod.fst).nodup_iff.2 s.freqs.present_nodup
    · rw [hw.sum, (hleaves.map _).sum_eq, FreqTable.sum_present]
    · exact hnn.trans hk
    · exact hroot.symm.trans hidx
    · have : node = (mergeStart s).tree.node ++ l := hl
      have h2 : (mergeStart s).tree.node = s.freqs.present.map fun e => Node.leaf e.1 e.2 := s.freqs.leaves_eq
      show node.take _ = _
      rw [this, h2, List.take_left' (by simp)]
    · obtain ⟨_, _, _, hmono⟩ := hT.branches
      intro i j hi hij hj
      exact hmono i j hi hij (hnn ▸ hj)
    · exact hT.least
  · rw [mergeBody, if_neg hne, hf, mergeEnd, hheap]
    rfl

end Sys2Proof.Machine
end

