-- ==== Sys2Proof/Laws/Walk.lean ====
section
/-!
SUPPORT. GET_CODES (R151 to R155): the traversal with an explicit stack computes `Walk`; the table it writes.
-/

namespace Sys2Proof.Machine

open Sys2Proof Sys2Proof.Config

/-! ## Writing a list of codes -/

/-- The words of CODE are written one after another. -/
def CodeTable.putAll (l : List (Byte × Code)) (t : CodeTable) : CodeTable := l.foldl (fun t e => t.put e.1 e.2) t

@[simp] theorem CodeTable.putAll_nil (t : CodeTable) : t.putAll [] = t := rfl
@[simp] theorem CodeTable.putAll_cons (e : Byte × Code) (l : List (Byte × Code)) (t : CodeTable) :
    t.putAll (e :: l) = (t.put e.1 e.2).putAll l := rfl
theorem CodeTable.putAll_append (l l' : List (Byte × Code)) (t : CodeTable) :
    t.putAll (l ++ l') = (t.putAll l).putAll l' := by simp [CodeTable.putAll]

@[simp] theorem CodeTable.codeOf_put_self (t : CodeTable) (y : Byte) (c : Code) : (t.put y c).codeOf y = some c := by
  simp [CodeTable.codeOf, CodeTable.put]

theorem CodeTable.codeOf_put (t : CodeTable) (y z : Byte) (c : Code) :
    (t.put y c).codeOf z = if z = y then some c else t.codeOf z := by
  simp only [CodeTable.codeOf, CodeTable.put, Memory.get?_set]
  by_cases h : z = y
  · simp [h]
  · simp [h, mt BitVec.eq_of_toNat_eq h]

@[simp] theorem CodeTable.put_valid (t : CodeTable) (y : Byte) (c : Code) : (t.put y c).valid = t.valid := rfl
@[simp] theorem CodeTable.putAll_valid (l : List (Byte × Code)) (t : CodeTable) : (t.putAll l).valid = t.valid := by
  induction l generalizing t with
  | nil => rfl
  | cons e l ih => simp [ih]

theorem CodeTable.codeOf_putAll_of_notMem {l : List (Byte × Code)} {t : CodeTable} {z : Byte}
    (h : z ∉ l.map Prod.fst) : (t.putAll l).codeOf z = t.codeOf z := by
  induction l generalizing t with
  | nil => rfl
  | cons e l ih =>
    simp only [List.map_cons, List.mem_cons, not_or] at h
    rw [CodeTable.putAll_cons, ih h.2, CodeTable.codeOf_put, if_neg h.1]

/-- What is read after a list of codes of distinct Symbols is written. -/
theorem CodeTable.codeOf_putAll {l : List (Byte × Code)} {t : CodeTable} (hn : (l.map Prod.fst).Nodup) {y : Byte}
    {c : Code} (h : (y, c) ∈ l) : (t.putAll l).codeOf y = some c := by
  induction l generalizing t with
  | nil => simp at h
  | cons e l ih =>
    simp only [List.map_cons, List.nodup_cons] at hn
    rcases List.mem_cons.1 h with rfl | h
    · rw [CodeTable.putAll_cons, CodeTable.codeOf_putAll_of_notMem hn.1, CodeTable.codeOf_put_self]
    · exact ih hn.2 h

/-- A table that was empty holds exactly the list written. -/
theorem CodeTable.codeOf_putAll_iff {l : List (Byte × Code)} {t : CodeTable} (hn : (l.map Prod.fst).Nodup)
    (ht : ∀ y, t.codeOf y = none) {y : Byte} {c : Code} : (t.putAll l).codeOf y = some c ↔ (y, c) ∈ l := by
  refine ⟨fun h => ?_, CodeTable.codeOf_putAll hn⟩
  by_cases hm : y ∈ l.map Prod.fst
  · obtain ⟨⟨y', c'⟩, he, rfl⟩ := List.mem_map.1 hm
    have := CodeTable.codeOf_putAll (t := t) hn he
    rw [this, Option.some.injEq] at h
    exact h ▸ he
  · rw [CodeTable.codeOf_putAll_of_notMem hm, ht] at h
    cases h

/-! ## The codes of a tree -/

theorem HTree.codes_symbols (T : HTree) (p : Code) : (T.codes p).map Prod.fst = T.leaves.map Prod.fst := by
  induction T generalizing p with
  | leaf => rfl
  | branch i f l r ihl ihr => simp [HTree.codes, HTree.leaves, ihl, ihr]

theorem HTree.table_symbols (T : HTree) : T.table.map Prod.fst = T.leaves.map Prod.fst := by
  cases T with
  | leaf => rfl
  | branch i f l r => exact HTree.codes_symbols _ _

/-- The number of edges on the longest path. -/
def HTree.height : HTree → Nat
  | .leaf _ _ _ => 0
  | .branch _ _ l r => max l.height r.height + 1

theorem HTree.leaves_pos (T : HTree) : 1 ≤ T.leaves.length := by
  have := T.length_nodes
  omega

/-- "depth is bounded by alphabet size" (R154 (b)). -/
theorem HTree.height_lt (T : HTree) : T.height + 1 ≤ T.leaves.length := by
  induction T with
  | leaf => exact le_rfl
  | branch i f l r ihl ihr =>
    have := l.leaves_pos
    have := r.leaves_pos
    simp only [HTree.height, HTree.leaves, List.length_append]
    omega

theorem length_le_of_nodup_bytes {l : List Byte} (h : l.Nodup) : l.length ≤ 256 := by
  have hm : (l.map BitVec.toNat).Nodup := h.map fun a b hab => BitVec.eq_of_toNat_eq hab
  have hs : l.map BitVec.toNat ⊆ List.range 256 := fun x hx => by
    obtain ⟨b, -, rfl⟩ := List.mem_map.1 hx
    exact List.mem_range.2 b.isLt
  simpa using (List.subperm_of_subset hm hs).length_le

theorem HTree.leaves_le {T : HTree} (h : (T.leaves.map Prod.fst).Nodup) : T.leaves.length ≤ 256 := by
  simpa using length_le_of_nodup_bytes h

theorem HTree.mem_codes {T : HTree} {p c : Code} {y : Byte} (h : (y, c) ∈ T.codes p) :
    p <+: c ∧ c.length ≤ p.length + T.height := by
  induction T generalizing p with
  | leaf i z f =>
    simp only [HTree.codes, List.mem_singleton, Prod.mk.injEq] at h
    simp [h.2]
  | branch i f l r ihl ihr =>
    simp only [HTree.codes, List.mem_append] at h
    simp only [HTree.height]
    rcases h with h | h
    · obtain ⟨h1, h2⟩ := ihl h
      simp only [List.length_append, List.length_singleton] at h2
      exact ⟨(List.prefix_append _ _).trans h1, by omega⟩
    · obtain ⟨h1, h2⟩ := ihr h
      simp only [List.length_append, List.length_singleton] at h2
      exact ⟨(List.prefix_append _ _).trans h1, by omega⟩

/-- Codes that continue a path by different bits are apart. -/
theorem apart_of_bits {p c d : Code} (hc : p ++ [false] <+: c) (hd : p ++ [true] <+: d) : Apart c d := by
  obtain ⟨x, rfl⟩ := hc
  obtain ⟨y, rfl⟩ := hd
  constructor <;>
    · simp only [List.append_assoc, List.prefix_append_right_inj, List.singleton_append]
      intro h
      simpa using (List.cons_prefix_cons.1 h).1

theorem Apart.symm {c d : Code} (h : Apart c d) : Apart d c := ⟨h.2, h.1⟩

theorem Apart.ne {c d : Code} (h : Apart c d) : c ≠ d := fun hcd => h.1 (hcd ▸ List.prefix_refl _)

/-- "two distinct leaves' paths diverge at their lowest common ancestor" (R154 (c)). -/
theorem HTree.codes_apart (T : HTree) (p : Code) : (T.codes p).Pairwise fun a b => Apart a.2 b.2 := by
  induction T generalizing p with
  | leaf => simp [HTree.codes]
  | branch i f l r ihl ihr =>
    rw [HTree.codes, List.pairwise_append]
    exact ⟨ihl _, ihr _, fun a ha b hb => apart_of_bits (HTree.mem_codes ha).1 (HTree.mem_codes hb).1⟩

theorem HTree.table_apart (T : HTree) : T.table.Pairwise fun a b => Apart a.2 b.2 := by
  cases T with
  | leaf => simp [HTree.table]
  | branch i f l r => exact HTree.codes_apart _ _

/-- R154 (b). -/
theorem HTree.table_length {T : HTree} (hs : (T.leaves.map Prod.fst).Nodup) {y : Byte} {c : Code} (h : (y, c) ∈ T.table) :
    1 ≤ c.length ∧ c.length ≤ 255 := by
  have hh := T.height_lt
  have hl := T.leaves_le hs
  cases T with
  | leaf i z f =>
    simp only [HTree.table, List.mem_singleton, Prod.mk.injEq] at h
    simp [h.2]
  | branch i f l r =>
    obtain ⟨-, h2⟩ := HTree.mem_codes (T := .branch i f l r) (p := []) h
    refine ⟨?_, by simp only [List.length_nil] at h2; omega⟩
    simp only [HTree.table, HTree.codes, List.mem_append] at h
    rcases h with h | h <;>
      · have := (HTree.mem_codes h).1.length_le
        simpa using this

/-- "every infinite bit sequence has exactly one present code as a prefix" (R154 (e)): there is one, in a sequence of
enough bits. -/
theorem HTree.codes_complete (T : HTree) (p bits : Code) (h : T.height ≤ bits.length) :
    ∃ y c, (y, p ++ c) ∈ T.codes p ∧ c <+: bits := by
  induction T generalizing p bits with
  | leaf i y f => exact ⟨y, [], by simp [HTree.codes], List.nil_prefix⟩
  | branch i f l r ihl ihr =>
    simp only [HTree.height] at h
    match bits, h with
    | false :: bits, h =>
      obtain ⟨y, c, hm, hp⟩ := ihl (p ++ [false]) bits (by simp at h; omega)
      rw [List.append_assoc] at hm
      exact ⟨y, false :: c, List.mem_append_left _ hm, List.cons_prefix_cons.2 ⟨rfl, hp⟩⟩
    | true :: bits, h =>
      obtain ⟨y, c, hm, hp⟩ := ihr (p ++ [true]) bits (by simp at h; omega)
      rw [List.append_assoc] at hm
      exact ⟨y, true :: c, List.mem_append_right _ hm, List.cons_prefix_cons.2 ⟨rfl, hp⟩⟩

/-! ## The traversal -/

/-- The moves a traversal of a tree takes: one at each leaf, three at each branch. -/
def HTree.moves : HTree → Nat
  | .leaf _ _ _ => 1
  | .branch _ _ l r => l.moves + r.moves + 3

theorem HTree.moves_le (T : HTree) : T.moves + 3 = 4 * T.leaves.length := by
  induction T with
  | leaf => rfl
  | branch i f l r ihl ihr => simp only [HTree.moves, HTree.leaves, List.length_append]; omega

/-- The table takes a list of codes. -/
def State.putAll (l : List (Byte × Code)) (s : State) : State := { s with codes := s.codes.putAll l }

theorem State.putAll_append (l l' : List (Byte × Code)) (s : State) : s.putAll (l ++ l') = (s.putAll l).putAll l' := by
  simp [State.putAll, CodeTable.putAll_append]

theorem walk_move {k : Nat} {s t : State} (hne : s.work.stack ≠ []) (h : walkMove s = some t) :
    walk (k + 1) s = walk k t := by simp [walk, hne, h]

/-- The traversal with an explicit stack computes `Walk` (R155): from a subtree's root going down, it writes the codes
of the subtree and comes back up. -/
theorem walk_tree (T : HTree) (p : Code) (below : List (Nat × Bool)) (k : Nat) (s : State) (hin : T.In s.tree.node)
    (hp : p.length + T.height ≤ 255) :
    walk (T.moves + k) (s.setWalk p ((T.idx, true) :: below) true) =
      walk k ((s.putAll (T.codes p)).setWalk p below false) := by
  induction T generalizing p below k s with
  | leaf i y f =>
    rw [HTree.moves, Nat.add_comm]
    refine walk_move (by simp) ?_
    have hi : s.tree.node[i]? = some (.leaf y f) := hin
    simp only [walkMove, State.setWalk_work, State.setWalk_tree, HTree.idx, hi]
    rfl
  | branch i f l r ihl ihr =>
    obtain ⟨hi, hl, hr⟩ := hin
    simp only [HTree.height] at hp
    have hlen : ¬ codeLenMax ≤ p.length := by simp only [codeLenMax]; omega
    rw [HTree.moves, show l.moves + r.moves + 3 + k = (l.moves + (r.moves + (k + 1) + 1)) + 1 by omega]
    rw [walk_move (t := s.setWalk (p ++ [false]) ((l.idx, true) :: (i, true) :: below) true) (by simp)
      (by simp only [walkMove, State.setWalk_work, State.setWalk_tree, HTree.idx, hi, hlen, if_true, if_false]; rfl)]
    rw [ihl (p ++ [false]) ((i, true) :: below) _ s hl (by simp; omega)]
    have hi1 : (s.putAll (l.codes (p ++ [false]))).tree.node[i]? = some (.branch f l.idx r.idx) := hi
    rw [walk_move
      (t := (s.putAll (l.codes (p ++ [false]))).setWalk (p ++ [true]) ((r.idx, true) :: (i, false) :: below) true)
      (by simp)
      (by simp only [walkMove, State.setWalk_work, State.setWalk_tree, hi1, List.dropLast_concat, if_true]; rfl)]
    rw [ihr (p ++ [true]) ((i, false) :: below) _ (s.putAll (l.codes (p ++ [false]))) hr (by simp; omega),
      ← State.putAll_append]
    have hi2 : (s.putAll (l.codes (p ++ [false]) ++ r.codes (p ++ [true]))).tree.node[i]? =
      some (.branch f l.idx r.idx) := hi
    rw [walk_move
      (t := (s.putAll (l.codes (p ++ [false]) ++ r.codes (p ++ [true]))).setWalk p below false)
      (by simp)
      (by simp only [walkMove, State.setWalk_work, State.setWalk_tree, hi2, List.dropLast_concat]; rfl)]
    rfl

theorem walk_nil {k : Nat} {s : State} (h : s.work.stack = []) : walk k s = some s := by
  cases k <;> simp [walk, h]

/-- GET_CODES on a tree of distinct Symbols (R152). -/
theorem getCodesBody_spec {s : State} {T : HTree} (hin : T.In s.tree.node) (hroot : T.idx = s.tree.root.toNat)
    (hs : (T.leaves.map Prod.fst).Nodup) :
    ∃ p k d, getCodesBody s = .next (codesEnd (((codesStart s).putAll T.table).setWalk p k d)) := by
  have hh := T.height_lt
  have hl := T.leaves_le hs
  have hm := T.moves_le
  cases T with
  | leaf i y f =>
    refine ⟨s.work.path, s.work.stack, s.work.goingDown, ?_⟩
    have hi : s.tree.node[s.tree.root.toNat]? = some (.leaf y f) := hroot ▸ hin
    simp only [getCodesBody, hi]
    rfl
  | branch i f l r =>
    refine ⟨[], [], false, ?_⟩
    have hi : s.tree.node[s.tree.root.toNat]? = some (.branch f l.idx r.idx) := hroot ▸ hin.1
    have hw := walk_tree (.branch i f l r) [] [] (walkBound - (HTree.branch i f l r).moves) (codesStart s) hin
      (by simp; omega)
    have h0 := walk_nil (k := walkBound - (HTree.branch i f l r).moves)
      (s := ((codesStart s).putAll ((HTree.branch i f l r).codes [])).setWalk [] [] false) rfl
    rw [h0, hroot, show (HTree.branch i f l r).moves + (walkBound - (HTree.branch i f l r).moves) = walkBound by
      simp only [walkBound]; omega] at hw
    simp only [getCodesBody, hi, hw]
    rfl

end Sys2Proof.Machine
end

