-- ==== Sys2Proof/Laws/Decoder.lean ====
section
/-!
SUPPORT. NSYM and MAXLEN (R35); BUILD_DECODER (R163) and the lookup it makes (R166, R167).
-/

namespace Sys2Proof.Machine

open Sys2Proof Sys2Proof.Config

/-! ## MAXLEN -/

theorem maxLength_le {l : List (Byte × Code)} {n : Nat} : maxLength l ≤ n ↔ ∀ e ∈ l, e.2.length ≤ n := by
  induction l with
  | nil => simp [maxLength]
  | cons e l ih =>
    simp only [maxLength, List.map_cons, List.foldr_cons, List.mem_cons, forall_eq_or_imp] at ih ⊢
    rw [← ih]
    omega

theorem le_maxLength {l : List (Byte × Code)} {e : Byte × Code} (h : e ∈ l) : e.2.length ≤ maxLength l :=
  maxLength_le.1 le_rfl e h

theorem CodeTable.mem_presentCodes {t : CodeTable} {y : Byte} {c : Code} :
    (y, c) ∈ presentCodes t.code ↔ t.codeOf y = some c := Machine.mem_presentCodes

/-! ## SENTINEL -/

theorem sentinelFor_spec (m : Memory Code) : sentinelFor m ≤ 256 ∧ ∀ y : Byte, (m.get? y.toNat).isSome → sentinelFor m ≠ y.toNat := by
  unfold sentinelFor
  cases h : (List.range 257).find? fun v => (m.get? v).isNone with
  | none => exact ⟨le_rfl, fun y _ hc => by simp only [Option.getD_none] at hc; have := y.isLt; omega⟩
  | some v =>
    have h1 := List.find?_some h
    have h2 := List.mem_of_find?_eq_some h
    simp only [List.mem_range, Option.getD_some] at h2 ⊢
    refine ⟨by omega, fun y hy hv => ?_⟩
    subst hv
    simp only [Option.isNone_iff_eq_none] at h1
    simp [h1] at hy

/-- "SENTINEL = least v in 0..256 such that v is not a present symbol" (R162). -/
theorem sentinelFor_least {m : Memory Code} {v : Nat} (hv : v < sentinelFor m) (h256 : v < 256) : (m.get? v).isSome := by
  unfold sentinelFor at hv
  cases h : (List.range 257).find? fun v => (m.get? v).isNone with
  | none =>
    have := List.find?_eq_none.1 h v (by simp; omega)
    simpa [Option.isSome_iff_ne_none] using this
  | some w =>
    rw [h, Option.getD_some] at hv
    obtain ⟨-, as, bs, hl, has⟩ := List.find?_eq_some_iff_append.1 h
    have hlen : as.length = w := by
      have h1 : (List.range 257)[as.length]? = some w := by rw [hl]; simp
      rw [List.getElem?_range (by
        have := congrArg List.length hl
        simp at this; omega)] at h1
      exact Option.some.inj h1
    have hget : as[v]? = some v := by
      have : (List.range 257)[v]? = some v := List.getElem?_range (by omega)
      rwa [hl, List.getElem?_append_left (by omega)] at this
    have := has v (List.mem_of_getElem? hget)
    simpa [Option.isSome_iff_ne_none] using this

theorem symbol_ne_sentinel {m : Memory Code} {y : Byte} (h : (m.get? y.toNat).isSome) :
    y.zeroExtend 9 ≠ BitVec.ofNat 9 (sentinelFor m) := by
  intro hc
  have := congrArg BitVec.toNat hc
  have h1 := sentinelFor_spec m
  have hy := y.isLt
  rw [BitVec.toNat_ofNat, Nat.mod_eq_of_lt (by omega)] at this
  simp only [BitVec.truncate_eq_setWidth, BitVec.toNat_setWidth] at this
  rw [Nat.mod_eq_of_lt (by omega)] at this
  exact h1.2 y h this.symm

/-! ## The store loop -/

/-- What ARR and OVF hold after the codes `done` are stored. -/
structure Decoder.Stores (done : List (Byte × Code)) (d : Decoder) : Prop where
  fill : d.arr.fill = d.sentinel
  wf : d.arr.cells.wf 1 arrMax (some d.arr.fill) = true
  slots : ∀ i v, d.arr.cells.get? i = some v ↔
    ∃ y c, (y, c) ∈ done ∧ c.length ≤ d.depth.val ∧ index c = i ∧ v = y.zeroExtend 9
  ovf : d.ovf = (done.filter fun e => decide (d.depth.val < e.2.length)).map fun e => { code := e.2, sym := e.1 }
  novf : d.novf = BitVec.ofNat 9 d.ovf.length

theorem Decoder.Stores.overflow {done : List (Byte × Code)} {d : Decoder} (h : d.Stores done) (hl : done.length ≤ 256) :
    d.overflow = d.ovf ∧ d.novf.toNat = d.ovf.length := by
  have h1 : d.ovf.length ≤ done.length := by
    rw [h.ovf, List.length_map]; exact List.length_filter_le _ _
  have h2 : d.novf.toNat = d.ovf.length := by
    rw [h.novf, BitVec.toNat_ofNat, Nat.mod_eq_of_lt (by omega)]
  exact ⟨by rw [Decoder.overflow, h2, List.take_length], h2⟩

theorem Decoder.stores_start (t : CodeTable) (d : Decoder) : (d.start t).Stores [] := by
  refine ⟨rfl, rfl, ?_, rfl, rfl⟩
  intro i v
  simp [Decoder.start, Slots.filledWith]

/-- The word of ARR that a code's index selects says whether the code is stored already. -/
theorem Decoder.Stores.read {done : List (Byte × Code)} {d : Decoder} (h : d.Stores done)
    (hs : ∀ e ∈ done, e.1.zeroExtend 9 ≠ d.sentinel) {c : Code} (hc : c.length ≤ d.depth.val) :
    d.arr.read (index c) ≠ d.sentinel ↔ ∃ y, (y, c) ∈ done := by
  unfold Slots.read Memory.read
  cases hg : d.arr.cells.get? (index c) with
  | none =>
    simp only [Option.getD_none, h.fill, ne_eq, not_true_eq_false, false_iff, not_exists]
    intro y hy
    have := (h.slots (index c) (y.zeroExtend 9)).2 ⟨y, c, hy, hc, rfl, rfl⟩
    rw [hg] at this
    cases this
  | some v =>
    obtain ⟨y, c', hm, -, hi, rfl⟩ := (h.slots _ _).1 hg
    have hcc : c' = c := index_injective hi
    subst hcc
    simp only [Option.getD_some]
    exact ⟨fun _ => ⟨y, hm⟩, fun _ => hs _ hm⟩

theorem Decoder.Stores.putSlot {done : List (Byte × Code)} {d : Decoder} (h : d.Stores done) {y : Byte} {c : Code}
    (hne : c ≠ []) (hc : c.length ≤ d.depth.val) (hs : y.zeroExtend 9 ≠ d.sentinel) (hnew : ∀ z, (z, c) ∉ done) :
    (d.putSlot (index c) y).Stores (done ++ [(y, c)]) := by
  have hd : d.depth.val ≤ 13 := by have := d.depth.isLt; omega
  have hi := index_in_slots hne hc
  have hmax := index_le_arrMax (hc.trans hd)
  have hcells : (d.putSlot (index c) y).arr.cells = d.arr.cells.set (index c) (y.zeroExtend 9) := by
    show Memory.write d.arr.fill d.arr.cells (index c) (y.zeroExtend 9) = _
    rw [Memory.write, h.fill, if_neg hs]
  refine ⟨h.fill, ?_, ?_, ?_, h.novf⟩
  · exact Memory.wf_write _ h.wf hi.1 hmax
  · intro i v
    rw [hcells, Memory.get?_set]
    by_cases hic : i = index c
    · subst hic
      simp only [if_true, Option.some.injEq]
      constructor
      · rintro rfl
        exact ⟨y, c, by simp, hc, rfl, rfl⟩
      · rintro ⟨y', c', hm, -, hix, rfl⟩
        have hcc : c' = c := index_injective hix
        subst hcc
        rcases List.mem_append.1 hm with hm | hm
        · exact absurd hm (hnew _)
        · simp only [List.mem_singleton, Prod.mk.injEq, and_true] at hm
          rw [hm]
    · rw [if_neg hic, h.slots]
      constructor
      · rintro ⟨y', c', hm, h1, h2, h3⟩
        exact ⟨y', c', List.mem_append_left _ hm, h1, h2, h3⟩
      · rintro ⟨y', c', hm, h1, h2, h3⟩
        rcases List.mem_append.1 hm with hm | hm
        · exact ⟨y', c', hm, h1, h2, h3⟩
        · simp only [List.mem_singleton, Prod.mk.injEq] at hm
          exact absurd (hm.2 ▸ h2.symm) hic
  · rw [List.filter_append]
    have : ¬ (d.putSlot (index c) y).depth.val < c.length := by show ¬ d.depth.val < c.length; omega
    simp [this]
    exact h.ovf

theorem Decoder.Stores.putOverflow {done : List (Byte × Code)} {d : Decoder} (h : d.Stores done) {y : Byte} {c : Code}
    (hl : done.length ≤ 256) (hc : d.depth.val < c.length) : (d.putOverflow c y).Stores (done ++ [(y, c)]) := by
  obtain ⟨ho, -⟩ := h.overflow hl
  refine ⟨h.fill, h.wf, ?_, ?_, ?_⟩
  · intro i v
    show d.arr.cells.get? i = some v ↔ _
    rw [h.slots]
    constructor
    · rintro ⟨y', c', hm, h1, h2, h3⟩
      exact ⟨y', c', List.mem_append_left _ hm, h1, h2, h3⟩
    · rintro ⟨y', c', hm, h1, h2, h3⟩
      rcases List.mem_append.1 hm with hm | hm
      · exact ⟨y', c', hm, h1, h2, h3⟩
      · simp only [List.mem_singleton, Prod.mk.injEq] at hm
        have h1 : c'.length ≤ d.depth.val := h1
        rw [hm.2] at h1
        omega
  · show d.overflow ++ [_] = _
    rw [ho, h.ovf, List.filter_append]
    have hdep : (d.putOverflow c y).depth = d.depth := rfl
    simp [hdep, hc]
  · show d.novf + 1 = BitVec.ofNat 9 (d.overflow ++ [_]).length
    rw [ho, h.novf, List.length_append, BitVec.ofNat_add]
    rfl

theorem Decoder.Stores.any_overflow {done : List (Byte × Code)} {d : Decoder} (h : d.Stores done)
    (hl : done.length ≤ 256) {c : Code} (hc : d.depth.val < c.length) :
    (d.overflow.any fun e => e.code = c) = true ↔ ∃ y, (y, c) ∈ done := by
  rw [(h.overflow hl).1, h.ovf]
  simp only [List.any_map, List.any_filter, List.any_eq_true, Function.comp, Bool.and_eq_true, decide_eq_true_eq]
  constructor
  · rintro ⟨⟨y, c'⟩, hm, -, rfl⟩
    exact ⟨y, hm⟩
  · rintro ⟨y, hm⟩
    exact ⟨(y, c), hm, hc, rfl⟩

/-- One round of the store loop with a new code. -/
theorem storeCode_new {done : List (Byte × Code)} {s : State} {y : Byte} {c : Code} (h : s.dec.Stores done)
    (hl : done.length ≤ 256) (hs : ∀ e ∈ done, e.1.zeroExtend 9 ≠ s.dec.sentinel) (hne : c ≠ [])
    (hsy : y.zeroExtend 9 ≠ s.dec.sentinel) (hnew : ∀ z, (z, c) ∉ done) :
    ∃ d idx, storeCode y c s = { s with dec := d, work := { s.work with idx := idx } } ∧ d.Stores (done ++ [(y, c)]) ∧
      d.depth = s.dec.depth ∧ d.sentinel = s.dec.sentinel ∧ d.maxlen = s.dec.maxlen ∧ d.valid = s.dec.valid := by
  by_cases hc : c.length ≤ s.dec.depth.val
  · obtain ⟨h1, h2⟩ := index_in_slots hne hc
    have hb : ¬ (index c < 1 ∨ slotsOf s.dec.depth < index c) := by simp only [slotsOf]; omega
    have hr : ¬ s.dec.arr.read (index c) ≠ s.dec.sentinel := by
      rw [h.read hs hc]
      rintro ⟨z, hz⟩
      exact hnew z hz
    refine ⟨s.dec.putSlot (index c) y, s.dec.idxFor c s.work.idx, ?_, h.putSlot hne hc hsy hnew, rfl, rfl, rfl, rfl⟩
    simp only [storeCode, hc, if_true, hb, if_false, State.loadIdx_dec, hr]
    rfl
  · have ha : ¬ (s.dec.overflow.any fun e => e.code = c) = true := by
      rw [h.any_overflow hl (by omega)]
      rintro ⟨z, hz⟩
      exact hnew z hz
    refine ⟨s.dec.putOverflow c y, s.work.idx, ?_, h.putOverflow hl (by omega), rfl, rfl, rfl, rfl⟩
    simp only [storeCode, hc, if_false, ha]
    rfl

/-- One round of the store loop with a code that is stored already (R163). -/
theorem storeCode_dup {done : List (Byte × Code)} {s : State} {y : Byte} {c : Code} (h : s.dec.Stores done)
    (hl : done.length ≤ 256) (hs : ∀ e ∈ done, e.1.zeroExtend 9 ≠ s.dec.sentinel) (hne : c ≠ [])
    (hdup : ∃ z, (z, c) ∈ done) :
    ∃ idx, storeCode y c s = State.raise .dupCode (y.zeroExtend 64) { s with work := { s.work with idx := idx } } := by
  by_cases hc : c.length ≤ s.dec.depth.val
  · obtain ⟨h1, h2⟩ := index_in_slots hne hc
    have hb : ¬ (index c < 1 ∨ slotsOf s.dec.depth < index c) := by simp only [slotsOf]; omega
    have hr : s.dec.arr.read (index c) ≠ s.dec.sentinel := (h.read hs hc).2 hdup
    refine ⟨s.dec.idxFor c s.work.idx, ?_⟩
    simp only [storeCode, hc, if_true, hb, if_false, State.loadIdx_dec, ne_eq, hr, not_false_iff]
    rfl
  · have ha : (s.dec.overflow.any fun e => e.code = c) = true := (h.any_overflow hl (by omega)).2 hdup
    exact ⟨s.work.idx, by simp only [storeCode, hc, if_false, ha, if_true]⟩

theorem storeLoop_cons_busy {y : Byte} {c : Code} {rest : List (Byte × Code)} {s : State}
    (h : (storeCode y c s).phase.isBusy = true) : storeLoop ((y, c) :: rest) s = storeLoop rest (storeCode y c s) := by
  simp [storeLoop, h]

/-- The store loop over new codes: they are stored, and it goes on. -/
theorem storeLoop_append (rest : List (Byte × Code)) :
    ∀ (l : List (Byte × Code)) {done : List (Byte × Code)} {s : State}, s.phase.isBusy = true → s.dec.Stores done →
      (done ++ l).length ≤ 256 → (∀ e ∈ done ++ l, e.1.zeroExtend 9 ≠ s.dec.sentinel) → (∀ e ∈ l, e.2 ≠ []) →
      ((done ++ l).map Prod.snd).Nodup →
      ∃ d idx, storeLoop (l ++ rest) s = storeLoop rest { s with dec := d, work := { s.work with idx := idx } } ∧
        d.Stores (done ++ l) ∧ d.depth = s.dec.depth ∧ d.sentinel = s.dec.sentinel ∧ d.maxlen = s.dec.maxlen ∧
        d.valid = s.dec.valid
  | [], done, s, hb, h, hl, hs, hne, hd => ⟨s.dec, s.work.idx, rfl, by simpa using h, rfl, rfl, rfl, rfl⟩
  | (y, c) :: l, done, s, hb, h, hl, hs, hne, hd => by
    have hl' : done.length ≤ 256 := by simp at hl; omega
    have hnew : ∀ z, (z, c) ∉ done := by
      intro z hz
      rw [List.map_append, List.nodup_append] at hd
      exact hd.2.2 c (List.mem_map.2 ⟨_, hz, rfl⟩) c (by simp) rfl
    obtain ⟨d, idx, heq, hst, h1, h2, h3, h4⟩ := storeCode_new (y := y) h hl'
      (fun e he => hs e (List.mem_append_left _ he)) (hne (y, c) (by simp)) (hs (y, c) (by simp)) hnew
    have hb' : (storeCode y c s).phase.isBusy = true := by rw [heq]; exact hb
    obtain ⟨d', idx', heq', hst', h1', h2', h3', h4'⟩ := storeLoop_append rest l (done := done ++ [(y, c)])
      (s := { s with dec := d, work := { s.work with idx := idx } }) hb hst (by simpa using hl)
      (by simpa [h2] using hs) (fun e he => hne e (List.mem_cons_of_mem _ he)) (by simpa using hd)
    refine ⟨d', idx', ?_, by simpa using hst', h1'.trans h1, h2'.trans h2, h3'.trans h3, h4'.trans h4⟩
    rw [List.cons_append, storeLoop_cons_busy hb', heq, heq']

/-! ## The lookup -/

theorem mem_find?_code {l : List OvfEntry} {c : Code} {y : Byte} (hn : (l.map OvfEntry.code).Nodup) :
    ((l.find? fun e => e.code = c).map fun e => e.sym) = some y ↔ { code := c, sym := y } ∈ l := by
  rw [Option.map_eq_some_iff]
  constructor
  · rintro ⟨⟨c', y'⟩, hf, rfl⟩
    have h1 := List.find?_some hf
    simp only [decide_eq_true_eq] at h1
    subst h1
    exact List.mem_of_find?_eq_some hf
  · intro hm
    induction l with
    | nil => simp at hm
    | cons e l ih =>
      simp only [List.map_cons, List.nodup_cons] at hn
      rcases List.mem_cons.1 hm with rfl | hm
      · exact ⟨⟨c, y⟩, by simp, rfl⟩
      · have hne : e.code ≠ c := fun hc => hn.1 (List.mem_map.2 ⟨_, hm, hc.symm⟩)
        obtain ⟨a, ha, hay⟩ := ih hn.2 hm
        exact ⟨a, by simp [hne, ha], hay⟩

theorem Decoder.Stores.codes_nodup {done : List (Byte × Code)} {d : Decoder} (h : d.Stores done)
    (hd : (done.map Prod.snd).Nodup) : (d.ovf.map OvfEntry.code).Nodup := by
  rw [h.ovf, List.map_map]
  exact hd.sublist (List.filter_sublist.map _)

/-- `Resolve` answers exactly the stored codes (R167 (a)). -/
theorem Decoder.Stores.resolve {done : List (Byte × Code)} {d : Decoder} (h : d.Stores done)
    (hl : done.length ≤ 256) (hs : ∀ e ∈ done, e.1.zeroExtend 9 ≠ d.sentinel) (hne : ∀ e ∈ done, e.2 ≠ [])
    (hd : (done.map Prod.snd).Nodup) (c : Code) (y : Byte) : d.resolve c = some y ↔ (y, c) ∈ done := by
  have hd13 : d.depth.val ≤ 13 := by have := d.depth.isLt; omega
  unfold Decoder.resolve Decoder.lookup
  by_cases hc : d.depth.val < c.length
  · rw [if_pos hc, (h.overflow hl).1, mem_find?_code (h.codes_nodup hd), h.ovf]
    simp only [List.mem_map, List.mem_filter, decide_eq_true_eq]
    constructor
    · rintro ⟨⟨y', c'⟩, ⟨hm, -⟩, he⟩
      simp only [OvfEntry.mk.injEq] at he
      obtain ⟨rfl, rfl⟩ := he
      exact hm
    · intro hm
      exact ⟨(y, c), ⟨hm, hc⟩, rfl⟩
  · have hc' : c.length ≤ d.depth.val := by omega
    rw [if_neg hc, Decoder.idxFor, if_pos hc']
    have hidx : (BitVec.ofNat 14 (index c)).toNat = index c := toNat_idx (hc'.trans hd13)
    by_cases hnil : c = []
    · subst hnil
      simp only [index_nil]
      constructor
      · intro hx; cases hx
      · intro hm; exact absurd rfl (hne _ hm)
    · have h0 : BitVec.ofNat 14 (index c) ≠ 0 := by
        intro hx
        have := congrArg BitVec.toNat hx
        rw [hidx] at this
        have := index_pos hnil
        simp_all
      rw [if_neg h0, hidx]
      by_cases hr : d.arr.read (index c) = d.sentinel
      · rw [if_pos hr]
        constructor
        · intro hx; cases hx
        · intro hm
          exact absurd hr ((h.read hs hc').2 ⟨y, hm⟩)
      · rw [if_neg hr]
        obtain ⟨z, hz⟩ := (h.read hs hc').1 hr
        have hget := (h.slots (index c) (z.zeroExtend 9)).2 ⟨z, c, hz, hc', rfl, rfl⟩
        have hread : d.arr.read (index c) = z.zeroExtend 9 := by
          simp [Slots.read, Memory.read, hget]
        have htr : (z.zeroExtend 9).truncate 8 = z := by
          apply BitVec.eq_of_toNat_eq
          have := z.isLt
          simp only [BitVec.truncate_eq_setWidth, BitVec.toNat_setWidth]
          omega
        rw [hread, htr, Option.some.injEq]
        constructor
        · rintro rfl; exact hz
        · intro hm
          have hi := List.inj_on_of_nodup_map hd hz hm rfl
          exact congrArg Prod.fst hi

/-! ## BUILD_DECODER -/

/-- What every present code satisfies when it is about to be stored. -/
theorem CodeTable.present_facts (t : CodeTable) (h : ∀ y c, t.codeOf y = some c → 1 ≤ c.length ∧ c.length ≤ 255) :
    (∀ e ∈ presentCodes t.code, e.1.zeroExtend 9 ≠ BitVec.ofNat 9 (sentinelFor t.code)) ∧
      (∀ e ∈ presentCodes t.code, e.2 ≠ []) := by
  refine ⟨fun e he => symbol_ne_sentinel ?_, fun e he => ?_⟩
  · rw [Machine.mem_presentCodes.1 he]; rfl
  · have := h e.1 e.2 (CodeTable.mem_presentCodes.1 he)
    exact List.ne_nil_of_length_pos (by omega)

theorem CodeTable.Injective.snd_nodup {t : CodeTable} (h : t.Injective) : ((presentCodes t.code).map Prod.snd).Nodup := by
  refine List.Nodup.map_on ?_ (List.Nodup.of_map _ (presentCodes_nodup t.code))
  rintro ⟨y, c⟩ hy ⟨z, d⟩ hz hcd
  simp only at hcd
  subst hcd
  rw [h y z c (CodeTable.mem_presentCodes.1 hy) (CodeTable.mem_presentCodes.1 hz)]

/-- BUILD_DECODER on a table of distinct codes (R163). -/
theorem storeLoop_spec {s : State} (hb : s.phase.isBusy = true)
    (h : ∀ y c, s.codes.codeOf y = some c → 1 ≤ c.length ∧ c.length ≤ 255) (hi : s.codes.Injective) :
    ∃ (d : Decoder) (idx : BitVec 14), storeLoop (presentCodes s.codes.code) (buildStart s) =
        State.complete { s with dec := { d with valid := true }, work := { s.work with idx := idx } } ∧
      d.Stores (presentCodes s.codes.code) ∧ d.depth = depthFor s.codes.maxlen ∧
      d.sentinel = BitVec.ofNat 9 (sentinelFor s.codes.code) ∧ d.maxlen = s.codes.maxlen := by
  obtain ⟨h1, h2⟩ := s.codes.present_facts h
  obtain ⟨d, idx, heq, hst, hdep, hsen, hmax, -⟩ := storeLoop_append [] (presentCodes s.codes.code) (done := [])
    (s := buildStart s) hb (Decoder.stores_start s.codes s.dec) (by simpa using presentCodes_length_le _) h1 h2
    (by simpa using hi.snd_nodup)
  refine ⟨d, idx, ?_, hst, hdep, hsen, hmax⟩
  rw [List.append_nil] at heq
  rw [heq]
  rfl

/-- BUILD_DECODER on a table in which a code comes twice: the later Symbol is reported (R163). -/
theorem storeLoop_dup {s : State} (hb : s.phase.isBusy = true)
    (h : ∀ y c, s.codes.codeOf y = some c → 1 ≤ c.length ∧ c.length ≤ 255) {l rest : List (Byte × Code)} {y : Byte}
    {c : Code} (hl : presentCodes s.codes.code = l ++ (y, c) :: rest) (hn : (l.map Prod.snd).Nodup)
    (hdup : c ∈ l.map Prod.snd) :
    ∃ (d : Decoder) (idx : BitVec 14), storeLoop (presentCodes s.codes.code) (buildStart s) =
        State.raise .dupCode (y.zeroExtend 64) { s with dec := d, work := { s.work with idx := idx } } ∧
      d.valid = false ∧ d.arr.cells.wf 1 arrMax (some d.arr.fill) = true := by
  obtain ⟨h1, h2⟩ := s.codes.present_facts h
  have hle := presentCodes_length_le s.codes.code
  rw [hl] at h1 h2 hle ⊢
  obtain ⟨d, idx, heq, hst, hdep, hsen, hmax, hval⟩ := storeLoop_append ((y, c) :: rest) l (done := [])
    (s := buildStart s) hb (Decoder.stores_start s.codes s.dec) (by simp at hle ⊢; omega)
    (fun e he => h1 e (by simp at he; simp [he])) (fun e he => h2 e (by simp [he])) (by simpa using hn)
  obtain ⟨⟨z, c'⟩, hz, rfl⟩ := List.mem_map.1 hdup
  obtain ⟨idx', hd⟩ := storeCode_dup (s := { buildStart s with dec := d, work := { (buildStart s).work with idx := idx } })
    (y := y) (c := c') hst (by simp at hle ⊢; omega) (fun e he => by
      show _ ≠ d.sentinel
      rw [hsen]
      exact h1 e (by simp at he; simp [he])) (h2 (y, c') (by simp)) ⟨z, hz⟩
  refine ⟨d, idx', ?_, hval, hst.wf⟩
  rw [heq, storeLoop, hd]
  rfl

end Sys2Proof.Machine
end

