-- ==== Sys2Proof/Laws/Rounds.lean ====
section
/-!
SUPPORT. What one round of an input-taking command (the pseudocode after an `InByte`) does at each position.
-/

namespace Sys2Proof.Machine

open Sys2Proof

/-! ## READ_DICT -/

theorem dictByte_length {b : Byte} {s : State} (h : s.phase = .busy .dictLength) :
    dictByte b s = if b = 0 then codesEnd s else dictNext (.dictPath b []) s := by simp [dictByte, h]

theorem dictByte_path_bad {b l : Byte} {got : Code} {s : State} (h : s.phase = .busy (.dictPath l got))
    (hb : pathByte s.params s.dictRaw got b = none) : dictByte b s = s.raise .badToken (s.work.consumed - 1) := by
  simp [dictByte, h, hb]

theorem dictByte_path {b l : Byte} {got c : Code} {s : State} (h : s.phase = .busy (.dictPath l got))
    (hb : pathByte s.params s.dictRaw got b = some c) :
    dictByte b s = if pathRead l c then dictNext (.dictSymbol (c.take l.toNat)) s else dictNext (.dictPath l c) s := by
  simp [dictByte, h, hb]

theorem dictByte_symbol {b : Byte} {c : Code} {s : State} (h : s.phase = .busy (.dictSymbol c)) :
    dictByte b s = if (s.codes.codeOf b).isSome then s.raise .dupSym (b.zeroExtend 64)
      else dictNext .dictLength (s.setCode b c) := by simp [dictByte, h]

/-! ## RESOLVE -/

theorem lookupByte_length {b : Byte} {s : State} (h : s.phase = .busy .lookupLength) :
    lookupByte b s = if b = 0 then lookupEnd s else s.await (.lookupPath b) := by simp [lookupByte, h]

theorem lookupByte_path_bad {b l : Byte} {s : State} (h : s.phase = .busy (.lookupPath l))
    (hb : pathByte s.params s.dictRaw s.work.cand b = none) :
    lookupByte b s = s.raise .badToken (s.work.consumed - 1) := by simp [lookupByte, h, hb]

theorem lookupByte_path {b l : Byte} {c : Code} {s : State} (h : s.phase = .busy (.lookupPath l))
    (hb : pathByte s.params s.dictRaw s.work.cand b = some c) :
    lookupByte b s = if pathRead l c then lookupEnd (s.setCand (c.take l.toNat)) else s.setCand c := by
  simp [lookupByte, h, hb]

/-! ## ENCODE -/

theorem encodeByte_none {b : Byte} {t : Nat} {s : State} (h : s.phase = .busy (.encoding t))
    (hb : s.codes.codeOf b = none) : encodeByte b s = s.raise .noSym (b.zeroExtend 64) := by simp [encodeByte, h, hb]

theorem encodeByte_some {b : Byte} {t : Nat} {c : Code} {s : State} (h : s.phase = .busy (.encoding t))
    (hb : s.codes.codeOf b = some c) : encodeByte b s = encodeCode t c s := by simp [encodeByte, h, hb]

/-! ## DECODE -/

theorem decodeByte_simple {b : Byte} {s : State} (h : s.phase = .busy .decoding) :
    decodeByte b s = (decodeBits (s.simpleBits b) s).unlessEnded decodeLoop := by simp [decodeByte, h]

theorem decodeByte_trail {b : Byte} {s : State} (h : s.phase = .busy .chunkTrail) :
    decodeByte b s = if 8 * min s.params.chunkBytes s.remaining < b.toNat then s.raise .badTrail (s.work.consumed - 1)
      else payloadLoop (min s.params.chunkBytes s.remaining) (8 * min s.params.chunkBytes s.remaining - b.toNat)
        (s.setCand []) := by simp [decodeByte, h]

theorem decodeByte_payload {b : Byte} {bytes bits : Nat} {s : State} (h : s.phase = .busy (.chunkPayload bytes bits)) :
    decodeByte b s = (decodeBits ((unpackBits s.params.bitOrder b).take bits) s).unlessEnded
      (payloadLoop (bytes - 1) (bits - ((unpackBits s.params.bitOrder b).take bits).length)) := by
  simp [decodeByte, h]

end Sys2Proof.Machine
end

