-- ==== Sys2Proof/Laws/InqFree.lean ====
section
/-!
SUPPORT. The pseudocode of every input-taking command between two `InByte`s does not touch INQ.
-/

namespace Sys2Proof.Machine

open Sys2Proof

theorem State.withInq_raise (s : State) (q : List Byte) (e : Err) (i : Word64) :
    (s.withInq q).raise e i = (s.raise e i).withInq q := rfl

theorem State.withInq_complete (s : State) (q : List Byte) : (s.withInq q).complete = s.complete.withInq q := rfl

theorem State.withInq_await (s : State) (q : List Byte) (p : Pos) : (s.withInq q).await p = (s.await p).withInq q := rfl

theorem State.withInq_outBytes (s : State) (q bs : List Byte) :
    (s.withInq q).outBytes bs = (s.outBytes bs).withInq q := rfl

theorem State.withInq_setCand (s : State) (q : List Byte) (c : Code) :
    (s.withInq q).setCand c = (s.setCand c).withInq q := rfl

theorem State.withInq_setChunk (s : State) (q : List Byte) (c : Code) :
    (s.withInq q).setChunk c = (s.setChunk c).withInq q := rfl

theorem State.withInq_setAcc (s : State) (q : List Byte) (c : Code) :
    (s.withInq q).setAcc c = (s.setAcc c).withInq q := rfl

theorem State.withInq_setCode (s : State) (q : List Byte) (y : Byte) (c : Code) :
    (s.withInq q).setCode y c = (s.setCode y c).withInq q := rfl

theorem State.withInq_loadIdx (s : State) (q : List Byte) (c : Code) :
    (s.withInq q).loadIdx c = (s.loadIdx c).withInq q := rfl

theorem State.withInq_lookup (s : State) (q : List Byte) (c : Code) : (s.withInq q).lookup c = s.lookup c := rfl

theorem State.withInq_ite (c : Prop) [Decidable c] (a b : State) (q : List Byte) :
    (if c then a else b).withInq q = if c then a.withInq q else b.withInq q := by split <;> rfl

theorem countLoop_withInq (s : State) (q : List Byte) : countLoop (s.withInq q) = (countLoop s).withInq q := by
  simp only [countLoop, State.withInq_ite]
  rfl

theorem inqFree_count : InqFree countByte := fun b q s => by
  simp only [countByte]
  exact countLoop_withInq { s with freqs := s.freqs.countUp b } q

theorem dictNext_withInq (p : Pos) (s : State) (q : List Byte) : dictNext p (s.withInq q) = (dictNext p s).withInq q := by
  simp only [dictNext, State.withInq_ite]
  rfl

theorem inqFree_dict : InqFree dictByte := fun b q s => by
  rcases hph : s.phase with _ | pos | _ | _
  · simp [dictByte, hph]
  · cases pos with
    | dictLength =>
      rw [dictByte_length hph, dictByte_length (s := s.withInq q) hph, State.withInq_ite, ← dictNext_withInq]
      rfl
    | dictPath l got =>
      cases hc : pathByte s.params s.dictRaw got b with
      | none => rw [dictByte_path_bad hph hc, dictByte_path_bad (s := s.withInq q) hph hc]; rfl
      | some c =>
        rw [dictByte_path hph hc, dictByte_path (s := s.withInq q) hph hc, State.withInq_ite, ← dictNext_withInq,
          ← dictNext_withInq]
    | dictSymbol c =>
      rw [dictByte_symbol hph, dictByte_symbol (s := s.withInq q) hph, State.withInq_ite, ← dictNext_withInq]
      rfl
    | _ => simp [dictByte, hph]
  · simp [dictByte, hph]
  · simp [dictByte, hph]

theorem lookupEnd_withInq (s : State) (q : List Byte) : lookupEnd (s.withInq q) = (lookupEnd s).withInq q := rfl

theorem inqFree_lookup : InqFree lookupByte := fun b q s => by
  rcases hph : s.phase with _ | pos | _ | _
  · simp [lookupByte, hph]
  · cases pos with
    | lookupLength =>
      rw [lookupByte_length hph, lookupByte_length (s := s.withInq q) hph, State.withInq_ite]
      rfl
    | lookupPath l =>
      cases hc : pathByte s.params s.dictRaw s.work.cand b with
      | none => rw [lookupByte_path_bad hph hc, lookupByte_path_bad (s := s.withInq q) hph hc]; rfl
      | some c =>
        rw [lookupByte_path hph hc, lookupByte_path (s := s.withInq q) hph hc, State.withInq_ite]
        rfl
    | _ => simp [lookupByte, hph]
  · simp [lookupByte, hph]
  · simp [lookupByte, hph]

theorem encodeLoop_withInq (t : Nat) (s : State) (q : List Byte) :
    encodeLoop t (s.withInq q) = (encodeLoop t s).withInq q := by
  simp only [encodeLoop, encodeEndChunked, encodeEndSimple, State.withInq_ite]
  rfl

theorem inqFree_encode : InqFree encodeByte := fun b q s => by
  rcases hph : s.phase with _ | pos | _ | _
  · simp [encodeByte, hph]
  · cases pos with
    | encoding t =>
      cases hc : s.codes.codeOf b with
      | none => rw [encodeByte_none hph hc, encodeByte_none (s := s.withInq q) hph hc]; rfl
      | some c =>
        rw [encodeByte_some hph hc, encodeByte_some (s := s.withInq q) hph hc]
        simp only [encodeCode, State.withInq_ite, ← encodeLoop_withInq]
        rfl
    | _ => simp [encodeByte, hph]
  · simp [encodeByte, hph]
  · simp [encodeByte, hph]

theorem decodeQuery_withInq (s : State) (q : List Byte) : decodeQuery (s.withInq q) = (decodeQuery s).withInq q := by
  simp only [decodeQuery, State.withInq_lookup, State.withInq_work]
  cases s.lookup s.work.cand with
  | some y => rfl
  | none =>
    simp only [State.withInq_ite]
    rfl

theorem decodeBit_withInq (x : Bool) (s : State) (q : List Byte) : decodeBit x (s.withInq q) = (decodeBit x s).withInq q :=
  decodeQuery_withInq ((s.setCand (s.work.cand ++ [x])).loadIdx (s.work.cand ++ [x])) q

theorem decodeBits_withInq (xs : Code) (s : State) (q : List Byte) :
    decodeBits xs (s.withInq q) = (decodeBits xs s).withInq q := by
  induction xs generalizing s with
  | nil => rfl
  | cons x xs ih => simp only [decodeBits, decodeBit_withInq, State.withInq_phase, ih, State.withInq_ite]

theorem decodeFinish_withInq (s : State) (q : List Byte) : decodeFinish (s.withInq q) = (decodeFinish s).withInq q := by
  simp only [decodeFinish, State.withInq_ite]
  rfl

theorem unlessEnded_withInq {k : State → State} (hk : ∀ s q, k (State.withInq q s) = (k s).withInq q) (s : State)
    (q : List Byte) : (s.withInq q).unlessEnded k = (s.unlessEnded k).withInq q := by
  simp only [State.unlessEnded, State.withInq_phase, hk, State.withInq_ite]

theorem decodeLoop_withInq (s : State) (q : List Byte) : decodeLoop (s.withInq q) = (decodeLoop s).withInq q := by
  simp only [decodeLoop, decodeFinish_withInq, unlessEnded_withInq State.withInq_complete, State.withInq_ite]
  rfl

theorem chunkLoop_withInq (s : State) (q : List Byte) : chunkLoop (s.withInq q) = (chunkLoop s).withInq q := by
  simp only [chunkLoop, State.withInq_ite]
  rfl

theorem payloadLoop_withInq (m k : Nat) (s : State) (q : List Byte) :
    payloadLoop m k (s.withInq q) = (payloadLoop m k s).withInq q := by
  simp only [payloadLoop, decodeFinish_withInq, unlessEnded_withInq chunkLoop_withInq, State.withInq_ite]
  rfl

theorem inqFree_decode : InqFree decodeByte := fun b q s => by
  rcases hph : s.phase with _ | pos | _ | _
  · simp [decodeByte, hph]
  · cases pos with
    | decoding =>
      rw [decodeByte_simple hph, decodeByte_simple (s := s.withInq q) hph, decodeBits_withInq,
        unlessEnded_withInq decodeLoop_withInq]
      rfl
    | chunkTrail =>
      rw [decodeByte_trail hph, decodeByte_trail (s := s.withInq q) hph, State.withInq_ite, ← payloadLoop_withInq]
      rfl
    | chunkPayload m k =>
      rw [decodeByte_payload hph, decodeByte_payload (s := s.withInq q) hph, decodeBits_withInq,
        unlessEnded_withInq (payloadLoop_withInq _ _)]
      rfl
    | _ => simp [decodeByte, hph]
  · simp [decodeByte, hph]
  · simp [decodeByte, hph]

/-- The pseudocode after every `InByte` is free of INQ. -/
theorem inqFree_afterByte (pos : Pos) : InqFree (afterByte pos) := by
  cases pos <;>
    first
      | exact inqFree_count | exact inqFree_dict | exact inqFree_lookup | exact inqFree_encode | exact inqFree_decode
      | exact fun _ _ _ => rfl

end Sys2Proof.Machine
end

