-- ==== Sys2Proof/Laws/Dictionary.lean ====
section
/-!
SUPPORT. The dictionary section (R180 to R188): reading a path field byte by byte (R183), READ_DICT over records and the
terminator (R186), and what WRITE_DICT writes (R184).
-/

namespace Sys2Proof.Machine

open Sys2Proof Sys2Proof.Config

/-! ## Bytes taken -/

/-- `n` bytes have been taken from INQ; `rest` is left. -/
def State.ate (n : Nat) (rest : List Byte) (s : State) : State :=
  { s with inq := rest, work := { s.work with consumed := s.work.consumed + BitVec.ofNat 64 n } }

@[simp] theorem State.ate_inq (n : Nat) (rest : List Byte) (s : State) : (s.ate n rest).inq = rest := rfl
@[simp] theorem State.ate_cmd (n : Nat) (rest : List Byte) (s : State) : (s.ate n rest).cmd = s.cmd := rfl
@[simp] theorem State.ate_codes (n : Nat) (rest : List Byte) (s : State) : (s.ate n rest).codes = s.codes := rfl
@[simp] theorem State.ate_dec (n : Nat) (rest : List Byte) (s : State) : (s.ate n rest).dec = s.dec := rfl
@[simp] theorem State.ate_cfg (n : Nat) (rest : List Byte) (s : State) : (s.ate n rest).cfg = s.cfg := rfl
@[simp] theorem State.ate_params (n : Nat) (rest : List Byte) (s : State) : (s.ate n rest).params = s.params := rfl
@[simp] theorem State.ate_len (n : Nat) (rest : List Byte) (s : State) : (s.ate n rest).len = s.len := rfl
@[simp] theorem State.ate_consumed (n : Nat) (rest : List Byte) (s : State) :
    (s.ate n rest).work.consumed = s.work.consumed + BitVec.ofNat 64 n := rfl
@[simp] theorem State.ate_cand (n : Nat) (rest : List Byte) (s : State) : (s.ate n rest).work.cand = s.work.cand := rfl

@[simp] theorem State.ate_dictRaw (n : Nat) (rest : List Byte) (s : State) : (s.ate n rest).dictRaw = s.dictRaw := rfl

theorem State.ate_ate (m n : Nat) (q r : List Byte) (s : State) : (s.ate m q).ate n r = s.ate (m + n) r := by
  simp [State.ate, BitVec.ofNat_add, BitVec.add_assoc]

theorem State.ate_zero (s : State) : s.ate 0 s.inq = s := by simp [State.ate]

theorem State.inByte_eq_ate (rest : List Byte) (s : State) : s.inByte rest = s.ate 1 rest := rfl

theorem consumed_add {s : State} {n : Nat} (h : s.work.consumed.toNat + n ≤ s.len.toNat) :
    (s.work.consumed + BitVec.ofNat 64 n).toNat = s.work.consumed.toNat + n := by
  have := s.len.isLt
  rw [BitVec.toNat_add, BitVec.toNat_ofNat, Nat.mod_eq_of_lt (by omega : n < 2 ^ 64), Nat.mod_eq_of_lt (by omega)]

/-! ## The path field -/

theorem pathByte_length {p : Params} {raw : Bool} {got c : Code} {b : Byte} (h : pathByte p raw got b = some c) :
    c.length = got.length + if raw then 8 else 1 := by
  unfold pathByte at h
  split at h
  · obtain rfl := Option.some.inj h
    simp only [List.length_append, unpackBits_length, if_pos ‹raw = true›]
  · have hr : raw = false := by simpa using ‹¬raw = true›
    subst hr
    split at h
    · obtain rfl := Option.some.inj h; simp
    · split at h
      · obtain rfl := Option.some.inj h; simp
      · cases h

theorem readFrom_tokenBits (p : Params) (bs : List Byte) (got : Code) :
    readFrom p false got bs = (tokenBits p bs).map fun c => got ++ c := by
  induction bs generalizing got with
  | nil => simp [readFrom, tokenBits]
  | cons b bs ih =>
    simp only [readFrom, tokenBits, pathByte, Bool.false_eq_true, if_false]
    split
    · simp only [Option.bind_some, ih, Option.map_map]
      congr 1
      funext c
      simp
    · split
      · simp only [Option.bind_some, ih, Option.map_map]
        congr 1
        funext c
        simp
      · rfl

theorem tokenBits_length {p : Params} {bs : List Byte} {c : Code} (h : tokenBits p bs = some c) : c.length = bs.length := by
  induction bs generalizing c with
  | nil =>
    obtain rfl := Option.some.inj h
    rfl
  | cons b bs ih =>
    simp only [tokenBits] at h
    split at h
    · obtain ⟨d, hd, rfl⟩ := Option.map_eq_some_iff.1 h
      simp [ih hd]
    · split at h
      · obtain ⟨d, hd, rfl⟩ := Option.map_eq_some_iff.1 h
        simp [ih hd]
      · cases h

/-- `ReadPath` as R183 has it and its loop agree. -/
theorem readPath_eq_readFrom (p : Params) (raw : Bool) {l : Nat} {field : List Byte}
    (hl : field.length = pathBytes raw l) : readPath p raw l field = (readFrom p raw [] field).map fun c => c.take l := by
  cases raw with
  | true => simp [readPath, readFrom_raw]
  | false =>
    have hl' : field.length = l := hl
    simp only [readPath, Bool.false_eq_true, if_false, readFrom_tokenBits, List.nil_append, Option.map_id']
    cases hm : tokenBits p field with
    | none => rfl
    | some c => simp [List.take_of_length_le (hl' ▸ (tokenBits_length hm).le : c.length ≤ l)]

/-- The bits a byte of the field brings. -/
def pathWidth (raw : Bool) : Nat := if raw then 8 else 1

/-- The field of a path of length `l` ends at the byte that brings the bits to `l`. -/
theorem pathBytes_spec (raw : Bool) (l : Nat) :
    l ≤ pathWidth raw * pathBytes raw l ∧ (0 < l → pathWidth raw * (pathBytes raw l - 1) < l) := by
  have := ceil8_spec l
  cases raw <;> simp only [pathWidth, pathBytes, if_true, if_false, Bool.false_eq_true] <;> omega

/-! ## READ_DICT -/

theorem dictNext_of_lt {pos : Pos} {s : State} (h : s.work.consumed.toNat < s.len.toNat) :
    dictNext pos s = s.await pos := by
  have : s.work.consumed ≠ s.len := fun hc => by rw [hc] at h; omega
  simp [dictNext, this]

theorem dictNext_of_eq {pos : Pos} {s : State} (h : s.work.consumed = s.len) :
    dictNext pos s = s.raise .truncDict s.len := by simp [dictNext, h]

theorem dictNext_await (pos pos' : Pos) (s : State) : dictNext pos (s.await pos') = dictNext pos s := by
  by_cases h : s.work.consumed = s.len
  · rw [dictNext_of_eq h, dictNext_of_eq (s := s.await pos') h]; rfl
  · have h' : ¬ (s.await pos').work.consumed = (s.await pos').len := h
    unfold dictNext
    rw [if_neg h, if_neg h']
    rfl

/-- READ_DICT goes on from `NextByte`. -/
def readOn (pos : Pos) (s : State) : State := pump dictByte s.inq (dictNext pos s)

theorem pump_dict {pos : Pos} {b : Byte} {rest : List Byte} {s : State} (hq : s.inq = b :: rest)
    (hlt : s.work.consumed.toNat < s.len.toNat) (hpos : (s.await pos).awaiting = true) :
    readOn pos s = pump dictByte rest (dictByte b ((s.await pos).inByte rest)) := by
  rw [readOn, dictNext_of_lt hlt, hq, pump_cons hpos]

/-- A byte of a path field that ends it. -/
theorem readOn_path_last {l b : Byte} {got c : Code} {rest : List Byte} {s : State} (hq : s.inq = b :: rest)
    (hlt : s.work.consumed.toNat < s.len.toNat) (hc : pathByte s.params s.dictRaw got b = some c)
    (hr : pathRead l c = true) :
    readOn (.dictPath l got) s = readOn (.dictSymbol (c.take l.toNat)) (s.ate 1 rest) := by
  rw [pump_dict hq hlt rfl, dictByte_path (s := (s.await (.dictPath l got)).inByte rest) (l := l) (got := got) (c := c) rfl hc, if_pos hr, readOn, State.ate_inq,
    ← dictNext_await _ (.dictPath l got) (s.ate 1 rest)]
  rfl

/-- A byte of a path field that does not end it. -/
theorem readOn_path_more {l b : Byte} {got c : Code} {rest : List Byte} {s : State} (hq : s.inq = b :: rest)
    (hlt : s.work.consumed.toNat < s.len.toNat) (hc : pathByte s.params s.dictRaw got b = some c)
    (hr : pathRead l c = false) : readOn (.dictPath l got) s = readOn (.dictPath l c) (s.ate 1 rest) := by
  rw [pump_dict hq hlt rfl, dictByte_path (s := (s.await (.dictPath l got)).inByte rest) (l := l) (got := got) (c := c) rfl hc, if_neg (by simp [hr]), readOn,
    State.ate_inq, ← dictNext_await _ (.dictPath l got) (s.ate 1 rest)]
  rfl

/-- What is left of a path field. -/
theorem readOn_path (l : Byte) (rest : List Byte) :
    ∀ (field : List Byte) {got full : Code} {s : State}, field ≠ [] → s.inq = field ++ rest →
      s.work.consumed.toNat + field.length ≤ s.len.toNat → readFrom s.params s.dictRaw got field = some full →
      l.toNat ≤ got.length + pathWidth s.dictRaw * field.length →
      got.length + pathWidth s.dictRaw * (field.length - 1) < l.toNat →
      readOn (.dictPath l got) s = readOn (.dictSymbol (full.take l.toNat)) (s.ate field.length rest)
  | [], _, _, _, hne, _, _, _, _, _ => absurd rfl hne
  | b :: bs, got, full, s, _, hq, hlen, hread, h1, h2 => by
    simp only [List.length_cons] at hlen h1 h2
    simp only [readFrom] at hread
    obtain ⟨c, hc, hread⟩ := Option.bind_eq_some_iff.1 hread
    have hcl := pathByte_length hc
    have hw : (if s.dictRaw = true then 8 else 1) = pathWidth s.dictRaw := rfl
    rw [hw] at hcl
    cases bs with
    | nil =>
      obtain rfl := Option.some.inj hread
      simp only [List.length_nil, Nat.zero_add, Nat.mul_one] at h1
      refine readOn_path_last hq (by omega) hc ?_
      simp only [pathRead, decide_eq_true_eq]
      omega
    | cons b' bs =>
      simp only [List.length_cons] at *
      have hmul : pathWidth s.dictRaw * (bs.length + 1 + 1) = pathWidth s.dictRaw * (bs.length + 1) + pathWidth s.dictRaw := by
        ring
      have hmul' : pathWidth s.dictRaw * (bs.length + 1 + 1 - 1) = pathWidth s.dictRaw * bs.length + pathWidth s.dictRaw := by
        rw [Nat.add_sub_cancel]; ring
      rw [readOn_path_more hq (by omega) hc (by simp only [pathRead, decide_eq_false_iff_not]; omega)]
      have hk := consumed_add (s := s) (n := 1) (by omega)
      rw [readOn_path l rest (b' :: bs) (s := s.ate 1 ((b' :: bs).append rest)) (by simp) rfl
        (by show (s.work.consumed + BitVec.ofNat 64 1).toNat + _ ≤ s.len.toNat
            rw [hk]; simp only [List.length_cons]; omega) hread
        (by show l.toNat ≤ c.length + pathWidth s.dictRaw * (b' :: bs).length
            simp only [List.length_cons]; omega)
        (by show c.length + pathWidth s.dictRaw * ((b' :: bs).length - 1) < l.toNat
            simp only [List.length_cons, Nat.add_sub_cancel]; omega), State.ate_ate]
      simp only [List.length_cons]
      rw [Nat.add_comm 1]

/-- A whole record (R186), its bytes within LEN. -/
theorem readOn_record {r : DictRecord} {rest : List Byte} {s : State} (hr : r.wf s.params s.dictRaw)
    (hq : s.inq = r.bytes ++ rest) (hlen : s.work.consumed.toNat + r.bytes.length ≤ s.len.toNat)
    (hnew : s.codes.codeOf r.sym = none) :
    readOn .dictLength s = readOn .dictLength ((s.setCode r.sym r.code).ate r.bytes.length rest) := by
  obtain ⟨h1, h255, hfl, hread⟩ := hr
  have hbl : r.bytes.length = r.field.length + 2 := by simp [DictRecord.bytes]
  have hlb : (BitVec.ofNat 8 r.code.length).toNat = r.code.length := by
    rw [BitVec.toNat_ofNat, Nat.mod_eq_of_lt (by omega)]
  have hl0 : BitVec.ofNat 8 r.code.length ≠ 0 := fun hc => by
    have : r.code.length = 0 := hlb.symm.trans (congrArg BitVec.toNat hc)
    omega
  obtain ⟨hp1, hp2⟩ := pathBytes_spec s.dictRaw r.code.length
  have hfne : r.field ≠ [] := fun hc => by
    rw [hc] at hfl
    simp only [List.length_nil] at hfl
    rw [← hfl] at hp1
    omega
  rw [readPath_eq_readFrom _ _ hfl] at hread
  obtain ⟨full, hfull, htake⟩ := Option.map_eq_some_iff.1 hread
  have hq' : s.inq = BitVec.ofNat 8 r.code.length :: (r.field ++ r.sym :: rest) := by
    rw [hq]; simp [DictRecord.bytes]
  have hk := fun n (hn : n ≤ r.bytes.length) => consumed_add (s := s) (n := n) (by omega)
  -- the length byte
  have e1 : readOn .dictLength s =
      readOn (.dictPath (BitVec.ofNat 8 r.code.length) []) (s.ate 1 (r.field ++ r.sym :: rest)) := by
    rw [pump_dict hq' (by omega) rfl, dictByte_length (s := (s.await .dictLength).inByte _) rfl, if_neg hl0, readOn, State.ate_inq,
      ← dictNext_await _ .dictLength (s.ate 1 _)]
    rfl
  -- the path
  have e2 := readOn_path (BitVec.ofNat 8 r.code.length) (r.sym :: rest) r.field (got := []) (full := full)
    (s := s.ate 1 (r.field ++ r.sym :: rest)) hfne rfl
    (by rw [State.ate_consumed, State.ate_len, hk 1 (by omega)]; omega) hfull
    (by rw [hlb, hfl, State.ate_dictRaw]; simpa using hp1)
    (by rw [hlb, hfl, State.ate_dictRaw]; simpa using hp2 (by omega))
  -- the symbol byte
  have hlt : (s.ate (1 + r.field.length) (r.sym :: rest)).work.consumed.toNat < s.len.toNat := by
    rw [State.ate_consumed, hk _ (by omega)]; omega
  have e3 : readOn (.dictSymbol r.code) (s.ate (1 + r.field.length) (r.sym :: rest)) =
      readOn .dictLength ((s.setCode r.sym r.code).ate r.bytes.length rest) := by
    have hst : ((s.ate (1 + r.field.length) (r.sym :: rest)).setCode r.sym r.code).ate 1 rest =
        (s.setCode r.sym r.code).ate r.bytes.length rest := by
      rw [hbl, show r.field.length + 2 = 1 + r.field.length + 1 by omega]
      exact State.ate_ate (1 + r.field.length) 1 (r.sym :: rest) rest (s.setCode r.sym r.code)
    rw [pump_dict (b := r.sym) (rest := rest) rfl hlt rfl,
      dictByte_symbol (s := (State.await (.dictSymbol r.code) _).inByte _) (c := r.code) rfl,
      if_neg (by show ¬ (s.codes.codeOf r.sym).isSome = true; simp [hnew]), ← hst, readOn, State.ate_inq,
      ← dictNext_await _ (.dictSymbol r.code) (State.ate 1 _ _)]
    rfl
  rw [e1, e2, hlb, htake, State.ate_ate]
  exact e3

/-- The table with the records' codes. -/
def dictEntries (rs : List DictRecord) : List (Byte × Code) := rs.map fun r => (r.sym, r.code)

/-- The terminator (R186). -/
theorem readOn_terminator {rest : List Byte} {s : State} (hq : s.inq = 0 :: rest)
    (hlt : s.work.consumed.toNat < s.len.toNat) : readOn .dictLength s = codesEnd (s.ate 1 rest) := by
  rw [pump_dict hq hlt rfl, dictByte_length (s := (s.await .dictLength).inByte _) rfl, if_pos rfl,
    pump_of_not_awaiting rfl]
  rfl

/-- A whole section within LEN (R186). -/
theorem readOn_section (rest : List Byte) :
    ∀ (rs : List DictRecord) {s : State}, (∀ r ∈ rs, r.wf s.params s.dictRaw) → (rs.map DictRecord.sym).Nodup →
      (∀ r ∈ rs, s.codes.codeOf r.sym = none) → s.inq = sectionBytes rs ++ rest →
      s.work.consumed.toNat + (sectionBytes rs).length ≤ s.len.toNat →
      readOn .dictLength s = codesEnd ((s.putAll (dictEntries rs)).ate (sectionBytes rs).length rest)
  | [], s, _, _, _, hq, hlen => readOn_terminator hq (by simp [sectionBytes] at hlen; omega)
  | r :: rs, s, hwf, hnd, hnone, hq, hlen => by
    have hb : sectionBytes (r :: rs) = r.bytes ++ sectionBytes rs := by simp [sectionBytes]
    simp only [List.map_cons, List.nodup_cons] at hnd
    rw [hb, List.length_append] at hlen
    rw [hb, List.append_assoc] at hq
    rw [readOn_record (hwf r (by simp)) hq (by omega) (hnone r (by simp)),
      readOn_section rest rs (s := (s.setCode r.sym r.code).ate r.bytes.length (sectionBytes rs ++ rest))
        (fun r' h => hwf r' (by simp [h])) hnd.2 ?_ rfl ?_]
    · rw [hb, List.length_append]
      congr 1
      exact State.ate_ate r.bytes.length (sectionBytes rs).length (sectionBytes rs ++ rest) rest
        (s.putAll (dictEntries (r :: rs)))
    · intro r' hr'
      show (s.codes.put r.sym r.code).codeOf r'.sym = none
      rw [CodeTable.codeOf_put, if_neg, hnone r' (by simp [hr'])]
      intro hc
      exact hnd.1 (List.mem_map.2 ⟨r', hr', hc⟩)
    · show (s.work.consumed + BitVec.ofNat 64 r.bytes.length).toNat + _ ≤ s.len.toNat
      rw [consumed_add (by omega)]
      omega

theorem CodeTable.codeOf_empty (v : Bool) (n : BitVec 9) (m : BitVec 8) (y : Byte) :
    CodeTable.codeOf { valid := v, code := [], nsym := n, maxlen := m } y = none := rfl

/-- READ_DICT on a section (R186). -/
theorem dictStart_section {rs : List DictRecord} {rest : List Byte} {s : State}
    (hwf : ∀ r ∈ rs, r.wf s.params s.dictRaw) (hnd : (rs.map DictRecord.sym).Nodup)
    (hq : s.inq = sectionBytes rs ++ rest) (h0 : s.work.consumed = 0) (hlen : (sectionBytes rs).length ≤ s.len.toNat) :
    pump dictByte s.inq (dictStart s) =
      codesEnd (((codesStart s).putAll (dictEntries rs)).ate (sectionBytes rs).length rest) :=
  readOn_section rest rs (s := codesStart s) hwf hnd (fun _ _ => rfl) hq (by
    show s.work.consumed.toNat + _ ≤ s.len.toNat
    rw [h0]
    simpa using hlen)

/-! ## WRITE_DICT -/

theorem unpack_pathField_raw (p : Params) (c : Code) :
    (unpackBytes p.bitOrder (pathField p true c)).take c.length = c := by
  have := ceil8_spec c.length
  simp only [pathField, if_true]
  rw [unpackBytes_packBytes _ _ (by simp; omega), List.take_left' rfl]

theorem tokenBits_map (p : Params) (hp : p.token0 ≠ p.token1) (c : Code) : tokenBits p (c.map (tokenOf p)) = some c := by
  have := readFrom_token p hp [] c
  rw [readFrom_tokenBits] at this
  simpa using this

/-- `ReadPath` reads what `EmitPath` wrote (R182, R183). -/
theorem readPath_pathField (p : Params) (hp : p.token0 ≠ p.token1) (raw : Bool) (c : Code) :
    readPath p raw c.length (pathField p raw c) = some c := by
  cases raw with
  | true => simp [readPath, unpack_pathField_raw]
  | false => simpa [readPath, pathField] using tokenBits_map p hp c

/-- The record WRITE_DICT writes for a symbol. -/
def writtenRecord (p : Params) (raw : Bool) (e : Byte × Code) : DictRecord :=
  { sym := e.1, code := e.2, field := pathField p raw e.2 }

theorem dictSection_eq (p : Params) (raw : Bool) (l : List (Byte × Code)) :
    dictSection p raw l = sectionBytes (l.map (writtenRecord p raw)) := by
  rw [dictSection, sectionBytes, List.flatMap_map]
  rfl

theorem writtenRecord_wf {p : Params} (hp : p.token0 ≠ p.token1) (raw : Bool) {e : Byte × Code} (h1 : 1 ≤ e.2.length)
    (h2 : e.2.length ≤ 255) : (writtenRecord p raw e).wf p raw :=
  ⟨h1, h2, pathField_length p raw e.2, readPath_pathField p hp raw e.2⟩

theorem firstBadLength_none {l : List (Byte × Code)} (h : ∀ e ∈ l, 1 ≤ e.2.length ∧ e.2.length ≤ 255) :
    firstBadLength l = none := by
  induction l with
  | nil => rfl
  | cons e l ih =>
    obtain ⟨y, c⟩ := e
    have h1 := h (y, c) (by simp)
    have hz : ¬ c.length = 0 := by simp only at h1; omega
    have hm : ¬ codeLenMax < c.length := by simp only [codeLenMax] at h1 ⊢; omega
    rw [firstBadLength, if_neg hz, if_neg hm]
    exact ih fun e he => h e (by simp [he])

theorem writeDictBody_spec {s : State} (h : ∀ y c, s.codes.codeOf y = some c → 1 ≤ c.length ∧ c.length ≤ 255) :
    writeDictBody s = (s.outBytes (dictSection s.params s.dictRaw (presentCodes s.codes.code))).complete := by
  have hb : firstBadLength (presentCodes s.codes.code) = none :=
    firstBadLength_none fun e he => h e.1 e.2 (CodeTable.mem_presentCodes.1 he)
  simp [writeDictBody, hb]

/-! ## The round trip -/

theorem dictEntries_written (p : Params) (raw : Bool) (l : List (Byte × Code)) :
    dictEntries (l.map (writtenRecord p raw)) = l := by
  simp [dictEntries, writtenRecord, Function.comp_def]

/-- The codes of a table, put into an empty one, are the codes of the table. -/
theorem CodeTable.codeOf_putAll_present (t : CodeTable) {t0 : CodeTable} (h0 : ∀ y, t0.codeOf y = none) (y : Byte) :
    (t0.putAll (presentCodes t.code)).codeOf y = t.codeOf y :=
  Option.ext fun _ =>
    (CodeTable.codeOf_putAll_iff (presentCodes_nodup t.code) h0).trans CodeTable.mem_presentCodes

/-- R188: what WRITE_DICT appends, READ_DICT takes whole, without a fault and with what stands behind it left in INQ, and
afterwards every Symbol has the code it had; NSYM and MAXLEN are equal. -/
theorem readDict_writeDict {s r : State} {D rest : List Byte} (hv : s.codes.valid = true) (hok : s.codes.Ok)
    (htok : s.params.token0 ≠ s.params.token1)
    (hD : D = dictSection s.params s.dictRaw (presentCodes s.codes.code)) (hp : r.params = s.params)
    (hraw : r.dictRaw = s.dictRaw) (h0 : r.work.consumed = 0) (hlen : D.length ≤ r.len.toNat) (hq : r.inq = D ++ rest) :
    writeDictBody s = (s.outBytes D).complete ∧
      ∃ u, pump dictByte r.inq (dictStart r) = u ∧ u.phase = .idle ∧ u.errcode = r.errcode ∧
        u.consumedReg = BitVec.ofNat 64 D.length ∧ u.inq = rest ∧ u.codes.valid = true ∧
        (∀ y, u.codes.codeOf y = s.codes.codeOf y) ∧ u.codes.nsym = s.codes.nsym ∧ u.codes.maxlen = s.codes.maxlen := by
  subst hD
  refine ⟨writeDictBody_spec hok.1, ?_⟩
  rw [dictSection_eq] at hq hlen ⊢
  have hwf : ∀ x ∈ (presentCodes s.codes.code).map (writtenRecord s.params s.dictRaw), x.wf r.params r.dictRaw := by
    intro x hx
    obtain ⟨e, he, rfl⟩ := List.mem_map.1 hx
    have := hok.1 e.1 e.2 (CodeTable.mem_presentCodes.1 he)
    rw [hp, hraw]
    exact writtenRecord_wf htok _ this.1 this.2
  have hnd : (((presentCodes s.codes.code).map (writtenRecord s.params s.dictRaw)).map DictRecord.sym).Nodup := by
    simpa [Function.comp_def, writtenRecord] using presentCodes_nodup s.codes.code
  have hcodes := CodeTable.codeOf_putAll_present s.codes (t0 := (codesStart r).codes) fun _ => rfl
  have hpres : presentCodes ((codesStart r).codes.putAll (presentCodes s.codes.code)).code = presentCodes s.codes.code :=
    presentCodes_congr hcodes
  obtain ⟨hn, hm⟩ := hok.2 hv
  rw [dictStart_section hwf hnd hq h0 hlen, dictEntries_written]
  refine ⟨_, rfl, rfl, rfl, ?_, rfl, rfl, hcodes, ?_, ?_⟩
  · show r.work.consumed + BitVec.ofNat 64 _ = _
    rw [h0]
    exact BitVec.zero_add _
  · show BitVec.ofNat 9 (presentCodes ((codesStart r).codes.putAll (presentCodes s.codes.code)).code).length = _
    rw [hpres, ← hn, BitVec.ofNat_toNat, BitVec.setWidth_eq]
  · show BitVec.ofNat 8 (maxLength (presentCodes ((codesStart r).codes.putAll (presentCodes s.codes.code)).code)) = _
    rw [hpres, ← hm, BitVec.ofNat_toNat, BitVec.setWidth_eq]

/-! ## The checks of WRITE_DICT -/

/-- WRITE_DICT's first loop stops at the first present Symbol whose length no length byte can say. -/
theorem firstBadLength_found {l : List (Byte × Code)} {y : Byte} {c : Code} (hs : l.Pairwise fun a b => a.1 < b.1)
    (hy : (y, c) ∈ l) (hc : c.length = 0 ∨ 255 < c.length)
    (hz : ∀ z d, z < y → (z, d) ∈ l → 1 ≤ d.length ∧ d.length ≤ 255) :
    firstBadLength l = some (if c.length = 0 then .zeroLen else .codeLen, y) := by
  induction l with
  | nil => simp at hy
  | cons e l ih =>
    obtain ⟨z, d⟩ := e
    rw [List.pairwise_cons] at hs
    rcases List.mem_cons.1 hy with h | h
    · obtain ⟨rfl, rfl⟩ := Prod.mk.inj h
      by_cases h0 : c.length = 0
      · rw [firstBadLength, if_pos h0, if_pos h0]
      · rw [firstBadLength, if_neg h0, if_neg h0, if_pos (by simp only [codeLenMax]; omega)]
    · have hd := hz z d (hs.1 _ h) List.mem_cons_self
      rw [firstBadLength, if_neg (by omega), if_neg (by simp only [codeLenMax]; omega)]
      exact ih hs.2 h fun z d hlt hm => hz z d hlt (List.mem_cons_of_mem _ hm)

theorem writeDictBody_badLength {s : State} {y : Byte} {c : Code} (hy : s.codes.codeOf y = some c)
    (hc : c.length = 0 ∨ 255 < c.length)
    (hz : ∀ z d, z < y → s.codes.codeOf z = some d → 1 ≤ d.length ∧ d.length ≤ 255) :
    writeDictBody s = s.raise (if c.length = 0 then .zeroLen else .codeLen) (y.zeroExtend 64) := by
  rw [writeDictBody, firstBadLength_found (presentCodes_ascending _) (CodeTable.mem_presentCodes.2 hy) hc
    fun z d hlt hm => hz z d hlt (CodeTable.mem_presentCodes.1 hm)]

end Sys2Proof.Machine
end

