-- ==== Sys2Proof/Laws/Lookup.lean ====
section
/-!
SUPPORT. RESOLVE (R168): the lookup through the working register `idx` is `Resolve` (R166), and the whole run of RESOLVE.
-/

namespace Sys2Proof.Machine

open Sys2Proof Sys2Proof.Config

/-- The working register `idx` holds what `Resolve` needs: what it held before does not matter. -/
theorem Decoder.lookup_idxFor (d : Decoder) (c : Code) (i : BitVec 14) : d.lookup c (d.idxFor c i) = d.resolve c := by
  unfold Decoder.resolve Decoder.lookup Decoder.idxFor
  by_cases h : d.depth.val < c.length
  · simp only [if_pos h]
  · simp only [if_neg h, if_pos (Nat.le_of_not_lt h)]

@[simp] theorem State.lookup_loadIdx (s : State) (c : Code) : (s.loadIdx c).lookup c = s.dec.resolve c :=
  s.dec.lookup_idxFor c s.work.idx

/-- The end of RESOLVE (R168). -/
theorem lookupEnd_eq (s : State) :
    lookupEnd s = State.complete { s.loadIdx s.work.cand with result := resultWord (s.dec.resolve s.work.cand) } := by
  rw [← State.lookup_loadIdx]
  rfl

/-- What is left of RESOLVE's path field. -/
theorem pump_lookup_path (l : Byte) (rest : List Byte) :
    ∀ (field : List Byte) {full : Code} {s : State}, field ≠ [] → s.inq = field ++ rest →
      readFrom s.params s.dictRaw s.work.cand field = some full →
      l.toNat ≤ s.work.cand.length + pathWidth s.dictRaw * field.length →
      s.work.cand.length + pathWidth s.dictRaw * (field.length - 1) < l.toNat →
      pump lookupByte s.inq (s.await (.lookupPath l)) = lookupEnd ((s.setCand (full.take l.toNat)).ate field.length rest)
  | [], _, _, hne, _, _, _, _ => absurd rfl hne
  | b :: bs, full, s, _, hq, hread, h1, h2 => by
    simp only [List.length_cons] at h1 h2
    simp only [readFrom] at hread
    obtain ⟨c, hc, hread⟩ := Option.bind_eq_some_iff.1 hread
    have hcl := pathByte_length hc
    have hw : (if s.dictRaw = true then 8 else 1) = pathWidth s.dictRaw := rfl
    rw [hw] at hcl
    rw [hq, List.cons_append, pump_cons rfl,
      lookupByte_path (s := (s.await (.lookupPath l)).inByte (bs ++ rest)) (l := l) (c := c) rfl hc]
    cases bs with
    | nil =>
      obtain rfl := Option.some.inj hread
      simp only [List.length_nil, Nat.zero_add, Nat.mul_one] at h1
      rw [if_pos (by simp only [pathRead, decide_eq_true_eq]; omega), pump_of_not_awaiting rfl]
      rfl
    | cons b' bs =>
      simp only [List.length_cons] at *
      have hmul : pathWidth s.dictRaw * (bs.length + 1 + 1) = pathWidth s.dictRaw * (bs.length + 1) + pathWidth s.dictRaw := by
        ring
      have hmul' : pathWidth s.dictRaw * (bs.length + 1 + 1 - 1) = pathWidth s.dictRaw * bs.length + pathWidth s.dictRaw := by
        rw [Nat.add_sub_cancel]; ring
      rw [if_neg (by simp only [pathRead, decide_eq_true_eq]; omega)]
      have := pump_lookup_path l rest (b' :: bs) (full := full) (s := (s.setCand c).ate 1 ((b' :: bs).append rest))
        (by simp) rfl hread
        (by show l.toNat ≤ c.length + pathWidth s.dictRaw * (b' :: bs).length
            simp only [List.length_cons]; omega)
        (by show c.length + pathWidth s.dictRaw * ((b' :: bs).length - 1) < l.toNat
            simp only [List.length_cons, Nat.add_sub_cancel]; omega)
      refine Eq.trans this ?_
      simp only [List.length_cons]
      rw [Nat.add_comm (bs.length + 1) 1]
      exact congrArg lookupEnd (State.ate_ate 1 (bs.length + 1) ((b' :: bs).append rest) rest (s.setCand (full.take l.toNat)))

/-- RESOLVE on its operand (R109, R168). -/
theorem lookupStart_spec {c : Code} {field rest : List Byte} {s : State} (hc : c.length ≤ 255)
    (hfl : field.length = pathBytes s.dictRaw c.length) (hread : readPath s.params s.dictRaw c.length field = some c)
    (hq : s.inq = BitVec.ofNat 8 c.length :: field ++ rest) :
    pump lookupByte s.inq (lookupStart s) = lookupEnd ((s.setCand c).ate (1 + field.length) rest) := by
  have hlb : (BitVec.ofNat 8 c.length).toNat = c.length := by rw [BitVec.toNat_ofNat, Nat.mod_eq_of_lt (by omega)]
  have hq' : s.inq = BitVec.ofNat 8 c.length :: (field ++ rest) := hq
  rw [hq', pump_cons (by rfl), lookupByte_length (s := (lookupStart s).inByte (field ++ rest)) rfl]
  by_cases h0 : c.length = 0
  · have hnil : c = [] := List.length_eq_zero_iff.1 h0
    subst hnil
    have hf : field = [] := by
      rw [← List.length_eq_zero_iff, hfl]
      cases s.dictRaw <;> rfl
    subst hf
    rw [if_pos (show BitVec.ofNat 8 ([] : Code).length = 0 from rfl), pump_of_not_awaiting rfl]
    rfl
  · have hne : BitVec.ofNat 8 c.length ≠ 0 := fun hx => h0 (hlb.symm.trans (congrArg BitVec.toNat hx))
    rw [if_neg hne]
    obtain ⟨hp1, hp2⟩ := pathBytes_spec s.dictRaw c.length
    have hfne : field ≠ [] := fun hx => by
      rw [hx, List.length_nil] at hfl
      rw [← hfl] at hp1
      omega
    rw [readPath_eq_readFrom _ _ hfl] at hread
    obtain ⟨full, hfull, htake⟩ := Option.map_eq_some_iff.1 hread
    have := pump_lookup_path (BitVec.ofNat 8 c.length) rest field (full := full)
      (s := (s.setCand []).ate 1 (field ++ rest)) hfne rfl hfull
      (by show _ ≤ 0 + pathWidth s.dictRaw * field.length
          rw [hlb, hfl]; omega)
      (by show 0 + pathWidth s.dictRaw * (field.length - 1) < _
          rw [hlb, hfl]; have := hp2 (by omega); omega)
    refine Eq.trans this ?_
    rw [hlb, htake]
    exact congrArg lookupEnd (State.ate_ate 1 field.length (field ++ rest) rest (s.setCand c))

end Sys2Proof.Machine
end

