-- ==== Sys2Proof/Laws/DecodeBody.lean ====
section
/-!
SUPPORT. DECODE (R213): the machine's bit loop is `DecodeBits` (R212), and the whole run in both body formats is the
function of Safety.lean.
-/

namespace Sys2Proof.Machine

open Sys2Proof Sys2Proof.Config

/-! ## Step by step -/

/-- `Step` for each bit of a sequence (R211): bytes emitted, candidate left, bits taken, and the fault. -/
structure Stepped where
  out : List Byte
  cand : Code
  taken : Nat
  fault : Option (Err × Nat)

/-- One more bit before, with or without a byte. -/
def Stepped.behind (l : List Byte) (r : Stepped) : Stepped := { r with out := l ++ r.out, taken := r.taken + 1 }

/-- `Step` for each bit of a sequence, from a candidate. -/
def steps (d : Decoder) (strict : Bool) : Code → Code → Stepped
  | cand, [] => ⟨[], cand, 0, none⟩
  | cand, x :: xs =>
    match d.resolve (cand ++ [x]) with
    | some y => (steps d strict [] xs).behind [y]
    | none =>
      if strict && decide (d.maxlen.toNat ≤ (cand ++ [x]).length) then
        ⟨[], cand ++ [x], 1, some (.noCode, (cand ++ [x]).length)⟩
      else (steps d strict (cand ++ [x]) xs).behind []

theorem steps_fault {d : Decoder} {strict : Bool} {cand xs : Code} {e : Err} {k : Nat}
    (h : (steps d strict cand xs).fault = some (e, k)) : e = .noCode := by
  induction xs generalizing cand with
  | nil => cases h
  | cons x xs ih =>
    simp only [steps] at h
    split at h
    · exact ih h
    · split at h
      · simp only [Option.some.injEq, Prod.mk.injEq] at h
        exact h.1.symm
      · exact ih h

theorem steps_taken {d : Decoder} {strict : Bool} {cand xs : Code} (h : (steps d strict cand xs).fault = none) :
    (steps d strict cand xs).taken = xs.length := by
  induction xs generalizing cand with
  | nil => rfl
  | cons x xs ih =>
    simp only [steps] at h ⊢
    split at h
    · simpa [Stepped.behind] using ih h
    · split at h
      · cases h
      · rename_i hx
        rw [if_neg hx]
        simpa [Stepped.behind] using ih h

theorem steps_taken_bounds {d : Decoder} {strict : Bool} {cand xs : Code} {f : Err × Nat}
    (h : (steps d strict cand xs).fault = some f) :
    1 ≤ (steps d strict cand xs).taken ∧ (steps d strict cand xs).taken ≤ xs.length := by
  induction xs generalizing cand with
  | nil => cases h
  | cons x xs ih =>
    simp only [steps] at h ⊢
    split at h
    · have := ih h
      simp only [Stepped.behind, List.length_cons]; omega
    · split at h
      · rename_i hx
        rw [if_pos hx]
        simp
      · rename_i hx
        rw [if_neg hx]
        have := ih h
        simp only [Stepped.behind, List.length_cons]; omega

/-- Steps that raised nothing, then the rest of the bits. -/
theorem decodeFrom_append {d : Decoder} {strict : Bool} {cand xs ys : Code} (h : (steps d strict cand xs).fault = none) :
    decodeFrom d strict cand (xs ++ ys) =
      { out := (steps d strict cand xs).out ++ (decodeFrom d strict (steps d strict cand xs).cand ys).out
        taken := xs.length + (decodeFrom d strict (steps d strict cand xs).cand ys).taken
        fault := (decodeFrom d strict (steps d strict cand xs).cand ys).fault } := by
  induction xs generalizing cand with
  | nil => simp [steps]
  | cons x xs ih =>
    simp only [steps, List.cons_append, decodeFrom] at h ⊢
    split at h
    · rename_i y hy
      try simp only [hy]
      rw [ih h]
      simp [Stepped.behind, Decoded.emit, Decoded.bit]
      omega
    · rename_i hy
      try simp only [hy]
      split at h
      · cases h
      · rename_i hx
        rw [if_neg hx, if_neg hx, ih h]
        simp [Stepped.behind, Decoded.bit]
        omega

/-- Steps of which one raised: the rest of the bits do not matter. -/
theorem decodeFrom_fault {d : Decoder} {strict : Bool} {cand xs : Code} {f : Err × Nat}
    (h : (steps d strict cand xs).fault = some f) (ys : Code) :
    decodeFrom d strict cand (xs ++ ys) =
      { out := (steps d strict cand xs).out, taken := (steps d strict cand xs).taken, fault := some f } := by
  induction xs generalizing cand with
  | nil => cases h
  | cons x xs ih =>
    simp only [steps, List.cons_append, decodeFrom] at h ⊢
    split at h
    · rename_i y hy
      try simp only [hy]
      rw [ih h]
      simp [Stepped.behind, Decoded.emit, Decoded.bit]
    · rename_i hy
      try simp only [hy]
      split at h
      · rename_i hx
        rw [if_pos hx, if_pos hx]
        simp_all
      · rename_i hx
        rw [if_neg hx, if_neg hx, ih h]
        simp [Stepped.behind, Decoded.bit]

/-! ## The machine's bit loop -/

/-- The state after bytes taken and emitted. -/
def State.decoded (out : List Byte) (n : Nat) (rest : List Byte) (cand : Code) (idx : BitVec 14) (s : State) : State :=
  { s with
    inq := rest
    outq := s.outq ++ out
    work := { s.work with
      consumed := s.work.consumed + BitVec.ofNat 64 n
      produced := s.work.produced + BitVec.ofNat 64 out.length
      cand := cand
      idx := idx } }

theorem State.decoded_decoded (out out' : List Byte) (n n' : Nat) (q r : List Byte) (c c' : Code) (i i' : BitVec 14)
    (s : State) :
    (s.decoded out n q c i).decoded out' n' r c' i' = s.decoded (out ++ out') (n + n') r c' i' := by
  simp [State.decoded, BitVec.ofNat_add, BitVec.add_assoc]

theorem State.inByte_decoded (out q r : List Byte) (c : Code) (i : BitVec 14) (s : State) :
    (s.inByte q).decoded out 0 r c i = s.decoded out 1 r c i := by simp [State.decoded, State.inByte]

theorem decodeBit_eq (x : Bool) (s : State) :
    decodeBit x s =
      match s.dec.resolve (s.work.cand ++ [x]) with
      | some y => s.decoded [y] 0 s.inq [] (s.dec.idxFor (s.work.cand ++ [x]) s.work.idx)
      | none =>
        if s.strict && decide (s.dec.maxlen.toNat ≤ (s.work.cand ++ [x]).length) then
          State.raise .noCode (BitVec.ofNat 64 (s.work.cand ++ [x]).length)
            (s.decoded [] 0 s.inq (s.work.cand ++ [x]) (s.dec.idxFor (s.work.cand ++ [x]) s.work.idx))
        else s.decoded [] 0 s.inq (s.work.cand ++ [x]) (s.dec.idxFor (s.work.cand ++ [x]) s.work.idx) := by
  have hl : State.lookup (s.work.cand ++ [x]) ((s.setCand (s.work.cand ++ [x])).loadIdx (s.work.cand ++ [x])) =
      s.dec.resolve (s.work.cand ++ [x]) := s.dec.lookup_idxFor _ _
  have hd : s.decoded [] 0 s.inq (s.work.cand ++ [x]) (s.dec.idxFor (s.work.cand ++ [x]) s.work.idx) =
      (s.setCand (s.work.cand ++ [x])).loadIdx (s.work.cand ++ [x]) := by
    simp [State.decoded, State.setCand, State.loadIdx]
  unfold decodeBit decodeQuery
  simp only [State.loadIdx_work, State.setCand_work, State.setCand_dec, hl]
  rw [hd]
  cases s.dec.resolve (s.work.cand ++ [x]) with
  | some y => simp [State.decoded, State.setCand, State.loadIdx, State.outBytes]
  | none => rfl

/-- The bit loop is `Step` for each bit. -/
theorem decodeBits_eq (xs : Code) :
    ∀ (s : State), s.phase.isBusy = true →
      ∃ idx, decodeBits xs s =
        match (steps s.dec s.strict s.work.cand xs).fault with
        | none => s.decoded (steps s.dec s.strict s.work.cand xs).out 0 s.inq (steps s.dec s.strict s.work.cand xs).cand idx
        | some f => State.raise f.1 (BitVec.ofNat 64 f.2)
            (s.decoded (steps s.dec s.strict s.work.cand xs).out 0 s.inq (steps s.dec s.strict s.work.cand xs).cand idx) := by
  induction xs with
  | nil =>
    intro s _
    exact ⟨s.work.idx, by simp [decodeBits, steps, State.decoded]⟩
  | cons x xs ih =>
    intro s hb
    have hbit := decodeBit_eq x s
    simp only [decodeBits, steps]
    cases hr : s.dec.resolve (s.work.cand ++ [x]) with
    | some y =>
      rw [hr] at hbit
      simp only at hbit
      obtain ⟨idx, hi⟩ := ih (s.decoded [y] 0 s.inq [] (s.dec.idxFor (s.work.cand ++ [x]) s.work.idx)) hb
      have hi' : decodeBits xs (s.decoded [y] 0 s.inq [] (s.dec.idxFor (s.work.cand ++ [x]) s.work.idx)) =
        match (steps s.dec s.strict [] xs).fault with
        | none => _
        | some f => _ := hi
      refine ⟨idx, ?_⟩
      rw [hbit, if_pos (by exact hb), hi']
      cases hf : (steps s.dec s.strict [] xs).fault with
      | none => simp only [Stepped.behind, hf]; exact State.decoded_decoded _ _ _ _ _ _ _ _ _ _ s
      | some f => simp only [Stepped.behind, hf]; exact congrArg _ (State.decoded_decoded _ _ _ _ _ _ _ _ _ _ s)
    | none =>
      rw [hr] at hbit
      simp only at hbit
      by_cases hx : (s.strict && decide (s.dec.maxlen.toNat ≤ (s.work.cand ++ [x]).length)) = true
      · rw [if_pos hx] at hbit
        refine ⟨s.dec.idxFor (s.work.cand ++ [x]) s.work.idx, ?_⟩
        rw [hbit, if_neg (by simp)]
        simp only [if_pos hx]
      · rw [if_neg hx] at hbit
        obtain ⟨idx, hi⟩ := ih (s.decoded [] 0 s.inq (s.work.cand ++ [x]) (s.dec.idxFor (s.work.cand ++ [x]) s.work.idx)) hb
        have hi' : decodeBits xs (s.decoded [] 0 s.inq (s.work.cand ++ [x]) (s.dec.idxFor (s.work.cand ++ [x]) s.work.idx)) =
          match (steps s.dec s.strict (s.work.cand ++ [x]) xs).fault with
          | none => _
          | some f => _ := hi
        refine ⟨idx, ?_⟩
        rw [hbit, if_pos (by exact hb), hi']
        simp only [if_neg hx]
        cases hf : (steps s.dec s.strict (s.work.cand ++ [x]) xs).fault with
        | none => simp only [Stepped.behind, hf]; exact State.decoded_decoded _ _ _ _ _ _ _ _ _ _ s
        | some f => simp only [Stepped.behind, hf]; exact congrArg _ (State.decoded_decoded _ _ _ _ _ _ _ _ _ _ s)

/-! ## The end of a bit source -/

/-- A command that a `raise` may have ended. -/
def State.endedBy (f : Option (Err × Nat)) (k : State → State) (s : State) : State :=
  match f with
  | none => k s
  | some f => s.raise f.1 (BitVec.ofNat 64 f.2)

theorem unlessEnded_busy {k : State → State} {s : State} (h : s.phase.isBusy = true) : s.unlessEnded k = k s := by
  simp [State.unlessEnded, h]

theorem unlessEnded_raise (k : State → State) (s : State) (e : Err) (i : Word64) :
    (s.raise e i).unlessEnded k = s.raise e i := by simp [State.unlessEnded]

/-- `Finish` (R211), then `k`. -/
theorem decodeFinish_eq (k : State → State) (s : State) (hb : s.phase.isBusy = true) :
    ∃ cand, (decodeFinish s).unlessEnded k =
      (s.setCand cand).endedBy (decodeFrom s.dec s.strict s.work.cand []).fault k := by
  by_cases hc : s.work.cand = []
  · refine ⟨[], ?_⟩
    have hs : s.setCand s.work.cand = s := by simp [State.setCand]
    rw [hc] at hs
    simp [decodeFinish, hc, unlessEnded_busy hb, decodeFrom, State.endedBy, hs]
  · have he : s.work.cand.isEmpty = false := by simpa using hc
    by_cases hst : s.strict = true
    · refine ⟨s.work.cand, ?_⟩
      have hs : s.setCand s.work.cand = s := by simp [State.setCand]
      rw [hs]
      simp [decodeFinish, hc, hst, unlessEnded_raise, decodeFrom, he, State.endedBy]
    · refine ⟨[], ?_⟩
      simp only [Bool.not_eq_true] at hst
      simp only [decodeFinish, hc, hst, if_false, decodeFrom, Bool.false_and, State.endedBy, Bool.false_eq_true]
      exact unlessEnded_busy hb

theorem decodeFrom_nil_taken (d : Decoder) (strict : Bool) (cand : Code) :
    (decodeFrom d strict cand []).taken = 0 ∧ (decodeFrom d strict cand []).out = [] := ⟨rfl, rfl⟩

theorem decodeFrom_nil_fault {d : Decoder} {strict : Bool} {cand : Code} {f : Err × Nat}
    (h : (decodeFrom d strict cand []).fault = some f) : f.1 = .truncBody := by
  simp only [decodeFrom] at h
  split at h
  · rw [← Option.some.inj h]
  · cases h

/-- The bytes taken do not depend on a fault other than E_NOCODE. -/
theorem Decoded.bytes_of_taken {r r' : Decoded} {m m' n : Nat} (hf : r.fault = r'.fault)
    (ht : ceil8 r.taken = n + ceil8 r'.taken) (hm : m = n + m') : r.bytes m = n + r'.bytes m' := by
  unfold Decoded.bytes
  rw [hf]
  split
  · exact ht
  · exact hm

/-! ## The simple body -/

theorem State.await_self {s : State} {pos : Pos} (h : s.phase = .busy pos) : s.await pos = s := by
  unfold State.await
  rw [← h]

theorem decodeLoop_of_lt {s : State} (hp : s.phase = .busy .decoding) (h : s.work.consumed.toNat < s.len.toNat) :
    decodeLoop s = s := by
  have : s.work.consumed ≠ s.len := fun hc => by rw [hc] at h; omega
  rw [decodeLoop, if_neg this, State.await_self hp]

theorem State.raise_setCand (e : Err) (i : Word64) (c : Code) (s : State) :
    (s.setCand c).raise e i = (s.raise e i).setCand c := rfl

theorem State.endedBy_not_awaiting {f : Option (Err × Nat)} (s : State) : (s.endedBy f State.complete).awaiting = false := by
  cases f with
  | none => rfl
  | some f => exact raise_awaiting _ _ _

/-- `take` of a body's bits: those of the first byte, then those of the others. -/
theorem take_body (o : BitOrder) (b : Byte) (y : List Byte) {tail : Nat} (ht : tail ≤ 7) :
    (unpackBytes o (b :: y)).take (8 * (y.length + 1) - tail) =
      (if y = [] then (unpackBits o b).take (8 - tail) else unpackBits o b) ++
        (unpackBytes o y).take (8 * y.length - tail) := by
  rw [unpackBytes_cons]
  by_cases hy : y = []
  · subst hy
    simp
  · have hpos := List.length_pos_iff.2 hy
    rw [if_neg hy, List.take_append, List.take_of_length_le (by simp; omega), unpackBits_length]
    congr 2
    omega

theorem tailDiscard_le (s : State) : s.tailDiscard ≤ 7 := by
  have := (s.cfg.extractLsb' 3 3).isLt
  unfold State.tailDiscard
  omega

/-- DECODE's loop, SIMPLE, over exactly the bytes it still needs. -/
theorem pump_decode_simple (rest : List Byte) :
    ∀ (y : List Byte) {s : State}, s.phase = .busy .decoding → s.inq = y ++ rest →
      s.work.consumed.toNat + y.length = s.len.toNat →
      ∃ (r : Decoded) (cand : Code) (idx : BitVec 14),
        r = decodeFrom s.dec s.strict s.work.cand
          ((unpackBytes s.params.bitOrder y).take (8 * y.length - s.tailDiscard)) ∧
        pump decodeByte s.inq (decodeLoop s) =
          (s.decoded r.out (r.bytes y.length) (s.inq.drop (r.bytes y.length)) cand idx).endedBy r.fault State.complete
  | [], s, hp, hq, hlen => by
    have hc : s.work.consumed = s.len := BitVec.eq_of_toNat_eq (by simpa using hlen)
    obtain ⟨cand, hfin⟩ := decodeFinish_eq State.complete s (by rw [hp]; rfl)
    refine ⟨_, cand, s.work.idx, rfl, ?_⟩
    have hb : (decodeFrom s.dec s.strict s.work.cand []).bytes 0 = 0 := by
      unfold Decoded.bytes
      split
      · rw [(decodeFrom_nil_taken _ _ _).1]; rfl
      · rfl
    have hd : s.decoded [] 0 s.inq cand s.work.idx = s.setCand cand := by simp [State.decoded, State.setCand]
    simp only [List.length_nil, Nat.mul_zero, Nat.zero_sub, unpackBytes_nil, List.take_nil]
    rw [hb, List.drop_zero, (decodeFrom_nil_taken _ _ _).2, hd, decodeLoop, if_pos hc, hfin,
      pump_of_not_awaiting (State.endedBy_not_awaiting _)]
  | b :: y, s, hp, hq, hlen => by
    simp only [List.length_cons] at hlen
    have hq' : s.inq = b :: (y ++ rest) := hq
    have hk := consumed_add (s := s) (n := 1) (by omega)
    have hlen64 := s.len.isLt
    -- the bits of this byte
    have hg : (s.inByte (y ++ rest)).simpleBits b =
        if y = [] then (unpackBits s.params.bitOrder b).take (8 - s.tailDiscard) else unpackBits s.params.bitOrder b := by
      have hiff : (s.inByte (y ++ rest)).work.consumed = (s.inByte (y ++ rest)).len ↔ y = [] := by
        show s.work.consumed + BitVec.ofNat 64 1 = s.len ↔ _
        rw [BitVec.toNat_inj.symm, hk, ← List.length_eq_zero_iff]
        omega
      unfold State.simpleBits
      simp only [hiff]
      rfl
    have hgl : 1 ≤ ((s.inByte (y ++ rest)).simpleBits b).length ∧ ((s.inByte (y ++ rest)).simpleBits b).length ≤ 8 ∧
        (y ≠ [] → ((s.inByte (y ++ rest)).simpleBits b).length = 8) := by
      have := tailDiscard_le s
      rw [hg]
      split
      · rw [List.length_take, unpackBits_length]
        refine ⟨by omega, by omega, fun h => absurd ‹_› h⟩
      · simp
    obtain ⟨idx, hbits⟩ := decodeBits_eq ((s.inByte (y ++ rest)).simpleBits b) (s.inByte (y ++ rest))
      (by show s.phase.isBusy = true; rw [hp]; rfl)
    have hstep : pump decodeByte s.inq (decodeLoop s) = pump decodeByte (y ++ rest)
        ((decodeBits ((s.inByte (y ++ rest)).simpleBits b) (s.inByte (y ++ rest))).unlessEnded decodeLoop) := by
      rw [decodeLoop_of_lt hp (by omega), hq', pump_cons (by simp [State.awaiting, hp]),
        decodeByte_simple (s := s.inByte (y ++ rest)) hp]
    have hS : (unpackBytes s.params.bitOrder (b :: y)).take (8 * (b :: y).length - s.tailDiscard) =
        (s.inByte (y ++ rest)).simpleBits b ++ (unpackBytes s.params.bitOrder y).take (8 * y.length - s.tailDiscard) := by
      rw [List.length_cons, take_body _ _ _ (tailDiscard_le s), hg]
    generalize (s.inByte (y ++ rest)).simpleBits b = g at *
    rw [hstep, hbits, hS]
    have hdec : (s.inByte (y ++ rest)).dec = s.dec := rfl
    have hst : (s.inByte (y ++ rest)).strict = s.strict := rfl
    have hcand : (s.inByte (y ++ rest)).work.cand = s.work.cand := rfl
    rw [hdec, hst, hcand]
    cases hf : (steps s.dec s.strict s.work.cand g).fault with
    | some f =>
      rw [decodeFrom_fault hf]
      have he := steps_fault (e := f.1) (k := f.2) hf
      have ht := steps_taken_bounds hf
      have hbytes : Decoded.bytes (b :: y).length
          { out := (steps s.dec s.strict s.work.cand g).out, taken := (steps s.dec s.strict s.work.cand g).taken,
            fault := some f } = 1 := by
        obtain ⟨e, k⟩ := f
        simp only at he
        subst he
        show ceil8 _ = 1
        unfold ceil8
        simp only
        omega
      refine ⟨_, (steps s.dec s.strict s.work.cand g).cand, idx, rfl, ?_⟩
      rw [hbytes, hq', List.drop_one, List.tail_cons]
      simp only [unlessEnded_raise]
      rw [pump_of_not_awaiting (raise_awaiting _ _ _)]
      exact congrArg _ (State.inByte_decoded _ _ _ _ _ s)
    | none =>
      rw [decodeFrom_append hf]
      simp only
      obtain ⟨r, cand, idx', hr, heq⟩ := pump_decode_simple rest y
        (s := s.decoded (steps s.dec s.strict s.work.cand g).out 1 (y ++ rest)
          (steps s.dec s.strict s.work.cand g).cand idx) hp rfl
        (by show (s.work.consumed + BitVec.ofNat 64 1).toNat + y.length = s.len.toNat
            omega)
      have hr' : r = decodeFrom s.dec s.strict (steps s.dec s.strict s.work.cand g).cand
        ((unpackBytes s.params.bitOrder y).take (8 * y.length - s.tailDiscard)) := hr
      refine ⟨_, cand, idx', rfl, ?_⟩
      rw [unlessEnded_busy (by show s.phase.isBusy = true; rw [hp]; rfl), State.inByte_decoded]
      refine Eq.trans heq ?_
      rw [← hr']
      have hbytes : Decoded.bytes (b :: y).length
          { out := (steps s.dec s.strict s.work.cand g).out ++ r.out, taken := g.length + r.taken, fault := r.fault } =
            1 + r.bytes y.length := by
        refine Decoded.bytes_of_taken rfl ?_ (by rw [List.length_cons]; omega)
        by_cases hy : y = []
        · have h0 : r.taken = 0 := by rw [hr', hy]; simp [decodeFrom]
          simp only [h0]
          unfold ceil8
          omega
        · have := hgl.2.2 hy
          simp only [this]
          unfold ceil8
          omega
      rw [hbytes, hq', Nat.add_comm 1 (r.bytes y.length), List.drop_succ_cons, Nat.add_comm _ 1]
      exact congrArg (State.endedBy r.fault State.complete) (State.decoded_decoded _ _ _ _ _ _ _ _ _ _ s)

/-! ## The chunked body -/

theorem State.await_endedBy (f : Option (Err × Nat)) (pos : Pos) (s : State) :
    (s.await pos).endedBy f chunkLoop = s.endedBy f chunkLoop := by
  cases f with
  | some f => rfl
  | none =>
    show chunkLoop (s.await pos) = chunkLoop s
    unfold chunkLoop
    show (if s.work.consumed = s.len then _ else _) = if s.work.consumed = s.len then _ else _
    split <;> rfl

theorem faultAt_of_ne {n : Nat} {f : Err × Nat} (h : f.1 ≠ .badTrail) : faultAt n f = f := by
  obtain ⟨e, k⟩ := f
  cases e <;> first | rfl | exact absurd rfl h

theorem faultAt_add (m n : Nat) (f : Err × Nat) : faultAt m (faultAt n f) = faultAt (m + n) f := by
  obtain ⟨e, k⟩ := f
  cases e <;> first | rfl | simp [faultAt, Nat.add_assoc]

theorem faultAt_zero (f : Err × Nat) : faultAt 0 f = f := by
  obtain ⟨e, k⟩ := f
  cases e <;> first | rfl | simp [faultAt]

/-- A bit sequence raises no fault but E_NOCODE and E_TRUNC_BODY. -/
theorem decodeFrom_ne_badTrail {d : Decoder} {strict : Bool} {cand xs : Code} {f : Err × Nat}
    (h : (decodeFrom d strict cand xs).fault = some f) : f.1 ≠ .badTrail := by
  cases hs : (steps d strict cand xs).fault with
  | some g =>
    have := decodeFrom_fault hs []
    rw [List.append_nil] at this
    rw [this] at h
    obtain rfl := Option.some.inj h
    have he := steps_fault (e := g.1) (k := g.2) hs
    rw [he]; decide
  | none =>
    have := decodeFrom_append hs (ys := [])
    rw [List.append_nil] at this
    rw [this] at h
    have h' : (decodeFrom d strict (steps d strict cand xs).cand []).fault = some f := h
    rw [decodeFrom_nil_fault h']; decide

/-- The bytes taken, behind `n` bytes; only E_NOCODE can leave some. -/
theorem Decoded.bytes_behind {r r' : Decoded} {m m' n : Nat} (hf : r.fault = r'.fault)
    (ht : ∀ k, r'.fault = some (.noCode, k) → ceil8 r.taken = n + ceil8 r'.taken) (hm : m = n + m') :
    r.bytes m = n + r'.bytes m' := by
  unfold Decoded.bytes
  rw [hf]
  split
  · exact ht _ ‹_›
  · exact hm

/-- DECODE's loop over the payload bytes still to come, then `Finish`. -/
theorem pump_payload (rest : List Byte) :
    ∀ (y : List Byte) (bits : Nat) {s : State}, s.phase.isBusy = true → s.inq = y ++ rest →
      ∃ (r : Decoded) (cand : Code) (idx : BitVec 14),
        r = decodeFrom s.dec s.strict s.work.cand ((unpackBytes s.params.bitOrder y).take bits) ∧
        pump decodeByte s.inq (payloadLoop y.length bits s) =
          pump decodeByte (s.inq.drop (r.bytes y.length))
            ((s.decoded r.out (r.bytes y.length) (s.inq.drop (r.bytes y.length)) cand idx).endedBy r.fault chunkLoop)
  | [], bits, s, hp, hq => by
    obtain ⟨cand, hfin⟩ := decodeFinish_eq chunkLoop s hp
    refine ⟨_, cand, s.work.idx, rfl, ?_⟩
    have hb : (decodeFrom s.dec s.strict s.work.cand []).bytes 0 = 0 := by
      unfold Decoded.bytes
      split
      · rw [(decodeFrom_nil_taken _ _ _).1]; rfl
      · rfl
    have hd : s.decoded [] 0 s.inq cand s.work.idx = s.setCand cand := by simp [State.decoded, State.setCand]
    simp only [List.length_nil, unpackBytes_nil, List.take_nil]
    rw [hb, List.drop_zero, (decodeFrom_nil_taken _ _ _).2, hd, payloadLoop, if_pos rfl, hfin]
  | b :: y, bits, s, hp, hq => by
    have hq' : s.inq = b :: (y ++ rest) := hq
    set u : State := (s.await (.chunkPayload (y.length + 1) bits)).inByte (y ++ rest) with hu
    set g := (unpackBits s.params.bitOrder b).take bits with hg
    have hgl : g.length = min bits 8 := by rw [hg, List.length_take, unpackBits_length]
    obtain ⟨idx, hbits⟩ := decodeBits_eq g u rfl
    have hstep : pump decodeByte s.inq (payloadLoop (b :: y).length bits s) =
        pump decodeByte (y ++ rest) ((decodeBits g u).unlessEnded (payloadLoop y.length (bits - g.length))) := by
      have hne : ¬ (b :: y).length = 0 := by simp
      rw [payloadLoop, if_neg hne, hq', pump_cons rfl, List.length_cons,
        decodeByte_payload (s := (s.await (.chunkPayload (y.length + 1) bits)).inByte (y ++ rest)) (bytes := y.length + 1)
          (bits := bits) rfl, Nat.add_sub_cancel]
      rfl
    have hS : (unpackBytes s.params.bitOrder (b :: y)).take bits =
        g ++ (unpackBytes s.params.bitOrder y).take (bits - 8) := by
      rw [unpackBytes_cons, List.take_append, unpackBits_length]
    have hrest : bits - g.length = bits - 8 := by omega
    rw [hstep, hbits, hS, hrest]
    have hdec : u.dec = s.dec := rfl
    have hst : u.strict = s.strict := rfl
    have hcand : u.work.cand = s.work.cand := rfl
    rw [hdec, hst, hcand]
    have hud : ∀ out c i, u.decoded out 0 u.inq c i = (s.decoded out 1 (y ++ rest) c i).await (.chunkPayload (y.length + 1) bits) :=
      fun out c i => State.inByte_decoded out (y ++ rest) (y ++ rest) c i (s.await _)
    cases hf : (steps s.dec s.strict s.work.cand g).fault with
    | some f =>
      have he := steps_fault (e := f.1) (k := f.2) hf
      have ht := steps_taken_bounds hf
      refine ⟨_, (steps s.dec s.strict s.work.cand g).cand, idx, rfl, ?_⟩
      rw [decodeFrom_fault hf]
      have hbytes : Decoded.bytes (b :: y).length
          { out := (steps s.dec s.strict s.work.cand g).out, taken := (steps s.dec s.strict s.work.cand g).taken,
            fault := some f } = 1 := by
        obtain ⟨e, k⟩ := f
        simp only at he
        subst he
        show ceil8 _ = 1
        unfold ceil8
        simp only
        omega
      rw [hbytes, hq', List.drop_one, List.tail_cons]
      simp only [unlessEnded_raise, hud]
      rfl
    | none =>
      simp only [hud]
      obtain ⟨r, cand, idx', hr, heq⟩ := pump_payload rest y (bits - 8)
        (s := (s.decoded (steps s.dec s.strict s.work.cand g).out 1 (y ++ rest)
          (steps s.dec s.strict s.work.cand g).cand idx).await (.chunkPayload (y.length + 1) bits)) rfl rfl
      have hr' : r = decodeFrom s.dec s.strict (steps s.dec s.strict s.work.cand g).cand
        ((unpackBytes s.params.bitOrder y).take (bits - 8)) := hr
      refine ⟨_, cand, idx', rfl, ?_⟩
      rw [decodeFrom_append hf, unlessEnded_busy rfl]
      refine Eq.trans heq ?_
      rw [← hr']
      simp only
      have hbytes : Decoded.bytes (b :: y).length
          { out := (steps s.dec s.strict s.work.cand g).out ++ r.out, taken := g.length + r.taken, fault := r.fault } =
            1 + r.bytes y.length := by
        refine Decoded.bytes_behind rfl ?_ (by rw [List.length_cons]; omega)
        intro k hk
        simp only
        by_cases h8 : bits ≤ 8
        · have h0 : bits - 8 = 0 := by omega
          rw [hr', h0, List.take_zero] at hk
          have := decodeFrom_nil_fault hk
          cases this
        · rw [hgl]
          unfold ceil8
          omega
      have hdrop : (b :: (y ++ rest)).drop (1 + r.bytes y.length) = (y ++ rest).drop (r.bytes y.length) := by
        rw [Nat.add_comm, List.drop_succ_cons]
      rw [hbytes, hq', hdrop]
      refine congrArg _ ?_
      rw [← State.await_endedBy r.fault (.chunkPayload (y.length + 1) bits) (s.decoded _ _ _ _ _)]
      refine congrArg (State.endedBy r.fault chunkLoop) ?_
      exact State.decoded_decoded _ _ _ _ _ _ _ _ _ _ (s.await (.chunkPayload (y.length + 1) bits))

theorem State.endedBy_decoded_none (k : State → State) (s : State) : s.endedBy none k = k s := rfl

theorem chunkLoop_of_eq {s : State} (h : s.work.consumed = s.len) : chunkLoop s = s.complete := by simp [chunkLoop, h]

theorem chunkLoop_of_lt {s : State} (h : s.work.consumed.toNat < s.len.toNat) : chunkLoop s = s.await .chunkTrail := by
  have : s.work.consumed ≠ s.len := fun hc => by rw [hc] at h; omega
  simp [chunkLoop, this]

theorem pump_endedBy_some {f : Err × Nat} (k : State → State) (g : Byte → State → State) (q : List Byte) (s : State) :
    pump g q (s.endedBy (some f) k) = s.endedBy (some f) k := pump_of_not_awaiting (raise_awaiting _ _ _)

/-- DECODE's loop, CHUNKED, over exactly the bytes it still needs. -/
theorem pump_decode_chunked (rest : List Byte) :
    ∀ (fuel : Nat) (y : List Byte) {s : State}, y.length ≤ fuel → s.inq = y ++ rest →
      s.work.consumed.toNat + y.length = s.len.toNat →
      ∃ (b : Body) (cand : Code) (idx : BitVec 14),
        b = decodeChunks s.params.bitOrder s.dec s.strict s.params.chunkBytes fuel y ∧
        pump decodeByte s.inq (chunkLoop s) =
          (s.decoded b.out b.used (s.inq.drop b.used) cand idx).endedBy
            (b.fault.map (faultAt s.work.consumed.toNat)) State.complete := by
  intro fuel
  induction fuel with
  | zero =>
    intro y s hy hq hlen
    have hy0 : y = [] := List.length_eq_zero_iff.1 (by omega)
    subst hy0
    refine ⟨_, s.work.cand, s.work.idx, rfl, ?_⟩
    rw [chunkLoop_of_eq (BitVec.eq_of_toNat_eq (by simpa using hlen)), pump_of_not_awaiting rfl]
    simp [decodeChunks, State.decoded, State.endedBy]
  | succ fuel ih =>
    intro y s hy hq hlen
    cases y with
    | nil =>
      refine ⟨_, s.work.cand, s.work.idx, rfl, ?_⟩
      rw [chunkLoop_of_eq (BitVec.eq_of_toNat_eq (by simpa using hlen)), pump_of_not_awaiting rfl]
      simp [decodeChunks, State.decoded, State.endedBy]
    | cons t y =>
      simp only [List.length_cons] at hy hlen
      have hq' : s.inq = t :: (y ++ rest) := hq
      have hk := consumed_add (s := s) (n := 1) (by omega)
      set m := min s.params.chunkBytes y.length with hm
      have hrem : ((s.await .chunkTrail).inByte (y ++ rest)).remaining = y.length := by
        show s.len.toNat - (s.work.consumed + BitVec.ofNat 64 1).toNat = y.length
        omega
      have hstep : pump decodeByte s.inq (chunkLoop s) = pump decodeByte (y ++ rest)
          (if 8 * m < t.toNat then
            State.raise .badTrail (((s.await .chunkTrail).inByte (y ++ rest)).work.consumed - 1)
              ((s.await .chunkTrail).inByte (y ++ rest))
          else payloadLoop m (8 * m - t.toNat) (((s.await .chunkTrail).inByte (y ++ rest)).setCand [])) := by
        rw [chunkLoop_of_lt (by omega), hq', pump_cons rfl,
          decodeByte_trail (s := (s.await .chunkTrail).inByte (y ++ rest)) rfl, hrem]
        rfl
      rw [hstep]
      by_cases ht : 8 * m < t.toNat
      · refine ⟨_, s.work.cand, s.work.idx, rfl, ?_⟩
        rw [if_pos ht, pump_of_not_awaiting (raise_awaiting _ _ _)]
        have hb : decodeChunks s.params.bitOrder s.dec s.strict s.params.chunkBytes (fuel + 1) (t :: y) =
            { out := [], used := 1, fault := some (.badTrail, 0) } := by
          rw [decodeChunks]; simp only; rw [if_pos ht]
        rw [hb, hq', List.drop_one, List.tail_cons]
        have hinfo : ((s.await .chunkTrail).inByte (y ++ rest)).work.consumed - 1 = s.work.consumed := by
          show s.work.consumed + 1 - 1 = s.work.consumed
          rw [BitVec.add_sub_cancel]
        rw [hinfo]
        simp only [Option.map_some, faultAt, State.endedBy, Nat.add_zero, BitVec.ofNat_toNat, BitVec.setWidth_eq]
        simp [State.decoded, State.inByte, State.raise, State.await]
        exact ⟨rfl, rfl⟩
      · rw [if_neg ht]
        have htake : (y.take m).length = m := by rw [List.length_take]; omega
        have hsplit : y ++ rest = y.take m ++ (y.drop m ++ rest) := by rw [← List.append_assoc, List.take_append_drop]
        obtain ⟨r, cand, idx, hr, heq⟩ := pump_payload (y.drop m ++ rest) (y.take m) (8 * m - t.toNat)
          (s := ((s.await .chunkTrail).inByte (y ++ rest)).setCand []) rfl hsplit
        rw [htake] at heq
        have hr' : r = decodeAll s.dec s.strict ((unpackBytes s.params.bitOrder (y.take m)).take (8 * m - t.toNat)) := hr
        have hS : ∀ out n q c i, (((s.await .chunkTrail).inByte (y ++ rest)).setCand []).decoded out n q c i =
            (s.decoded out (1 + n) q c i).await .chunkTrail := by
          intro out n q c i
          simp [State.decoded, State.inByte, State.setCand, State.await, BitVec.ofNat_add, BitVec.add_assoc]
        have heq' : pump decodeByte (y ++ rest)
            (payloadLoop m (8 * m - t.toNat) (((s.await .chunkTrail).inByte (y ++ rest)).setCand [])) =
            pump decodeByte ((y ++ rest).drop (r.bytes m))
              ((s.decoded r.out (1 + r.bytes m) ((y ++ rest).drop (r.bytes m)) cand idx).endedBy r.fault chunkLoop) := by
          refine Eq.trans heq ?_
          rw [hS, State.await_endedBy]
          rfl
        have hdrop : ∀ k, (t :: (y ++ rest)).drop (1 + k) = (y ++ rest).drop k := fun k => by
          rw [Nat.add_comm, List.drop_succ_cons]
        rw [heq']
        cases hf : r.fault with
        | some f =>
          have hb : decodeChunks s.params.bitOrder s.dec s.strict s.params.chunkBytes (fuel + 1) (t :: y) =
              { out := r.out, used := 1 + r.bytes m, fault := some f } := by
            rw [decodeChunks]; simp only; rw [if_neg ht, ← hm, ← hr', hf]
          have hne : faultAt s.work.consumed.toNat f = f :=
            faultAt_of_ne (decodeFrom_ne_badTrail (hr' ▸ hf))
          refine ⟨_, cand, idx, rfl, ?_⟩
          rw [hb, hq', hdrop, pump_endedBy_some, Option.map_some, hne]
          rfl
        | none =>
          have hb : decodeChunks s.params.bitOrder s.dec s.strict s.params.chunkBytes (fuel + 1) (t :: y) =
              (decodeChunks s.params.bitOrder s.dec s.strict s.params.chunkBytes fuel (y.drop m)).behind r.out (1 + m) := by
            rw [decodeChunks]; simp only; rw [if_neg ht, ← hm, ← hr', hf]
          have hbytes : r.bytes m = m := by unfold Decoded.bytes; rw [hf]
          have hyr : (y ++ rest).drop m = y.drop m ++ rest := List.drop_append_of_le_length (by omega)
          have hk' := consumed_add (s := s) (n := 1 + m) (by omega)
          rw [hbytes, hyr]
          obtain ⟨b, cand', idx', hbb, heq2⟩ := ih (y.drop m) (s := s.decoded r.out (1 + m) (y.drop m ++ rest) cand idx)
            (by rw [List.length_drop]; omega) rfl
            (by show (s.work.consumed + BitVec.ofNat 64 (1 + m)).toNat + _ = s.len.toNat
                rw [List.length_drop]; omega)
          have hbb' : b = decodeChunks s.params.bitOrder s.dec s.strict s.params.chunkBytes fuel (y.drop m) := hbb
          refine ⟨_, cand', idx', rfl, ?_⟩
          refine Eq.trans heq2 ?_
          rw [hb, ← hbb', hq']
          have hd2 : (t :: (y ++ rest)).drop (1 + m + b.used) = (y.drop m ++ rest).drop b.used := by
            rw [Nat.add_assoc, hdrop, ← List.drop_drop, hyr]
          have hfl : (b.behind r.out (1 + m)).fault.map (faultAt s.work.consumed.toNat) =
              b.fault.map (faultAt (s.work.consumed + BitVec.ofNat 64 (1 + m)).toNat) := by
            rw [hk']
            cases hbf : b.fault with
            | none => simp [Body.behind, hbf]
            | some f => simp [Body.behind, hbf, faultAt_add]
          rw [hfl]
          show _ = (s.decoded (r.out ++ b.out) (1 + m + b.used) ((t :: (y ++ rest)).drop (1 + m + b.used)) cand' idx').endedBy _ _
          rw [hd2]
          exact congrArg (State.endedBy _ State.complete) (State.decoded_decoded _ _ _ _ _ _ _ _ _ _ s)

/-! ## DECODE from its start (R213) -/

/-- The loop's head does not look at where the command stands. -/
theorem decodeLoop_await {s : State} (hb : s.phase.isBusy = true) (pos : Pos) : decodeLoop (s.await pos) = decodeLoop s := by
  by_cases h : s.work.consumed = s.len
  · have h' : (s.await pos).work.consumed = (s.await pos).len := h
    unfold decodeLoop
    rw [if_pos h, if_pos h']
    unfold decodeFinish
    by_cases hc : s.work.cand = []
    · rw [if_pos hc, if_pos (show (s.await pos).work.cand = [] from hc), unlessEnded_busy rfl, unlessEnded_busy hb]
      rfl
    · rw [if_neg hc, if_neg (show ¬ (s.await pos).work.cand = [] from hc)]
      by_cases hs : s.strict = true
      · rw [if_pos hs, if_pos (show (s.await pos).strict = true from hs)]
        rfl
      · rw [if_neg hs, if_neg (show ¬ (s.await pos).strict = true from hs), unlessEnded_busy (s := (s.await pos).setCand []) rfl,
          unlessEnded_busy (s := s.setCand []) hb]
        rfl
  · have h' : ¬ (s.await pos).work.consumed = (s.await pos).len := h
    unfold decodeLoop
    rw [if_neg h, if_neg h']
    rfl

/-- A body, SIMPLE. -/
theorem decodeStart_simple {s : State} {y rest : List Byte} (hb : s.phase.isBusy = true) (hs : s.bodyChunked = false)
    (hq : s.inq = y ++ rest) (h0 : s.work.consumed = 0) (hlen : y.length = s.len.toNat) :
    ∃ (r : Body) (cand : Code) (idx : BitVec 14),
      r = decodeSimple s.params.bitOrder s.dec s.strict s.tailDiscard y ∧
        pump decodeByte s.inq (decodeStart s) =
          (s.decoded r.out r.used (s.inq.drop r.used) cand idx).endedBy r.fault State.complete := by
  obtain ⟨r, cand, idx, h1, h2⟩ := pump_decode_simple rest y (s := (s.setCand []).await .decoding) rfl hq (by
    show s.work.consumed.toNat + y.length = s.len.toNat
    rw [h0]
    simpa using hlen)
  have hst : decodeStart s = decodeLoop ((s.setCand []).await .decoding) := by
    rw [decodeLoop_await (s := s.setCand []) hb, decodeStart, if_neg (by simp [hs])]
  refine ⟨_, cand, idx, rfl, ?_⟩
  have hr : r = decodeAll s.dec s.strict ((unpackBytes s.params.bitOrder y).take (8 * y.length - s.tailDiscard)) := h1
  rw [hst, show s.inq = ((s.setCand []).await .decoding).inq from rfl, h2, hr]
  unfold decodeSimple
  simp only
  unfold State.endedBy
  split
  · rfl
  · rfl

/-- A body, CHUNKED. -/
theorem decodeStart_chunked {s : State} {y rest : List Byte} (hs : s.bodyChunked = true) (hq : s.inq = y ++ rest)
    (h0 : s.work.consumed = 0) (hlen : y.length = s.len.toNat) :
    ∃ (r : Body) (cand : Code) (idx : BitVec 14),
      r = decodeChunks s.params.bitOrder s.dec s.strict s.params.chunkBytes y.length y ∧
        pump decodeByte s.inq (decodeStart s) =
          (s.decoded r.out r.used (s.inq.drop r.used) cand idx).endedBy r.fault State.complete := by
  obtain ⟨b, cand, idx, h1, h2⟩ := pump_decode_chunked rest y.length y (s := s.setCand []) (Nat.le_refl _) hq (by
    show s.work.consumed.toNat + y.length = s.len.toNat
    rw [h0]
    simpa using hlen)
  refine ⟨b, cand, idx, h1, ?_⟩
  have hst : decodeStart s = chunkLoop (s.setCand []) := by rw [decodeStart, if_pos hs]
  have hf : b.fault.map (faultAt (s.setCand []).work.consumed.toNat) = b.fault := by
    have hz : (s.setCand []).work.consumed.toNat = 0 := by
      show s.work.consumed.toNat = 0
      rw [h0]
      rfl
    rw [hz]
    cases b.fault with
    | none => rfl
    | some f => rw [Option.map_some, faultAt_zero]
  rw [hst, show s.inq = (s.setCand []).inq from rfl, h2, hf]
  rfl

/-- Which faults end a bit sequence. -/
theorem decodeFrom_fault_kind {d : Decoder} {strict : Bool} {cand xs : Code} {f : Err × Nat}
    (h : (decodeFrom d strict cand xs).fault = some f) : f.1 = .noCode ∨ f.1 = .truncBody := by
  induction xs generalizing cand with
  | nil => exact .inr (decodeFrom_nil_fault h)
  | cons x xs ih =>
    simp only [decodeFrom] at h
    split at h
    · exact ih h
    · split at h
      · obtain rfl := Option.some.inj h
        exact .inl rfl
      · exact ih h

/-- Which faults end a chunked body. -/
theorem decodeChunks_fault_kind {o : BitOrder} {d : Decoder} {strict : Bool} {n : Nat} {f : Err × Nat} :
    ∀ (fuel : Nat) (y : List Byte), (decodeChunks o d strict n fuel y).fault = some f →
      f.1 = .noCode ∨ f.1 = .truncBody ∨ f.1 = .badTrail
  | 0, _, h => by cases h
  | _ + 1, [], h => by cases h
  | fuel + 1, t :: y, h => by
    simp only [decodeChunks] at h
    split at h
    · obtain rfl := Option.some.inj h
      exact .inr (.inr rfl)
    · split at h
      · rename_i g hg
        obtain rfl := Option.some.inj h
        rcases decodeFrom_fault_kind hg with h | h
        · exact .inl h
        · exact .inr (.inl h)
      · simp only [Body.behind, Option.map_eq_some_iff] at h
        obtain ⟨g, hg, rfl⟩ := h
        have := decodeChunks_fault_kind (f := g) fuel _ hg
        obtain ⟨e, k⟩ := g
        rcases this with rfl | rfl | rfl
        · exact .inl rfl
        · exact .inr (.inl rfl)
        · exact .inr (.inr rfl)

/-- Where no fault ends it, the whole body is taken. -/
theorem decodeSimple_used {o : BitOrder} {d : Decoder} {strict : Bool} {tail : Nat} {y : List Byte}
    (h : (decodeSimple o d strict tail y).fault = none) : (decodeSimple o d strict tail y).used = y.length := by
  have h' : (decodeAll d strict ((unpackBytes o y).take (8 * y.length - tail))).fault = none := h
  unfold decodeSimple Decoded.bytes
  simp only [h']

theorem decodeChunks_used {o : BitOrder} {d : Decoder} {strict : Bool} {n : Nat} :
    ∀ (fuel : Nat) (y : List Byte), y.length ≤ fuel → (decodeChunks o d strict n fuel y).fault = none →
      (decodeChunks o d strict n fuel y).used = y.length
  | 0, y, hy, _ => by
    obtain rfl : y = [] := List.length_eq_zero_iff.1 (by omega)
    rfl
  | _ + 1, [], _, _ => rfl
  | fuel + 1, t :: y, hy, h => by
    simp only [List.length_cons] at hy
    simp only [decodeChunks] at h ⊢
    split at h
    · cases h
    · rw [if_neg ‹_›]
      split at h
      · cases h
      · rename_i hr
        simp only [Body.behind, Option.map_eq_none_iff] at h ⊢
        rw [decodeChunks_used fuel _ (by rw [List.length_drop]; omega) h, List.length_drop, List.length_cons]
        omega

end Sys2Proof.Machine
end

