-- ==== Sys2Proof/Laws/Encode.lean ====
section
/-!
SUPPORT. ENCODE (R203): the whole run over bytes that have codes, in both body formats.
-/

namespace Sys2Proof.Machine

open Sys2Proof Sys2Proof.Config

/-! ## Packing -/

theorem packBytes_add (o : BitOrder) (m n : Nat) (z : Code) :
    packBytes o (m + n) z = packBytes o m z ++ packBytes o n (z.drop (8 * m)) := by
  induction m generalizing z with
  | zero => simp [packBytes]
  | succ m ih =>
    rw [Nat.succ_add, packBytes, packBytes, ih, List.drop_drop]
    simp [Nat.mul_succ, Nat.add_comm]

theorem packBytes_append_left (o : BitOrder) {m : Nat} {x : Code} (y : Code) (h : 8 * m ≤ x.length) :
    packBytes o m (x ++ y) = packBytes o m x := by
  induction m generalizing x with
  | zero => rfl
  | succ m ih =>
    rw [packBytes, packBytes, List.take_append_of_le_length (by omega), List.drop_append_of_le_length (by omega),
      ih (by simp; omega)]

/-! ## The simple body -/

/-- ENCODE, SIMPLE, after `n` bytes whose codes are the bits `b` (R201): whole bytes are out, the others are in
`acc`. -/
def State.encoded (b : Code) (n : Nat) (rest : List Byte) (s : State) : State :=
  { s with
    inq := rest
    outq := s.outq ++ packBytes s.params.bitOrder ((s.work.acc ++ b).length / 8) (s.work.acc ++ b)
    work := { s.work with
      consumed := s.work.consumed + BitVec.ofNat 64 n
      produced := s.work.produced + BitVec.ofNat 64 ((s.work.acc ++ b).length / 8)
      acc := (s.work.acc ++ b).drop (8 * ((s.work.acc ++ b).length / 8)) } }

theorem State.encoded_encoded (b b' : Code) (n n' : Nat) (q r : List Byte) (s : State) :
    (s.encoded b n q).encoded b' n' r = s.encoded (b ++ b') (n + n') r := by
  generalize hx : s.work.acc ++ b = x
  have hlen : 8 * (x.length / 8) ≤ x.length := Nat.mul_div_le _ _
  have hacc : (s.encoded b n q).work.acc = x.drop (8 * (x.length / 8)) := by simp [State.encoded, hx]
  have hsplit : x.drop (8 * (x.length / 8)) ++ b' = (x ++ b').drop (8 * (x.length / 8)) := by
    rw [List.drop_append_of_le_length hlen]
  have hq : (x ++ b').length / 8 = x.length / 8 + ((x ++ b').drop (8 * (x.length / 8))).length / 8 := by
    rw [List.length_drop, List.length_append]; omega
  have hpack : packBytes s.params.bitOrder ((x ++ b').length / 8) (x ++ b') =
      packBytes s.params.bitOrder (x.length / 8) x ++
        packBytes s.params.bitOrder (((x ++ b').drop (8 * (x.length / 8))).length / 8) ((x ++ b').drop (8 * (x.length / 8))) := by
    rw [hq, packBytes_add, packBytes_append_left _ _ hlen]
  simp only [State.encoded, hx, hsplit, ← List.append_assoc]
  rw [hpack]
  simp only [BitVec.ofNat_add, ← List.append_assoc, BitVec.add_assoc, List.drop_drop, State.mk.injEq, Work.mk.injEq,
    true_and, and_true]
  constructor
  · rw [← BitVec.ofNat_add, ← hq]
  · congr 1
    omega

theorem encodeLoop_await (t : Nat) (pos : Pos) (s : State) : encodeLoop t (s.await pos) = encodeLoop t s := by
  by_cases h : s.work.consumed = s.len
  · have h' : (s.await pos).work.consumed = (s.await pos).len := h
    unfold encodeLoop encodeEndChunked encodeEndSimple
    rw [if_pos h, if_pos h']
    show (if s.bodyChunked = true then (if s.work.chunk = [] then _ else _) else (if s.work.acc = [] then _ else _)) =
      if s.bodyChunked = true then (if s.work.chunk = [] then _ else _) else (if s.work.acc = [] then _ else _)
    split <;> split <;> rfl
  · have h' : ¬ (s.await pos).work.consumed = (s.await pos).len := h
    unfold encodeLoop
    rw [if_neg h, if_neg h']
    rfl

theorem encodeLoop_of_lt {t : Nat} {s : State} (h : s.work.consumed.toNat < s.len.toNat) :
    encodeLoop t s = s.await (.encoding t) := by
  have : s.work.consumed ≠ s.len := fun hc => by rw [hc] at h; omega
  simp [encodeLoop, this]

/-- One byte that has a code, taken at the loop's head. -/
theorem encodeByte_inByte {t : Nat} {b : Byte} {c : Code} (q : List Byte) (s : State) (hc : s.codes.codeOf b = some c) :
    encodeByte b ((s.await (.encoding t)).inByte q) = encodeCode t c ((s.await (.encoding t)).inByte q) :=
  encodeByte_some (t := t) rfl hc

theorem encodeCode_simple {t : Nat} {c : Code} {q : List Byte} {s : State} (h : s.bodyChunked = false) :
    encodeCode t c ((s.await (.encoding t)).inByte q) = encodeLoop t (s.encoded c 1 q) := by
  have h' : ¬ ((s.await (.encoding t)).inByte q).bodyChunked = true := by
    show ¬ s.bodyChunked = true
    simp [h]
  rw [encodeCode, if_neg h', ← encodeLoop_await t (.encoding t) (s.encoded c 1 q)]
  congr 1
  simp only [State.encoded, State.flush8, State.setAcc, State.outBytes, State.inByte, State.await, packBytes_length]
  rfl

/-- The codes of the bytes taken. -/
theorem CodeTable.bitsOf_cons {t : CodeTable} {b : Byte} {x : List Byte} {c : Code} (h : t.codeOf b = some c) :
    t.bitsOf (b :: x) = c ++ t.bitsOf x := by
  simp [CodeTable.bitsOf, h]

theorem CodeTable.Covers.head {t : CodeTable} {b : Byte} {x : List Byte} (h : t.Covers (b :: x)) :
    ∃ c, t.codeOf b = some c := Option.isSome_iff_exists.1 (h b (by simp))

theorem CodeTable.Covers.tail {t : CodeTable} {b : Byte} {x : List Byte} (h : t.Covers (b :: x)) : t.Covers x :=
  fun y hy => h y (by simp [hy])

/-- ENCODE's loop, SIMPLE, over exactly the bytes it still needs. -/
theorem pump_encode_simple (t : Nat) (rest : List Byte) :
    ∀ (x : List Byte) {s : State}, s.bodyChunked = false → s.codes.Covers x → s.inq = x ++ rest →
      s.work.acc.length < 8 → s.work.consumed.toNat + x.length = s.len.toNat →
      pump encodeByte s.inq (encodeLoop t s) = encodeEndSimple (s.encoded (s.codes.bitsOf x) x.length rest)
  | [], s, hb, _, hq, ha, hlen => by
    have hc : s.work.consumed = s.len := BitVec.eq_of_toNat_eq (by simpa using hlen)
    have hs : s.encoded [] 0 rest = s := by
      rw [List.nil_append] at hq
      have h0 : s.work.acc.length / 8 = 0 := by omega
      simp [State.encoded, ← hq, h0, packBytes]
    have hend : ¬ (encodeEndSimple s).awaiting = true := by
      unfold encodeEndSimple
      split <;> simp [encodeEnd]
    have he : encodeLoop t s = encodeEndSimple s := by simp [encodeLoop, hc, hb]
    rw [he, pump_of_not_awaiting (by simpa using hend)]
    exact congrArg encodeEndSimple hs.symm
  | b :: x, s, hb, hcov, hq, ha, hlen => by
    simp only [List.length_cons] at hlen
    obtain ⟨c, hc⟩ := hcov.head
    have hk := consumed_add (s := s) (n := 1) (by omega)
    rw [hq, List.cons_append, encodeLoop_of_lt (by omega), pump_cons rfl, encodeByte_inByte _ _ hc, encodeCode_simple hb]
    have := pump_encode_simple t rest x (s := s.encoded c 1 (x ++ rest)) hb hcov.tail rfl
      (by show (List.drop _ _).length < 8
          rw [List.length_drop]; omega)
      (by show (s.work.consumed + BitVec.ofNat 64 1).toNat + x.length = s.len.toNat
          omega)
    refine Eq.trans this ?_
    rw [CodeTable.bitsOf_cons hc, List.length_cons, Nat.add_comm x.length 1]
    exact congrArg encodeEndSimple (State.encoded_encoded _ _ _ _ _ _ _)

/-- The whole simple body (R106): the last byte's pad bits are drawn. -/
theorem encodeEndSimple_spec {s : State} (ha : s.work.acc.length < 8) :
    ∃ t pad, t < 8 ∧ pad.length = t ∧ 8 ∣ s.work.acc.length + t ∧
      encodeEndSimple s = encodeEnd t ((s.outBytes (packBytes s.params.bitOrder (ceil8 s.work.acc.length)
        (s.work.acc ++ pad))).afterDraws t) := by
  by_cases h : s.work.acc = []
  · refine ⟨0, [], by omega, rfl, by simp [h], ?_⟩
    have h0 : (State.outBytes [] s).afterDraws 0 = s := by simp [State.outBytes, State.afterDraws]
    simp [encodeEndSimple, h, ceil8, packBytes, h0]
  · have hpos := List.length_pos_iff.2 h
    have hd : (s.drawn (8 - s.work.acc.length)).length = 8 - s.work.acc.length := by simp [State.drawn]
    refine ⟨8 - s.work.acc.length, s.drawn (8 - s.work.acc.length), by omega, hd, by
      rw [Nat.add_sub_cancel' (by omega)], ?_⟩
    have hc : ceil8 s.work.acc.length = 1 := by unfold ceil8; omega
    rw [encodeEndSimple, if_neg h, hc]
    simp [State.lastByte, packBytes, List.take_of_length_le, hd, Nat.add_sub_cancel' (by omega : s.work.acc.length ≤ 8)]

/-- The simple body is `B` and its pad bits, packed (R106). -/
theorem simple_body (o : BitOrder) (b pad : Code) (h : 8 ∣ (b.drop (8 * (b.length / 8))).length + pad.length)
    (hp : pad.length < 8) :
    packBytes o (b.length / 8) b ++ packBytes o (ceil8 (b.drop (8 * (b.length / 8))).length)
      (b.drop (8 * (b.length / 8)) ++ pad) = packBytes o (ceil8 b.length) (b ++ pad) ∧
      b.length + pad.length = 8 * ceil8 b.length := by
  have hlen : 8 * (b.length / 8) ≤ b.length := Nat.mul_div_le _ _
  rw [List.length_drop] at h ⊢
  have hq : ceil8 b.length = b.length / 8 + ceil8 (b.length - 8 * (b.length / 8)) := by unfold ceil8; omega
  refine ⟨?_, ?_⟩
  · rw [hq, packBytes_add, packBytes_append_left _ _ hlen, List.drop_append_of_le_length hlen]
  · obtain ⟨k, hk⟩ := h
    unfold ceil8
    omega

/-! ## The chunked body -/

/-- The state after output and draws, `rest` left in INQ, `acc` as it was. -/
def State.emitted (n : Nat) (rest out : List Byte) (chunk : Code) (k : Nat) (s : State) : State :=
  { s with
    inq := rest
    outq := s.outq ++ out
    work := { s.work with
      consumed := s.work.consumed + BitVec.ofNat 64 n
      produced := s.work.produced + BitVec.ofNat 64 out.length
      chunk := chunk }
    draws := s.draws + k }

theorem State.emitted_emitted (n n' : Nat) (q r out out' : List Byte) (c c' : Code) (k k' : Nat) (s : State) :
    (s.emitted n q out c k).emitted n' r out' c' k' = s.emitted (n + n') r (out ++ out') c' (k + k') := by
  simp [State.emitted, BitVec.ofNat_add, BitVec.add_assoc, Nat.add_assoc]

/-- CloseChunk(m) (R202), where the open chunk fits. -/
theorem closeChunk_spec {m : Nat} {s : State} (h : s.work.chunk.length ≤ 8 * m) :
    ∃ k : Chunk, k.bits = s.work.chunk ∧ k.bytes = m ∧ k.wf ∧ k.pad.length = s.chunkTrail m ∧
      s.closeChunk m = s.emitted 0 s.inq (k.render s.params.bitOrder) [] (s.chunkTrail m) := by
  have hd : (s.drawn (s.chunkTrail m)).length = s.chunkTrail m := by simp [State.drawn]
  refine ⟨⟨s.work.chunk, s.drawn (s.chunkTrail m), m⟩, rfl, rfl, ?_, hd, ?_⟩
  · show s.work.chunk.length + (s.drawn (s.chunkTrail m)).length = 8 * m
    rw [hd, State.chunkTrail]
    omega
  · simp [State.closeChunk, State.emitted, Chunk.render, hd, State.outBytes, State.afterDraws, State.setChunk]

theorem encodeCode_chunked_fits {t : Nat} {c : Code} {q : List Byte} {s : State} (h : s.bodyChunked = true)
    (hf : s.work.chunk.length + c.length ≤ s.chunkBits) :
    encodeCode t c ((s.await (.encoding t)).inByte q) = encodeLoop t (s.emitted 1 q [] (s.work.chunk ++ c) 0) := by
  have h' : ((s.await (.encoding t)).inByte q).bodyChunked = true := h
  have hf' : ¬ ((s.await (.encoding t)).inByte q).chunkBits <
      ((s.await (.encoding t)).inByte q).work.chunk.length + c.length := by
    show ¬ s.chunkBits < s.work.chunk.length + c.length
    omega
  rw [encodeCode, if_pos h', if_neg hf', ← encodeLoop_await t (.encoding t) (s.emitted _ _ _ _ _)]
  congr 1
  simp [State.emitted, State.addChunk, State.setChunk, State.inByte, State.await]

theorem encodeCode_chunked_closes {t : Nat} {c : Code} {q : List Byte} {s : State} (h : s.bodyChunked = true)
    (hf : s.chunkBits < s.work.chunk.length + c.length) (hcap : s.work.chunk.length ≤ s.chunkBits) :
    ∃ k : Chunk, k.bits = s.work.chunk ∧ k.bytes = s.params.chunkBytes ∧ k.wf ∧
      encodeCode t c ((s.await (.encoding t)).inByte q) =
        encodeLoop k.pad.length (s.emitted 1 q (k.render s.params.bitOrder) c k.pad.length) := by
  obtain ⟨k, h1, h2, h3, h4, h5⟩ := closeChunk_spec (m := s.params.chunkBytes) (s := (s.await (.encoding t)).inByte q) hcap
  refine ⟨k, h1, h2, h3, ?_⟩
  have h' : ((s.await (.encoding t)).inByte q).bodyChunked = true := h
  have hf' : ((s.await (.encoding t)).inByte q).chunkBits <
      ((s.await (.encoding t)).inByte q).work.chunk.length + c.length := hf
  have hpar : ((s.await (.encoding t)).inByte q).params = s.params := rfl
  rw [encodeCode, if_pos h', if_pos hf', hpar, h5, h4, ← encodeLoop_await _ (.encoding t) (s.emitted _ _ _ _ _)]
  congr 1
  simp [State.emitted, State.addChunk, State.setChunk, State.inByte, State.await]

theorem encodeEndChunked_spec (t : Nat) (s : State) :
    ∃ (ks : List Chunk) (n : Nat), ChunkRun s.chunkBits s.params.chunkBytes s.work.chunk [] ks ∧
      encodeEndChunked t s =
        encodeEnd (lastTrail t ks) (s.emitted 0 s.inq (renderAll s.params.bitOrder ks) [] n) := by
  by_cases h : s.work.chunk = []
  · refine ⟨[], 0, ⟨by simp [chunked, h], by simp [chunked, h, payloadSizes], by simp⟩, ?_⟩
    have hs : s.emitted 0 s.inq [] s.work.chunk 0 = s := by simp [State.emitted]
    rw [h] at hs
    simp [encodeEndChunked, h, lastTrail, renderAll, hs]
  · obtain ⟨k, h1, h2, h3, h4, h5⟩ := closeChunk_spec (m := ceil8 s.work.chunk.length) (s := s) (ceil8_spec _).1
    refine ⟨[k], s.chunkTrail (ceil8 s.work.chunk.length), ⟨by simp [chunked, h, h1], by simp [chunked, h, h2, payloadSizes], by simpa using h3⟩, ?_⟩
    simp only [encodeEndChunked, h, if_false, h5, lastTrail, renderAll, List.getLast?_singleton, Option.map_some,
      Option.getD_some, h4, List.flatMap_cons, List.flatMap_nil, List.append_nil]

theorem chunked_cons_fits {cap : Nat} {cur c : Code} {cs : List Code} (h : cur.length + c.length ≤ cap) :
    chunked cap cur (c :: cs) = chunked cap (cur ++ c) cs := by
  rw [chunked, if_neg (by omega)]

theorem chunked_cons_closes {cap : Nat} {cur c : Code} {cs : List Code} (h : cap < cur.length + c.length) :
    chunked cap cur (c :: cs) = cur :: chunked cap c cs := by
  rw [chunked, if_pos h]

theorem chunked_ne_nil {cap : Nat} {cur : Code} (h : cur ≠ []) (cs : List Code) : chunked cap cur cs ≠ [] := by
  cases cs with
  | nil => simp [chunked, h]
  | cons c cs =>
    rw [chunked]
    split
    · simp
    · exact chunked_ne_nil (by simp [h]) cs

theorem payloadSizes_cons {n : Nat} {c : Code} {l : List Code} (h : l ≠ []) :
    payloadSizes n (c :: l) = n :: payloadSizes n l := by
  cases l with
  | nil => exact absurd rfl h
  | cons d l => rfl

theorem CodeTable.codesOf_cons {t : CodeTable} {b : Byte} {x : List Byte} {c : Code} (h : t.codeOf b = some c) :
    t.codesOf (b :: x) = c :: t.codesOf x := by simp [CodeTable.codesOf, h]

theorem ChunkRun.fits {cap n : Nat} {cur c : Code} {cs : List Code} {ks : List Chunk}
    (h : ChunkRun cap n (cur ++ c) cs ks) (hf : cur.length + c.length ≤ cap) : ChunkRun cap n cur (c :: cs) ks := by
  have he := chunked_cons_fits (cs := cs) hf
  exact ⟨he ▸ h.bits, he ▸ h.sizes, h.wf⟩

theorem ChunkRun.closes {cap n : Nat} {cur c : Code} {cs : List Code} {k : Chunk} {ks : List Chunk}
    (h : ChunkRun cap n c cs ks) (hf : cap < cur.length + c.length) (hc : c ≠ []) (h1 : k.bits = cur) (h2 : k.bytes = n)
    (h3 : k.wf) : ChunkRun cap n cur (c :: cs) (k :: ks) := by
  have he := chunked_cons_closes (cs := cs) hf
  refine ⟨by rw [he, List.map_cons, h1, h.bits], ?_, by simpa using ⟨h3, h.wf⟩⟩
  rw [he, payloadSizes_cons (chunked_ne_nil hc cs), List.map_cons, h2, h.sizes]

theorem lastTrail_cons (t : Nat) (k : Chunk) (ks : List Chunk) : lastTrail t (k :: ks) = lastTrail k.pad.length ks := by
  cases ks with
  | nil => rfl
  | cons k' ks => simp [lastTrail, List.getLast?_cons]

/-- ENCODE's loop, CHUNKED, over exactly the bytes it still needs. -/
theorem pump_encode_chunked (rest : List Byte) :
    ∀ (x : List Byte) (t : Nat) {s : State}, s.bodyChunked = true → s.codes.Covers x → s.inq = x ++ rest →
      (∀ y c, s.codes.codeOf y = some c → 1 ≤ c.length ∧ c.length ≤ s.chunkBits) → s.work.chunk.length ≤ s.chunkBits →
      s.work.consumed.toNat + x.length = s.len.toNat →
      ∃ ks k, ChunkRun s.chunkBits s.params.chunkBytes s.work.chunk (s.codes.codesOf x) ks ∧
        pump encodeByte s.inq (encodeLoop t s) =
          encodeEnd (lastTrail t ks) (s.emitted x.length rest (renderAll s.params.bitOrder ks) [] k)
  | [], t, s, hb, _, hq, _, _, hlen => by
    have hc : s.work.consumed = s.len := BitVec.eq_of_toNat_eq (by simpa using hlen)
    obtain ⟨ks, n, hrun, heq⟩ := encodeEndChunked_spec t s
    refine ⟨ks, n, hrun, ?_⟩
    have he : encodeLoop t s = encodeEndChunked t s := by simp [encodeLoop, hc, hb]
    rw [he, heq, pump_of_not_awaiting rfl, hq]
    rfl
  | b :: x, t, s, hb, hcov, hq, hl, hcap, hlen => by
    simp only [List.length_cons] at hlen
    obtain ⟨c, hc⟩ := hcov.head
    have hk := consumed_add (s := s) (n := 1) (by omega)
    rw [hq, List.cons_append, encodeLoop_of_lt (by omega), pump_cons rfl, encodeByte_inByte _ _ hc,
      CodeTable.codesOf_cons hc]
    by_cases hf : s.work.chunk.length + c.length ≤ s.chunkBits
    · rw [encodeCode_chunked_fits hb hf]
      obtain ⟨ks, k, hrun, heq⟩ := pump_encode_chunked rest x t (s := s.emitted 1 (x ++ rest) [] (s.work.chunk ++ c) 0) hb
        hcov.tail rfl hl (by show (s.work.chunk ++ c).length ≤ s.chunkBits; simpa using hf)
        (by show (s.work.consumed + BitVec.ofNat 64 1).toNat + x.length = s.len.toNat; omega)
      refine ⟨ks, 0 + k, hrun.fits hf, ?_⟩
      refine Eq.trans heq ?_
      rw [State.emitted_emitted, List.length_cons, Nat.add_comm x.length 1]
      rfl
    · have hf' : s.chunkBits < s.work.chunk.length + c.length := by omega
      obtain ⟨k, h1, h2, h3, h4⟩ := encodeCode_chunked_closes (t := t) (q := x ++ rest) hb hf' hcap
      have hcl := hl b c hc
      rw [h4]
      obtain ⟨ks, n, hrun, heq⟩ := pump_encode_chunked rest x k.pad.length
        (s := s.emitted 1 (x ++ rest) (k.render s.params.bitOrder) c k.pad.length) hb hcov.tail rfl hl hcl.2
        (by show (s.work.consumed + BitVec.ofNat 64 1).toNat + x.length = s.len.toNat; omega)
      refine ⟨k :: ks, k.pad.length + n, hrun.closes hf' (List.ne_nil_of_length_pos (l := c) (by omega)) h1 h2 h3, ?_⟩
      refine Eq.trans heq ?_
      rw [State.emitted_emitted, List.length_cons, Nat.add_comm x.length 1, lastTrail_cons]
      rfl

/-! ## What the chunks hold (R107, R206) -/

/-- Every chunk holds a bit and no more than fit; every chunk but the last is closed by a code that no longer fits. -/
theorem chunked_facts {cap : Nat} :
    ∀ (codes : List Code) (cur : Code), cur.length ≤ cap →
      (∀ c ∈ codes, 1 ≤ c.length ∧ c.length ≤ 255 ∧ c.length ≤ cap) →
      (∀ c ∈ chunked cap cur codes, c ≠ [] ∧ c.length ≤ cap) ∧
        ∀ c ∈ (chunked cap cur codes).dropLast, cap < c.length + 255
  | [], cur, hcur, _ => by
    unfold chunked
    split
    · exact ⟨by simp, by simp⟩
    · exact ⟨by simpa using ⟨‹_›, hcur⟩, by simp⟩
  | c :: cs, cur, hcur, hc => by
    have hc1 := hc c (by simp)
    by_cases hf : cur.length + c.length ≤ cap
    · rw [chunked_cons_fits hf]
      exact chunked_facts cs (cur ++ c) (by simpa using hf) fun d hd => hc d (by simp [hd])
    · obtain ⟨h1, h2⟩ := chunked_facts cs c hc1.2.2 fun d hd => hc d (by simp [hd])
      have hne : chunked cap c cs ≠ [] := chunked_ne_nil (List.ne_nil_of_length_pos (l := c) (by omega)) cs
      rw [chunked_cons_closes (by omega), List.dropLast_cons_of_ne_nil hne]
      refine ⟨fun d hd => ?_, fun d hd => ?_⟩
      · rcases List.mem_cons.1 hd with rfl | hd
        · exact ⟨List.ne_nil_of_length_pos (by omega), hcur⟩
        · exact h1 d hd
      · rcases List.mem_cons.1 hd with rfl | hd
        · omega
        · exact h2 d hd

/-- The payload sizes of R107, chunk by chunk. -/
theorem payloadSizes_chunks {n : Nat} : ∀ {ks : List Chunk}, ks.map Chunk.bytes = payloadSizes n (ks.map Chunk.bits) →
    (∀ c ∈ ks.dropLast, c.bytes = n) ∧ ∀ c, ks.getLast? = some c → c.bytes = ceil8 c.bits.length
  | [], _ => ⟨by simp, by simp⟩
  | [k], h => by
    simp only [List.map_cons, List.map_nil, payloadSizes, List.cons.injEq, and_true] at h
    exact ⟨by simp, by simpa using h⟩
  | k :: k' :: ks, h => by
    simp only [List.map_cons, payloadSizes, List.cons.injEq] at h
    obtain ⟨h1, h2⟩ := payloadSizes_chunks (n := n) (ks := k' :: ks) (by simpa using h.2)
    rw [List.dropLast_cons_of_ne_nil (by simp), List.getLast?_cons_cons]
    exact ⟨fun c hc => (List.mem_cons.1 hc).elim (fun e => e ▸ h.1) (h1 c), h2⟩

/-- The chunks of a body. -/
theorem ChunkRun.facts {n : Nat} {codes : List Code} {ks : List Chunk} (h : ChunkRun (8 * n) n [] codes ks)
    (hc : ∀ c ∈ codes, 1 ≤ c.length ∧ c.length ≤ 255 ∧ c.length ≤ 8 * n) :
    (∀ c ∈ ks, c.wf ∧ c.bits ≠ []) ∧ (∀ c ∈ ks.dropLast, c.bytes = n ∧ c.pad.length ≤ 254) ∧
      ∀ c, ks.getLast? = some c → 1 ≤ c.bytes ∧ c.bytes ≤ n ∧ c.pad.length ≤ 7 := by
  obtain ⟨h1, h2⟩ := chunked_facts codes [] (Nat.zero_le _) hc
  obtain ⟨h3, h4⟩ := payloadSizes_chunks (by rw [h.sizes, h.bits])
  rw [← h.bits] at h1 h2
  refine ⟨fun c hm => ⟨h.wf c hm, (h1 _ (List.mem_map_of_mem hm)).1⟩, fun c hm => ⟨h3 c hm, ?_⟩, fun c hl => ?_⟩
  · have hw : c.bits.length + c.pad.length = 8 * c.bytes := h.wf c (List.dropLast_subset _ hm)
    rw [← List.map_dropLast] at h2
    have := h2 _ (List.mem_map_of_mem hm)
    rw [h3 c hm] at hw
    omega
  · have hm := List.mem_of_getLast? hl
    have hw : c.bits.length + c.pad.length = 8 * c.bytes := h.wf c hm
    obtain ⟨h5, h6⟩ := h1 _ (List.mem_map_of_mem hm)
    have h7 := List.length_pos_iff.2 h5
    have h8 := h4 c hl
    unfold ceil8 at h8
    omega

/-! ## A byte with no code (R208) -/

theorem encodeByte_stop {t : Nat} {b : Byte} {rest : List Byte} {s : State} (hb : s.codes.codeOf b = none)
    (hq : s.inq = b :: rest) (hlt : s.work.consumed.toNat < s.len.toNat) :
    pump encodeByte s.inq (encodeLoop t s) = State.raise .noSym (b.zeroExtend 64) (s.ate 1 rest) := by
  rw [hq, encodeLoop_of_lt hlt, pump_cons rfl,
    encodeByte_none (t := t) (s := (s.await (.encoding t)).inByte rest) rfl hb,
    pump_of_not_awaiting (raise_awaiting _ _ _)]
  rfl

/-- ENCODE's loop, SIMPLE, up to it. -/
theorem pump_encode_simple_stop (t : Nat) (b : Byte) (rest : List Byte) :
    ∀ (x : List Byte) {s : State}, s.bodyChunked = false → s.codes.Covers x → s.codes.codeOf b = none →
      s.inq = x ++ b :: rest → s.work.acc.length < 8 → s.work.consumed.toNat + x.length < s.len.toNat →
      pump encodeByte s.inq (encodeLoop t s) =
        State.raise .noSym (b.zeroExtend 64) ((s.encoded (s.codes.bitsOf x) x.length (b :: rest)).ate 1 rest)
  | [], s, _, _, hn, hq, ha, hlen => by
    have hs : s.encoded [] 0 (b :: rest) = s := by
      rw [List.nil_append] at hq
      have h0 : s.work.acc.length / 8 = 0 := by omega
      simp [State.encoded, ← hq, h0, packBytes]
    rw [encodeByte_stop hn hq (by simpa using hlen)]
    exact congrArg (fun u : State => State.raise .noSym (b.zeroExtend 64) (u.ate 1 rest)) hs.symm
  | y :: x, s, hb, hcov, hn, hq, ha, hlen => by
    simp only [List.length_cons] at hlen
    obtain ⟨c, hc⟩ := hcov.head
    have hk := consumed_add (s := s) (n := 1) (by omega)
    rw [hq, List.cons_append, encodeLoop_of_lt (by omega), pump_cons rfl, encodeByte_inByte _ _ hc, encodeCode_simple hb]
    have := pump_encode_simple_stop t b rest x (s := s.encoded c 1 (x ++ b :: rest)) hb hcov.tail hn rfl
      (by show (List.drop _ _).length < 8
          rw [List.length_drop]; omega)
      (by show (s.work.consumed + BitVec.ofNat 64 1).toNat + x.length < s.len.toNat
          omega)
    refine Eq.trans this ?_
    rw [CodeTable.bitsOf_cons hc, List.length_cons, Nat.add_comm x.length 1]
    exact congrArg (fun u : State => State.raise .noSym (b.zeroExtend 64) (u.ate 1 rest))
      (State.encoded_encoded _ _ _ _ _ _ _)

/-- ENCODE's loop, CHUNKED, up to it: the chunks closed before it are in OUTQ. -/
theorem pump_encode_chunked_stop (b : Byte) (rest : List Byte) :
    ∀ (x : List Byte) (t : Nat) {s : State}, s.bodyChunked = true → s.codes.Covers x → s.codes.codeOf b = none →
      s.inq = x ++ b :: rest →
      (∀ y c, s.codes.codeOf y = some c → 1 ≤ c.length ∧ c.length ≤ s.chunkBits) → s.work.chunk.length ≤ s.chunkBits →
      s.work.consumed.toNat + x.length < s.len.toNat →
      ∃ ks chunk k, ks.map Chunk.bits = (chunked s.chunkBits s.work.chunk (s.codes.codesOf x)).dropLast ∧
        (∀ c ∈ ks, c.wf ∧ c.bytes = s.params.chunkBytes) ∧
        pump encodeByte s.inq (encodeLoop t s) =
          State.raise .noSym (b.zeroExtend 64) (s.emitted (x.length + 1) rest (renderAll s.params.bitOrder ks) chunk k)
  | [], t, s, hb, _, hn, hq, _, _, hlen => by
    refine ⟨[], s.work.chunk, 0, ?_, by simp, ?_⟩
    · unfold CodeTable.codesOf chunked
      simp only [List.map_nil]
      split <;> rfl
    · rw [encodeByte_stop hn hq (by simpa using hlen)]
      simp [State.ate, State.emitted, renderAll]
  | y :: x, t, s, hb, hcov, hn, hq, hl, hcap, hlen => by
    simp only [List.length_cons] at hlen
    obtain ⟨c, hc⟩ := hcov.head
    have hk := consumed_add (s := s) (n := 1) (by omega)
    rw [hq, List.cons_append, encodeLoop_of_lt (by omega), pump_cons rfl, encodeByte_inByte _ _ hc,
      CodeTable.codesOf_cons hc]
    by_cases hf : s.work.chunk.length + c.length ≤ s.chunkBits
    · rw [encodeCode_chunked_fits hb hf]
      obtain ⟨ks, chunk, k, hbits, hwf, heq⟩ := pump_encode_chunked_stop b rest x t
        (s := s.emitted 1 (x ++ b :: rest) [] (s.work.chunk ++ c) 0) hb
        hcov.tail hn rfl hl (by show (s.work.chunk ++ c).length ≤ s.chunkBits; simpa using hf)
        (by show (s.work.consumed + BitVec.ofNat 64 1).toNat + x.length < s.len.toNat; omega)
      refine ⟨ks, chunk, 0 + k, ?_, hwf, ?_⟩
      · rw [chunked_cons_fits hf]
        exact hbits
      · refine Eq.trans heq ?_
        rw [State.emitted_emitted, List.length_cons, Nat.add_comm 1 (x.length + 1)]
        rfl
    · have hf' : s.chunkBits < s.work.chunk.length + c.length := by omega
      obtain ⟨k, h1, h2, h3, h4⟩ := encodeCode_chunked_closes (t := t) (q := x ++ b :: rest) hb hf' hcap
      have hcl := hl y c hc
      rw [h4]
      obtain ⟨ks, chunk, n, hbits, hwf, heq⟩ := pump_encode_chunked_stop b rest x k.pad.length
        (s := s.emitted 1 (x ++ b :: rest) (k.render s.params.bitOrder) c k.pad.length) hb hcov.tail hn rfl hl hcl.2
        (by show (s.work.consumed + BitVec.ofNat 64 1).toNat + x.length < s.len.toNat; omega)
      refine ⟨k :: ks, chunk, k.pad.length + n, ?_, ?_, ?_⟩
      · rw [chunked_cons_closes hf', List.dropLast_cons_of_ne_nil
          (chunked_ne_nil (List.ne_nil_of_length_pos (l := c) (by omega)) _), List.map_cons, h1]
        exact congrArg _ hbits
      · intro c' hc'
        rcases List.mem_cons.1 hc' with rfl | hc'
        · exact ⟨h3, h2⟩
        · exact hwf c' hc'
      · refine Eq.trans heq ?_
        rw [State.emitted_emitted, List.length_cons, Nat.add_comm 1 (x.length + 1)]
        rfl

end Sys2Proof.Machine
end

