-- ==== Sys2Proof/Laws/RoundTrip.lean ====
section
/-!
SUPPORT. The bit-level round trip (R212 (d)) and that of the two body formats (R218), as facts about `decodeFrom`,
`decodeSimple` and `decodeChunks`.
-/

namespace Sys2Proof.Machine

open Sys2Proof Sys2Proof.Config

/-- A decoder that decodes what the table encodes: it resolves exactly the table's codes, they are prefix-free and not
empty, and none is longer than the decoder's DEC_MAXLEN. -/
structure Inverts (d : Decoder) (t : CodeTable) : Prop where
  resolves : ∀ c y, d.resolve c = some y ↔ t.codeOf y = some c
  free : t.PrefixFree
  nonempty : ∀ y c, t.codeOf y = some c → 1 ≤ c.length
  fits : ∀ y c, t.codeOf y = some c → c.length ≤ d.maxlen.toNat

/-- What decoding `ys` gives, behind `n` bits that emitted `x`. -/
def Decoded.after (x : List Byte) (n : Nat) (r : Decoded) : Decoded where
  out := x ++ r.out
  taken := n + r.taken
  fault := r.fault

theorem Decoded.after_after (x x' : List Byte) (n n' : Nat) (r : Decoded) :
    (r.after x' n').after x n = r.after (x ++ x') (n + n') := by
  simp [Decoded.after, Nat.add_assoc]

/-- A proper prefix of a code is no code. -/
theorem Inverts.resolve_part {d : Decoder} {t : CodeTable} (h : Inverts d t) {y : Byte} {p q : Code} (hq : q ≠ [])
    (hc : t.codeOf y = some (p ++ q)) : d.resolve p = none := by
  cases hr : d.resolve p with
  | none => rfl
  | some z =>
    have hz := (h.resolves p z).1 hr
    by_cases hzy : y = z
    · subst hzy
      rw [hc] at hz
      have := Option.some.inj hz
      exact absurd (List.append_right_eq_self.1 this) hq
    · exact absurd (List.prefix_append p q) (h.free y z _ _ hc hz hzy).2

/-- The rest of one code. -/
theorem Inverts.decode_code {d : Decoder} {t : CodeTable} (h : Inverts d t) (strict : Bool) {y : Byte} (ys : Code) :
    ∀ (q p : Code), q ≠ [] → t.codeOf y = some (p ++ q) →
      decodeFrom d strict p (q ++ ys) = (decodeFrom d strict [] ys).after [y] q.length
  | [x], p, _, hc => by
    have hr : d.resolve (p ++ [x]) = some y := (h.resolves _ _).2 hc
    rw [List.singleton_append, decodeFrom, hr]
    simp [Decoded.after, Decoded.emit, Decoded.bit, Nat.add_comm]
  | x :: x' :: q, p, _, hc => by
    have hc' : t.codeOf y = some ((p ++ [x]) ++ (x' :: q)) := by rw [hc]; simp
    have hr := h.resolve_part (List.cons_ne_nil x' q) hc'
    have hlen := h.fits y _ hc
    have hns : ¬ (strict && decide (d.maxlen.toNat ≤ (p ++ [x]).length)) = true := by
      simp only [List.length_append, List.length_cons] at hlen
      simp
      intro
      omega
    have := h.decode_code strict ys (x' :: q) (p ++ [x]) (by simp) hc'
    rw [List.cons_append, decodeFrom, hr]
    simp only
    rw [if_neg hns, this]
    simp [Decoded.after, Decoded.bit]
    omega

/-- R212 (d), with bits behind. -/
theorem Inverts.decode_append {d : Decoder} {t : CodeTable} (h : Inverts d t) (strict : Bool) (x : List Byte)
    (hx : t.Covers x) (ys : Code) :
    decodeFrom d strict [] (t.bitsOf x ++ ys) = (decodeFrom d strict [] ys).after x (t.bitsOf x).length := by
  induction x with
  | nil => simp [CodeTable.bitsOf, Decoded.after]
  | cons b x ih =>
    obtain ⟨c, hc⟩ := hx.head
    have hne : c ≠ [] := List.ne_nil_of_length_pos (by have := h.nonempty b c hc; omega)
    rw [CodeTable.bitsOf_cons hc, List.append_assoc, h.decode_code strict _ c [] hne hc, ih hx.tail, Decoded.after_after,
      List.length_append]
    rfl

/-- R212 (d). -/
theorem Inverts.decode {d : Decoder} {t : CodeTable} (h : Inverts d t) (strict : Bool) (x : List Byte) (hx : t.Covers x) :
    decodeAll d strict (t.bitsOf x) = { out := x, taken := (t.bitsOf x).length, fault := none } := by
  have := h.decode_append strict x hx []
  rw [List.append_nil] at this
  rw [decodeAll, this]
  simp [decodeFrom, Decoded.after]

theorem decodeFrom_out_le (d : Decoder) (strict : Bool) (cand xs : Code) :
    (decodeFrom d strict cand xs).out.length ≤ xs.length := by
  induction xs generalizing cand with
  | nil => simp [decodeFrom]
  | cons x xs ih =>
    rw [decodeFrom]
    split
    · have := ih []
      simp only [Decoded.bit, Decoded.emit, List.length_cons]
      omega
    · split
      · simp
      · have := ih (cand ++ [x])
        simp only [Decoded.bit, List.length_cons]
        omega

theorem decodeFrom_lenient (d : Decoder) (cand xs : Code) : (decodeFrom d false cand xs).fault = none := by
  induction xs generalizing cand with
  | nil => simp [decodeFrom]
  | cons x xs ih =>
    rw [decodeFrom]
    split
    · exact ih []
    · simp only [Bool.false_and, Bool.false_eq_true, if_false]
      exact ih _

/-! ## The simple body -/

/-- R218 (b): the pad bits are left out. -/
theorem Inverts.decodeSimple_exact {d : Decoder} {t : CodeTable} (h : Inverts d t) (o : BitOrder) (strict : Bool)
    {x : List Byte} (hx : t.Covers x) {pad : Code} {m : Nat} (hm : (t.bitsOf x).length + pad.length = 8 * m) :
    decodeSimple o d strict pad.length (packBytes o m (t.bitsOf x ++ pad)) = { out := x, used := m, fault := none } := by
  have hb : (unpackBytes o (packBytes o m (t.bitsOf x ++ pad))).take (8 * m - pad.length) = t.bitsOf x := by
    rw [unpackBytes_packBytes o m (by simpa using hm), List.take_left' (by omega)]
  rw [decodeSimple, packBytes_length, hb, h.decode strict x hx]
  rfl

/-- R218 (c): the pad bits decode as data. -/
theorem Inverts.decodeSimple_lenient {d : Decoder} {t : CodeTable} (h : Inverts d t) (o : BitOrder)
    {x : List Byte} (hx : t.Covers x) {pad : Code} {m : Nat} (hm : (t.bitsOf x).length + pad.length = 8 * m) :
    ∃ extra, extra.length ≤ pad.length ∧
      decodeSimple o d false 0 (packBytes o m (t.bitsOf x ++ pad)) = { out := x ++ extra, used := m, fault := none } := by
  have hb : (unpackBytes o (packBytes o m (t.bitsOf x ++ pad))).take (8 * m - 0) = t.bitsOf x ++ pad := by
    have : (t.bitsOf x ++ pad).length = 8 * m := by simpa using hm
    rw [unpackBytes_packBytes o m this, List.take_of_length_le (by omega)]
  refine ⟨(decodeFrom d false [] pad).out, decodeFrom_out_le _ _ _ _, ?_⟩
  rw [decodeSimple, packBytes_length, hb, decodeAll, h.decode_append false x hx pad]
  simp [Decoded.after, decodeFrom_lenient, Decoded.bytes]

/-! ## The chunked body -/

/-- A run of chunks as ENCODE writes it: every payload but the last is full. -/
inductive ChunksOk (n : Nat) : List Chunk → Prop where
  | nil : ChunksOk n []
  | last {k : Chunk} : k.wf → k.bytes ≤ n → k.pad.length ≤ 255 → ChunksOk n [k]
  | more {k : Chunk} {ks : List Chunk} : k.wf → k.bytes = n → k.pad.length ≤ 255 → ChunksOk n ks → ChunksOk n (k :: ks)

theorem renderAll_cons (o : BitOrder) (k : Chunk) (ks : List Chunk) :
    renderAll o (k :: ks) = BitVec.ofNat 8 k.pad.length :: (packBytes o k.bytes (k.bits ++ k.pad) ++ renderAll o ks) := by
  simp [renderAll, Chunk.render]

/-- One chunk, whose bits decode without a fault. -/
theorem decodeChunks_cons {o : BitOrder} {d : Decoder} {strict : Bool} {n fuel : Nat} {k : Chunk} {rest : List Byte}
    {out : List Byte} (hk : k.wf) (hp : k.pad.length ≤ 255) (hm : min n (k.bytes + rest.length) = k.bytes) {t : Nat}
    (hd : decodeAll d strict k.bits = { out := out, taken := t, fault := none }) :
    decodeChunks o d strict n (fuel + 1)
        (BitVec.ofNat 8 k.pad.length :: (packBytes o k.bytes (k.bits ++ k.pad) ++ rest)) =
      (decodeChunks o d strict n fuel rest).behind out (1 + k.bytes) := by
  have hpl : (BitVec.ofNat 8 k.pad.length).toNat = k.pad.length := by
    rw [BitVec.toNat_ofNat, Nat.mod_eq_of_lt (by omega)]
  have hwf : k.bits.length + k.pad.length = 8 * k.bytes := hk
  have hmin : min n (packBytes o k.bytes (k.bits ++ k.pad) ++ rest).length = k.bytes := by
    rw [List.length_append, packBytes_length, hm]
  have hbits : (unpackBytes o ((packBytes o k.bytes (k.bits ++ k.pad) ++ rest).take k.bytes)).take
      (8 * k.bytes - k.pad.length) = k.bits := by
    rw [List.take_left' (packBytes_length _ _ _), unpackBytes_packBytes o _ (by simpa using hwf), List.take_left' (by omega)]
  rw [decodeChunks]
  simp only
  rw [hmin, hpl, if_neg (by omega), hbits, hd]
  simp only
  rw [List.drop_left' (packBytes_length _ _ _)]

/-- The chunks' bits, decoded one by one, make up the body (R108, R212). -/
theorem decodeChunks_render {o : BitOrder} {d : Decoder} {strict : Bool} {n : Nat} :
    ∀ {ks : List Chunk} {outs : List (List Byte)} {fuel : Nat}, ChunksOk n ks → ks.length ≤ fuel →
      List.Forall₂ (fun k out => ∃ t, decodeAll d strict k.bits = { out := out, taken := t, fault := none }) ks outs →
      decodeChunks o d strict n fuel (renderAll o ks) =
        { out := outs.flatten, used := (renderAll o ks).length, fault := none } := by
  intro ks
  induction ks with
  | nil =>
    intro outs fuel _ _ h
    cases h
    cases fuel <;> rfl
  | cons k ks ih =>
    intro outs fuel hok hf h
    cases h with
    | @cons _ out _ outs hk hks =>
      obtain ⟨t, hk⟩ := hk
      obtain ⟨fuel, rfl⟩ : ∃ f, fuel = f + 1 := ⟨fuel - 1, by simp at hf; omega⟩
      have hgen : k.wf ∧ k.pad.length ≤ 255 ∧ min n (k.bytes + (renderAll o ks).length) = k.bytes ∧ ChunksOk n ks := by
        cases hok with
        | last h1 h2 h3 => exact ⟨h1, h3, by simp only [renderAll, List.flatMap_nil, List.length_nil]; omega, .nil⟩
        | more h1 h2 h3 h4 => exact ⟨h1, h3, by omega, h4⟩
      obtain ⟨h1, h2, h3, h4⟩ := hgen
      rw [renderAll_cons, decodeChunks_cons h1 h2 h3 hk, ih h4 (by simpa using hf) hks]
      simp [Body.behind]
      omega

/-- What ENCODE's chunks hold: whole codes of the input in order (R206). -/
theorem chunked_groups {t : CodeTable} {cap : Nat} :
    ∀ (x pre : List Byte), t.Covers (pre ++ x) → (∀ y c, t.codeOf y = some c → c ≠ []) → (t.bitsOf pre = [] → pre = []) →
      ∃ gs : List (List Byte), gs.flatten = pre ++ x ∧ chunked cap (t.bitsOf pre) (t.codesOf x) = gs.map t.bitsOf
  | [], pre, _, _, hp => by
    by_cases h : t.bitsOf pre = []
    · exact ⟨[], by simp [hp h], by simp [CodeTable.codesOf, chunked, h]⟩
    · exact ⟨[pre], by simp, by simp [CodeTable.codesOf, chunked, h]⟩
  | b :: x, pre, hcov, hne, hp => by
    obtain ⟨c, hc⟩ : ∃ c, t.codeOf b = some c := Option.isSome_iff_exists.1 (hcov b (by simp))
    have hb : t.bitsOf [b] = c := by rw [CodeTable.bitsOf_cons hc]; simp [CodeTable.bitsOf]
    have hcn := hne b c hc
    rw [CodeTable.codesOf_cons hc, chunked]
    split
    · obtain ⟨gs, h1, h2⟩ := chunked_groups (cap := cap) x [b] (fun y hy => hcov y (by simp at hy ⊢; tauto)) hne (by rw [hb]; intro h; exact absurd h hcn)
      rw [hb] at h2
      exact ⟨pre :: gs, by simp [h1], by simp [h2]⟩
    · have happ : t.bitsOf (pre ++ [b]) = t.bitsOf pre ++ c := by
        rw [← hb]; simp [CodeTable.bitsOf]
      obtain ⟨gs, h1, h2⟩ := chunked_groups (cap := cap) x (pre ++ [b]) (by simpa using hcov) hne
        (by rw [happ]; intro h; simp [hcn] at h)
      rw [happ] at h2
      exact ⟨gs, by simpa using h1, h2⟩

/-- What ENCODE's chunks look like: each within capacity, and each but the last closed only where the next code would
not fit (R206). -/
theorem chunksOk_of_run {cap n : Nat} (hcap : cap = 8 * n) :
    ∀ {codes : List Code} {cur : Code} {ks : List Chunk}, ChunkRun cap n cur codes ks → cur.length ≤ cap →
      (∀ c ∈ codes, 1 ≤ c.length ∧ c.length ≤ 255 ∧ c.length ≤ cap) → ChunksOk n ks
  | [], cur, ks, h, hcur, _ => by
    have hb := h.bits
    have hs := h.sizes
    have hw := h.wf
    by_cases hc : cur = []
    · rw [chunked, if_pos hc, List.map_eq_nil_iff] at hb
      subst hb
      exact .nil
    · rw [chunked, if_neg hc] at hb hs
      match ks, hb, hs, hw with
      | [k], hb, hs, hw =>
        have hkw := hw k (by simp)
        have h1 : k.bits = cur := by simpa using hb
        have h2 : k.bytes = ceil8 cur.length := by simpa [payloadSizes] using hs
        have h3 := ceil8_spec cur.length
        have h4 : k.bits.length + k.pad.length = 8 * k.bytes := hkw
        rw [h1, h2] at h4
        exact .last hkw (by omega) (by omega)
  | c :: codes, cur, ks, h, hcur, hcodes => by
    have hcl := hcodes c (by simp)
    by_cases hf : cur.length + c.length ≤ cap
    · refine chunksOk_of_run hcap (codes := codes) (cur := cur ++ c) (ks := ks) ⟨?_, ?_, h.wf⟩ (by simpa using hf)
        (fun d hd => hcodes d (by simp [hd]))
      · rw [h.bits, chunked_cons_fits hf]
      · rw [h.sizes, chunked_cons_fits hf]
    · have hf' : cap < cur.length + c.length := by omega
      have hb := h.bits
      have hs := h.sizes
      rw [chunked_cons_closes hf'] at hb hs
      have hcn : c ≠ [] := List.ne_nil_of_length_pos (by omega)
      rw [payloadSizes_cons (chunked_ne_nil hcn codes)] at hs
      match ks, hb, hs, h.wf with
      | k :: ks, hb, hs, hw =>
        simp only [List.map_cons, List.cons.injEq] at hb hs
        have hkw := hw k (by simp)
        have h4 : k.bits.length + k.pad.length = 8 * k.bytes := hkw
        rw [hb.1, hs.1] at h4
        exact .more hkw hs.1 (by omega) (chunksOk_of_run hcap ⟨hb.2, hs.2, fun k' hk' => hw k' (by simp [hk'])⟩ hcl.2.2
          (fun d hd => hcodes d (by simp [hd])))

/-- What ENCODE's chunks decode to, one by one: the input, cut into groups (R206, R212). -/
theorem Inverts.chunks {d : Decoder} {t : CodeTable} (h : Inverts d t) (strict : Bool) {x : List Byte} (hx : t.Covers x)
    {n : Nat} (hlen : ∀ y c, t.codeOf y = some c → c.length ≤ 255 ∧ c.length ≤ 8 * n) {ks : List Chunk}
    (hr : ChunkRun (8 * n) n [] (t.codesOf x) ks) :
    ChunksOk n ks ∧ ∃ gs : List (List Byte), gs.flatten = x ∧
      List.Forall₂ (fun k g => ∃ m, decodeAll d strict k.bits = { out := g, taken := m, fault := none }) ks gs := by
  have hcodes : ∀ c ∈ t.codesOf x, 1 ≤ c.length ∧ c.length ≤ 255 ∧ c.length ≤ 8 * n := by
    intro c hc
    obtain ⟨b, hb, rfl⟩ := List.mem_map.1 hc
    obtain ⟨c, hc⟩ := Option.isSome_iff_exists.1 (hx b hb)
    rw [hc, Option.getD_some]
    exact ⟨h.nonempty b c hc, hlen b c hc⟩
  obtain ⟨gs, h1, h2⟩ := chunked_groups (t := t) (cap := 8 * n) x [] hx
    (fun y c hc => List.ne_nil_of_length_pos (by have := h.nonempty y c hc; omega)) (fun _ => rfl)
  have h1' : gs.flatten = x := by simpa using h1
  have h2' : ks.map Chunk.bits = gs.map t.bitsOf := by rw [hr.bits, ← h2]; rfl
  refine ⟨chunksOk_of_run rfl hr (by simp) hcodes, gs, h1', ?_⟩
  have hcov : ∀ g ∈ gs, t.Covers g := fun g hg b hb => hx b (by rw [← h1']; exact List.mem_flatten.2 ⟨g, hg, hb⟩)
  clear h1 h1' h2 hr
  induction ks generalizing gs with
  | nil =>
    have : gs = [] := by simpa using h2'.symm
    subst this
    exact .nil
  | cons k ks ih =>
    cases gs with
    | nil => simp at h2'
    | cons g gs =>
      simp only [List.map_cons, List.cons.injEq] at h2'
      exact .cons ⟨_, by rw [h2'.1]; exact h.decode strict g (hcov g (by simp))⟩
        (ih gs h2'.2 fun g' hg' => hcov g' (by simp [hg']))

/-- R218 (a). -/
theorem Inverts.decodeChunks {d : Decoder} {t : CodeTable} (h : Inverts d t) (o : BitOrder) (strict : Bool) {x : List Byte}
    (hx : t.Covers x) {n fuel : Nat} (hlen : ∀ y c, t.codeOf y = some c → c.length ≤ 255 ∧ c.length ≤ 8 * n)
    {ks : List Chunk} (hr : ChunkRun (8 * n) n [] (t.codesOf x) ks) (hf : ks.length ≤ fuel) :
    Machine.decodeChunks o d strict n fuel (renderAll o ks) = { out := x, used := (renderAll o ks).length, fault := none } := by
  obtain ⟨hok, gs, hgs, hall⟩ := h.chunks strict hx hlen hr
  rw [decodeChunks_render hok hf hall, hgs]

/-- A chunk of a run decodes alone as it does in the run (R216). -/
theorem ChunksOk.single {n : Nat} {ks : List Chunk} (h : ChunksOk n ks) : ∀ k ∈ ks, ChunksOk n [k] := by
  induction h with
  | nil => simp
  | last h1 h2 h3 => simpa using ChunksOk.last h1 h2 h3
  | more h1 h2 h3 _ ih => simpa using ⟨ChunksOk.last h1 h2.le h3, ih⟩

/-- A chunk of a run is a body of one chunk. -/
theorem renderAll_singleton (o : BitOrder) (k : Chunk) : renderAll o [k] = k.render o := by simp [renderAll]

/-- Each chunk of an input decoded in isolation, without a fault, gives the input (R216, R219). -/
theorem decodeIsolated_render {d : Decoder} {t : CodeTable} (h : Inverts d t) (o : BitOrder) (strict : Bool) {x : List Byte}
    (hx : t.Covers x) {n : Nat} (hlen : ∀ y c, t.codeOf y = some c → c.length ≤ 255 ∧ c.length ≤ 8 * n) {ks : List Chunk}
    (hr : ChunkRun (8 * n) n [] (t.codesOf x) ks) :
    decodeIsolated o d strict n (ks.map (Chunk.render o)) = x ∧
      ∀ K ∈ ks.map (Chunk.render o), (decodeChunks o d strict n K.length K).fault = none := by
  obtain ⟨hok, gs, hgs, hall⟩ := h.chunks strict hx hlen hr
  have hone := hok.single
  subst hgs
  clear hr hok hx
  induction hall with
  | nil => exact ⟨rfl, by simp⟩
  | @cons k g ks gs hk _ ih =>
    have hd := decodeChunks_render (o := o) (fuel := (k.render o).length) (hone k (by simp)) (by simp [Chunk.render])
      (.cons hk .nil)
    rw [renderAll_singleton] at hd
    obtain ⟨ih1, ih2⟩ := ih fun c hc => hone c (by simp [hc])
    constructor
    · show (decodeChunks o d strict n _ (k.render o)).out ++ decodeIsolated o d strict n (ks.map (Chunk.render o)) = _
      rw [hd, ih1]
      simp
    · intro K hK
      rcases List.mem_cons.1 hK with rfl | hK
      · rw [hd]
      · exact ih2 K hK

/-- R219, "Chunked equals non-chunked": the chunks of an input, each decoded in isolation or one after another, and its
simple body without the pad bits decode to the same bytes, the input, without a fault. -/
theorem decodeChunks_eq_simple {d : Decoder} {t : CodeTable} (h : Inverts d t) (o : BitOrder) (strict strict' : Bool)
    {x : List Byte} (hx : t.Covers x) {n fuel : Nat}
    (hlen : ∀ y c, t.codeOf y = some c → c.length ≤ 255 ∧ c.length ≤ 8 * n) {ks : List Chunk}
    (hr : ChunkRun (8 * n) n [] (t.codesOf x) ks) (hf : ks.length ≤ fuel) {pad : Code} {m : Nat}
    (hm : (t.bitsOf x).length + pad.length = 8 * m) :
    decodeIsolated o d strict n (ks.map (Chunk.render o)) = (decodeChunks o d strict n fuel (renderAll o ks)).out ∧
      (decodeChunks o d strict n fuel (renderAll o ks)).out =
        (decodeSimple o d strict' pad.length (packBytes o m (t.bitsOf x ++ pad))).out ∧
      (decodeSimple o d strict' pad.length (packBytes o m (t.bitsOf x ++ pad))).out = x ∧
      (∀ K ∈ ks.map (Chunk.render o), (decodeChunks o d strict n K.length K).fault = none) ∧
      (decodeChunks o d strict n fuel (renderAll o ks)).fault = none ∧
      (decodeSimple o d strict' pad.length (packBytes o m (t.bitsOf x ++ pad))).fault = none := by
  obtain ⟨h1, h2⟩ := decodeIsolated_render h o strict hx hlen hr
  rw [h.decodeChunks o strict hx hlen hr hf, h.decodeSimple_exact o strict' hx hm]
  exact ⟨h1, rfl, rfl, h2, rfl, rfl⟩

/-! ## Lenient decoding of chunks -/

/-- Where a chunk's count byte is larger than its payload (R213), counted from the start of the body. -/
def BadCount (n : Nat) (y : List Byte) (k : Nat) : Prop :=
  ∃ count, y[k]? = some count ∧ 8 * min n (y.length - (k + 1)) < count.toNat

theorem BadCount.behind {n m k : Nat} {t : Byte} {y : List Byte} (h : BadCount n (y.drop m) k) :
    BadCount n (t :: y) (1 + m + k) := by
  obtain ⟨count, h1, h2⟩ := h
  refine ⟨count, ?_, ?_⟩
  · rw [show 1 + m + k = m + k + 1 by omega, List.getElem?_cons_succ]
    rwa [List.getElem?_drop] at h1
  · rw [List.length_drop] at h2
    rwa [List.length_cons, show y.length + 1 - (1 + m + k + 1) = y.length - m - (k + 1) by omega]

/-- Lenient DECODE of chunks (R213, R217): at most a byte for every bit, and the only fault is E_BADTRAIL. -/
theorem decodeChunks_lenient (o : BitOrder) (d : Decoder) (n : Nat) :
    ∀ (fuel : Nat) (y : List Byte),
      (decodeChunks o d false n fuel y).out.length ≤ 8 * y.length ∧
        ((decodeChunks o d false n fuel y).fault = none ∨
          ∃ k, (decodeChunks o d false n fuel y).fault = some (.badTrail, k) ∧
            (decodeChunks o d false n fuel y).used = k + 1 ∧ BadCount n y k)
  | 0, _ => ⟨Nat.zero_le _, .inl rfl⟩
  | _ + 1, [] => ⟨Nat.zero_le _, .inl rfl⟩
  | fuel + 1, t :: y => by
    have hnone := decodeFrom_lenient d [] ((unpackBytes o (y.take (min n y.length))).take (8 * min n y.length - t.toNat))
    have hout := decodeFrom_out_le d false [] ((unpackBytes o (y.take (min n y.length))).take (8 * min n y.length - t.toNat))
    have ih := decodeChunks_lenient o d n fuel (y.drop (min n y.length))
    simp only [decodeChunks]
    split
    · rename_i ht
      exact ⟨Nat.zero_le _, .inr ⟨0, rfl, rfl, t, rfl, by simpa using ht⟩⟩
    · rw [decodeAll, hnone]
      rw [List.length_take, unpackBytes_length, List.length_take] at hout
      rw [List.length_drop] at ih
      refine ⟨?_, ?_⟩
      · simp only [Body.behind, List.length_append, List.length_cons]
        omega
      · rcases ih.2 with h | ⟨k, h1, h2, h3⟩
        · exact .inl (by rw [Body.behind, h]; rfl)
        · exact .inr ⟨1 + min n y.length + k, by rw [Body.behind, h1]; rfl, by rw [Body.behind, h2]; rfl, h3.behind⟩

end Sys2Proof.Machine
end

