-- ==== Sys2Proof/Laws/Flow.lean ====
section
/-!
SUPPORT. The two queues and the byte counts (R30, R31, R75 (c)): what the pseudocode between two `InByte`s does to them,
and what going on does.
-/

namespace Sys2Proof.Machine

open Sys2Proof Sys2Proof.Config

/-! ## Between two `InByte`s -/

/-- No byte is taken, some are appended, both are counted, and where the command has ended the counts are in CONSUMED and
PRODUCED. -/
structure Emits (s t : State) : Prop where
  inq : t.inq = s.inq
  outq : ∃ out, t.outq = s.outq ++ out ∧ t.work.produced = s.work.produced + BitVec.ofNat 64 out.length
  consumed : t.work.consumed = s.work.consumed
  ended : t.phase.isBusy = true ∨ t.consumedReg = t.work.consumed ∧ t.producedReg = t.work.produced

theorem Emits.refl {s : State} (h : s.phase.isBusy = true) : Emits s s :=
  ⟨rfl, ⟨[], by simp⟩, rfl, .inl h⟩

theorem Emits.trans {s t u : State} (h : Emits s t) (h' : Emits t u) : Emits s u := by
  obtain ⟨a, ha, hap⟩ := h.outq
  obtain ⟨b, hb, hbp⟩ := h'.outq
  exact ⟨h'.inq.trans h.inq, ⟨a ++ b, by rw [hb, ha, List.append_assoc], by
    rw [hbp, hap, List.length_append, BitVec.ofNat_add, BitVec.add_assoc]⟩, h'.consumed.trans h.consumed, h'.ended⟩

/-- The queues and the counts stay. -/
theorem Emits.of_same {s t u : State} (h : Emits t u) (h1 : t.inq = s.inq) (h2 : t.outq = s.outq)
    (h3 : t.work.consumed = s.work.consumed) (h4 : t.work.produced = s.work.produced) : Emits s u := by
  obtain ⟨a, ha, hap⟩ := h.outq
  exact ⟨h.inq.trans h1, ⟨a, by rw [ha, h2], by rw [hap, h4]⟩, h.consumed.trans h3, h.ended⟩

theorem Emits.complete (s : State) : Emits s s.complete := ⟨rfl, ⟨[], by simp⟩, rfl, .inr ⟨rfl, rfl⟩⟩

theorem Emits.raise (s : State) (e : Err) (i : Word64) : Emits s (s.raise e i) :=
  ⟨rfl, ⟨[], by simp⟩, rfl, .inr ⟨rfl, rfl⟩⟩

theorem Emits.await (s : State) (pos : Pos) : Emits s (s.await pos) := ⟨rfl, ⟨[], by simp⟩, rfl, .inl rfl⟩

theorem Emits.outBytes {s : State} (h : s.phase.isBusy = true) (bs : List Byte) : Emits s (s.outBytes bs) :=
  ⟨rfl, ⟨bs, rfl, rfl⟩, rfl, .inl h⟩

/-! ## Round by round -/

theorem countLoop_emits (s : State) : Emits s (countLoop s) := by
  unfold countLoop
  split
  · exact (Emits.complete { s with freqs := _ }).of_same rfl rfl rfl rfl
  · exact Emits.await _ _

theorem countByte_emits (b : Byte) (s : State) : Emits s (countByte b s) :=
  (countLoop_emits { s with freqs := s.freqs.countUp b }).of_same rfl rfl rfl rfl

theorem dictNext_emits (pos : Pos) (s : State) : Emits s (dictNext pos s) := by
  unfold dictNext
  split
  · exact Emits.raise _ _ _
  · exact Emits.await _ _

theorem codesEnd_emits (s : State) : Emits s (codesEnd s) :=
  (Emits.complete { s with codes := _ }).of_same rfl rfl rfl rfl

theorem dictByte_emits (b : Byte) (s : State) (h : s.phase.isBusy = true) : Emits s (dictByte b s) := by
  unfold dictByte
  split
  · split
    · exact codesEnd_emits s
    · exact dictNext_emits _ s
  · split
    · exact Emits.raise _ _ _
    · split <;> exact dictNext_emits _ s
  · split
    · exact Emits.raise _ _ _
    · exact (dictNext_emits _ (s.setCode b _)).of_same rfl rfl rfl rfl
  · exact Emits.refl h

theorem lookupEnd_emits (s : State) : Emits s (lookupEnd s) := by
  rw [lookupEnd_eq]
  exact (Emits.complete _).of_same rfl rfl rfl rfl

theorem lookupByte_emits (b : Byte) (s : State) (h : s.phase.isBusy = true) : Emits s (lookupByte b s) := by
  unfold lookupByte
  split
  · split
    · exact lookupEnd_emits s
    · exact Emits.await _ _
  · split
    · exact Emits.raise _ _ _
    · split
      · exact (lookupEnd_emits (s.setCand _)).of_same rfl rfl rfl rfl
      · rename_i c _ _
        exact (Emits.refl (s := s.setCand c) h).of_same rfl rfl rfl rfl
  · exact Emits.refl h

theorem encodeEnd_emits (t : Nat) (s : State) : Emits s (encodeEnd t s) :=
  (Emits.complete { s with encTrail := BitVec.ofNat 8 t }).of_same rfl rfl rfl rfl

theorem closeChunk_emits {s : State} (h : s.phase.isBusy = true) (m : Nat) : Emits s (s.closeChunk m) :=
  (Emits.outBytes h _).trans ((Emits.refl (s := s.closeChunk m) h).of_same rfl rfl rfl rfl)

theorem lastByte_emits {s : State} (h : s.phase.isBusy = true) (t : Nat) : Emits s (s.lastByte t) :=
  (Emits.outBytes h _).trans ((Emits.refl (s := s.lastByte t) h).of_same rfl rfl rfl rfl)

theorem flush8_emits {s : State} (h : s.phase.isBusy = true) : Emits s s.flush8 :=
  (Emits.outBytes h _).trans ((Emits.refl (s := s.flush8) h).of_same rfl rfl rfl rfl)

theorem encodeLoop_emits (t : Nat) {s : State} (h : s.phase.isBusy = true) : Emits s (encodeLoop t s) := by
  unfold encodeLoop
  split
  · split
    · unfold encodeEndChunked
      split
      · exact encodeEnd_emits _ _
      · exact (closeChunk_emits h _).trans (encodeEnd_emits _ _)
    · unfold encodeEndSimple
      split
      · exact encodeEnd_emits _ _
      · exact (lastByte_emits h _).trans (encodeEnd_emits _ _)
  · exact Emits.await _ _

theorem encodeByte_emits (b : Byte) (s : State) (h : s.phase.isBusy = true) : Emits s (encodeByte b s) := by
  unfold encodeByte
  split
  · split
    · exact Emits.raise _ _ _
    · rename_i t _ _ c _
      unfold encodeCode
      split
      · split
        · refine (closeChunk_emits h s.params.chunkBytes).trans ?_
          exact (encodeLoop_emits (s := (s.closeChunk s.params.chunkBytes).addChunk c) _ h).of_same rfl rfl rfl rfl
        · exact (encodeLoop_emits (s := s.addChunk c) _ h).of_same rfl rfl rfl rfl
      · have h1 : Emits s (s.setAcc (s.work.acc ++ c)).flush8 :=
          (flush8_emits (s := s.setAcc (s.work.acc ++ c)) h).of_same rfl rfl rfl rfl
        exact h1.trans (encodeLoop_emits _ h)
  · exact Emits.refl h

theorem decodeFinish_emits {k : State → State} {s : State} (hk : ∀ u : State, u.phase.isBusy = true → Emits u (k u))
    (h : s.phase.isBusy = true) : Emits s ((decodeFinish s).unlessEnded k) := by
  obtain ⟨c, hc⟩ := decodeFinish_eq k s h
  rw [hc]
  unfold State.endedBy
  split
  · exact (hk (s.setCand c) h).of_same rfl rfl rfl rfl
  · exact (Emits.raise (s.setCand c) _ _).of_same rfl rfl rfl rfl

theorem decodeLoop_emits {s : State} (h : s.phase.isBusy = true) : Emits s (decodeLoop s) := by
  unfold decodeLoop
  split
  · exact decodeFinish_emits (fun u _ => Emits.complete u) h
  · exact Emits.await _ _

theorem chunkLoop_emits (s : State) : Emits s (chunkLoop s) := by
  unfold chunkLoop
  split
  · exact Emits.complete _
  · exact Emits.await _ _

theorem payloadLoop_emits (m k : Nat) {s : State} (h : s.phase.isBusy = true) : Emits s (payloadLoop m k s) := by
  unfold payloadLoop
  split
  · exact decodeFinish_emits (fun u _ => chunkLoop_emits u) h
  · exact Emits.await _ _

theorem decodeBits_emits {k : State → State} (g : Code) {s : State}
    (hk : ∀ u : State, u.phase.isBusy = true → Emits u (k u)) (h : s.phase.isBusy = true) :
    Emits s ((decodeBits g s).unlessEnded k) := by
  obtain ⟨idx, hbits⟩ := decodeBits_eq g s h
  have hd : ∀ out c i, Emits s (s.decoded out 0 s.inq c i) := fun out c i =>
    ⟨rfl, ⟨out, rfl, rfl⟩, by show s.work.consumed + BitVec.ofNat 64 0 = _; rw [BitVec.add_zero], .inl h⟩
  rw [hbits]
  cases hf : (steps s.dec s.strict s.work.cand g).fault with
  | none =>
    simp only
    rw [unlessEnded_busy (by exact h)]
    exact (hd _ _ _).trans (hk _ h)
  | some f =>
    simp only [unlessEnded_raise]
    exact (hd _ _ _).trans (Emits.raise _ _ _)

theorem decodeByte_emits (b : Byte) (s : State) (h : s.phase.isBusy = true) : Emits s (decodeByte b s) := by
  unfold decodeByte
  split
  · exact decodeBits_emits _ (fun u hu => decodeLoop_emits hu) h
  · simp only
    split
    · exact Emits.raise _ _ _
    · exact (payloadLoop_emits (s := s.setCand []) _ _ h).of_same rfl rfl rfl rfl
  · exact decodeBits_emits _ (fun u hu => payloadLoop_emits _ _ hu) h
  · exact Emits.refl h

/-! ## Going on -/

/-- Bytes are taken from the head of INQ and appended to the tail of OUTQ, both are counted, and where the command has
ended the counts are in CONSUMED and PRODUCED. -/
def Flows (s t : State) : Prop :=
  ∃ x out, s.inq = x ++ t.inq ∧ t.outq = s.outq ++ out ∧
    t.work.consumed = s.work.consumed + BitVec.ofNat 64 x.length ∧
    t.work.produced = s.work.produced + BitVec.ofNat 64 out.length ∧
    (t.phase.isBusy = true ∨ t.consumedReg = t.work.consumed ∧ t.producedReg = t.work.produced)

theorem Emits.flows {s t : State} (h : Emits s t) : Flows s t := by
  obtain ⟨a, ha, hap⟩ := h.outq
  exact ⟨[], a, by rw [h.inq]; rfl, ha, by simp [h.consumed], hap, h.ended⟩

theorem Flows.trans {s t u : State} (h : Flows s t) (h' : Flows t u) : Flows s u := by
  obtain ⟨x, a, h1, h2, h3, h4, -⟩ := h
  obtain ⟨y, b, h1', h2', h3', h4', h5'⟩ := h'
  exact ⟨x ++ y, a ++ b, by rw [h1, h1', List.append_assoc], by rw [h2', h2, List.append_assoc], by
    rw [h3', h3, List.length_append, BitVec.ofNat_add, BitVec.add_assoc], by
    rw [h4', h4, List.length_append, BitVec.ofNat_add, BitVec.add_assoc], h5'⟩

theorem State.awaiting_isBusy {s : State} (h : s.awaiting = true) : s.phase.isBusy = true := by
  unfold State.awaiting at h
  split at h
  · cases h
  · rw [‹s.phase = _›]; rfl
  · cases h

theorem pump_flows {f : Byte → State → State} (hf : ∀ b s, s.phase.isBusy = true → Emits s (f b s)) :
    ∀ {q : List Byte} {s : State}, s.inq = q →
      (s.phase.isBusy = true ∨ s.consumedReg = s.work.consumed ∧ s.producedReg = s.work.produced) → Flows s (pump f q s)
  | [], s, hq, he => ⟨[], [], by simp [pump], by simp [pump], by simp [pump], by simp [pump], he⟩
  | b :: rest, s, hq, he => by
    simp only [pump]
    split
    · rename_i hw
      have hb : (s.inByte rest).phase.isBusy = true := State.awaiting_isBusy hw
      have hem := hf b (s.inByte rest) hb
      have h1 : Flows s (s.inByte rest) :=
        ⟨[b], [], by rw [hq]; rfl, by simp, rfl, by simp, .inl hb⟩
      exact (h1.trans hem.flows).trans (pump_flows hf (by rw [hem.inq]; rfl) hem.ended)
    · exact ⟨[], [], by simp, by simp, by simp, by simp, he⟩

theorem walkMove_emits {s u : State} (hb : s.phase.isBusy = true) (h : walkMove s = some u) :
    Emits s u ∧ u.phase.isBusy = true := by
  unfold walkMove at h
  split at h
  · obtain rfl := Option.some.inj h
    exact ⟨Emits.refl hb, hb⟩
  · split at h
    · cases h
    · obtain rfl := Option.some.inj h
      exact ⟨⟨rfl, ⟨[], by simp [State.setWalk, State.setCode]⟩, rfl, .inl hb⟩, hb⟩
    · split at h
      · split at h
        · cases h
        · obtain rfl := Option.some.inj h
          exact ⟨⟨rfl, ⟨[], by simp [State.setWalk]⟩, rfl, .inl hb⟩, hb⟩
      · split at h <;>
          (obtain rfl := Option.some.inj h; exact ⟨⟨rfl, ⟨[], by simp [State.setWalk]⟩, rfl, .inl hb⟩, hb⟩)

theorem walk_emits (k : Nat) {s u : State} (hb : s.phase.isBusy = true) (h : walk k s = some u) : Emits s u := by
  induction k generalizing s with
  | zero =>
    simp only [walk] at h
    split at h
    · obtain rfl := Option.some.inj h
      exact Emits.refl hb
    · cases h
  | succ k ih =>
    simp only [walk] at h
    split at h
    · obtain rfl := Option.some.inj h
      exact Emits.refl hb
    · obtain ⟨v, hv, hu⟩ := Option.bind_eq_some_iff.1 h
      obtain ⟨h1, h2⟩ := walkMove_emits hb hv
      exact h1.trans (ih h2 hu)

theorem storeCode_emits (y : Byte) (c : Code) {s : State} (hb : s.phase.isBusy = true) : Emits s (storeCode y c s) := by
  unfold storeCode
  split
  · simp only
    split
    · exact (Emits.raise (s.loadIdx c) _ _).of_same rfl rfl rfl rfl
    · split
      · exact (Emits.raise (s.loadIdx c) _ _).of_same rfl rfl rfl rfl
      · exact ⟨rfl, ⟨[], by simp [State.loadIdx]⟩, rfl, .inl hb⟩
  · split
    · exact Emits.raise _ _ _
    · exact ⟨rfl, ⟨[], by simp⟩, rfl, .inl hb⟩

theorem storeLoop_emits (l : List (Byte × Code)) {s : State} (hb : s.phase.isBusy = true) : Emits s (storeLoop l s) := by
  induction l generalizing s with
  | nil => exact (Emits.complete { s with dec := _ }).of_same rfl rfl rfl rfl
  | cons e l ih =>
    obtain ⟨y, c⟩ := e
    simp only [storeLoop]
    split
    · rename_i h
      exact (storeCode_emits y c hb).trans (ih h)
    · exact storeCode_emits y c hb

theorem getCodesBody_emits {s t : State} (hb : s.phase.isBusy = true) (h : getCodesBody s = .next t) : Emits s t := by
  unfold getCodesBody at h
  split at h
  · cases h
  · obtain rfl := Host.Outcome.next.inj h
    exact (codesEnd_emits ((codesStart s).setCode _ [false])).of_same rfl rfl rfl rfl
  · split at h
    · cases h
    · obtain rfl := Host.Outcome.next.inj h
      rename_i u hu
      have h1 : Emits s u :=
        (walk_emits _ (s := (codesStart s).setWalk [] [(s.tree.root.toNat, true)] true) hb hu).of_same rfl rfl rfl rfl
      exact h1.trans (codesEnd_emits u)

/-- The body of a command other than CLEAR. -/
theorem bodyOf_flows {i : Instr} {s t : State} (hi : i ≠ .clear) (hb : s.phase.isBusy = true) (h : bodyOf i s = .next t) :
    Flows s t := by
  have hp : ∀ {f : Byte → State → State} {u : State}, (∀ b s, s.phase.isBusy = true → Emits s (f b s)) → Emits s u →
      Flows s (pump f s.inq u) := fun hf hu => hu.flows.trans (pump_flows hf hu.inq hu.ended)
  cases i with
  | clear => exact absurd rfl hi
  | setCfg v =>
    obtain rfl := Host.Outcome.next.inj h
    unfold setCfgBody
    split
    · exact (Emits.raise _ _ _).flows
    · exact ((Emits.complete { s with cfg := _ }).of_same rfl rfl rfl rfl).flows
  | count n =>
    obtain rfl := Host.Outcome.next.inj h
    exact hp (fun b s _ => countByte_emits b s) ((countLoop_emits { s with freqs := _ }).of_same rfl rfl rfl rfl)
  | merge =>
    obtain rfl := Host.Outcome.next.inj h
    unfold mergeBody
    split
    · exact ((Emits.raise (mergeStart s) _ _).of_same rfl rfl rfl rfl).flows
    · obtain ⟨node, nn, heap, ties, hf⟩ := mergeLoop_frame (mergeStart s).work.heap.length (mergeStart s)
      rw [hf]
      exact ((Emits.complete _).of_same rfl rfl rfl rfl).flows
  | getCodes => exact (getCodesBody_emits hb h).flows
  | buildDecoder =>
    obtain rfl := Host.Outcome.next.inj h
    exact ((storeLoop_emits _ (s := buildStart s) hb).of_same rfl rfl rfl rfl).flows
  | resolve =>
    obtain rfl := Host.Outcome.next.inj h
    exact hp lookupByte_emits ((Emits.await (s.setCand []) _).of_same rfl rfl rfl rfl)
  | writeDict =>
    obtain rfl := Host.Outcome.next.inj h
    unfold writeDictBody
    split
    · exact (Emits.raise _ _ _).flows
    · exact ((Emits.outBytes hb _).trans (Emits.complete _)).flows
  | readDict n =>
    obtain rfl := Host.Outcome.next.inj h
    exact hp dictByte_emits ((dictNext_emits _ (codesStart s)).of_same rfl rfl rfl rfl)
  | encode n =>
    obtain rfl := Host.Outcome.next.inj h
    exact hp encodeByte_emits ((encodeLoop_emits (s := (s.setAcc []).setChunk []) 0 hb).of_same rfl rfl rfl rfl)
  | decode n =>
    obtain rfl := Host.Outcome.next.inj h
    refine hp decodeByte_emits ?_
    unfold decodeStart
    split
    · exact (chunkLoop_emits (s.setCand [])).of_same rfl rfl rfl rfl
    · exact (decodeLoop_emits (s := s.setCand []) hb).of_same rfl rfl rfl rfl

end Sys2Proof.Machine
end

