-- ==== Sys2Proof/Laws/Invariant.lean ====
section
/-!
SUPPORT. The invariant of the data model (R52), command by command: its part that does not depend on PHASE, what ends or
holds a command keeps it, and so do the rounds and the bodies of the commands.
-/

namespace Sys2Proof.Machine

open Sys2Proof Sys2Proof.Config

/-! ## The part that does not depend on PHASE -/

/-- The invariant inside a command: no fault is recorded. -/
structure State.Sound (s : State) : Prop where
  params : s.params.wf
  memories : s.MemoriesOk
  errcode : s.errcode = 0
  freqs : s.freqs.Ok
  tree : s.tree.Ok
  codes : s.codes.Ok
  dec : s.dec.Ok

theorem State.Inv.sound {s : State} (h : s.Inv) (hp : s.phase ≠ .fault) : s.Sound := by
  refine ⟨h.params, h.memories, ?_, h.freqs, h.tree, h.codes, h.dec⟩
  by_contra hc
  rcases h.err.1 hc with h' | h'
  · exact hp h'
  · exact h.notFatal h'

theorem State.Sound.complete {s : State} (h : s.Sound) : s.complete.Inv := by
  refine ⟨h.params, h.memories, ?_, by simp, h.freqs, h.tree, h.codes, h.dec, trivial⟩
  show s.errcode ≠ 0 ↔ _
  simp [h.errcode]

theorem State.Sound.raise {s : State} (h : s.Sound) {e : Err} (he : e ≠ .bounds) (i : Word64) : (s.raise e i).Inv := by
  have hp : (s.raise e i).phase = .fault := by cases e <;> first | exact absurd rfl he | rfl
  refine ⟨h.params, h.memories, ?_, by rw [hp]; decide, h.freqs, h.tree, h.codes, h.dec, ?_⟩
  · show (if s.errcode = 0 then e.code else s.errcode) ≠ 0 ↔ _
    rw [hp, if_pos h.errcode]
    have := e.code_ne_zero
    simp only [ne_eq, this, not_false_iff, true_or]
  · unfold State.HeldOk
    rw [hp]
    trivial

theorem State.Sound.await {s : State} (h : s.Sound) {pos : Pos} (hh : (s.await pos).HeldOk) : (s.await pos).Inv := by
  refine ⟨h.params, h.memories, ?_, by simp, h.freqs, h.tree, h.codes, h.dec, hh⟩
  show s.errcode ≠ 0 ↔ _
  simp [h.errcode]

/-- A state with the same structures, parameters and ERRCODE is as sound. -/
theorem State.Sound.of_eq {s t : State} (h : s.Sound) (hp : t.params = s.params) (he : t.errcode = s.errcode)
    (hf : t.freqs = s.freqs) (ht : t.tree = s.tree) (hc : t.codes = s.codes) (hd : t.dec = s.dec) : t.Sound := by
  refine ⟨hp ▸ h.params, ?_, he ▸ h.errcode, hf ▸ h.freqs, ht ▸ h.tree, hc ▸ h.codes, hd ▸ h.dec⟩
  unfold State.MemoriesOk
  rw [hf, hc, hd]
  exact h.memories

/-- The invariant is about no queue, no count, and not about the script. -/
theorem State.Inv.of_eq {s t : State} (h : s.Inv) (hp : t.params = s.params) (he : t.errcode = s.errcode)
    (hf : t.freqs = s.freqs) (ht : t.tree = s.tree) (hc : t.codes = s.codes) (hd : t.dec = s.dec)
    (hph : t.phase = s.phase) (hcmd : t.cmd = s.cmd) (hw : t.work = s.work) (hcfg : t.cfg = s.cfg) : t.Inv := by
  refine ⟨hp ▸ h.params, ?_, ?_, hph ▸ h.notFatal, hf ▸ h.freqs, ht ▸ h.tree, hc ▸ h.codes, hd ▸ h.dec, ?_⟩
  · unfold State.MemoriesOk; rw [hf, hc, hd]; exact h.memories
  · unfold State.ErrOk; rw [hph, he]; exact h.err
  · have := h.held
    unfold State.HeldOk State.len State.chunkBits State.bodyChunked at this ⊢
    rw [hph, hcmd, hw, hf, hc, hd, hcfg, hp]
    exact this

theorem State.awaiting_busy {s : State} (hw : s.awaiting = true) : ∃ pos, s.phase = .busy pos := by
  unfold State.awaiting at hw
  split at hw
  · cases hw
  · exact ⟨_, ‹_›⟩
  · cases hw

/-! ## COUNT -/

theorem count_round {b : Byte} {rest : List Byte} {s : State} (h : s.Inv) (hp : s.phase = .busy .counting) :
    (countByte b (s.inByte rest)).Inv := by
  have hs := h.sound (by rw [hp]; simp)
  have hh := h.held
  unfold State.HeldOk at hh
  rw [hp] at hh
  obtain ⟨h1, h2, h3, h4⟩ := hh
  have hwf : s.freqs.wf := h.memories.1
  have hsum : (s.freqs.countUp b).sum = s.freqs.sum + 1 := by
    refine FreqTable.sum_countUp b hwf ?_
    have := s.len.isLt
    omega
  have hk := consumed_add (s := s) (n := 1) (by omega)
  set t : State := { s.inByte rest with freqs := s.freqs.countUp b } with ht
  have hcon : t.work.consumed = s.work.consumed + BitVec.ofNat 64 1 := rfl
  have hsound : t.Sound := by
    refine ⟨hs.params, ⟨FreqTable.wf_countUp b hwf, hs.memories.2⟩, hs.errcode, ?_, hs.tree, hs.codes, hs.dec⟩
    intro hv
    have : s.freqs.valid = true := hv
    rw [h2] at this
    cases this
  have hbyte : countByte b (s.inByte rest) = countLoop t := rfl
  rw [hbyte]
  by_cases hc : t.work.consumed = t.len
  · rw [countLoop_of_eq hc]
    refine State.Sound.complete (s := { t with freqs := { t.freqs with total := t.len, valid := true } })
      ⟨hsound.params, hsound.memories, hsound.errcode, ?_, hsound.tree, hsound.codes, hsound.dec⟩
    intro _
    show (s.freqs.countUp b).sum = t.len.toNat
    rw [hsum, ← hc, hcon, hk, h3]
  · rw [countLoop_of_ne hc]
    refine hsound.await ⟨h1, h2, ?_, ?_⟩
    · show (s.freqs.countUp b).sum = t.work.consumed.toNat
      rw [hsum, hcon, hk, h3]
    · show t.work.consumed.toNat < s.len.toNat
      have : t.work.consumed.toNat ≠ s.len.toNat := fun hx => hc (BitVec.eq_of_toNat_eq hx)
      rw [hcon, hk] at this ⊢
      omega

theorem count_start {s : State} (h : s.Sound) (h0 : s.work.consumed = 0) (hop : opOf s.cmd = 0x10) :
    (countStart s).Inv := by
  set t : State := { s with freqs := { valid := false, freq := [], total := 0 } } with ht
  have hst : countStart s = countLoop t := rfl
  have hsum : t.freqs.sum = 0 := FreqTable.sum_empty _ _
  have hs : t.Sound := ⟨h.params, ⟨rfl, h.memories.2⟩, h.errcode, (by intro hv; cases hv), h.tree, h.codes, h.dec⟩
  have hc0 : t.work.consumed = 0 := h0
  rw [hst]
  by_cases hc : t.work.consumed = t.len
  · rw [countLoop_of_eq hc]
    refine State.Sound.complete (s := { t with freqs := { t.freqs with total := t.len, valid := true } })
      ⟨hs.params, hs.memories, hs.errcode, ?_, hs.tree, hs.codes, hs.dec⟩
    intro _
    show t.freqs.sum = t.len.toNat
    rw [hsum, ← hc, hc0]
    rfl
  · rw [countLoop_of_ne hc]
    refine hs.await ⟨hop, rfl, ?_, ?_⟩
    · show t.freqs.sum = t.work.consumed.toNat
      rw [hsum, hc0]; rfl
    · show t.work.consumed.toNat < t.len.toNat
      have hne : t.work.consumed.toNat ≠ t.len.toNat := fun hx => hc (BitVec.eq_of_toNat_eq hx)
      have hz : t.work.consumed.toNat = 0 := by rw [hc0]; rfl
      omega

/-! ## CODE -/

theorem CodeTable.nsym_ofNat (m : Memory Code) :
    (BitVec.ofNat 9 (presentCodes m).length).toNat = (presentCodes m).length := by
  have := presentCodes_length_le m
  rw [BitVec.toNat_ofNat, Nat.mod_eq_of_lt (by omega)]

theorem CodeTable.maxlen_ofNat {t : CodeTable} (h : ∀ y c, t.codeOf y = some c → 1 ≤ c.length ∧ c.length ≤ 255) :
    (BitVec.ofNat 8 (maxLength (presentCodes t.code))).toNat = maxLength (presentCodes t.code) := by
  have : maxLength (presentCodes t.code) ≤ 255 :=
    maxLength_le.2 fun e he => (h e.1 e.2 (CodeTable.mem_presentCodes.1 he)).2
  rw [BitVec.toNat_ofNat, Nat.mod_eq_of_lt (by omega)]

theorem State.Sound.codesEnd {s : State} (h : s.Sound) : (codesEnd s).Inv := by
  refine State.Sound.complete (s := { s with codes := _ })
    ⟨h.params, h.memories, h.errcode, h.freqs, h.tree, ⟨h.codes.1, fun _ => ⟨CodeTable.nsym_ofNat _, ?_⟩⟩, h.dec⟩
  exact CodeTable.maxlen_ofNat h.codes.1

theorem State.Sound.codesStart {s : State} (h : s.Sound) : (codesStart s).Sound := by
  refine ⟨h.params, ⟨h.memories.1, Memory.wf_nil _ _ _, h.memories.2.2⟩, h.errcode, h.freqs, h.tree, ⟨?_, ?_⟩, h.dec⟩
  · intro y c hc; cases hc
  · intro hv; cases hv

theorem State.Sound.setCode {s : State} (h : s.Sound) (y : Byte) {c : Code} (h1 : 1 ≤ c.length) (h2 : c.length ≤ 255)
    (hv : s.codes.valid = false) : (s.setCode y c).Sound := by
  refine ⟨h.params, ⟨h.memories.1, ?_, h.memories.2.2⟩, h.errcode, h.freqs, h.tree, ⟨?_, ?_⟩, h.dec⟩
  · exact Memory.wf_set (d := none) h.memories.2.1 (Nat.zero_le _) (by have := y.isLt; omega) (by simp)
  · intro z d hd
    have hd' : (s.codes.put y c).codeOf z = some d := hd
    rw [CodeTable.codeOf_put] at hd'
    split at hd'
    · obtain rfl := Option.some.inj hd'
      exact ⟨h1, h2⟩
    · exact h.codes.1 z d hd'
  · intro hx
    have : s.codes.valid = true := hx
    rw [hv] at this
    cases this

/-! ## READ_DICT -/

/-- `NextByte` where a byte may be taken. -/
theorem dictNext_inv {pos : Pos} {s : State} (h : s.Sound) (hle : s.work.consumed.toNat ≤ s.len.toNat)
    (hh : s.work.consumed.toNat < s.len.toNat → (s.await pos).HeldOk) : (dictNext pos s).Inv := by
  by_cases hc : s.work.consumed = s.len
  · rw [dictNext_of_eq hc]
    exact h.raise (by decide) _
  · have hne : s.work.consumed.toNat ≠ s.len.toNat := fun hx => hc (BitVec.eq_of_toNat_eq hx)
    rw [dictNext_of_lt (by omega)]
    exact h.await (hh (by omega))

theorem dict_round {b : Byte} {rest : List Byte} {s : State} (h : s.Inv) (hw : s.awaiting = true)
    (hop : opOf s.cmd = 0x31) : (dictByte b (s.inByte rest)).Inv := by
  obtain ⟨pos, hp⟩ := State.awaiting_busy hw
  have hs := h.sound (by rw [hp]; simp)
  have hh := h.held
  unfold State.HeldOk at hh
  rw [hp] at hh
  have hsi : (s.inByte rest).Sound := hs.of_eq rfl rfl rfl rfl rfl rfl
  have hcon : (s.inByte rest).work.consumed = s.work.consumed + BitVec.ofNat 64 1 := rfl
  cases pos with
  | dictLength =>
    obtain ⟨h1, h2, h3⟩ := hh
    have hk := consumed_add (s := s) (n := 1) (by omega)
    rw [dictByte_length (s := s.inByte rest) hp]
    split
    · exact hsi.codesEnd
    · rename_i hb0
      refine dictNext_inv hsi (by rw [hcon, hk]; exact h3) fun hlt => ⟨h1, h2, hlt, ?_⟩
      have : b.toNat ≠ 0 := fun hx => hb0 (BitVec.eq_of_toNat_eq hx)
      simp only [List.length_nil]
      omega
  | dictPath l got =>
    obtain ⟨h1, h2, h3, h4⟩ := hh
    have hk := consumed_add (s := s) (n := 1) (by omega)
    have hle : (s.inByte rest).work.consumed.toNat ≤ (s.inByte rest).len.toNat := by rw [hcon, hk]; exact h3
    cases hc : pathByte (s.inByte rest).params (s.inByte rest).dictRaw got b with
    | none =>
      rw [dictByte_path_bad (s := s.inByte rest) hp hc]
      exact hsi.raise (by decide) _
    | some c =>
      rw [dictByte_path (s := s.inByte rest) hp hc]
      split
      · rename_i hr
        simp only [pathRead, decide_eq_true_eq] at hr
        refine dictNext_inv hsi hle fun hlt => ⟨h1, h2, hlt, ?_, ?_⟩
        · rw [List.length_take]; omega
        · rw [List.length_take]; have := l.isLt; omega
      · rename_i hr
        simp only [pathRead, decide_eq_true_eq] at hr
        exact dictNext_inv hsi hle fun hlt => ⟨h1, h2, hlt, by omega⟩
  | dictSymbol c =>
    obtain ⟨h1, h2, h3, h4, h5⟩ := hh
    have hk := consumed_add (s := s) (n := 1) (by omega)
    rw [dictByte_symbol (s := s.inByte rest) hp]
    split
    · exact hsi.raise (by decide) _
    · exact dictNext_inv (hsi.setCode b h4 h5 h2)
        (by show (s.work.consumed + BitVec.ofNat 64 1).toNat ≤ s.len.toNat; rw [hk]; exact h3)
        fun hlt => ⟨h1, h2, hlt⟩
  | running => exact absurd hh id
  | _ => exact absurd (hop.symm.trans hh.1) (by decide)

theorem dict_start {s : State} (h : s.Sound) (h0 : s.work.consumed = 0) (hop : opOf s.cmd = 0x31) :
    (dictStart s).Inv := by
  refine dictNext_inv h.codesStart ?_ fun hlt => ⟨hop, rfl, hlt⟩
  show s.work.consumed.toNat ≤ s.len.toNat
  rw [h0]
  exact Nat.zero_le _

/-! ## RESOLVE -/

theorem lookupEnd_inv {s : State} (h : s.Sound) : (lookupEnd s).Inv := by
  rw [lookupEnd_eq]
  exact State.Sound.complete (h.of_eq rfl rfl rfl rfl rfl rfl)

theorem lookup_round {b : Byte} {rest : List Byte} {s : State} (h : s.Inv) (hw : s.awaiting = true)
    (hop : opOf s.cmd = 0x21) : (lookupByte b (s.inByte rest)).Inv := by
  obtain ⟨pos, hp⟩ := State.awaiting_busy hw
  have hs := h.sound (by rw [hp]; simp)
  have hh := h.held
  unfold State.HeldOk at hh
  rw [hp] at hh
  have hsi : (s.inByte rest).Sound := hs.of_eq rfl rfl rfl rfl rfl rfl
  cases pos with
  | lookupLength =>
    obtain ⟨h1, h2, h3⟩ := hh
    rw [lookupByte_length (s := s.inByte rest) hp]
    split
    · exact lookupEnd_inv hsi
    · rename_i hb0
      refine hsi.await ⟨h1, h2, ?_⟩
      have hb : b.toNat ≠ 0 := fun hx => hb0 (BitVec.eq_of_toNat_eq hx)
      show s.work.cand.length < b.toNat
      rw [h3, List.length_nil]
      omega
  | lookupPath l =>
    obtain ⟨h1, h2, h3⟩ := hh
    cases hc : pathByte (s.inByte rest).params (s.inByte rest).dictRaw (s.inByte rest).work.cand b with
    | none =>
      rw [lookupByte_path_bad (s := s.inByte rest) hp hc]
      exact hsi.raise (by decide) _
    | some c =>
      have hsc : ((s.inByte rest).setCand c).Sound := hsi.of_eq rfl rfl rfl rfl rfl rfl
      rw [lookupByte_path (s := s.inByte rest) hp hc]
      split
      · exact lookupEnd_inv (hsi.of_eq rfl rfl rfl rfl rfl rfl)
      · rename_i hr
        simp only [pathRead, decide_eq_true_eq] at hr
        rw [← State.await_self (s := (s.inByte rest).setCand c) (pos := .lookupPath l) hp]
        exact hsc.await ⟨h1, h2, by show c.length < l.toNat; omega⟩
  | running => exact absurd hh id
  | _ => exact absurd (hop.symm.trans hh.1) (by decide)

theorem lookup_start {s : State} (h : s.Sound) (hop : opOf s.cmd = 0x21) (hd : s.dec.valid = true) :
    (lookupStart s).Inv :=
  State.Sound.await (s := s.setCand []) (h.of_eq rfl rfl rfl rfl rfl rfl) ⟨hop, hd, rfl⟩

/-! ## ENCODE -/

theorem encodeEnd_inv {s : State} (h : s.Sound) (t : Nat) : (encodeEnd t s).Inv :=
  State.Sound.complete (s := { s with encTrail := BitVec.ofNat 8 t }) (h.of_eq rfl rfl rfl rfl rfl rfl)

/-- The loop's head. -/
theorem encodeLoop_inv {t : Nat} {s : State} (h : s.Sound) (hop : opOf s.cmd = 0x32) (hv : s.codes.valid = true)
    (hle : s.work.consumed.toNat ≤ s.len.toNat) (ht : t ≤ 254) (ha : s.work.acc.length ≤ 7)
    (hc : s.work.chunk.length ≤ s.chunkBits) : (encodeLoop t s).Inv := by
  by_cases hcon : s.work.consumed = s.len
  · unfold encodeLoop
    rw [if_pos hcon]
    split
    · unfold encodeEndChunked
      split
      · exact encodeEnd_inv h _
      · exact encodeEnd_inv (s := s.closeChunk _) (h.of_eq rfl rfl rfl rfl rfl rfl) _
    · unfold encodeEndSimple
      split
      · exact encodeEnd_inv h _
      · exact encodeEnd_inv (s := s.lastByte _) (h.of_eq rfl rfl rfl rfl rfl rfl) _
  · have hne : s.work.consumed.toNat ≠ s.len.toNat := fun hx => hcon (BitVec.eq_of_toNat_eq hx)
    rw [encodeLoop_of_lt (by omega)]
    exact h.await ⟨hop, hv, by show s.work.consumed.toNat < s.len.toNat; omega, ht, ha, hc⟩

theorem State.flush8_facts (s : State) : s.flush8.work.acc.length ≤ 7 ∧ s.flush8.work.chunk = s.work.chunk ∧
    s.flush8.work.consumed = s.work.consumed := by
  refine ⟨?_, rfl, rfl⟩
  show (s.work.acc.drop (8 * (s.work.acc.length / 8))).length ≤ 7
  rw [List.length_drop]
  omega

/-- The loop's body with a code that fits an empty chunk. -/
theorem encodeCode_inv {t : Nat} {c : Code} {s : State} (h : s.Sound) (hop : opOf s.cmd = 0x32) (hv : s.codes.valid = true)
    (hle : s.work.consumed.toNat ≤ s.len.toNat) (ht : t ≤ 254) (ha : s.work.acc.length ≤ 7)
    (hch : s.work.chunk.length ≤ s.chunkBits) (hc : c.length ≤ 255) (hcap : 255 < s.chunkBits) : (encodeCode t c s).Inv := by
  unfold encodeCode
  split
  · split
    · rename_i hf
      refine encodeLoop_inv (s := (s.closeChunk s.params.chunkBytes).addChunk c) (h.of_eq rfl rfl rfl rfl rfl rfl) hop hv hle
        ?_ ha ?_
      · unfold State.chunkTrail
        unfold State.chunkBits at hf
        omega
      · show ([] ++ c).length ≤ s.chunkBits
        rw [List.nil_append]
        omega
    · rename_i hf
      refine encodeLoop_inv (s := s.addChunk c) (h.of_eq rfl rfl rfl rfl rfl rfl) hop hv hle ht ha ?_
      show (s.work.chunk ++ c).length ≤ s.chunkBits
      rw [List.length_append]
      omega
  · obtain ⟨h7, h8, h9⟩ := (s.setAcc (s.work.acc ++ c)).flush8_facts
    exact encodeLoop_inv (s := (s.setAcc (s.work.acc ++ c)).flush8) (h.of_eq rfl rfl rfl rfl rfl rfl) hop hv
      (by rw [h9]; exact hle) ht h7 (by rw [h8]; exact hch)

theorem encode_round {b : Byte} {rest : List Byte} {s : State} (h : s.Inv) (hw : s.awaiting = true)
    (hop : opOf s.cmd = 0x32) : (encodeByte b (s.inByte rest)).Inv := by
  obtain ⟨pos, hp⟩ := State.awaiting_busy hw
  have hs := h.sound (by rw [hp]; simp)
  have hh := h.held
  unfold State.HeldOk at hh
  rw [hp] at hh
  have hsi : (s.inByte rest).Sound := hs.of_eq rfl rfl rfl rfl rfl rfl
  cases pos with
  | encoding t =>
    obtain ⟨h1, h2, h3, h4, h5, h6⟩ := hh
    have hk := consumed_add (s := s) (n := 1) (by omega)
    have hle : (s.work.consumed + BitVec.ofNat 64 1).toNat ≤ s.len.toNat := by rw [hk]; exact h3
    cases hc : (s.inByte rest).codes.codeOf b with
    | none =>
      rw [encodeByte_none (s := s.inByte rest) hp hc]
      exact hsi.raise (by decide) _
    | some c =>
      have hcl := h.codes.1 b c hc
      have hcap : 255 < s.chunkBits := by
        have := h.params.2.1
        unfold State.chunkBits
        omega
      rw [encodeByte_some (s := s.inByte rest) hp hc]
      exact encodeCode_inv hsi h1 h2 hle h4 h5 h6 hcl.2 hcap
  | running => exact absurd hh id
  | _ => exact absurd (hop.symm.trans hh.1) (by decide)

theorem encode_start {s : State} (h : s.Sound) (h0 : s.work.consumed = 0) (hop : opOf s.cmd = 0x32)
    (hv : s.codes.valid = true) : (encodeStart s).Inv := by
  refine encodeLoop_inv (s := (s.setAcc []).setChunk []) (h.of_eq rfl rfl rfl rfl rfl rfl) hop hv ?_ (by omega) (by simp)
    (by simp)
  show s.work.consumed.toNat ≤ s.len.toNat
  rw [h0]
  exact Nat.zero_le _

/-! ## DECODE -/

theorem endedBy_inv {s : State} (h : s.Sound) {f : Option (Err × Nat)} (hf : ∀ g, f = some g → g.1 ≠ .bounds)
    {k : State → State} (hk : (k s).Inv) : (s.endedBy f k).Inv := by
  cases f with
  | none => exact hk
  | some g => exact h.raise (hf g rfl) _

theorem decodeFinish_inv {k : State → State} {s : State} (h : s.Sound) (hb : s.phase.isBusy = true)
    (hk : ∀ c, (k (s.setCand c)).Inv) : ((decodeFinish s).unlessEnded k).Inv := by
  obtain ⟨c, hc⟩ := decodeFinish_eq k s hb
  rw [hc]
  refine endedBy_inv (s := s.setCand c) (h.of_eq rfl rfl rfl rfl rfl rfl) ?_ (hk c)
  intro g hg
  rw [decodeFrom_nil_fault hg]
  decide

theorem chunkLoop_inv {s : State} (h : s.Sound) (hop : opOf s.cmd = 0x33) (hd : s.dec.valid = true)
    (hb : s.bodyChunked = true) (hle : s.work.consumed.toNat ≤ s.len.toNat) : (chunkLoop s).Inv := by
  by_cases hcon : s.work.consumed = s.len
  · rw [chunkLoop_of_eq hcon]
    exact h.complete
  · have hne : s.work.consumed.toNat ≠ s.len.toNat := fun hx => hcon (BitVec.eq_of_toNat_eq hx)
    rw [chunkLoop_of_lt (by omega)]
    exact h.await ⟨hop, hd, hb, by show s.work.consumed.toNat < s.len.toNat; omega⟩

theorem payloadLoop_inv {bytes bits : Nat} {s : State} (h : s.Sound) (hbusy : s.phase.isBusy = true)
    (hop : opOf s.cmd = 0x33) (hd : s.dec.valid = true) (hb : s.bodyChunked = true) (hbits : bits ≤ 8 * bytes)
    (hle : s.work.consumed.toNat + bytes ≤ s.len.toNat) : (payloadLoop bytes bits s).Inv := by
  unfold payloadLoop
  split
  · exact decodeFinish_inv h hbusy fun c =>
      chunkLoop_inv (s := s.setCand c) (h.of_eq rfl rfl rfl rfl rfl rfl) hop hd hb
        (by show s.work.consumed.toNat ≤ s.len.toNat; omega)
  · exact h.await ⟨hop, hd, hb, by omega, hbits, hle⟩

theorem decodeLoop_inv {s : State} (h : s.Sound) (hbusy : s.phase.isBusy = true) (hop : opOf s.cmd = 0x33)
    (hd : s.dec.valid = true) (hb : s.bodyChunked = false) (hle : s.work.consumed.toNat ≤ s.len.toNat) :
    (decodeLoop s).Inv := by
  unfold decodeLoop
  split
  · exact decodeFinish_inv h hbusy fun c => State.Sound.complete (s := s.setCand c) (h.of_eq rfl rfl rfl rfl rfl rfl)
  · rename_i hcon
    have hne : s.work.consumed.toNat ≠ s.len.toNat := fun hx => hcon (BitVec.eq_of_toNat_eq hx)
    exact h.await ⟨hop, hd, hb, by show s.work.consumed.toNat < s.len.toNat; omega⟩

/-- The bit loop, then `k` unless a fault has ended the command. -/
theorem decodeBits_inv {k : State → State} {g : Code} {s : State} (h : s.Sound) (hb : s.phase.isBusy = true)
    (hk : ∀ out c i, (k (s.decoded out 0 s.inq c i)).Inv) : ((decodeBits g s).unlessEnded k).Inv := by
  obtain ⟨idx, hbits⟩ := decodeBits_eq g s hb
  rw [hbits]
  cases hf : (steps s.dec s.strict s.work.cand g).fault with
  | none =>
    simp only
    rw [unlessEnded_busy (by exact hb)]
    exact hk _ _ _
  | some f =>
    simp only [unlessEnded_raise]
    refine State.Sound.raise (s := s.decoded _ 0 s.inq _ idx) (h.of_eq rfl rfl rfl rfl rfl rfl) ?_ _
    rw [steps_fault (e := f.1) (k := f.2) hf]
    decide

theorem decode_round {b : Byte} {rest : List Byte} {s : State} (h : s.Inv) (hw : s.awaiting = true)
    (hop : opOf s.cmd = 0x33) : (decodeByte b (s.inByte rest)).Inv := by
  obtain ⟨pos, hp⟩ := State.awaiting_busy hw
  have hs := h.sound (by rw [hp]; simp)
  have hh := h.held
  unfold State.HeldOk at hh
  rw [hp] at hh
  have hsi : (s.inByte rest).Sound := hs.of_eq rfl rfl rfl rfl rfl rfl
  have hbusy : (s.inByte rest).phase.isBusy = true := by
    show s.phase.isBusy = true
    rw [hp]; rfl
  cases pos with
  | decoding =>
    obtain ⟨h1, h2, h3, h4⟩ := hh
    have hk := consumed_add (s := s) (n := 1) (by omega)
    rw [decodeByte_simple (s := s.inByte rest) hp]
    refine decodeBits_inv hsi hbusy fun out c i => ?_
    refine decodeLoop_inv (s := (s.inByte rest).decoded out 0 rest c i) (hsi.of_eq rfl rfl rfl rfl rfl rfl) hbusy h1 h2 h3 ?_
    show (s.work.consumed + BitVec.ofNat 64 1 + BitVec.ofNat 64 0).toNat ≤ s.len.toNat
    rw [BitVec.add_zero, hk]
    exact h4
  | chunkTrail =>
    obtain ⟨h1, h2, h3, h4⟩ := hh
    have hk := consumed_add (s := s) (n := 1) (by omega)
    have hrem : (s.inByte rest).remaining = s.len.toNat - (s.work.consumed.toNat + 1) := by
      show s.len.toNat - (s.work.consumed + BitVec.ofNat 64 1).toNat = _
      rw [hk]
    rw [decodeByte_trail (s := s.inByte rest) hp]
    split
    · exact hsi.raise (by decide) _
    · refine payloadLoop_inv (s := (s.inByte rest).setCand []) (hsi.of_eq rfl rfl rfl rfl rfl rfl) hbusy h1 h2 h3 (by omega) ?_
      show (s.work.consumed + BitVec.ofNat 64 1).toNat + _ ≤ s.len.toNat
      rw [hk, hrem]
      omega
  | chunkPayload bytes bits =>
    obtain ⟨h1, h2, h3, h4, h5, h6⟩ := hh
    have hk := consumed_add (s := s) (n := 1) (by omega)
    rw [decodeByte_payload (s := s.inByte rest) hp]
    refine decodeBits_inv hsi hbusy fun out c i => ?_
    refine payloadLoop_inv (s := (s.inByte rest).decoded out 0 rest c i) (hsi.of_eq rfl rfl rfl rfl rfl rfl) hbusy h1 h2 h3 ?_ ?_
    · rw [List.length_take, unpackBits_length]; omega
    · show (s.work.consumed + BitVec.ofNat 64 1 + BitVec.ofNat 64 0).toNat + (bytes - 1) ≤ s.len.toNat
      rw [BitVec.add_zero, hk]
      omega
  | running => exact absurd hh id
  | _ => exact absurd (hop.symm.trans hh.1) (by decide)

theorem decode_start {s : State} (h : s.Sound) (hb : s.phase.isBusy = true) (h0 : s.work.consumed = 0)
    (hop : opOf s.cmd = 0x33) (hd : s.dec.valid = true) : (decodeStart s).Inv := by
  have hs : (s.setCand []).Sound := h.of_eq rfl rfl rfl rfl rfl rfl
  have hle : (s.setCand []).work.consumed.toNat ≤ (s.setCand []).len.toNat := by
    show s.work.consumed.toNat ≤ s.len.toNat
    rw [h0]
    exact Nat.zero_le _
  unfold decodeStart
  split
  · exact chunkLoop_inv hs hop hd ‹_› hle
  · exact decodeLoop_inv hs hb hop hd (Bool.eq_false_iff.2 ‹¬ s.bodyChunked = true›) hle

/-! ## MERGE, GET_CODES, BUILD_DECODER, WRITE_DICT -/

theorem merge_inv {s : State} (h : s.Sound) (hv : s.freqs.valid = true) : (mergeBody s).Inv := by
  by_cases hp : s.freqs.present = []
  · rw [mergeBody_empty hp]
    exact State.Sound.raise (s := mergeStart s)
      ⟨h.params, h.memories, h.errcode, h.freqs, (by intro hx; cases hx), h.codes, h.dec⟩ (by decide) _
  · obtain ⟨tree, heap, ties, T, hT, heq⟩ := mergeBody_spec hp (by rw [h.freqs hv]; exact s.freqs.total.isLt)
    rw [heq]
    exact State.Sound.complete ⟨h.params, h.memories, h.errcode, h.freqs, fun _ => ⟨T, hT.holds⟩, h.codes, h.dec⟩

theorem State.Sound.putAll {l : List (Byte × Code)} {s : State} (h : s.Sound) (hv : s.codes.valid = false)
    (hl : ∀ e ∈ l, 1 ≤ e.2.length ∧ e.2.length ≤ 255) : (s.putAll l).Sound := by
  induction l generalizing s with
  | nil => exact h.of_eq rfl rfl rfl rfl rfl rfl
  | cons e l ih =>
    have he := hl e (by simp)
    exact ih (s := s.setCode e.1 e.2) (h.setCode e.1 he.1 he.2 hv) hv fun e' he' => hl e' (by simp [he'])

theorem getCodes_next {s : State} (h : s.Sound) (hv : s.tree.valid = true) : ∃ t, getCodesBody s = .next t ∧ t.Inv := by
  obtain ⟨T, hT⟩ := h.tree hv
  obtain ⟨p, k, d, heq⟩ := getCodesBody_spec hT.placed hT.root hT.symbols
  refine ⟨_, heq, State.Sound.codesEnd ?_⟩
  refine State.Sound.of_eq (s := (codesStart s).putAll T.table) ?_ rfl rfl rfl rfl rfl rfl
  exact h.codesStart.putAll rfl fun e he => HTree.table_length hT.symbols he

theorem writeDict_inv {s : State} (h : s.Sound) : (writeDictBody s).Inv := by
  unfold writeDictBody
  split
  · rename_i e y hbad
    refine h.raise ?_ _
    have : ∀ l, firstBadLength l = some (e, y) → e ≠ .bounds := by
      intro l
      induction l with
      | nil => intro hx; cases hx
      | cons a l ih =>
        intro hx
        simp only [firstBadLength] at hx
        split at hx
        · obtain ⟨rfl, -⟩ := Prod.mk.injEq _ _ _ _ ▸ Option.some.inj hx; decide
        · split at hx
          · obtain ⟨rfl, -⟩ := Prod.mk.injEq _ _ _ _ ▸ Option.some.inj hx; decide
          · exact ih hx
    exact this _ hbad
  · exact State.Sound.complete (s := s.outBytes _) (h.of_eq rfl rfl rfl rfl rfl rfl)

theorem setCfg_inv {s : State} (h : s.Sound) (v : Word64) : (setCfgBody v s).Inv := by
  unfold setCfgBody
  split
  · exact h.raise (by decide) _
  · exact State.Sound.complete (s := { s with cfg := _ }) (h.of_eq rfl rfl rfl rfl rfl rfl)

/-! ## BUILD_DECODER -/

/-- A decoder that stores the whole of a table has the shape of R52 (e). -/
theorem Decoder.Stores.shape {t : CodeTable} {d : Decoder} (h : d.Stores (presentCodes t.code)) (ht : t.Ok)
    (hv : t.valid = true) (hd : d.depth = depthFor t.maxlen) (hm : d.maxlen = t.maxlen)
    (hs : d.sentinel = BitVec.ofNat 9 (sentinelFor t.code)) (hi : ((presentCodes t.code).map Prod.snd).Nodup) : d.Shape := by
  obtain ⟨h1, h2⟩ := t.present_facts ht.1
  refine ⟨by rw [hd, hm], h.fill, ?_, (h.overflow (presentCodes_length_le _)).2, ?_, ?_, h.codes_nodup hi⟩
  · intro i v hg
    obtain ⟨y, c, hm, hc, rfl, rfl⟩ := (h.slots i v).1 hg
    refine ⟨(index_in_slots (h2 _ hm) hc).2, ?_⟩
    have := y.isLt
    simp only [BitVec.truncate_eq_setWidth, BitVec.toNat_setWidth]
    omega
  · intro e he
    rw [h.ovf] at he
    obtain ⟨⟨y, c⟩, hf, rfl⟩ := List.mem_map.1 he
    obtain ⟨hm', hlt⟩ := List.mem_filter.1 hf
    refine ⟨by simpa using hlt, ?_⟩
    rw [hm, (ht.2 hv).2]
    exact le_maxLength hm'
  · intro e he
    rw [h.ovf] at he
    obtain ⟨⟨y, c⟩, hf, rfl⟩ := List.mem_map.1 he
    rw [hs]
    exact h1 _ (List.mem_filter.1 hf).1

/-- The first repetition in a list. -/
theorem exists_first_repeat {α β : Type} [DecidableEq β] (f : α → β) :
    ∀ {l : List α}, ¬ (l.map f).Nodup → ∃ l₁ a l₂, l = l₁ ++ a :: l₂ ∧ (l₁.map f).Nodup ∧ f a ∈ l₁.map f := by
  intro l
  induction l using List.reverseRecOn with
  | nil => intro h; exact absurd List.nodup_nil h
  | append_singleton l a ih =>
    intro h
    by_cases hl : (l.map f).Nodup
    · by_cases ha : f a ∈ l.map f
      · exact ⟨l, a, [], rfl, hl, ha⟩
      · refine absurd ?_ h
        rw [List.map_append, List.map_singleton]
        exact List.nodup_append.2 ⟨hl, List.nodup_singleton _, fun x hx y hy hxy => ha (by
          rw [List.mem_singleton] at hy
          rw [← hy, ← hxy]; exact hx)⟩
    · obtain ⟨l₁, b, l₂, rfl, h1, h2⟩ := ih hl
      exact ⟨l₁, b, l₂ ++ [a], by simp, h1, h2⟩

theorem build_inv {s : State} (h : s.Sound) (hb : s.phase.isBusy = true) (hv : s.codes.valid = true) :
    (storeLoop (presentCodes s.codes.code) (buildStart s)).Inv := by
  by_cases hi : ((presentCodes s.codes.code).map Prod.snd).Nodup
  · have hinj : s.codes.Injective := by
      intro y z c hy hz
      have := List.inj_on_of_nodup_map hi (CodeTable.mem_presentCodes.2 hy) (CodeTable.mem_presentCodes.2 hz) rfl
      exact congrArg Prod.fst this
    obtain ⟨d, idx, heq, hst, h1, h2, h3⟩ := storeLoop_spec hb h.codes.1 hinj
    have hshape := hst.shape h.codes hv h1 h3 h2 hi
    rw [heq]
    refine State.Sound.complete ⟨h.params, ⟨h.memories.1, h.memories.2.1, hst.wf⟩, h.errcode, h.freqs, h.tree, h.codes, ?_⟩
    exact fun _ => ⟨hshape.depth, hshape.fill, hshape.cells, hshape.novf, hshape.longer, hshape.sentinel, hshape.distinct⟩
  · obtain ⟨l₁, ⟨y, c⟩, l₂, hl, hn, hd⟩ := exists_first_repeat _ hi
    obtain ⟨d, idx, heq, hval, hwf⟩ := storeLoop_dup hb h.codes.1 hl hn hd
    rw [heq]
    refine State.Sound.raise (s := { s with dec := d, work := { s.work with idx := idx } })
      ⟨h.params, ⟨h.memories.1, h.memories.2.1, hwf⟩, h.errcode, h.freqs, h.tree, h.codes, ?_⟩
      (by decide) _
    intro hx
    have : d.valid = true := hx
    rw [hval] at this
    cases this

/-! ## Commands -/

/-- Going on keeps the invariant, round by round. -/
theorem pump_inv {f : Byte → State → State} (hf : InqFree f) {op : Byte}
    (hcmd : ∀ b s, (f b s).cmd = s.cmd)
    (hround : ∀ b rest s, s.Inv → s.awaiting = true → opOf s.cmd = op → (f b (State.inByte rest s)).Inv) {q : List Byte}
    {s : State} (hq : s.inq = q) (h : s.Inv) (hop : opOf s.cmd = op) : (pump f q s).Inv :=
  (pump_keeps hf (P := fun s => s.Inv ∧ opOf s.cmd = op)
    (fun b rest s hw _ hs => ⟨hround b rest s hs.1 hw hs.2, by rw [hcmd]; exact hs.2⟩) hq ⟨h, hop⟩).1

theorem countByte_cmd (b : Byte) (s : State) : (countByte b s).cmd = s.cmd := frameOf_cmd (countByte_frame 0 b s)
theorem dictByte_cmd (b : Byte) (s : State) : (dictByte b s).cmd = s.cmd := frameOf_cmd (dictByte_frame 0 b s)
theorem lookupByte_cmd (b : Byte) (s : State) : (lookupByte b s).cmd = s.cmd := frameOf_cmd (lookupByte_frame b s)
theorem encodeByte_cmd (b : Byte) (s : State) : (encodeByte b s).cmd = s.cmd := frameOf_cmd (encodeByte_frame 0 b s)
theorem decodeByte_cmd (b : Byte) (s : State) : (decodeByte b s).cmd = s.cmd := frameOf_cmd (decodeByte_frame 0 b s)

theorem count_round' (b : Byte) (rest : List Byte) (s : State) (h : s.Inv) (hw : s.awaiting = true)
    (hop : opOf s.cmd = 0x10) : (countByte b (s.inByte rest)).Inv := by
  obtain ⟨pos, hp⟩ := State.awaiting_busy hw
  have hh := h.held
  unfold State.HeldOk at hh
  rw [hp] at hh
  cases pos with
  | counting => exact count_round h hp
  | running => exact absurd hh id
  | _ => exact absurd (hop.symm.trans hh.1) (by decide)

theorem State.Inv.begin {s : State} (h : s.Inv) (hp : s.phase = .idle) (w : CmdWord) : (s.begin w).Sound :=
  (h.sound (by rw [hp]; decide)).of_eq rfl rfl rfl rfl rfl rfl

theorem inq_of_withInq {a b : State} {q : List Byte} (h : a = b.withInq q) : a.inq = q := by rw [h]; rfl

/-- The body of a command whose prerequisite holds ends in a state that meets the invariant. -/
theorem bodyOf_inv {i : Instr} {s : State} (hi : i ≠ .clear) (h : s.Inv) (hp : s.phase = .idle) (hr : ready i s = true) :
    ∃ t, bodyOf i (s.begin (encode i)) = .next t ∧ t.Inv := by
  have hs := h.begin hp (encode i)
  have hop : opOf (s.begin (encode i)).cmd = i.opcode := opOf_encode i
  cases i with
  | clear => exact absurd rfl hi
  | setCfg v => exact ⟨_, rfl, setCfg_inv hs v⟩
  | count n =>
    refine ⟨_, rfl, pump_inv (op := 0x10) inqFree_count countByte_cmd count_round' ?_ (count_start hs rfl hop) ?_⟩
    · exact countLoop_inq _
    · exact (congrArg opOf (frameOf_cmd (countLoop_frame n _))).trans hop
  | merge => exact ⟨_, rfl, merge_inv hs hr⟩
  | getCodes => exact getCodes_next hs hr
  | buildDecoder => exact ⟨_, rfl, build_inv hs rfl hr⟩
  | resolve => exact ⟨_, rfl, pump_inv (op := 0x21) inqFree_lookup lookupByte_cmd (fun _ _ _ h hw hop => lookup_round h hw hop)
      rfl (lookup_start hs hop hr) hop⟩
  | writeDict => exact ⟨_, rfl, writeDict_inv hs⟩
  | readDict n =>
    refine ⟨_, rfl, pump_inv (op := 0x31) inqFree_dict dictByte_cmd (fun _ _ _ h hw hop => dict_round h hw hop) ?_
      (dict_start hs rfl hop) ?_⟩
    · unfold dictStart dictNext; split <;> rfl
    · exact (congrArg opOf (frameOf_cmd (dictNext_frame n _ (codesStart _)))).trans hop
  | encode n =>
    refine ⟨_, rfl, pump_inv (op := 0x32) inqFree_encode encodeByte_cmd (fun _ _ _ h hw hop => encode_round h hw hop) ?_
      (encode_start hs rfl hop hr) ?_⟩
    · unfold encodeStart
      exact inq_of_withInq (encodeLoop_withInq 0 (((s.begin (encode (.encode n))).setAcc []).setChunk []) s.inq)
    · exact (congrArg opOf (frameOf_cmd (encodeLoop_frame n 0 _))).trans hop
  | decode n =>
    refine ⟨_, rfl, pump_inv (op := 0x33) inqFree_decode decodeByte_cmd (fun _ _ _ h hw hop => decode_round h hw hop) ?_
      (decode_start hs rfl rfl hop hr) ?_⟩
    · unfold decodeStart
      split
      · exact inq_of_withInq (chunkLoop_withInq ((s.begin (encode (.decode n))).setCand []) s.inq)
      · exact inq_of_withInq (decodeLoop_withInq ((s.begin (encode (.decode n))).setCand []) s.inq)
    · unfold decodeStart
      split
      · exact (congrArg opOf (frameOf_cmd (chunkLoop_frame n _))).trans hop
      · exact (congrArg opOf (frameOf_cmd (decodeLoop_frame n _))).trans hop

/-- CLEAR's pseudocode leaves a state that meets the invariant. -/
theorem cleared_inv {s : State} (h : s.params.wf) : s.cleared.Inv := by
  refine ⟨h, ⟨rfl, rfl, rfl⟩, ?_, (by simp [State.cleared]), ?_, ?_, ⟨?_, ?_⟩, ?_, trivial⟩
  · show (0 : BitVec 8) ≠ 0 ↔ Phase.idle = .fault ∨ Phase.idle = .fatal
    decide
  · intro hv; cases hv
  · intro hv; cases hv
  · intro y c hc; cases hc
  · intro hv; cases hv
  · intro hv; cases hv

/-- A command answers a state that meets the invariant. -/
theorem exec_inv {i : Instr} {s : State} (h : s.Inv) : ∃ t, exec i s = .next t ∧ t.Inv := by
  by_cases hi : i = .clear
  · subst hi
    show ∃ t, execClear s = .next t ∧ t.Inv
    unfold execClear
    split
    · exact ⟨_, rfl, cleared_inv h.params⟩
    · exact ⟨_, rfl, h⟩
  · by_cases hp : s.phase = .idle
    · by_cases hr : ready i s = true
      · rw [exec_of_ready hi hp hr]
        exact bodyOf_inv hi h hp hr
      · rw [exec_of_not_ready hp (Bool.eq_false_iff.2 hr)]
        exact ⟨_, rfl, (h.begin hp _).raise (by decide) _⟩
    · rw [exec_of_not_idle hi hp]
      exact ⟨_, rfl, h⟩

/-- Going on keeps the invariant (R62). -/
theorem resume_inv {s : State} (h : s.Inv) : (resume s).Inv := by
  unfold resume
  split
  · rename_i pos hp
    have hh := h.held
    unfold State.HeldOk at hh
    rw [hp] at hh
    cases pos with
    | running => exact absurd hh id
    | counting => exact pump_inv (op := 0x10) inqFree_count countByte_cmd count_round' rfl h hh.1
    | dictLength => exact pump_inv (op := 0x31) inqFree_dict dictByte_cmd (fun _ _ _ h hw hop => dict_round h hw hop) rfl h hh.1
    | dictPath l c => exact pump_inv (op := 0x31) inqFree_dict dictByte_cmd (fun _ _ _ h hw hop => dict_round h hw hop) rfl h hh.1
    | dictSymbol c => exact pump_inv (op := 0x31) inqFree_dict dictByte_cmd (fun _ _ _ h hw hop => dict_round h hw hop) rfl h hh.1
    | lookupLength => exact pump_inv (op := 0x21) inqFree_lookup lookupByte_cmd (fun _ _ _ h hw hop => lookup_round h hw hop) rfl h hh.1
    | lookupPath l => exact pump_inv (op := 0x21) inqFree_lookup lookupByte_cmd (fun _ _ _ h hw hop => lookup_round h hw hop) rfl h hh.1
    | encoding t => exact pump_inv (op := 0x32) inqFree_encode encodeByte_cmd (fun _ _ _ h hw hop => encode_round h hw hop) rfl h hh.1
    | decoding => exact pump_inv (op := 0x33) inqFree_decode decodeByte_cmd (fun _ _ _ h hw hop => decode_round h hw hop) rfl h hh.1
    | chunkTrail => exact pump_inv (op := 0x33) inqFree_decode decodeByte_cmd (fun _ _ _ h hw hop => decode_round h hw hop) rfl h hh.1
    | chunkPayload m k => exact pump_inv (op := 0x33) inqFree_decode decodeByte_cmd (fun _ _ _ h hw hop => decode_round h hw hop) rfl h hh.1
  · exact h

end Sys2Proof.Machine
end

