-- ==== Sys2Proof/Laws/Held.lean ====
section
/-!
SUPPORT. Where a command stands while it holds (R62): at an `InByte` of its own, with that byte within its LEN (R92);
and what bytes that come later do (R12).
-/

namespace Sys2Proof.Machine

open Sys2Proof Sys2Proof.Config

/-! ## At an `InByte` of its own -/

/-- The command has ended, or holds at an `InByte` after which the pseudocode `f` runs. -/
def Stands (f : Byte → State → State) (s : State) : Prop :=
  s.phase.isBusy = false ∨ ∃ pos, s.phase = .busy pos ∧ pos ≠ .running ∧ afterByte pos = f

theorem Stands.raise (f : Byte → State → State) (s : State) (e : Err) (i : Word64) : Stands f (s.raise e i) :=
  .inl (by cases e <;> rfl)

theorem Stands.complete (f : Byte → State → State) (s : State) : Stands f s.complete := .inl rfl

theorem Stands.await {f : Byte → State → State} {pos : Pos} (h1 : pos ≠ .running) (h2 : afterByte pos = f) (s : State) :
    Stands f (s.await pos) := .inr ⟨pos, rfl, h1, h2⟩

theorem Stands.of_phase {f : Byte → State → State} {s t : State} (h : Stands f s) (hp : t.phase = s.phase) :
    Stands f t := by unfold Stands; rw [hp]; exact h

/-- A command that holds goes on with its own pseudocode. -/
theorem Stands.resume {f : Byte → State → State} {s : State} (h : Stands f s) (hw : s.awaiting = true) :
    Machine.resume s = pump f s.inq s := by
  rcases h with h | ⟨pos, hp, -, rfl⟩
  · rw [State.awaiting_isBusy hw] at h; cases h
  · simp [Machine.resume, hp]

theorem Stands.ended {f : Byte → State → State} {s : State} (h : Stands f s) (hw : s.awaiting = false) :
    s.phase.isBusy = false := by
  rcases h with h | ⟨pos, hp, hr, -⟩
  · exact h
  · unfold State.awaiting at hw
    rw [hp] at hw
    cases pos <;> first | exact absurd rfl hr | cases hw

theorem countLoop_stands (s : State) : Stands countByte (countLoop s) := by
  unfold countLoop
  split
  · exact Stands.complete _ _
  · exact Stands.await (by simp) rfl s

theorem dictNext_stands {pos : Pos} (h1 : pos ≠ .running) (h2 : afterByte pos = dictByte) (s : State) :
    Stands dictByte (dictNext pos s) := by
  unfold dictNext
  split
  · exact Stands.raise _ _ _ _
  · exact Stands.await h1 h2 s

theorem dictByte_stands (b : Byte) {s : State} (h : Stands dictByte s) : Stands dictByte (dictByte b s) := by
  unfold dictByte
  split
  · split
    · exact Stands.complete _ _
    · exact dictNext_stands (by simp) rfl s
  · split
    · exact Stands.raise _ _ _ _
    · split <;> exact dictNext_stands (by simp) rfl s
  · split
    · exact Stands.raise _ _ _ _
    · exact dictNext_stands (by simp) rfl _
  · exact h

theorem lookupByte_stands (b : Byte) {s : State} (h : Stands lookupByte s) : Stands lookupByte (lookupByte b s) := by
  unfold lookupByte
  split
  · split
    · exact Stands.complete _ _
    · exact Stands.await (by simp) rfl s
  · split
    · exact Stands.raise _ _ _ _
    · split
      · exact Stands.complete _ _
      · exact h.of_phase rfl
  · exact h

theorem encodeLoop_stands (t : Nat) (s : State) : Stands encodeByte (encodeLoop t s) := by
  unfold encodeLoop encodeEndChunked encodeEndSimple
  split
  · split <;> split <;> exact Stands.complete _ _
  · exact Stands.await (by simp) rfl s

theorem encodeByte_stands (b : Byte) {s : State} (h : Stands encodeByte s) : Stands encodeByte (encodeByte b s) := by
  unfold encodeByte encodeCode
  split
  · split
    · exact Stands.raise _ _ _ _
    · split
      · split <;> exact encodeLoop_stands _ _
      · exact encodeLoop_stands _ _
  · exact h

theorem unlessEnded_stands {f : Byte → State → State} {k : State → State} (hk : ∀ u, Stands f (k u)) (s : State) :
    Stands f (s.unlessEnded k) := by
  unfold State.unlessEnded
  split
  · exact hk s
  · rename_i h
    exact .inl (Bool.eq_false_iff.2 h)

theorem decodeLoop_stands (s : State) : Stands decodeByte (decodeLoop s) := by
  unfold decodeLoop
  split
  · exact unlessEnded_stands (Stands.complete _) _
  · exact Stands.await (by simp) rfl s

theorem chunkLoop_stands (s : State) : Stands decodeByte (chunkLoop s) := by
  unfold chunkLoop
  split
  · exact Stands.complete _ _
  · exact Stands.await (by simp) rfl s

theorem payloadLoop_stands (m k : Nat) (s : State) : Stands decodeByte (payloadLoop m k s) := by
  unfold payloadLoop
  split
  · exact unlessEnded_stands chunkLoop_stands _
  · exact Stands.await (by simp) rfl s

theorem decodeByte_stands (b : Byte) {s : State} (h : Stands decodeByte s) : Stands decodeByte (decodeByte b s) := by
  unfold decodeByte
  split
  · exact unlessEnded_stands decodeLoop_stands _
  · simp only
    split
    · exact Stands.raise _ _ _ _
    · exact payloadLoop_stands _ _ _
  · exact unlessEnded_stands (payloadLoop_stands _ _) _
  · exact h

theorem pump_stands {f : Byte → State → State} (hf : ∀ b {s : State}, Stands f s → Stands f (f b s)) :
    ∀ {q : List Byte} {s : State}, Stands f s → Stands f (pump f q s)
  | [], _, h => h
  | b :: rest, s, h => by
    simp only [pump]
    split
    · exact pump_stands hf (hf b (h.of_phase rfl))
    · exact h

theorem storeCode_phase (y : Byte) (c : Code) (s : State) :
    (storeCode y c s).phase = s.phase ∨ (storeCode y c s).phase.isBusy = false := by
  unfold storeCode
  split
  · simp only
    split
    · exact .inr rfl
    · split
      · exact .inr rfl
      · exact .inl rfl
  · split
    · exact .inr rfl
    · exact .inl rfl

theorem storeLoop_ends (l : List (Byte × Code)) (s : State) : (storeLoop l s).phase.isBusy = false := by
  induction l generalizing s with
  | nil => rfl
  | cons e l ih =>
    obtain ⟨y, c⟩ := e
    simp only [storeLoop]
    split
    · exact ih _
    · exact Bool.eq_false_iff.2 ‹_›

/-- The pseudocode after an `InByte` of a command; the commands that take no byte have none. -/
def roundOf : Instr → Byte → State → State
  | .clear | .setCfg _ | .merge | .getCodes | .buildDecoder | .writeDict => fun _ s => s
  | .count _ => countByte
  | .resolve => lookupByte
  | .readDict _ => dictByte
  | .encode _ => encodeByte
  | .decode _ => decodeByte

/-- The commands with an `InByte` in their pseudocode. -/
def takesBytes : Instr → Bool
  | .clear | .setCfg _ | .merge | .getCodes | .buildDecoder | .writeDict => false
  | .count _ | .resolve | .readDict _ | .encode _ | .decode _ => true

/-- A command without an `InByte` ends. -/
theorem bodyOf_ends {i : Instr} {s t : State} (hi : i ≠ .clear) (hn : takesBytes i = false) (h : bodyOf i s = .next t) :
    t.phase.isBusy = false := by
  cases i with
  | clear => exact absurd rfl hi
  | setCfg v =>
    obtain rfl := Host.Outcome.next.inj h
    unfold setCfgBody
    split <;> rfl
  | merge =>
    obtain rfl := Host.Outcome.next.inj h
    unfold mergeBody
    split <;> rfl
  | getCodes =>
    change getCodesBody s = .next t at h
    unfold getCodesBody at h
    split at h
    · cases h
    · obtain rfl := Host.Outcome.next.inj h; rfl
    · split at h
      · cases h
      · obtain rfl := Host.Outcome.next.inj h; rfl
  | buildDecoder =>
    obtain rfl := Host.Outcome.next.inj h
    exact storeLoop_ends _ _
  | writeDict =>
    obtain rfl := Host.Outcome.next.inj h
    unfold writeDictBody
    split
    · rename_i e _ _
      cases e <;> rfl
    · rfl
  | count _ | resolve | readDict _ | encode _ | decode _ => cases hn

/-- A command ends or holds at an `InByte` of its own. -/
theorem bodyOf_stands {i : Instr} {s t : State} (hi : i ≠ .clear) (h : bodyOf i s = .next t) : Stands (roundOf i) t := by
  cases i with
  | clear => exact absurd rfl hi
  | setCfg _ | merge | getCodes | buildDecoder | writeDict => exact .inl (bodyOf_ends hi rfl h)
  | count n =>
    obtain rfl := Host.Outcome.next.inj h
    exact pump_stands (fun b s _ => countLoop_stands _) (countLoop_stands _)
  | resolve =>
    obtain rfl := Host.Outcome.next.inj h
    exact pump_stands lookupByte_stands (Stands.await (by simp) rfl _)
  | readDict n =>
    obtain rfl := Host.Outcome.next.inj h
    exact pump_stands dictByte_stands (dictNext_stands (by simp) rfl _)
  | encode n =>
    obtain rfl := Host.Outcome.next.inj h
    exact pump_stands encodeByte_stands (encodeLoop_stands _ _)
  | decode n =>
    obtain rfl := Host.Outcome.next.inj h
    refine pump_stands decodeByte_stands ?_
    unfold decodeStart
    split
    · exact chunkLoop_stands _
    · exact decodeLoop_stands _

/-! ## Up to the first `InByte` -/

theorem countStart_inq (s : State) : (countStart s).inq = s.inq :=
  countLoop_inq { s with freqs := { valid := false, freq := [], total := 0 } }

theorem dictStart_inq (s : State) : (dictStart s).inq = s.inq := by
  unfold dictStart dictNext
  split <;> rfl

theorem encodeStart_inq (s : State) : (encodeStart s).inq = s.inq :=
  inq_of_withInq (encodeLoop_withInq 0 ((s.setAcc []).setChunk []) s.inq)

theorem decodeStart_withInq (s : State) (q : List Byte) : decodeStart (s.withInq q) = (decodeStart s).withInq q := by
  unfold decodeStart
  rw [show (s.withInq q).bodyChunked = s.bodyChunked from rfl]
  split
  · exact chunkLoop_withInq (s.setCand []) q
  · exact decodeLoop_withInq (s.setCand []) q

theorem decodeStart_inq (s : State) : (decodeStart s).inq = s.inq := inq_of_withInq (decodeStart_withInq s s.inq)

/-- A command that holds has left no byte in INQ. -/
theorem bodyOf_holds {i : Instr} {s t : State} (hi : i ≠ .clear) (h : bodyOf i s = .next t) (hw : t.awaiting = true) :
    t.inq = [] := by
  have hp : ∀ {f : Byte → State → State} {u : State}, InqFree f → u.inq = s.inq → pump f s.inq u = t → t.inq = [] := by
    rintro f u hf hu rfl
    exact pump_ends hf hu hw
  cases i with
  | clear => exact absurd rfl hi
  | setCfg _ | merge | getCodes | buildDecoder | writeDict =>
    have := State.awaiting_isBusy hw
    rw [bodyOf_ends hi rfl h] at this
    cases this
  | count n => exact hp inqFree_count (countStart_inq s) (Host.Outcome.next.inj h)
  | resolve => exact hp inqFree_lookup (u := lookupStart s) rfl (Host.Outcome.next.inj h)
  | readDict n => exact hp inqFree_dict (dictStart_inq s) (Host.Outcome.next.inj h)
  | encode n => exact hp inqFree_encode (encodeStart_inq s) (Host.Outcome.next.inj h)
  | decode n => exact hp inqFree_decode (decodeStart_inq s) (Host.Outcome.next.inj h)

/-! ## Bytes that come later -/

theorem mergeLoop_withInq (k : Nat) (s : State) (q : List Byte) : mergeLoop k (s.withInq q) = (mergeLoop k s).withInq q := by
  induction k generalizing s with
  | zero => rfl
  | succ k ih =>
    simp only [mergeLoop]
    by_cases h : 1 < s.work.heap.length
    · rw [if_pos h, if_pos (show 1 < (s.withInq q).work.heap.length from h)]
      exact ih (mergeOnce s)
    · rw [if_neg h, if_neg (show ¬ 1 < (s.withInq q).work.heap.length from h)]

theorem mergeBody_withInq (s : State) (q : List Byte) : mergeBody (s.withInq q) = (mergeBody s).withInq q := by
  unfold mergeBody
  by_cases h : (mergeStart s).work.heap = []
  · rw [if_pos h, if_pos (show (mergeStart (s.withInq q)).work.heap = [] from h)]; rfl
  · rw [if_neg h, if_neg (show ¬ (mergeStart (s.withInq q)).work.heap = [] from h)]
    exact congrArg mergeEnd (mergeLoop_withInq _ (mergeStart s) q)

theorem walkMove_withInq (s : State) (q : List Byte) :
    walkMove (s.withInq q) = (walkMove s).map (State.withInq q) := by
  unfold walkMove
  rw [State.withInq_work, State.withInq_tree]
  split
  · rfl
  · split
    · rfl
    · rfl
    · split
      · split <;> rfl
      · split <;> rfl

theorem walk_withInq (k : Nat) (s : State) (q : List Byte) : walk k (s.withInq q) = (walk k s).map (State.withInq q) := by
  induction k generalizing s with
  | zero =>
    unfold walk
    rw [State.withInq_work]
    split <;> rfl
  | succ k ih =>
    unfold walk
    rw [State.withInq_work]
    split
    · rfl
    · rw [walkMove_withInq]
      cases walkMove s with
      | none => rfl
      | some u => exact ih u

theorem storeCode_withInq (y : Byte) (c : Code) (s : State) (q : List Byte) :
    storeCode y c (s.withInq q) = (storeCode y c s).withInq q := by
  unfold storeCode
  rw [State.withInq_dec]
  by_cases h : c.length ≤ s.dec.depth.val
  · rw [if_pos h, if_pos h]
    show (if index c < 1 ∨ slotsOf s.dec.depth < index c then
        State.raise .bounds (BitVec.ofNat 64 (index c)) ((s.loadIdx c).withInq q)
      else if s.dec.arr.read (index c) ≠ s.dec.sentinel then
        State.raise .dupCode (y.zeroExtend 64) ((s.loadIdx c).withInq q)
      else { (s.loadIdx c).withInq q with dec := s.dec.putSlot (index c) y }) =
      State.withInq q (if index c < 1 ∨ slotsOf s.dec.depth < index c then
        State.raise .bounds (BitVec.ofNat 64 (index c)) (s.loadIdx c)
      else if s.dec.arr.read (index c) ≠ s.dec.sentinel then
        State.raise .dupCode (y.zeroExtend 64) (s.loadIdx c)
      else { s.loadIdx c with dec := s.dec.putSlot (index c) y })
    split
    · rfl
    · split <;> rfl
  · rw [if_neg h, if_neg h]
    split <;> rfl

theorem storeLoop_withInq (l : List (Byte × Code)) (s : State) (q : List Byte) :
    storeLoop l (s.withInq q) = (storeLoop l s).withInq q := by
  induction l generalizing s with
  | nil => rfl
  | cons e l ih =>
    obtain ⟨y, c⟩ := e
    simp only [storeLoop, storeCode_withInq, State.withInq_phase]
    split
    · exact ih _
    · rfl

/-- Bytes behind those in INQ are taken as if they came later (R12). -/
theorem bodyOf_late {i : Instr} {s t : State} (hi : i ≠ .clear) (b : List Byte) (h : bodyOf i s = .next t) :
    bodyOf i (s.withInq (s.inq ++ b)) = .next (pump (roundOf i) (t.inq ++ b) (t.withInq (t.inq ++ b))) := by
  have hpump : ∀ {f : Byte → State → State} (hf : InqFree f) {u : State}, u.inq = s.inq →
      pump f (s.inq ++ b) (u.withInq (s.inq ++ b)) =
        pump f ((pump f s.inq u).inq ++ b) ((pump f s.inq u).withInq ((pump f s.inq u).inq ++ b)) :=
    fun {_} hf {u} hu => pump_append hf b s.inq u hu
  have hdone : ∀ {f : Byte → State → State}, t.phase.isBusy = false → t.inq = s.inq →
      pump f (t.inq ++ b) (t.withInq (t.inq ++ b)) = t.withInq (s.inq ++ b) := fun {f} hb hq => by
    have hw : (t.withInq (t.inq ++ b)).awaiting = false := by
      rw [State.withInq_awaiting]
      by_contra hc
      rw [State.awaiting_isBusy (Bool.not_eq_false _ ▸ hc)] at hb
      cases hb
    rw [pump_of_not_awaiting hw, hq]
  cases i with
  | clear => exact absurd rfl hi
  | setCfg v =>
    rw [hdone (bodyOf_ends hi rfl h) (by obtain rfl := Host.Outcome.next.inj h; unfold setCfgBody; split <;> rfl)]
    obtain rfl := Host.Outcome.next.inj h
    show Host.Outcome.next (setCfgBody v (s.withInq (s.inq ++ b))) = _
    unfold setCfgBody
    split <;> rfl
  | count n =>
    obtain rfl := Host.Outcome.next.inj h
    exact congrArg _ ((congrArg (pump countByte _) (countLoop_withInq _ _)).trans
      (hpump inqFree_count (countStart_inq s)))
  | merge =>
    have hf := congrArg State.inq (mergeBody_frame s)
    rw [hdone (bodyOf_ends hi rfl h) (by obtain rfl := Host.Outcome.next.inj h; exact hf)]
    obtain rfl := Host.Outcome.next.inj h
    exact congrArg _ (mergeBody_withInq _ _)
  | getCodes =>
    have hf : (frameOf .getCodes t).inq = (frameOf .getCodes s).inq := congrArg State.inq (getCodesBody_frame h)
    rw [hdone (bodyOf_ends hi rfl h) hf]
    change getCodesBody s = .next t at h
    show getCodesBody (s.withInq (s.inq ++ b)) = _
    unfold getCodesBody at h ⊢
    simp only [State.withInq_tree]
    split at h
    · cases h
    · obtain rfl := Host.Outcome.next.inj h; rfl
    · split at h
      · cases h
      · obtain rfl := Host.Outcome.next.inj h
        rename_i u hu
        have hw := walk_withInq walkBound ((codesStart s).setWalk [] [(s.tree.root.toNat, true)] true) (s.inq ++ b)
        rw [hu] at hw
        rw [show walk walkBound (State.setWalk [] [(s.tree.root.toNat, true)] true (codesStart (State.withInq (s.inq ++ b) s))) =
          some (u.withInq (s.inq ++ b)) from hw]
        rfl
  | buildDecoder =>
    have hf := congrArg State.inq (storeLoop_frame (presentCodes s.codes.code) (buildStart s))
    rw [hdone (bodyOf_ends hi rfl h) (by obtain rfl := Host.Outcome.next.inj h; exact hf)]
    obtain rfl := Host.Outcome.next.inj h
    exact congrArg _ (storeLoop_withInq _ (buildStart s) _)
  | resolve =>
    obtain rfl := Host.Outcome.next.inj h
    exact congrArg _ (hpump inqFree_lookup (u := lookupStart s) rfl)
  | writeDict =>
    rw [hdone (bodyOf_ends hi rfl h) (by obtain rfl := Host.Outcome.next.inj h; unfold writeDictBody; split <;> rfl)]
    obtain rfl := Host.Outcome.next.inj h
    show Host.Outcome.next (writeDictBody (s.withInq (s.inq ++ b))) = _
    unfold writeDictBody
    rw [State.withInq_codes]
    split <;> rfl
  | readDict n =>
    obtain rfl := Host.Outcome.next.inj h
    exact congrArg _ ((congrArg (pump dictByte _) (dictNext_withInq _ (codesStart s) _)).trans
      (hpump inqFree_dict (dictStart_inq s)))
  | encode n =>
    obtain rfl := Host.Outcome.next.inj h
    exact congrArg _ ((congrArg (pump encodeByte _) (encodeLoop_withInq _ ((s.setAcc []).setChunk []) _)).trans
      (hpump inqFree_encode (encodeStart_inq s)))
  | decode n =>
    obtain rfl := Host.Outcome.next.inj h
    exact congrArg _ ((congrArg (pump decodeByte _) (decodeStart_withInq _ _)).trans
      (hpump inqFree_decode (decodeStart_inq s)))

end Sys2Proof.Machine
end

