-- ==== Sys2Proof/Laws/Canonical.lean ====
section
/-!
SUPPORT. Every command keeps the canonical form of the memories (R69), from any state whose memories have it.
-/

namespace Sys2Proof.Machine

open Sys2Proof Sys2Proof.Config

theorem State.MemoriesOk.of_eq {s t : State} (h : s.MemoriesOk) (hf : t.freqs.freq = s.freqs.freq)
    (hc : t.codes.code = s.codes.code) (hd : t.dec.arr = s.dec.arr) : t.MemoriesOk := by
  unfold State.MemoriesOk
  rw [hf, hc, hd]
  exact h

theorem State.MemoriesOk.setCode {s : State} (h : s.MemoriesOk) (y : Byte) (c : Code) : (s.setCode y c).MemoriesOk :=
  ⟨h.1, Memory.wf_set h.2.1 (Nat.zero_le _) (by have := y.isLt; omega) (by simp), h.2.2⟩

theorem State.MemoriesOk.countUp {s : State} (h : s.MemoriesOk) (b : Byte) :
    ({ s with freqs := s.freqs.countUp b } : State).MemoriesOk := ⟨FreqTable.wf_countUp b h.1, h.2⟩

theorem countLoop_memories {s : State} (h : s.MemoriesOk) : (countLoop s).MemoriesOk := by
  unfold countLoop
  split <;> exact h

theorem dictNext_memories {pos : Pos} {s : State} (h : s.MemoriesOk) : (dictNext pos s).MemoriesOk := by
  unfold dictNext
  split <;> exact h

theorem dictByte_memories (b : Byte) {s : State} (h : s.MemoriesOk) : (dictByte b s).MemoriesOk := by
  unfold dictByte
  split
  · split
    · exact h
    · exact dictNext_memories h
  · split
    · exact h
    · split <;> exact dictNext_memories h
  · split
    · exact h
    · exact dictNext_memories (h.setCode b _)
  · exact h

theorem walkMove_memories {s u : State} (h : s.MemoriesOk) (hu : walkMove s = some u) : u.MemoriesOk := by
  unfold walkMove at hu
  split at hu
  · obtain rfl := Option.some.inj hu
    exact h
  · split at hu
    · cases hu
    · obtain rfl := Option.some.inj hu
      exact h.setCode _ _
    · split at hu
      · split at hu
        · cases hu
        · obtain rfl := Option.some.inj hu
          exact h
      · split at hu <;> (obtain rfl := Option.some.inj hu; exact h)

theorem walk_memories (k : Nat) {s u : State} (h : s.MemoriesOk) (hu : walk k s = some u) : u.MemoriesOk := by
  induction k generalizing s with
  | zero =>
    simp only [walk] at hu
    split at hu
    · obtain rfl := Option.some.inj hu
      exact h
    · cases hu
  | succ k ih =>
    simp only [walk] at hu
    split at hu
    · obtain rfl := Option.some.inj hu
      exact h
    · obtain ⟨v, hv, hu⟩ := Option.bind_eq_some_iff.1 hu
      exact ih (walkMove_memories h hv) hu

theorem State.MemoriesOk.codesStart {s : State} (h : s.MemoriesOk) : (codesStart s).MemoriesOk := ⟨h.1, rfl, h.2.2⟩

theorem storeCode_memories (y : Byte) (c : Code) {s : State} (h : s.MemoriesOk) : (storeCode y c s).MemoriesOk := by
  unfold storeCode
  split
  · simp only
    split
    · exact h
    · split
      · exact h
      · rename_i hi _
        refine ⟨h.1, h.2.1, ?_⟩
        have hd := s.dec.depth.isLt
        have hle : slotsOf s.dec.depth ≤ arrMax := by
          have : 2 ^ (s.dec.depth.val + 1) ≤ 2 ^ 14 := Nat.pow_le_pow_right (by decide) (by omega)
          unfold slotsOf arrMax
          omega
        have hi : ¬ (index c < 1 ∨ slotsOf s.dec.depth < index c) := hi
        exact Memory.wf_write _ h.2.2 (by omega) (by omega)
  · split <;> exact h

theorem storeLoop_memories (l : List (Byte × Code)) {s : State} (h : s.MemoriesOk) : (storeLoop l s).MemoriesOk := by
  induction l generalizing s with
  | nil => exact h
  | cons e l ih =>
    obtain ⟨y, c⟩ := e
    simp only [storeLoop]
    split
    · exact ih (storeCode_memories y c h)
    · exact storeCode_memories y c h

/-- What a round keeps, going on keeps. -/
theorem pump_memories {f : Byte → State → State} (hf : ∀ b (s : State), s.MemoriesOk → (f b s).MemoriesOk) :
    ∀ (q : List Byte) {s : State}, s.MemoriesOk → (pump f q s).MemoriesOk
  | [], _, h => h
  | b :: rest, s, h => by
    simp only [pump]
    split
    · exact pump_memories hf rest (hf b _ h)
    · exact h

/-- The commands that write none of the memories leave them alone. -/
theorem State.MemoriesOk.of_frame {i : Instr} {s t : State} (h : s.MemoriesOk) (hf : frameOf i t = frameOf i s)
    (hi : (∀ n, i ≠ .count n) ∧ i ≠ .getCodes ∧ (∀ n, i ≠ .readDict n) ∧ i ≠ .buildDecoder) : t.MemoriesOk := by
  have h1 := congrArg (fun s : State => s.freqs.freq) hf
  have h2 := congrArg (fun s : State => s.codes.code) hf
  have h3 := congrArg (fun s : State => s.dec.arr) hf
  cases i with
  | count n => exact absurd rfl (hi.1 n)
  | getCodes => exact absurd rfl hi.2.1
  | readDict n => exact absurd rfl (hi.2.2.1 n)
  | buildDecoder => exact absurd rfl hi.2.2.2
  | _ => exact h.of_eq h1 h2 h3

theorem bodyOf_memories {i : Instr} {s t : State} (h : s.MemoriesOk) (hb : bodyOf i s = .next t) : t.MemoriesOk := by
  cases i with
  | count n =>
    obtain rfl := Host.Outcome.next.inj hb
    exact pump_memories (fun b s h => countLoop_memories (h.countUp b)) _
      (countLoop_memories (s := { s with freqs := { valid := false, freq := [], total := 0 } }) ⟨rfl, h.2⟩)
  | getCodes =>
    change getCodesBody s = .next t at hb
    unfold getCodesBody at hb
    split at hb
    · cases hb
    · obtain rfl := Host.Outcome.next.inj hb
      exact h.codesStart.setCode _ _
    · split at hb
      · cases hb
      · obtain rfl := Host.Outcome.next.inj hb
        rename_i u hu
        have := walk_memories _ (s := (codesStart s).setWalk [] [(s.tree.root.toNat, true)] true) h.codesStart hu
        exact this
  | readDict n =>
    obtain rfl := Host.Outcome.next.inj hb
    exact pump_memories (fun b s h => dictByte_memories b h) _ (dictNext_memories h.codesStart)
  | buildDecoder =>
    obtain rfl := Host.Outcome.next.inj hb
    exact storeLoop_memories _ (s := buildStart s) ⟨h.1, h.2.1, rfl⟩
  | _ => exact h.of_frame (bodyOf_frame hb) (by simp)

end Sys2Proof.Machine
end

