-- ==== Sys2Proof/Laws/PathFaults.lean ====
section
/-!
SUPPORT. How READ_DICT and RESOLVE end early (R183, R186): at a byte that is neither token, where LEN runs out, and at a
Symbol that is there already.
-/

namespace Sys2Proof.Machine

open Sys2Proof Sys2Proof.Config

/-! ## A byte that is neither token -/

/-- A byte that is a token brings one bit. -/
theorem pathByte_token {p : Params} {b : Byte} (hb : b = p.token0 ∨ b = p.token1) (got : Code) :
    ∃ c, pathByte p false got b = some c ∧ c.length = got.length + 1 := by
  have h : ∃ c, pathByte p false got b = some c := by
    unfold pathByte
    rw [if_neg (by simp)]
    split
    · exact ⟨_, rfl⟩
    · rw [if_pos (by rcases hb with hb | hb; exacts [absurd hb ‹_›, hb])]
      exact ⟨_, rfl⟩
  obtain ⟨c, hc⟩ := h
  exact ⟨c, hc, by simpa using pathByte_length hc⟩

theorem pathByte_bad {p : Params} {b : Byte} (h0 : b ≠ p.token0) (h1 : b ≠ p.token1) (got : Code) :
    pathByte p false got b = none := by simp [pathByte, h0, h1]

/-- The offset `raise E_BADTOKEN` reports (R251). -/
theorem offset_eq {w : Word64} (n : Nat) : w + BitVec.ofNat 64 n + 1 - 1 = w + BitVec.ofNat 64 n := by
  rw [BitVec.add_sub_cancel]

/-- Inside a path field of RESOLVE. -/
theorem pump_lookup_bad {l bad : Byte} {rest : List Byte} :
    ∀ {good : List Byte} {s : State}, s.dictRaw = false → (∀ b ∈ good, b = s.params.token0 ∨ b = s.params.token1) →
      bad ≠ s.params.token0 → bad ≠ s.params.token1 → s.work.cand.length + good.length < l.toNat →
      s.inq = good ++ bad :: rest →
      ∃ c, pump lookupByte s.inq (s.await (.lookupPath l)) =
        State.raise .badToken (s.work.consumed + BitVec.ofNat 64 good.length)
          ((s.setCand c).ate (good.length + 1) rest)
  | [], s, hr, _, h0, h1, _, hq => by
    refine ⟨s.work.cand, ?_⟩
    have hbad : pathByte s.params s.dictRaw s.work.cand bad = none := by rw [hr]; exact pathByte_bad h0 h1 _
    rw [hq, List.nil_append, pump_cons rfl,
      lookupByte_path_bad (s := (s.await (.lookupPath l)).inByte rest) (l := l) rfl hbad,
      pump_of_not_awaiting (raise_awaiting _ _ _)]
    have := offset_eq (w := s.work.consumed) 0
    rw [BitVec.add_zero] at this
    show State.raise .badToken (s.work.consumed + 1 - 1) _ = State.raise .badToken (s.work.consumed + BitVec.ofNat 64 0) _
    rw [BitVec.add_zero, this]
    rfl
  | b :: good, s, hr, hg, h0, h1, hl, hq => by
    obtain ⟨c, hc, hcl⟩ := pathByte_token (hg b (by simp)) s.work.cand
    have hc' : pathByte s.params s.dictRaw s.work.cand b = some c := by rw [hr]; exact hc
    simp only [List.length_cons] at hl
    rw [hq, List.cons_append, pump_cons rfl,
      lookupByte_path (s := (s.await (.lookupPath l)).inByte (good ++ bad :: rest)) (l := l) (c := c) rfl hc',
      if_neg (by simp only [pathRead, decide_eq_true_eq]; omega)]
    obtain ⟨c', h⟩ := pump_lookup_bad (l := l) (bad := bad) (rest := rest) (good := good)
      (s := (s.setCand c).ate 1 (good ++ bad :: rest)) hr (fun b hb => hg b (by simp [hb])) h0 h1
      (by show c.length + good.length < l.toNat; omega) rfl
    refine ⟨c', Eq.trans h ?_⟩
    have he : (((s.setCand c).ate 1 (good ++ bad :: rest)).setCand c').ate (good.length + 1) rest =
        (s.setCand c').ate (good.length + 1 + 1) rest := by
      rw [Nat.add_comm (good.length + 1) 1]
      exact State.ate_ate 1 (good.length + 1) (good ++ bad :: rest) rest (s.setCand c')
    rw [he]
    show State.raise .badToken (s.work.consumed + BitVec.ofNat 64 1 + BitVec.ofNat 64 good.length) _ = _
    rw [BitVec.add_assoc, ← BitVec.ofNat_add, Nat.add_comm 1]
    rfl

/-- RESOLVE on an operand with such a byte. -/
theorem lookupStart_bad {l bad : Byte} {good rest : List Byte} {s : State} (hr : s.dictRaw = false)
    (hg : ∀ b ∈ good, b = s.params.token0 ∨ b = s.params.token1) (h0 : bad ≠ s.params.token0) (h1 : bad ≠ s.params.token1)
    (hl : good.length < l.toNat) (hq : s.inq = l :: good ++ bad :: rest) :
    ∃ c, pump lookupByte s.inq (lookupStart s) =
      State.raise .badToken (s.work.consumed + BitVec.ofNat 64 (1 + good.length))
        ((s.setCand c).ate (2 + good.length) rest) := by
  have hq' : s.inq = l :: (good ++ bad :: rest) := hq
  have hne : l ≠ 0 := fun hx => by subst hx; simp at hl
  rw [hq', pump_cons (by rfl), lookupByte_length (s := (lookupStart s).inByte (good ++ bad :: rest)) rfl, if_neg hne]
  obtain ⟨c, h⟩ := pump_lookup_bad (l := l) (bad := bad) (rest := rest) (good := good)
    (s := (s.setCand []).ate 1 (good ++ bad :: rest)) hr hg h0 h1 (by show 0 + good.length < l.toNat; omega) rfl
  refine ⟨c, Eq.trans h ?_⟩
  have he : (((s.setCand []).ate 1 (good ++ bad :: rest)).setCand c).ate (good.length + 1) rest =
      (s.setCand c).ate (2 + good.length) rest := by
    rw [show 2 + good.length = 1 + (good.length + 1) by omega]
    exact State.ate_ate 1 (good.length + 1) (good ++ bad :: rest) rest (s.setCand c)
  rw [he]
  show State.raise .badToken (s.work.consumed + BitVec.ofNat 64 1 + BitVec.ofNat 64 good.length) _ = _
  rw [BitVec.add_assoc, ← BitVec.ofNat_add]

/-- Inside a path field of READ_DICT. -/
theorem readOn_path_bad {l bad : Byte} {rest : List Byte} :
    ∀ {good : List Byte} {got : Code} {s : State}, s.dictRaw = false →
      (∀ b ∈ good, b = s.params.token0 ∨ b = s.params.token1) → bad ≠ s.params.token0 → bad ≠ s.params.token1 →
      got.length + good.length < l.toNat → s.inq = good ++ bad :: rest →
      s.work.consumed.toNat + good.length + 1 ≤ s.len.toNat →
      readOn (.dictPath l got) s =
        State.raise .badToken (s.work.consumed + BitVec.ofNat 64 good.length) (s.ate (good.length + 1) rest)
  | [], got, s, hr, _, h0, h1, _, hq, hlen => by
    have hbad : pathByte s.params s.dictRaw got bad = none := by rw [hr]; exact pathByte_bad h0 h1 _
    rw [pump_dict (b := bad) (rest := rest) hq (by simp at hlen; omega) rfl,
      dictByte_path_bad (s := (s.await (.dictPath l got)).inByte rest) (l := l) (got := got) rfl hbad,
      pump_of_not_awaiting (raise_awaiting _ _ _)]
    have := offset_eq (w := s.work.consumed) 0
    rw [BitVec.add_zero] at this
    show State.raise .badToken (s.work.consumed + 1 - 1) _ = State.raise .badToken (s.work.consumed + BitVec.ofNat 64 0) _
    rw [BitVec.add_zero, this]
    rfl
  | b :: good, got, s, hr, hg, h0, h1, hl, hq, hlen => by
    obtain ⟨c, hc, hcl⟩ := pathByte_token (hg b (by simp)) got
    have hc' : pathByte s.params s.dictRaw got b = some c := by rw [hr]; exact hc
    simp only [List.length_cons] at hl hlen
    have hk := consumed_add (s := s) (n := 1) (by omega)
    rw [readOn_path_more (b := b) (rest := good ++ bad :: rest) hq (by omega) hc'
      (by simp only [pathRead, decide_eq_false_iff_not]; omega)]
    have h := readOn_path_bad (l := l) (bad := bad) (rest := rest) (good := good) (got := c)
      (s := s.ate 1 (good ++ bad :: rest)) hr (fun b hb => hg b (by simp [hb])) h0 h1 (by omega) rfl
      (by rw [State.ate_consumed, State.ate_len, hk]; omega)
    rw [h, State.ate_ate, Nat.add_comm 1 (good.length + 1)]
    show State.raise .badToken (s.work.consumed + BitVec.ofNat 64 1 + BitVec.ofNat 64 good.length) _ = _
    rw [BitVec.add_assoc, ← BitVec.ofNat_add, Nat.add_comm 1]
    rfl

/-- A record of READ_DICT with such a byte. -/
theorem readOn_bad {l bad : Byte} {good rest : List Byte} {s : State} (hr : s.dictRaw = false)
    (hg : ∀ b ∈ good, b = s.params.token0 ∨ b = s.params.token1) (h0 : bad ≠ s.params.token0) (h1 : bad ≠ s.params.token1)
    (hl : good.length < l.toNat) (hq : s.inq = l :: good ++ bad :: rest)
    (hlen : s.work.consumed.toNat + good.length + 2 ≤ s.len.toNat) :
    readOn .dictLength s =
      State.raise .badToken (s.work.consumed + BitVec.ofNat 64 (1 + good.length)) (s.ate (2 + good.length) rest) := by
  have hne : l ≠ 0 := fun hx => by subst hx; simp at hl
  have hk := consumed_add (s := s) (n := 1) (by omega)
  have hq' : s.inq = l :: (good ++ bad :: rest) := hq
  have e1 : readOn .dictLength s = readOn (.dictPath l []) (s.ate 1 (good ++ bad :: rest)) := by
    rw [pump_dict hq' (by omega) rfl, dictByte_length (s := (s.await .dictLength).inByte _) rfl, if_neg hne, readOn,
      State.ate_inq, ← dictNext_await _ .dictLength (s.ate 1 _)]
    rfl
  rw [e1, readOn_path_bad (s := s.ate 1 (good ++ bad :: rest)) hr hg h0 h1 (by simpa using hl) rfl
    (by rw [State.ate_consumed, State.ate_len, hk]; omega), State.ate_ate,
    show 1 + (good.length + 1) = 2 + good.length by omega]
  show State.raise .badToken (s.work.consumed + BitVec.ofNat 64 1 + BitVec.ofNat 64 good.length) _ = _
  rw [BitVec.add_assoc, ← BitVec.ofNat_add]

/-! ## LEN runs out -/

theorem readOn_full {pos : Pos} {s : State} (h : s.work.consumed = s.len) : readOn pos s = s.raise .truncDict s.len := by
  rw [readOn, dictNext_of_eq h, pump_of_not_awaiting (raise_awaiting _ _ _)]

/-- Where `k` bytes are left of LEN: READ_DICT takes them, leaves `rest`, and raises E_TRUNC_DICT. -/
def Truncates (pos : Pos) (k : Nat) (rest : List Byte) (s : State) : Prop :=
  ∃ l, readOn pos s = State.raise .truncDict s.len ((s.putAll l).ate k rest)

theorem Truncates.zero {pos : Pos} {rest : List Byte} {s : State} (hq : s.inq = rest)
    (h : s.work.consumed.toNat = s.len.toNat) : Truncates pos 0 rest s := by
  subst hq
  refine ⟨[], ?_⟩
  rw [readOn_full (BitVec.eq_of_toNat_eq h)]
  congr 1
  exact (State.ate_zero s).symm

/-- After a byte, with `q` behind it. -/
theorem Truncates.succ {pos pos' : Pos} {k : Nat} {q rest : List Byte} {s : State}
    (he : readOn pos s = readOn pos' (s.ate 1 q)) (h : Truncates pos' k rest (s.ate 1 q)) :
    Truncates pos (k + 1) rest s := by
  obtain ⟨l, h⟩ := h
  refine ⟨l, ?_⟩
  rw [he, h, Nat.add_comm k 1]
  exact congrArg (State.raise .truncDict s.len) (State.ate_ate 1 k q rest (s.putAll l))

theorem consumed_ate {k : Nat} {rest : List Byte} {s : State} (h : s.work.consumed.toNat + (k + 1) = s.len.toNat) :
    (s.ate 1 rest).work.consumed.toNat + k = (s.ate 1 rest).len.toNat := by
  rw [State.ate_consumed, State.ate_len, consumed_add (n := 1) (by omega)]
  omega

/-- Inside a path field, whose first `k` bytes are there. -/
theorem readOn_path_trunc (l : Byte) (rest : List Byte) :
    ∀ (field : List Byte) (k : Nat) {got full : Code} {s : State}, s.inq = field.take k ++ rest →
      s.work.consumed.toNat + k = s.len.toNat → k ≤ field.length → readFrom s.params s.dictRaw got field = some full →
      got.length + pathWidth s.dictRaw * (field.length - 1) < l.toNat → Truncates (.dictPath l got) k rest s
  | _, 0, _, _, s, hq, hlen, _, _, _ => Truncates.zero hq hlen
  | [], k + 1, _, _, s, _, _, hk, _, _ => absurd hk (by simp)
  | b :: bs, k + 1, got, full, s, hq, hlen, hk, hread, hl => by
    simp only [readFrom] at hread
    obtain ⟨c, hc, hread⟩ := Option.bind_eq_some_iff.1 hread
    have hq : s.inq = b :: (bs.take k ++ rest) := hq
    have hlen' := consumed_ate (rest := bs.take k ++ rest) hlen
    have hcl := pathByte_length hc
    have hw : (if s.dictRaw = true then 8 else 1) = pathWidth s.dictRaw := rfl
    rw [hw] at hcl
    simp only [List.length_cons, Nat.add_sub_cancel] at hl hk
    by_cases hr : pathRead l c = true
    · simp only [pathRead, decide_eq_true_eq] at hr
      cases bs with
      | nil =>
        obtain rfl : k = 0 := by simpa using hk
        exact Truncates.succ (readOn_path_last hq (by omega) hc (by simpa [pathRead] using hr)) (Truncates.zero rfl hlen')
      | cons b' bs =>
        rw [List.length_cons, Nat.mul_succ] at hl
        omega
    · refine Truncates.succ (readOn_path_more hq (by omega) hc (by simpa using hr))
        (readOn_path_trunc l rest bs k (s := s.ate 1 (bs.take k ++ rest)) rfl hlen' (by omega) hread ?_)
      show c.length + pathWidth s.dictRaw * (bs.length - 1) < l.toNat
      cases bs with
      | nil =>
        simp only [pathRead, decide_eq_true_eq] at hr
        simp
        omega
      | cons b' bs =>
        rw [List.length_cons, Nat.mul_succ] at hl
        simp only [List.length_cons, Nat.add_sub_cancel]
        omega

/-- Inside a record. -/
theorem readOn_record_trunc {r : DictRecord} {rest : List Byte} {k : Nat} {s : State} (hr : r.wf s.params s.dictRaw)
    (hq : s.inq = r.bytes.take k ++ rest) (hlen : s.work.consumed.toNat + k = s.len.toNat) (hk : k < r.bytes.length) :
    Truncates .dictLength k rest s := by
  cases k with
  | zero => exact Truncates.zero hq hlen
  | succ k =>
    obtain ⟨h1, h255, hfl, hread⟩ := hr
    have hbl : r.bytes.length = r.field.length + 2 := by simp [DictRecord.bytes]
    have hlb : (BitVec.ofNat 8 r.code.length).toNat = r.code.length := by
      rw [BitVec.toNat_ofNat, Nat.mod_eq_of_lt (by omega)]
    have hl0 : BitVec.ofNat 8 r.code.length ≠ 0 := fun hc => by
      have : r.code.length = 0 := hlb.symm.trans (congrArg BitVec.toNat hc)
      omega
    have hp2 := (pathBytes_spec s.dictRaw r.code.length).2 (by omega)
    rw [readPath_eq_readFrom _ _ hfl] at hread
    obtain ⟨full, hfull, -⟩ := Option.map_eq_some_iff.1 hread
    have hq' : s.inq = BitVec.ofNat 8 r.code.length :: (r.field.take k ++ rest) := by
      rw [hq, DictRecord.bytes, List.cons_append, List.take_succ_cons, List.take_append_of_le_length (by omega),
        List.cons_append]
    have e1 : readOn .dictLength s =
        readOn (.dictPath (BitVec.ofNat 8 r.code.length) []) (s.ate 1 (r.field.take k ++ rest)) := by
      rw [pump_dict hq' (by omega) rfl, dictByte_length (s := (s.await .dictLength).inByte _) rfl, if_neg hl0, readOn,
        State.ate_inq, ← dictNext_await _ .dictLength (s.ate 1 _)]
      rfl
    refine Truncates.succ e1 (readOn_path_trunc _ rest r.field k (s := s.ate 1 (r.field.take k ++ rest)) rfl
      (consumed_ate hlen) (by omega) hfull ?_)
    show 0 + pathWidth s.dictRaw * (r.field.length - 1) < _
    rw [hlb, hfl]
    omega

/-- Inside a section, whose first `k` bytes are there. -/
theorem readOn_section_trunc (rest : List Byte) :
    ∀ (rs : List DictRecord) (k : Nat) {s : State}, (∀ r ∈ rs, r.wf s.params s.dictRaw) → (rs.map DictRecord.sym).Nodup →
      (∀ r ∈ rs, s.codes.codeOf r.sym = none) → s.inq = (sectionBytes rs).take k ++ rest →
      s.work.consumed.toNat + k = s.len.toNat → k < (sectionBytes rs).length → Truncates .dictLength k rest s
  | [], k, s, _, _, _, hq, hlen, hk => by
    obtain rfl : k = 0 := by simpa [sectionBytes] using hk
    exact Truncates.zero hq hlen
  | r :: rs, k, s, hwf, hnd, hnone, hq, hlen, hk => by
    have hb : sectionBytes (r :: rs) = r.bytes ++ sectionBytes rs := by simp [sectionBytes]
    rw [hb] at hq hk
    by_cases hk' : k < r.bytes.length
    · rw [List.take_append_of_le_length hk'.le] at hq
      exact readOn_record_trunc (hwf r (by simp)) hq hlen hk'
    · obtain ⟨k, rfl⟩ := Nat.exists_eq_add_of_le (Nat.le_of_not_lt hk')
      rw [List.length_append] at hk
      have hq' : s.inq = r.bytes ++ ((sectionBytes rs).take k ++ rest) := by
        rw [hq, List.take_length_add_append, List.append_assoc]
      have hrec := readOn_record (hwf r (by simp)) hq' (by omega) (hnone r (by simp))
      simp only [List.map_cons, List.nodup_cons] at hnd
      have hlen' : ((s.setCode r.sym r.code).ate r.bytes.length ((sectionBytes rs).take k ++ rest)).work.consumed.toNat +
          k = s.len.toNat := by
        show (s.work.consumed + BitVec.ofNat 64 r.bytes.length).toNat + k = _
        rw [consumed_add (by omega)]
        omega
      obtain ⟨l, h⟩ := readOn_section_trunc rest rs k
        (s := (s.setCode r.sym r.code).ate r.bytes.length ((sectionBytes rs).take k ++ rest))
        (fun r' h => hwf r' (by simp [h])) hnd.2 (fun r' h => by
          refine (CodeTable.codeOf_put s.codes r.sym r'.sym r.code).trans ((if_neg fun hx => ?_).trans (hnone r' (by simp [h])))
          exact hnd.1 (hx ▸ List.mem_map_of_mem (f := DictRecord.sym) h)) rfl hlen' (by omega)
      refine ⟨(r.sym, r.code) :: l, ?_⟩
      rw [hrec, h]
      exact congrArg (State.raise .truncDict s.len)
        (State.ate_ate r.bytes.length k ((sectionBytes rs).take k ++ rest) rest (s.putAll ((r.sym, r.code) :: l)))

/-! ## Records before the fault -/

/-- Whole records (R186), in front of what follows. -/
theorem readOn_records (rest : List Byte) :
    ∀ (rs : List DictRecord) {s : State}, (∀ r ∈ rs, r.wf s.params s.dictRaw) → (rs.map DictRecord.sym).Nodup →
      (∀ r ∈ rs, s.codes.codeOf r.sym = none) → s.inq = rs.flatMap DictRecord.bytes ++ rest →
      s.work.consumed.toNat + (rs.flatMap DictRecord.bytes).length ≤ s.len.toNat →
      readOn .dictLength s =
        readOn .dictLength ((s.putAll (dictEntries rs)).ate (rs.flatMap DictRecord.bytes).length rest)
  | [], s, _, _, _, hq, _ => by
    have : (s.putAll (dictEntries [])).ate (([] : List DictRecord).flatMap DictRecord.bytes).length rest = s := by
      have := State.ate_zero s
      rw [hq] at this
      exact this
    rw [this]
  | r :: rs, s, hwf, hnd, hnone, hq, hlen => by
    have hb : (r :: rs).flatMap DictRecord.bytes = r.bytes ++ rs.flatMap DictRecord.bytes := by simp
    rw [hb] at hq hlen ⊢
    rw [List.length_append] at hlen ⊢
    simp only [List.map_cons, List.nodup_cons] at hnd
    have hq' : s.inq = r.bytes ++ (rs.flatMap DictRecord.bytes ++ rest) := by rw [hq, List.append_assoc]
    rw [readOn_record (hwf r (by simp)) hq' (by omega) (hnone r (by simp)),
      readOn_records rest rs (s := (s.setCode r.sym r.code).ate r.bytes.length (rs.flatMap DictRecord.bytes ++ rest))
        (fun r' h => hwf r' (by simp [h])) hnd.2 (fun r' h => by
          refine (CodeTable.codeOf_put s.codes r.sym r'.sym r.code).trans ((if_neg fun hx => ?_).trans (hnone r' (by simp [h])))
          exact hnd.1 (hx ▸ List.mem_map_of_mem (f := DictRecord.sym) h)) rfl (by
            show (s.work.consumed + BitVec.ofNat 64 r.bytes.length).toNat + _ ≤ s.len.toNat
            rw [consumed_add (by omega)]
            omega)]
    exact congrArg (readOn .dictLength)
      (State.ate_ate r.bytes.length _ (rs.flatMap DictRecord.bytes ++ rest) rest (s.putAll (dictEntries (r :: rs))))

/-- A record whose Symbol is there already (R186). -/
theorem readOn_dup {r : DictRecord} {rest : List Byte} {s : State} (hr : r.wf s.params s.dictRaw)
    (hq : s.inq = r.bytes ++ rest) (hlen : s.work.consumed.toNat + r.bytes.length ≤ s.len.toNat)
    (hold : (s.codes.codeOf r.sym).isSome = true) :
    readOn .dictLength s = State.raise .dupSym (r.sym.zeroExtend 64) (s.ate r.bytes.length rest) := by
  obtain ⟨h1, h255, hfl, hread⟩ := hr
  have hbl : r.bytes.length = r.field.length + 2 := by simp [DictRecord.bytes]
  have hlb : (BitVec.ofNat 8 r.code.length).toNat = r.code.length := by
    rw [BitVec.toNat_ofNat, Nat.mod_eq_of_lt (by omega)]
  have hl0 : BitVec.ofNat 8 r.code.length ≠ 0 := fun hc => by
    have : r.code.length = 0 := hlb.symm.trans (congrArg BitVec.toNat hc)
    omega
  obtain ⟨hp1, hp2⟩ := pathBytes_spec s.dictRaw r.code.length
  have hfne : r.field ≠ [] := fun hc => by
    rw [hc] at hfl
    simp only [List.length_nil] at hfl
    rw [← hfl] at hp1
    omega
  rw [readPath_eq_readFrom _ _ hfl] at hread
  obtain ⟨full, hfull, -⟩ := Option.map_eq_some_iff.1 hread
  have hq' : s.inq = BitVec.ofNat 8 r.code.length :: (r.field ++ r.sym :: rest) := by
    rw [hq]; simp [DictRecord.bytes]
  have hk := fun n (hn : n ≤ r.bytes.length) => consumed_add (s := s) (n := n) (by omega)
  have e1 : readOn .dictLength s =
      readOn (.dictPath (BitVec.ofNat 8 r.code.length) []) (s.ate 1 (r.field ++ r.sym :: rest)) := by
    rw [pump_dict hq' (by omega) rfl, dictByte_length (s := (s.await .dictLength).inByte _) rfl, if_neg hl0, readOn,
      State.ate_inq, ← dictNext_await _ .dictLength (s.ate 1 _)]
    rfl
  have e2 := readOn_path (BitVec.ofNat 8 r.code.length) (r.sym :: rest) r.field (got := []) (full := full)
    (s := s.ate 1 (r.field ++ r.sym :: rest)) hfne rfl
    (by rw [State.ate_consumed, State.ate_len, hk 1 (by omega)]; omega) hfull
    (by rw [hlb, hfl, State.ate_dictRaw]; simpa using hp1)
    (by rw [hlb, hfl, State.ate_dictRaw]; simpa using hp2 (by omega))
  have hlt : (s.ate (1 + r.field.length) (r.sym :: rest)).work.consumed.toNat < s.len.toNat := by
    rw [State.ate_consumed, hk _ (by omega)]; omega
  have e3 : ∀ u : State, u = (s.ate (1 + r.field.length) (r.sym :: rest)).await (.dictSymbol (full.take
      (BitVec.ofNat 8 r.code.length).toNat)) → dictByte r.sym (u.inByte rest) =
        State.raise .dupSym (r.sym.zeroExtend 64) (s.ate r.bytes.length rest) := by
    rintro u rfl
    refine (dictByte_symbol (c := full.take (BitVec.ofNat 8 r.code.length).toNat) rfl).trans ((if_pos hold).trans ?_)
    rw [hbl, show r.field.length + 2 = 1 + r.field.length + 1 by omega,
      ← State.ate_ate (1 + r.field.length) 1 (r.sym :: rest) rest s]
    rfl
  rw [e1, e2, State.ate_ate, pump_dict (b := r.sym) (rest := rest) rfl hlt rfl, e3 _ rfl,
    pump_of_not_awaiting (raise_awaiting _ _ _)]

end Sys2Proof.Machine
end

