-- ==== Sys2Proof/Laws/PerInstr.lean ====
section
/-!
SUPPORT. One lemma per command about its word: it selects exactly its own row of spec/opcode_table.json (R94).
-/

namespace Sys2Proof.Laws.TableRow

open Sys2Proof

/-- The word of a command selects one row of the table, the command's own: "At most one row matches, because the opcodes
differ" (R94). -/
def Statement (i : Instr) : Prop :=
  (opcodeTable.filter fun r => r.selects (Sys2Proof.encode i)).map OpcodeRow.mnemonic = [i.mnemonic]


theorem clear : Statement .clear := by
  rw [Statement, opcodeTable_eq]
  simp only [List.filter_cons, selects_iff, and_ones8, and_ones64, BitVec.and_zero, List.filter_nil, opOf_encode,
    argOf_encode]
  simp [Instr.opcode, Instr.operand, Instr.mnemonic]

theorem setCfg (v : Word64) : Statement (.setCfg v) := by
  rw [Statement, opcodeTable_eq]
  simp only [List.filter_cons, selects_iff, and_ones8, and_ones64, BitVec.and_zero, List.filter_nil, opOf_encode]
  simp [Instr.opcode, Instr.mnemonic]

theorem count (n : Nat) : Statement (.count n) := by
  rw [Statement, opcodeTable_eq]
  simp only [List.filter_cons, selects_iff, and_ones8, and_ones64, BitVec.and_zero, List.filter_nil, opOf_encode]
  simp [Instr.opcode, Instr.mnemonic]

theorem merge : Statement .merge := by
  rw [Statement, opcodeTable_eq]
  simp only [List.filter_cons, selects_iff, and_ones8, and_ones64, BitVec.and_zero, List.filter_nil, opOf_encode,
    argOf_encode]
  simp [Instr.opcode, Instr.operand, Instr.mnemonic]

theorem getCodes : Statement .getCodes := by
  rw [Statement, opcodeTable_eq]
  simp only [List.filter_cons, selects_iff, and_ones8, and_ones64, BitVec.and_zero, List.filter_nil, opOf_encode,
    argOf_encode]
  simp [Instr.opcode, Instr.operand, Instr.mnemonic]

theorem buildDecoder : Statement .buildDecoder := by
  rw [Statement, opcodeTable_eq]
  simp only [List.filter_cons, selects_iff, and_ones8, and_ones64, BitVec.and_zero, List.filter_nil, opOf_encode,
    argOf_encode]
  simp [Instr.opcode, Instr.operand, Instr.mnemonic]

theorem resolve : Statement .resolve := by
  rw [Statement, opcodeTable_eq]
  simp only [List.filter_cons, selects_iff, and_ones8, and_ones64, BitVec.and_zero, List.filter_nil, opOf_encode,
    argOf_encode]
  simp [Instr.opcode, Instr.operand, Instr.mnemonic]

theorem writeDict : Statement .writeDict := by
  rw [Statement, opcodeTable_eq]
  simp only [List.filter_cons, selects_iff, and_ones8, and_ones64, BitVec.and_zero, List.filter_nil, opOf_encode,
    argOf_encode]
  simp [Instr.opcode, Instr.operand, Instr.mnemonic]

theorem readDict (n : Nat) : Statement (.readDict n) := by
  rw [Statement, opcodeTable_eq]
  simp only [List.filter_cons, selects_iff, and_ones8, and_ones64, BitVec.and_zero, List.filter_nil, opOf_encode]
  simp [Instr.opcode, Instr.mnemonic]

theorem encode (n : Nat) : Statement (.encode n) := by
  rw [Statement, opcodeTable_eq]
  simp only [List.filter_cons, selects_iff, and_ones8, and_ones64, BitVec.and_zero, List.filter_nil, opOf_encode]
  simp [Instr.opcode, Instr.mnemonic]

theorem decode (n : Nat) : Statement (.decode n) := by
  rw [Statement, opcodeTable_eq]
  simp only [List.filter_cons, selects_iff, and_ones8, and_ones64, BitVec.and_zero, List.filter_nil, opOf_encode]
  simp [Instr.opcode, Instr.mnemonic]

end Sys2Proof.Laws.TableRow
end

