-- ==== Sys2Proof/Laws/Run.lean ====
section
/-!
SUPPORT. Runs (R14): several steps, what a step hands to the host, and that a run which has ended stands still.
-/

namespace Sys2Proof.Machine

open Sys2Proof Sys2Proof.Config

@[simp] theorem State.hosting_script (s : State) (acts : List HostAct) : (s.hosting acts).script = acts := rfl
@[simp] theorem State.hosting_phase (s : State) (acts : List HostAct) : (s.hosting acts).phase = s.phase := rfl
@[simp] theorem State.hosting_outq (s : State) (acts : List HostAct) : (s.hosting acts).outq = s.outq := rfl
@[simp] theorem State.hosting_received (s : State) (acts : List HostAct) : (s.hosting acts).received = s.received := rfl

/-! ### `runStart` is the reset state with a host, and counters of the run's own -/

@[simp] theorem runStart_script (acts : List HostAct) (c d : Nat) : (runStart acts c d).script = acts := rfl
@[simp] theorem runStart_phase (acts : List HostAct) (c d : Nat) : (runStart acts c d).phase = .idle := rfl
@[simp] theorem runStart_inq (acts : List HostAct) (c d : Nat) : (runStart acts c d).inq = [] := rfl
@[simp] theorem runStart_yield (acts : List HostAct) (c d : Nat) : (runStart acts c d).yield = [] := rfl
@[simp] theorem runStart_ties (acts : List HostAct) (c d : Nat) : (runStart acts c d).ties = c := rfl
@[simp] theorem runStart_draws (acts : List HostAct) (c d : Nat) : (runStart acts c d).draws = d := rfl
@[simp] theorem runStart_params (acts : List HostAct) (c d : Nat) : (runStart acts c d).params = Config.params := rfl

/-! ## Several steps -/

theorem thenDo_next {o : Host.Outcome State Fault Refusal} {k : State → Host.Outcome State Fault Refusal} {t : State} :
    thenDo o k = .next t ↔ ∃ s, o = .next s ∧ k s = .next t := by
  cases o <;> simp [thenDo]

theorem runSteps_succ {n : Nat} {s t : State} :
    runSteps (n + 1) s = .next t ↔ ∃ u, step s = .next u ∧ runSteps n u = .next t := thenDo_next

theorem runSteps_add (n m : Nat) {s t : State} :
    runSteps (n + m) s = .next t ↔ ∃ u, runSteps n s = .next u ∧ runSteps m u = .next t := by
  induction n generalizing s with
  | zero => simp [runSteps]
  | succ n ih =>
    rw [Nat.add_right_comm, runSteps_succ]
    constructor
    · rintro ⟨u, h1, h2⟩
      obtain ⟨v, h3, h4⟩ := ih.1 h2
      exact ⟨v, runSteps_succ.2 ⟨u, h1, h3⟩, h4⟩
    · rintro ⟨v, h1, h2⟩
      obtain ⟨u, h3, h4⟩ := runSteps_succ.1 h1
      exact ⟨u, h3, ih.2 ⟨v, h4, h2⟩⟩

/-- What each step keeps, several steps keep. -/
theorem runSteps_induct {P : State → Prop} (hP : ∀ s t, P s → step s = .next t → P t) :
    ∀ (n : Nat) {s t : State}, P s → runSteps n s = .next t → P t
  | 0, _, _, h, e => Host.Outcome.next.inj e ▸ h
  | n + 1, _, _, h, e => by
    obtain ⟨u, h1, h2⟩ := runSteps_succ.1 e
    exact runSteps_induct hP n (hP _ _ h h1) h2

/-! ## What the host has received -/

theorem frameOf_received {i : Instr} {s t : State} (h : frameOf i t = frameOf i s) : t.received = s.received := by
  have := congrArg State.received h
  cases i <;> exact this

theorem frameOf_script {i : Instr} {s t : State} (h : frameOf i t = frameOf i s) : t.script = s.script := by
  have := congrArg State.script h
  cases i <;> exact this

theorem afterByte_emits (pos : Pos) (b : Byte) {s : State} (h : s.phase.isBusy = true) : Emits s (afterByte pos b s) := by
  cases pos with
  | running => exact Emits.refl h
  | counting => exact countByte_emits b s
  | dictLength => exact dictByte_emits b s h
  | dictPath => exact dictByte_emits b s h
  | dictSymbol => exact dictByte_emits b s h
  | lookupLength => exact lookupByte_emits b s h
  | lookupPath => exact lookupByte_emits b s h
  | encoding => exact encodeByte_emits b s h
  | decoding => exact decodeByte_emits b s h
  | chunkTrail => exact decodeByte_emits b s h
  | chunkPayload => exact decodeByte_emits b s h

theorem afterByte_received (pos : Pos) (b : Byte) (s : State) : (afterByte pos b s).received = s.received := by
  cases pos with
  | running => rfl
  | counting => exact frameOf_received (countByte_frame 0 b s)
  | dictLength => exact frameOf_received (dictByte_frame 0 b s)
  | dictPath => exact frameOf_received (dictByte_frame 0 b s)
  | dictSymbol => exact frameOf_received (dictByte_frame 0 b s)
  | lookupLength => exact frameOf_received (lookupByte_frame b s)
  | lookupPath => exact frameOf_received (lookupByte_frame b s)
  | encoding => exact frameOf_received (encodeByte_frame 0 b s)
  | decoding => exact frameOf_received (decodeByte_frame 0 b s)
  | chunkTrail => exact frameOf_received (decodeByte_frame 0 b s)
  | chunkPayload => exact frameOf_received (decodeByte_frame 0 b s)

/-- Going on with a command appends to OUTQ and hands nothing to the host. -/
theorem resume_yields (s : State) : (resume s).received = s.received ∧ ∃ out, (resume s).outq = s.outq ++ out := by
  unfold resume
  split
  · rename_i pos hp
    obtain ⟨-, out, -, h, -⟩ := pump_flows (f := afterByte pos) (fun b s h => afterByte_emits pos b h) (s := s) rfl
      (.inl (by rw [hp]; rfl))
    exact ⟨pump_frame (m := State.received) (afterByte_received pos) (fun _ _ => rfl) s.inq s, out, h⟩
  · exact ⟨rfl, [], by simp⟩

/-- So does a command. -/
theorem exec_yields {i : Instr} {s t : State} (h : exec i s = .next t) :
    t.received = s.received ∧ ∃ out, t.outq = s.outq ++ out := by
  by_cases hi : i = .clear
  · subst hi
    simp only [exec, execClear] at h
    split at h <;> obtain rfl := Host.Outcome.next.inj h <;> exact ⟨rfl, [], (List.append_nil _).symm⟩
  · rcases exec_next hi h with ⟨-, h1⟩ | ⟨-, -, h1⟩ | ⟨hp, -, hb⟩
    · subst h1; exact ⟨rfl, [], (List.append_nil _).symm⟩
    · subst h1; exact ⟨rfl, [], (List.append_nil _).symm⟩
    · obtain ⟨-, out, -, h2, -⟩ := bodyOf_flows hi rfl hb
      exact ⟨frameOf_received (s := s.begin (encode i)) (exec_frame hi hp h), out, h2⟩

/-! ## The end of a run -/

theorem coreMoves_of_not_busy {s : State} (h : s.phase.isBusy = false) : s.coreMoves = false := by
  cases hc : s.coreMoves
  · rfl
  · unfold State.coreMoves at hc
    rw [Bool.and_eq_true] at hc
    rw [State.isBusy_of_awaiting hc.1] at h
    cases h

/-- A run that has ended stands still: nothing that its host can still do changes what it yields. -/
theorem RunEnded.step {s t : State} (h : s.RunEnded) (hr : HostAct.reset ∉ s.script) (e : step s = .next t) :
    t.RunEnded ∧ HostAct.reset ∉ t.script ∧ t.phase = s.phase ∧ t.yield = s.yield ∧
      ∀ r, t.statusPort r = s.statusPort r := by
  obtain ⟨hb, hc⟩ := h
  rw [Machine.step, coreMoves_of_not_busy hb] at e
  simp only [Bool.false_eq_true, if_false, hostStep] at e
  split at e
  · obtain rfl := Host.Outcome.next.inj e
    exact ⟨⟨hb, hc⟩, hr, rfl, rfl, fun _ => rfl⟩
  · rename_i w rest hs
    exact absurd (hs ▸ List.mem_cons_self) (hc w)
  · rename_i b rest hs
    rw [hs] at hc hr
    obtain rfl := Host.Outcome.next.inj e
    exact ⟨⟨hb, fun w hw => hc w (List.mem_cons_of_mem _ hw)⟩, fun hw => hr (List.mem_cons_of_mem _ hw), rfl, rfl,
      fun _ => rfl⟩
  · rename_i rest hs
    split at e
    · obtain rfl := Host.Outcome.next.inj e
      exact ⟨⟨hb, hc⟩, hr, rfl, rfl, fun _ => rfl⟩
    · rw [hs] at hc hr
      obtain rfl := Host.Outcome.next.inj e
      refine ⟨⟨hb, fun w hw => hc w (List.mem_cons_of_mem _ hw)⟩, fun hw => hr (List.mem_cons_of_mem _ hw), rfl, ?_,
        fun _ => rfl⟩
      show (s.received ++ s.outq.take 1) ++ s.outq.drop 1 = s.received ++ s.outq
      rw [List.append_assoc, List.take_append_drop]
  · rename_i r rest hs
    rw [hs] at hc hr
    obtain rfl := Host.Outcome.next.inj e
    exact ⟨⟨hb, fun w hw => hc w (List.mem_cons_of_mem _ hw)⟩, fun hw => hr (List.mem_cons_of_mem _ hw), rfl, rfl,
      fun _ => rfl⟩
  · rename_i rest hs
    exact absurd (hs ▸ List.mem_cons_self) hr

end Sys2Proof.Machine
end

