-- ==== Sys2Proof/Laws/Within.lean ====
section
/-!
SUPPORT. A command takes no byte beyond its LEN, and COUNT, ENCODE and DECODE end without a fault only when they have
taken all of it (R92).
-/

namespace Sys2Proof.Machine

open Sys2Proof Sys2Proof.Config

/-- The opcode of the command that awaits a byte at a position. -/
def Pos.owner : Pos → Byte
  | .running => 0
  | .counting => 0x10
  | .dictLength | .dictPath _ _ | .dictSymbol _ => 0x31
  | .lookupLength | .lookupPath _ => 0x21
  | .encoding _ => 0x32
  | .decoding | .chunkTrail | .chunkPayload _ _ => 0x33

/-- How many more bytes the command is sure to take at a position. -/
def Pos.least : Pos → Nat
  | .chunkPayload m _ => m
  | _ => 1

/-- The bytes taken are within LEN, with those the command is sure to take, at an `InByte` of the command `op`; all of
LEN is taken where it ended without a fault and `full`. -/
def Within (op : Byte) (full : Prop) (s : State) : Prop :=
  match s.phase with
  | .busy pos => pos.owner = op ∧ 1 ≤ pos.least ∧ s.work.consumed.toNat + pos.least ≤ s.len.toNat
  | .idle => s.work.consumed.toNat ≤ s.len.toNat ∧ (full → s.work.consumed.toNat = s.len.toNat)
  | _ => s.work.consumed.toNat ≤ s.len.toNat

variable {op : Byte} {full : Prop}

theorem Within.raise {s : State} (h : s.work.consumed.toNat ≤ s.len.toNat) {e : Err} (i : Word64) :
    Within op full (s.raise e i) := by cases e <;> exact h

theorem Within.complete {s : State} (h : s.work.consumed.toNat ≤ s.len.toNat)
    (hf : full → s.work.consumed.toNat = s.len.toNat) : Within op full s.complete := ⟨h, hf⟩

theorem Within.await {pos : Pos} {s : State} (hp : pos.owner = op) (h1 : 1 ≤ pos.least)
    (h : s.work.consumed.toNat + pos.least ≤ s.len.toNat) : Within op full (s.await pos) := ⟨hp, h1, h⟩

theorem lt_of_le_of_ne_len {s : State} (h : s.work.consumed.toNat ≤ s.len.toNat) (hn : s.work.consumed ≠ s.len) :
    s.work.consumed.toNat < s.len.toNat :=
  Nat.lt_of_le_of_ne h fun hc => hn (BitVec.eq_of_toNat_eq hc)

/-- With a byte it awaits, the command is still within LEN. -/
theorem Within.inByte {s : State} (h : Within op full s) (hw : s.awaiting = true) (rest : List Byte) :
    (s.inByte rest).work.consumed.toNat = s.work.consumed.toNat + 1 ∧
      (s.inByte rest).work.consumed.toNat ≤ (s.inByte rest).len.toNat ∧
      ∃ pos, s.phase = .busy pos ∧ pos.owner = op ∧
        (s.inByte rest).work.consumed.toNat + (pos.least - 1) ≤ (s.inByte rest).len.toNat := by
  obtain ⟨pos, hp⟩ := State.awaiting_busy hw
  unfold Within at h
  rw [hp] at h
  obtain ⟨ho, h1, h2⟩ := h
  have h3 := consumed_succ (s := s) (n := 0) (by omega)
  have h4 : (s.inByte rest).work.consumed.toNat = s.work.consumed.toNat + 1 := h3
  have h5 : (s.inByte rest).len = s.len := rfl
  rw [h4, h5]
  exact ⟨rfl, by omega, pos, hp, ho, by omega⟩

theorem countLoop_within {s : State} (h : s.work.consumed.toNat ≤ s.len.toNat) : Within 0x10 full (countLoop s) := by
  by_cases hc : s.work.consumed = s.len
  · rw [countLoop_of_eq hc]
    exact ⟨h, fun _ => congrArg BitVec.toNat hc⟩
  · rw [countLoop_of_ne hc]
    exact Within.await rfl (Nat.le_refl _) (lt_of_le_of_ne_len h hc)

theorem dictNext_within {pos : Pos} {s : State} (h : s.work.consumed.toNat ≤ s.len.toNat) (hp : pos.owner = op)
    (h1 : pos.least = 1) : Within op full (dictNext pos s) := by
  unfold dictNext
  split
  · exact Within.raise h _
  · rename_i hc
    have := lt_of_le_of_ne_len h hc
    exact Within.await hp (by omega) (by omega)

theorem dictByte_within {b : Byte} {rest : List Byte} {s : State} (h : Within 0x31 False s) (hw : s.awaiting = true) :
    Within 0x31 False (dictByte b (s.inByte rest)) := by
  obtain ⟨-, h, pos, hp, ho, -⟩ := h.inByte hw rest
  have hp : (s.inByte rest).phase = .busy pos := hp
  generalize s.inByte rest = u at h hp
  cases pos with
  | dictLength =>
    rw [dictByte_length hp]
    split
    · exact Within.complete (s := { u with codes := _ }) h False.elim
    · exact dictNext_within h rfl rfl
  | dictPath l got =>
    cases hb : pathByte u.params u.dictRaw got b with
    | none =>
      rw [dictByte_path_bad hp hb]
      exact Within.raise h _
    | some c =>
      rw [dictByte_path hp hb]
      split <;> exact dictNext_within h rfl rfl
  | dictSymbol c =>
    rw [dictByte_symbol hp]
    split
    · exact Within.raise h _
    · exact dictNext_within (s := u.setCode b c) h rfl rfl
  | _ => exact absurd ho (by simp [Pos.owner])

theorem encodeLoop_within {t : Nat} {s : State} (h : s.work.consumed.toNat ≤ s.len.toNat) :
    Within 0x32 full (encodeLoop t s) := by
  unfold encodeLoop encodeEndChunked encodeEndSimple
  split
  · rename_i hc
    have hc' := congrArg BitVec.toNat hc
    split <;> split <;> exact ⟨h, fun _ => hc'⟩
  · rename_i hc
    exact Within.await rfl (Nat.le_refl _) (lt_of_le_of_ne_len (s := s) h hc)

theorem encodeByte_within {b : Byte} {rest : List Byte} {s : State} (h : Within 0x32 full s) (hw : s.awaiting = true) :
    Within 0x32 full (encodeByte b (s.inByte rest)) := by
  obtain ⟨-, h, pos, hp, ho, -⟩ := h.inByte hw rest
  have hp : (s.inByte rest).phase = .busy pos := hp
  generalize s.inByte rest = u at h hp
  cases pos with
  | encoding t =>
    cases hc : u.codes.codeOf b with
    | none =>
      rw [encodeByte_none hp hc]
      exact Within.raise h _
    | some c =>
      rw [encodeByte_some hp hc]
      unfold encodeCode
      split
      · split
        · exact encodeLoop_within (s := (u.closeChunk u.params.chunkBytes).addChunk c) h
        · exact encodeLoop_within (s := u.addChunk c) h
      · exact encodeLoop_within (s := (u.setAcc (u.work.acc ++ c)).flush8) h
  | _ => exact absurd ho (by simp [Pos.owner])

theorem decodeFinish_within {k : State → State} {s : State} (hb : s.phase.isBusy = true)
    (h : s.work.consumed.toNat ≤ s.len.toNat) (hk : ∀ c, Within op full (k (s.setCand c))) :
    Within op full ((decodeFinish s).unlessEnded k) := by
  obtain ⟨c, hc⟩ := decodeFinish_eq k s hb
  rw [hc]
  unfold State.endedBy
  split
  · exact hk c
  · exact Within.raise (s := s.setCand c) h _

theorem decodeLoop_within {s : State} (hb : s.phase.isBusy = true) (h : s.work.consumed.toNat ≤ s.len.toNat) :
    Within 0x33 full (decodeLoop s) := by
  unfold decodeLoop
  split
  · rename_i hc
    exact decodeFinish_within hb h fun c => ⟨h, fun _ => congrArg BitVec.toNat hc⟩
  · rename_i hc
    exact Within.await rfl (Nat.le_refl _) (lt_of_le_of_ne_len (s := s) h hc)

theorem chunkLoop_within {s : State} (h : s.work.consumed.toNat ≤ s.len.toNat) : Within 0x33 full (chunkLoop s) := by
  unfold chunkLoop
  split
  · rename_i hc
    exact ⟨h, fun _ => congrArg BitVec.toNat hc⟩
  · rename_i hc
    exact Within.await rfl (Nat.le_refl _) (lt_of_le_of_ne_len (s := s) h hc)

theorem payloadLoop_within {m k : Nat} {s : State} (hb : s.phase.isBusy = true)
    (h : s.work.consumed.toNat + m ≤ s.len.toNat) : Within 0x33 full (payloadLoop m k s) := by
  unfold payloadLoop
  split
  · have hle : s.work.consumed.toNat ≤ s.len.toNat := by omega
    exact decodeFinish_within hb hle fun c => chunkLoop_within (s := s.setCand c) hle
  · exact Within.await rfl (by show 1 ≤ m; omega) h

theorem decodeBits_within {k : State → State} {g : Code} {s : State} (hb : s.phase.isBusy = true)
    (h : s.work.consumed.toNat ≤ s.len.toNat) (hk : ∀ out c i, Within op full (k (s.decoded out 0 s.inq c i))) :
    Within op full ((decodeBits g s).unlessEnded k) := by
  obtain ⟨idx, hbits⟩ := decodeBits_eq g s hb
  rw [hbits]
  cases hf : (steps s.dec s.strict s.work.cand g).fault with
  | none =>
    simp only
    rw [unlessEnded_busy (by exact hb)]
    exact hk _ _ _
  | some f =>
    simp only [unlessEnded_raise]
    refine Within.raise (s := s.decoded _ 0 s.inq _ _) ?_ _
    show (s.work.consumed + BitVec.ofNat 64 0).toNat ≤ s.len.toNat
    rw [BitVec.add_zero]
    exact h

theorem decodeByte_within {b : Byte} {rest : List Byte} {s : State} (h : Within 0x33 full s) (hw : s.awaiting = true) :
    Within 0x33 full (decodeByte b (s.inByte rest)) := by
  obtain ⟨-, h2, pos, hp, ho, h3⟩ := h.inByte hw rest
  have hbusy : (s.inByte rest).phase.isBusy = true := State.awaiting_isBusy hw
  have hp : (s.inByte rest).phase = .busy pos := hp
  generalize s.inByte rest = u at h2 hp h3 hbusy
  have hsame : ∀ out c i, (u.decoded out 0 u.inq c i).work.consumed = u.work.consumed := fun out c i => by
    show u.work.consumed + BitVec.ofNat 64 0 = _
    rw [BitVec.add_zero]
  cases pos with
  | decoding =>
    rw [decodeByte_simple hp]
    exact decodeBits_within hbusy h2 fun out c i => decodeLoop_within hbusy (by rw [hsame]; exact h2)
  | chunkTrail =>
    rw [decodeByte_trail hp]
    split
    · exact Within.raise h2 _
    · refine payloadLoop_within (s := u.setCand []) hbusy ?_
      show u.work.consumed.toNat + min u.params.chunkBytes u.remaining ≤ u.len.toNat
      unfold State.remaining
      omega
  | chunkPayload m k =>
    rw [decodeByte_payload hp]
    exact decodeBits_within hbusy h2 fun out c i => payloadLoop_within hbusy (by rw [hsame]; exact h3)
  | _ => exact absurd ho (by simp [Pos.owner])

/-- Going on keeps it, from a state `s` whose INQ has the bytes `x` less than that of `s₀`, `x` being the bytes taken. -/
theorem pump_within {f : Byte → State → State} (hf : InqFree f) (hc : ∀ b s, s.phase.isBusy = true → Emits s (f b s))
    (hround : ∀ b rest s, Within op full s → s.awaiting = true → Within op full (f b (State.inByte rest s)))
    {s : State} (h : Within op full s) (h0 : s.work.consumed = 0) :
    Within op full (pump f s.inq s) ∧
      ∃ x, s.inq = x ++ (pump f s.inq s).inq ∧ (pump f s.inq s).work.consumed.toNat = x.length := by
  refine pump_keeps (P := fun u => Within op full u ∧ ∃ x, s.inq = x ++ u.inq ∧ u.work.consumed.toNat = x.length) hf ?_ rfl
    ⟨h, [], rfl, by rw [h0]; rfl⟩
  rintro b rest u hw hq ⟨hu, x, hx, hl⟩
  refine ⟨hround b rest u hu hw, x ++ [b], ?_, ?_⟩
  · rw [hf.inq, hx, hq]; simp
  · rw [(hc b (u.inByte rest) (State.awaiting_isBusy (s := u) hw)).consumed, (hu.inByte hw rest).1, hl]; simp

/-- What is true of a state `t` in which a command leaves a state `s`: `Within`, and the bytes `x` are taken. -/
def Took (op : Byte) (full : Prop) (s t : State) : Prop :=
  Within op full t ∧ ∃ x, s.inq = x ++ t.inq ∧ t.work.consumed.toNat = x.length

theorem Took.of_start {f : Byte → State → State} (hf : InqFree f) (hc : ∀ b s, s.phase.isBusy = true → Emits s (f b s))
    (hround : ∀ b rest s, Within op full s → s.awaiting = true → Within op full (f b (State.inByte rest s)))
    {s u : State} (hq : u.inq = s.inq) (h : Within op full u) (h0 : u.work.consumed = 0) :
    Took op full s (pump f s.inq u) := by
  have := pump_within hf hc hround h h0
  rw [hq] at this
  exact this

theorem count_took {s : State} (h0 : s.work.consumed = 0) : Took 0x10 True s (pump countByte s.inq (countStart s)) := by
  refine Took.of_start inqFree_count (fun b s _ => countByte_emits b s) (fun b rest s h hw => ?_) (countStart_inq s)
    (countLoop_within (s := { s with freqs := _ }) ?_) ?_
  · exact countLoop_within (s := { s.inByte rest with freqs := _ }) (h.inByte hw rest).2.1
  · show s.work.consumed.toNat ≤ _
    rw [h0]
    exact Nat.zero_le _
  · exact (countLoop_emits { s with freqs := { valid := false, freq := [], total := 0 } }).consumed.trans h0

theorem dict_took {s : State} (h0 : s.work.consumed = 0) : Took 0x31 False s (pump dictByte s.inq (dictStart s)) := by
  refine Took.of_start inqFree_dict dictByte_emits (fun b rest s h hw => dictByte_within h hw) (dictStart_inq s)
    (dictNext_within (s := codesStart s) ?_ rfl rfl) ?_
  · show s.work.consumed.toNat ≤ _
    rw [h0]
    exact Nat.zero_le _
  · exact (dictNext_emits _ (codesStart s)).consumed.trans h0

theorem encode_took {s : State} (hb : s.phase.isBusy = true) (h0 : s.work.consumed = 0) :
    Took 0x32 True s (pump encodeByte s.inq (encodeStart s)) := by
  refine Took.of_start inqFree_encode encodeByte_emits (fun b rest s h hw => encodeByte_within h hw) (encodeStart_inq s)
    (encodeLoop_within (s := (s.setAcc []).setChunk []) ?_) ?_
  · show s.work.consumed.toNat ≤ _
    rw [h0]
    exact Nat.zero_le _
  · exact (encodeLoop_emits 0 (s := (s.setAcc []).setChunk []) hb).consumed.trans h0

theorem decode_took {s : State} (hb : s.phase.isBusy = true) (h0 : s.work.consumed = 0) :
    Took 0x33 True s (pump decodeByte s.inq (decodeStart s)) := by
  have hle : (s.setCand []).work.consumed.toNat ≤ (s.setCand []).len.toNat := by
    show s.work.consumed.toNat ≤ _
    rw [h0]
    exact Nat.zero_le _
  refine Took.of_start inqFree_decode decodeByte_emits (fun b rest s h hw => decodeByte_within h hw) (decodeStart_inq s) ?_ ?_
  · unfold decodeStart
    split
    · exact chunkLoop_within hle
    · exact decodeLoop_within hb hle
  · unfold decodeStart
    split
    · exact (chunkLoop_emits (s.setCand [])).consumed.trans h0
    · exact (decodeLoop_emits (s := s.setCand []) hb).consumed.trans h0

/-- CONSUMED of a command that ended. -/
theorem bodyOf_consumed {i : Instr} {s t : State} (hi : i ≠ .clear) (hb : s.phase.isBusy = true) (h : bodyOf i s = .next t)
    (ha : t.awaiting = false) : t.consumedReg = t.work.consumed := by
  obtain ⟨_, _, _, _, _, _, h5⟩ := bodyOf_flows hi hb h
  rcases h5 with h5 | h5
  · rw [(bodyOf_stands hi h).ended ha] at h5
    cases h5
  · exact h5.1

end Sys2Proof.Machine
end

