-- ==== Sys2Proof/Tests/Slice0.lean ====
section
/-!
SUPPORT. Tests on fixed values, their results taken from the spec's encodings (R93) and its vectors V1 to V65
(95_test_vectors.md), and for every obligation with hypotheses a state and operands that meet them. A vector whose bytes
depend on a pad draw is tested on what does not depend on it.
-/

namespace Sys2Proof.Tests

open Sys2Proof Sys2Proof.Config Sys2Proof.Machine

-- Each `decide +kernel` waits for the kernel: one after another, they need no thread each.
set_option Elab.async false

/-! ## States to test on -/

/-- The parameters of the spec's vectors. -/
def params : Params := { bitOrder := .msbFirst, token0 := 0x00, token1 := 0x01, chunkBytes := 32 }

/-- The reset state with them. -/
def base : State := { State.reset with params := params }

/-- Bytes from numbers. -/
def bytes (l : List Nat) : List Byte := l.map (BitVec.ofNat 8)

/-- The input "X15". -/
def x15 : List Byte := bytes [97, 98, 98, 99, 99, 99, 99, 100, 100, 100, 100, 100, 100, 100, 100]

/-- FREQ and TOTAL of V1. -/
def freq15 : FreqTable := { valid := true, freq := [(0x61, 1), (0x62, 2), (0x63, 4), (0x64, 8)], total := 15 }

/-- NODE, NNODES and ROOT of V5. -/
def tree15 : TreeArena where
  valid := true
  node := [.leaf 0x61 1, .leaf 0x62 2, .leaf 0x63 4, .leaf 0x64 8, .branch 3 0 1, .branch 7 4 2, .branch 15 5 3]
  nnodes := 7
  root := 6

/-- The tree of V5, as a tree. -/
def htree15 : HTree :=
  .branch 6 15 (.branch 5 7 (.branch 4 3 (.leaf 0 0x61 1) (.leaf 1 0x62 2)) (.leaf 2 0x63 4)) (.leaf 3 0x64 8)

/-- The table "abcd" (V15). -/
def abcd : CodeTable where
  valid := true
  code := [(0x61, [false, false, false]), (0x62, [false, false, true]), (0x63, [false, true]), (0x64, [true])]
  nsym := 4
  maxlen := 3

/-- The table with the one code a = 0 (V16). -/
def single : CodeTable := { valid := true, code := [(0x61, [false])], nsym := 1, maxlen := 1 }

/-- Two Symbols with the code 0 (V25). -/
def doubled : CodeTable := { valid := true, code := [(0x41, [false]), (0x42, [false])], nsym := 2, maxlen := 1 }

/-- The decoder of V20. -/
def decAbcd : Decoder where
  valid := true
  arr := { fill := 0, cells := [(2, 0x64), (4, 0x63), (7, 0x61), (8, 0x62)] }
  ovf := []
  depth := 3
  sentinel := 0
  novf := 0
  maxlen := 3

/-- The decoder of V22: A = `0` in the array, B = `1` and nineteen `0` in the overflow mapping. -/
def decLong : Decoder where
  valid := true
  arr := { fill := 0, cells := [(1, 0x41)] }
  ovf := [{ code := true :: List.replicate 19 false, sym := 0x42 }]
  depth := 13
  sentinel := 0
  novf := 1
  maxlen := 20

/-- The codes of "abcd" and their decoder, with bytes in INQ and a value of CFG. -/
def coder (cfg : BitVec 6) (inq : List Nat) : State :=
  { base with cfg := cfg, codes := abcd, dec := decAbcd, inq := bytes inq }

/-- The state after a command (and the state before, if the model stopped). -/
def after (i : Instr) (s : State) : State :=
  match exec i s with
  | .next t => t
  | _ => s

/-- The state after a step. -/
def stepped (s : State) : State :=
  match step s with
  | .next t => t
  | _ => s

/-- ERRCODE, ERRINFO, CONSUMED, PRODUCED. -/
def ending (s : State) : Nat × Nat × Nat × Nat :=
  (s.errcode.toNat, s.errinfo.toNat, s.consumedReg.toNat, s.producedReg.toNat)

/-! ## WellFormed refuses a LEN that does not fit -/

theorem test_wf_count : ¬ WellFormed (.count (2 ^ 64)) ∧ WellFormed (.count (2 ^ 64 - 1)) := by decide
theorem test_wf_readDict : ¬ WellFormed (.readDict (2 ^ 64)) ∧ WellFormed (.readDict 0) := by decide
theorem test_wf_encode : ¬ WellFormed (.encode (2 ^ 64)) ∧ WellFormed (.encode 15) := by decide
theorem test_wf_decode : ¬ WellFormed (.decode (2 ^ 64 + 5)) ∧ WellFormed (.decode 5) := by decide

/-! ## The decoder on words written out from R90 to R93 -/

theorem test_word_clear : decodeTableWord 72 0x010000000000000000 = some .clear := by decide
theorem test_word_setCfg : decodeTableWord 72 0x020000000000000038 = some (.setCfg 0x38) := by decide
theorem test_word_count : decodeTableWord 72 0x10000000000000000F = some (.count 15) := by decide
theorem test_word_merge : decodeTableWord 72 0x110000000000000000 = some .merge := by decide
theorem test_word_getCodes : decodeTableWord 72 0x120000000000000000 = some .getCodes := by decide
theorem test_word_buildDecoder : decodeTableWord 72 0x200000000000000000 = some .buildDecoder := by decide
theorem test_word_resolve : decodeTableWord 72 0x210000000000000000 = some .resolve := by decide
theorem test_word_writeDict : decodeTableWord 72 0x300000000000000000 = some .writeDict := by decide
theorem test_word_readDict : decodeTableWord 72 0x310000000000000016 = some (.readDict 22) := by decide
theorem test_word_encode : decodeTableWord 72 0x32FFFFFFFFFFFFFFFF = some (.encode (2 ^ 64 - 1)) := by decide
theorem test_word_decode : decodeTableWord 72 0x338000000000000000 = some (.decode (2 ^ 63)) := by decide

/-- V61: words that are no command. -/
theorem test_word_illegal : decode 0x110000000000000001 = .error (.operandNotZero 0x11) ∧
    decode 0xFFFFFFFFFFFFFFFFFF = .error (.unknownOpcode 0xFF) ∧
    decode 0x340000000000000000 = .error (.unknownOpcode 0x34) ∧
    decode 0x010000000000000001 = .error (.operandNotZero 0x01) := by decide

/-! ## Commands (each test names its vector) -/

/-- V59. -/
theorem test_clear :
    let t := after .clear { base with phase := .fault, errcode := 0x22, errinfo := 0x61, cfg := 0x07, dec := decAbcd,
                                      inq := bytes [1, 2, 3], outq := bytes [4, 5] }
    t.statusPort 0 = 0 ∧ t.statusPort 1 = 0 ∧ t.statusPort 3 = 7 ∧ t.statusPort 14 = 0 ∧ t.inq = [] ∧
      t.outq = bytes [4, 5] := by decide +kernel

/-- V60. -/
theorem test_setCfg : (after (.setCfg 0x38) base).cfg = 0x38 ∧ (after (.setCfg 0x38) base).tailDiscard = 7 ∧
    (after (.setCfg 0x38) base).strict = false := by decide +kernel

/-- V60. -/
theorem test_setCfg_bad : ending (after (.setCfg 0x40) { base with cfg := 5 }) = (0x42, 0x40, 0, 0) ∧
    (after (.setCfg 0x40) { base with cfg := 5 }).cfg = 5 := by decide +kernel

/-- V1. -/
theorem test_count : (after (.count 15) { base with inq := x15 }).freqs = freq15 ∧
    ending (after (.count 15) { base with inq := x15 }) = (0, 0, 15, 0) := by decide +kernel

/-- V3: COUNT does not accumulate. -/
theorem test_count_again : (after (.count 1) { base with freqs := freq15, inq := bytes [98] }).freqs =
    { valid := true, freq := [(0x62, 1)], total := 1 } := by decide +kernel

/-- V5. -/
theorem test_merge : (after .merge { base with freqs := freq15 }).tree = tree15 := by decide +kernel

/-- V14: the left child is the lighter node, and nothing wraps. -/
theorem test_merge_64 :
    (after .merge { base with freqs := { valid := true, freq := [(0, 2 ^ 63), (1, 2 ^ 63 - 1)], total := 2 ^ 64 - 1 } }).tree.node
      = [.leaf 0 (2 ^ 63), .leaf 1 (2 ^ 63 - 1), .branch 0xFFFFFFFFFFFFFFFF 1 0] := by decide +kernel

/-- V15. -/
theorem test_getCodes : (after .getCodes { base with tree := tree15 }).codes = abcd := by decide +kernel

/-- V16: the alphabet of size 1. -/
theorem test_getCodes_single :
    (after .getCodes { base with tree := { valid := true, node := [.leaf 0x61 4], nnodes := 1, root := 0 } }).codes = single := by
  decide +kernel

/-- V20. -/
theorem test_buildDecoder : (after .buildDecoder { base with codes := abcd }).dec = decAbcd := by decide +kernel

/-- V25. -/
theorem test_buildDecoder_dup : ending (after .buildDecoder { base with codes := doubled }) = (0x27, 0x42, 0, 0) ∧
    (after .buildDecoder { base with codes := doubled }).statusPort 0 = 0x12 := by decide +kernel

/-- V29, with a byte behind the operand. -/
theorem test_resolve : (after .resolve (coder 0 [2, 0, 1, 9])).result = 0x163 ∧
    (after .resolve (coder 0 [2, 0, 1, 9])).inq = [9] ∧ (after .resolve (coder 1 [2, 0x7F])).result = 0x163 := by decide +kernel

/-- V29: a bad token; RESULT is unchanged. -/
theorem test_resolve_bad : ending (after .resolve { coder 0 [2, 0, 7] with result := 0x164 }) = (0x21, 2, 3, 0) ∧
    (after .resolve { coder 0 [2, 0, 7] with result := 0x164 }).result = 0x164 := by decide +kernel

/-- V31, TOKEN. -/
theorem test_writeDict : (after .writeDict (coder 0 [])).outq =
    bytes [3, 0, 0, 0, 0x61, 3, 0, 0, 1, 0x62, 2, 0, 1, 0x63, 1, 1, 0x64, 0] := by decide +kernel

/-- V65: V31, RAW, with the other bit order. -/
theorem test_writeDict_lsb : (after .writeDict { coder 1 [] with params := { params with bitOrder := .lsbFirst } }).outq =
    bytes [3, 0, 0x61, 3, 4, 0x62, 2, 2, 0x63, 1, 1, 0x64, 0] := by decide +kernel

/-- V35: the table comes back, and the body stays in INQ. -/
theorem test_readDict :
    let t := after (.readDict 22) { base with
      inq := bytes [3, 0, 0, 0, 0x61, 3, 0, 0, 1, 0x62, 2, 0, 1, 0x63, 1, 1, 0x64, 0, 4, 0xAA, 0xFF, 0x80] }
    t.codes = abcd ∧ ending t = (0, 0, 18, 0) ∧ t.inq = bytes [4, 0xAA, 0xFF, 0x80] := by decide +kernel

/-- V36 to V38: LEN runs out inside a RAW path; a bad token; a Symbol twice. -/
theorem test_readDict_faults :
    ending (after (.readDict 2) { base with cfg := 1, inq := bytes [9, 0] }) = (0x20, 2, 2, 0) ∧
    ending (after (.readDict 6) { base with inq := bytes [2, 0, 2, 0x61, 0, 0] }) = (0x21, 2, 3, 0) ∧
    ending (after (.readDict 7) { base with inq := bytes [1, 0, 0x61, 1, 1, 0x61, 0] }) = (0x22, 0x61, 6, 0) := by decide +kernel

/-- V43: the first three bytes have no pad bit. -/
theorem test_encode : (after (.encode 15) { coder 0 [] with inq := x15 }).outq.take 3 = bytes [4, 0xAA, 0xFF] ∧
    (after (.encode 15) { coder 0 [] with inq := x15 }).encTrail = 7 ∧
    ending (after (.encode 15) { coder 0 [] with inq := x15 }) = (0, 0, 15, 4) := by decide +kernel

/-- V46, CHUNKED, and V49. -/
theorem test_encode_chunk : (after (.encode 8) (coder 2 (List.replicate 8 0x64))).outq = bytes [0, 0xFF] ∧
    ending (after (.encode 3) (coder 0 [0x61, 0x7A, 0x61])) = (0x11, 0x7A, 2, 0) := by decide +kernel

/-- V50, and V51: with the true pad count, and strict without it. -/
theorem test_decode : (after (.decode 4) (coder 0x38 [4, 0xAA, 0xFF, 0x80])).outq = x15 ∧
    ending (after (.decode 4) (coder 4 [4, 0xAA, 0xFF, 0x80])) = (0x25, 1, 4, 17) := by decide +kernel

/-- V53 and V54: a count above the payload; pad bits that are never looked at. -/
theorem test_decode_chunk : ending (after (.decode 2) (coder 2 [9, 0])) = (0x24, 0, 1, 0) ∧
    ending (after (.decode 2) (coder 2 [8, 0])) = (0, 0, 2, 0) ∧
    (after (.decode 5) (coder 6 [7, 4, 0xAA, 0xFF, 0x9B])).outq = x15 := by decide +kernel

/-! ## Ports, holds, bit order -/

/-- V63: in FAULT a command is discarded and its bytes stay. -/
theorem test_step_discard :
    let s := { base with phase := .fault, errcode := 0x10, inq := bytes [0x41, 0x42],
                         script := [.command 0x100000000000000002] }
    stepped s = { s with script := [] } := by decide +kernel

/-- R62: COUNT 2 holds after one byte and ends at the next. -/
theorem test_step_hold :
    let s := stepped { base with inq := bytes [0x61], script := [.command 0x100000000000000002, .push 0x62] }
    s.statusPort 0 = 1 ∧ s.inq = [] ∧ (stepped (stepped s)).statusPort 0 = 4 ∧
      (stepped (stepped s)).freqs.freq = [(0x61, 1), (0x62, 1)] := by decide +kernel

/-- V7: BUILD_TREE on an empty input; FREQ_VALID is still 1. -/
theorem test_buildTree_empty :
    (match buildTree 0 base with | .next t => (ending t, t.statusPort 0) | _ => ((0, 0, 0, 0), 0)) = ((0x10, 0, 0, 0), 6) := by
  decide +kernel

/-- V65. -/
theorem test_packBits : packBits .msbFirst [false, false, false, false, false, true, false, false] = 0x04 ∧
    packBits .lsbFirst [false, false, false, false, false, true, false, false] = 0x20 := by decide +kernel

/-- V30. -/
theorem test_index : index [false, true] = 4 ∧ index [true, true, true] = 14 ∧ index (List.replicate 13 false) = 8191 ∧
    index (List.replicate 13 true) = 16382 := by decide +kernel

/-- V28 (e): the overflow mapping. -/
theorem test_overflow : decLong.resolve (true :: List.replicate 19 false) = some 0x42 ∧
    decLong.resolve (true :: List.replicate 18 false) = none ∧ decLong.resolve (true :: List.replicate 20 false) = none ∧
    decLong.resolve [false] = some 0x41 := by decide +kernel

/-! ## For every obligation with hypotheses, states and operands that meet them -/

theorem witness_EncodedCommandDecodesBack : WellFormed (.count (2 ^ 64 - 1)) ∧ WellFormed (.setCfg 0xFFFFFFFFFFFFFFFF) := by decide

theorem witness_DecodedWordIsTheEncoding : decode 0x33FFFFFFFFFFFFFFFF = .ok (.decode (2 ^ 64 - 1)) := by decide

theorem witness_DecoderAgreesWithOpcodeTable : decode 0x310000000000000000 = .ok (.readDict 0) ∧
    decode 0x340000000000000000 = .error (.unknownOpcode 0x34) := by decide

theorem base_waiting : base.Waiting := ⟨rfl, rfl⟩

theorem witness_IllegalWordsRaiseIllcmd : decode 0x120000000000000001 = .error (.operandNotZero 0x12) ∧ base.Waiting ∧
    ({ base with phase := .fault, errcode := 0x10 } : State).phase = .fault ∧
    opOf 0x020000000000000040 = 0x02 ∧ (argOf 0x020000000000000040).extractLsb' 6 58 ≠ 0 :=
  ⟨by decide, base_waiting, rfl, by decide, by decide⟩

theorem witness_StepRunsDecodedCommand :
    let s := { base with script := [.command 0x110000000000000000] }
    s.coreMoves = false ∧ s.portReady = true ∧ s.script = .command 0x110000000000000000 :: [] ∧
      decode 0x110000000000000000 = .ok .merge := by decide +kernel

/-- COUNT 2 with one byte: it holds. -/
def holding : State := after (.count 2) { base with inq := bytes [0x61] }

/-- In BUSY and in FATAL the word waits; in IDLE it is accepted. -/
theorem witness_CommandPortReadiness :
    (let s := { holding with script := [.command 0x110000000000000000] }
     s.portReady = false ∧ s.coreMoves = false ∧ s.script = .command 0x110000000000000000 :: []) ∧
    ({ base with phase := .fatal, script := [.command 0] } : State).portReady = false ∧
    base.phase = .idle ∧ issue 0x010000000000000000 base = .next (base.begin (encode .clear)).cleared :=
  ⟨by decide +kernel, by decide +kernel, rfl, rfl⟩

theorem exec_after {i : Instr} {s : State} (h : (match exec i s with | .next _ => true | _ => false) = true) :
    exec i s = .next (after i s) := by
  unfold after
  split at h
  · rename_i heq; rw [heq]
  · cases h

theorem step_stepped {s : State} (h : (match step s with | .next _ => true | _ => false) = true) :
    step s = .next (stepped s) := by
  unfold stepped
  split at h
  · rename_i heq; rw [heq]
  · cases h

/-- A command that holds, and one that ends with bytes left. -/
theorem witness_LateBytesMakeNoDifference :
    (exec (.count 2) { base with inq := bytes [0x61] } = .next holding ∧ holding.awaiting = true) ∧
    (exec (.count 1) { base with inq := bytes [0x61, 0x62] } = .next (after (.count 1) { base with inq := bytes [0x61, 0x62] }) ∧
      (after (.count 1) { base with inq := bytes [0x61, 0x62] }).awaiting = false) :=
  ⟨⟨exec_after (by decide +kernel), by decide +kernel⟩, exec_after (by decide +kernel), by decide +kernel⟩

/-- With a pop, and with a word that is not accepted. -/
theorem witness_HeldCommandKeepsItsState :
    (let s := { holding with script := [.pop], outq := bytes [7] }
     s.awaiting = true ∧ s.inq = [] ∧ step s = .next (stepped s)) ∧
    (let s := { holding with script := [.command 0x010000000000000000] }
     s.awaiting = true ∧ s.inq = [] ∧ step s = .next (stepped s)) :=
  ⟨⟨by decide +kernel, by decide +kernel, step_stepped (by decide +kernel)⟩, by decide +kernel, by decide +kernel,
    step_stepped (by decide +kernel)⟩

theorem witness_HostPushesAndPops :
    (holding.coreMoves = false ∧ ({ holding with script := [.push 1] } : State).script = .push 1 :: []) ∧
    (let s := { base with phase := .fatal, errcode := 0x31, script := [.pop], outq := bytes [7, 8] }
     s.coreMoves = false ∧ s.script = .pop :: [] ∧ s.outq = 7 :: [8]) := by decide +kernel

/-- While a command holds, and in FATAL. -/
theorem witness_ResetInputGivesTheResetState :
    ({ holding with script := [.reset] } : State).coreMoves = false ∧
    ({ base with phase := .fatal, errcode := 0x31, script := [.reset] } : State).coreMoves = false := by decide +kernel

theorem witness_ReservedRegistersReadZero : 17 ≤ (17 : Byte).toNat ∧ 17 ≤ (255 : Byte).toNat ∧
    ({ base with script := [.read 16] } : State).coreMoves = false := by decide +kernel

/-- IDLE, and FAULT. -/
theorem witness_ClearResetsAllButCfgAndOutq : base.phase = .idle ∧
    ({ base with phase := .fault, errcode := 0x10 } : State).phase = .fault := ⟨rfl, rfl⟩

/-- The largest legal operand and the least illegal one. -/
theorem witness_SetCfgWritesCfgOrFaults : base.Waiting ∧ (0x3F : Word64).extractLsb' 6 58 = 0 ∧
    (0x40 : Word64).extractLsb' 6 58 ≠ 0 := ⟨base_waiting, by decide, by decide⟩

theorem witness_UnmetPrerequisiteRaisesSeq : base.Waiting ∧ base.freqs.valid = false ∧ base.tree.valid = false ∧
    base.codes.valid = false ∧ base.dec.valid = false ∧ exec (.count 0) base = .next (after (.count 0) base) :=
  ⟨base_waiting, rfl, rfl, rfl, rfl, exec_after (by decide +kernel)⟩

theorem witness_FaultDiscardsAllButClear :
    ({ base with phase := .fault, errcode := 0x10 } : State).phase = .fault ∧
      (0x010000000000000001 : CmdWord) ≠ 0x010000000000000000 := ⟨rfl, by decide⟩

/-- A step from FAULT by CLEAR, and one from FATAL in which nothing can happen. -/
theorem witness_FirstFaultIsKept :
    (let s := { base with phase := .fault, errcode := 0x10, script := [.command 0x010000000000000000] }
     s.phase = .fault ∧ step s = .next (({ s with script := [] } : State).begin (encode .clear)).cleared) ∧
    (let s := { base with phase := .fatal, errcode := 0x31 }
     s.phase = .fatal ∧ step s = .next s) := ⟨⟨rfl, rfl⟩, rfl, rfl⟩

/-- The input X15, and the empty input. -/
theorem witness_CountCountsEveryByte :
    (({ base with inq := x15 ++ [9] } : State).phase = .idle ∧ x15.length < 2 ^ 64 ∧
      ({ base with inq := x15 ++ [9] } : State).inq = x15 ++ [9]) ∧
    base.phase = .idle ∧ ([] : List Byte).length < 2 ^ 64 ∧ base.inq = [] ++ [] :=
  ⟨⟨rfl, by decide, rfl⟩, rfl, by decide, rfl⟩

theorem witness_CountHoldsWhenStarved : base.phase = .idle ∧ 1 < 2 ^ 64 ∧ base.inq.length < 1 ∧ 2 ^ 64 - 1 < 2 ^ 64 ∧
    base.inq.length < 2 ^ 64 - 1 := ⟨rfl, by decide, by decide, by decide, by decide⟩

theorem freq15_ok : freq15.Ok := fun _ => by decide +kernel

theorem witness_MergeBuildsTheTree :
    ({ base with freqs := freq15 } : State).phase = .idle ∧ freq15.valid = true ∧ freq15.Ok ∧
      ∃ y : Byte, freq15.freqOf y.toNat ≠ 0 := ⟨rfl, rfl, freq15_ok, 0x64, by decide +kernel⟩

theorem witness_MergeOfNothingRaisesEmpty :
    let s := { base with freqs := { valid := true, freq := [], total := 0 } }
    s.Waiting ∧ s.freqs.valid = true ∧ ∀ y : Byte, s.freqs.freqOf y.toNat = 0 := ⟨⟨rfl, rfl⟩, rfl, fun _ => rfl⟩

theorem witness_MergeOfOneSymbolIsItsLeaf :
    let s := { base with freqs := { valid := true, freq := [(0xFF, 4)], total := 4 } }
    s.phase = .idle ∧ s.freqs.valid = true ∧ ∀ z : Byte, s.freqs.freqOf z.toNat ≠ 0 ↔ z = 0xFF :=
  ⟨rfl, rfl, by decide +kernel⟩

theorem tree15_holds : tree15.Holds htree15 where
  placed := by simp [htree15, tree15, HTree.In, HTree.idx]
  root := by decide
  size := by decide
  distinct := by decide
  covers := by decide
  weighted := by simp [htree15, HTree.Weighted, HTree.freq]
  symbols := by decide

/-- The tree of one leaf (R153). -/
theorem leaf_holds : ({ valid := true, node := [.leaf 0x61 4], nnodes := 1, root := 0 } : TreeArena).Holds (.leaf 0 0x61 4) where
  placed := rfl
  root := rfl
  size := rfl
  distinct := by decide
  covers := rfl
  weighted := trivial
  symbols := by decide

theorem witness_GetCodesWritesThePaths : ({ base with tree := tree15 } : State).phase = .idle ∧ tree15.valid = true ∧
    tree15.Holds htree15 := ⟨rfl, rfl, tree15_holds⟩

/-- A tree of four Symbols for the clause on two or more, a leaf for the clause on one. -/
theorem witness_ExtractedCodesArePrefixFreeAndComplete :
    (tree15.Holds htree15 ∧ exec .getCodes { base with tree := tree15 } = .next (after .getCodes { base with tree := tree15 }) ∧
      2 ≤ (after .getCodes { base with tree := tree15 }).codes.nsym.toNat) ∧
    (let a : TreeArena := { valid := true, node := [.leaf 0x61 4], nnodes := 1, root := 0 }
     a.Holds (.leaf 0 0x61 4) ∧ exec .getCodes { base with tree := a } = .next (after .getCodes { base with tree := a }) ∧
       (after .getCodes { base with tree := a }).codes.nsym.toNat = 1) :=
  ⟨⟨tree15_holds, exec_after (by decide +kernel), by decide +kernel⟩, leaf_holds, exec_after (by decide +kernel),
    by decide +kernel⟩

theorem witness_IndexClosedForm : (List.replicate 13 true).length ≤ 13 := by decide

/-- What is checked of each present code is true of each code of a table. -/
theorem codes_of_present {t : CodeTable} {P : Byte → Code → Prop} (h : ∀ e ∈ presentCodes t.code, P e.1 e.2) (y : Byte)
    (c : Code) (hc : t.codeOf y = some c) : P y c := h (y, c) (CodeTable.mem_presentCodes.2 hc)

theorem abcd_ok : abcd.Ok :=
  ⟨codes_of_present (by decide +kernel), fun _ => by decide +kernel⟩

theorem abcd_injective : abcd.Injective := fun y z c hy hz =>
  have h : ∀ e ∈ presentCodes abcd.code, ∀ f ∈ presentCodes abcd.code, e.2 = f.2 → e.1 = f.1 := by decide +kernel
  h (y, c) (CodeTable.mem_presentCodes.2 hy) (z, c) (CodeTable.mem_presentCodes.2 hz) rfl

theorem abcd_prefixFree : abcd.PrefixFree := fun y z c d hy hz hne =>
  have h : ∀ e ∈ presentCodes abcd.code, ∀ f ∈ presentCodes abcd.code, e.1 ≠ f.1 → ¬ e.2 <+: f.2 ∧ ¬ f.2 <+: e.2 := by
    decide +kernel
  h (y, c) (CodeTable.mem_presentCodes.2 hy) (z, d) (CodeTable.mem_presentCodes.2 hz) hne

theorem witness_BuildDecoderStoresEveryCode : ({ base with codes := abcd } : State).phase = .idle ∧ abcd.valid = true ∧
    abcd.Ok ∧ abcd.Injective := ⟨rfl, rfl, abcd_ok, abcd_injective⟩

theorem doubled_ok : doubled.Ok := ⟨codes_of_present (by decide +kernel), fun _ => by decide +kernel⟩

theorem witness_BuildDecoderRejectsEqualCodes : ({ base with codes := doubled } : State).Waiting ∧ doubled.valid = true ∧
    doubled.Ok ∧ (0x41 : Byte) < 0x42 ∧ doubled.codeOf 0x42 = some [false] ∧ doubled.codeOf 0x41 = some [false] ∧
    ∀ y z c, y < 0x42 → z < y → doubled.codeOf y = some c → doubled.codeOf z ≠ some c := by
  refine ⟨⟨rfl, rfl⟩, rfl, doubled_ok, by decide, by decide, by decide, fun y z c hy hz h => ?_⟩
  have h1 : ∀ e ∈ presentCodes doubled.code, e.1 < 0x42 → ∀ f ∈ presentCodes doubled.code, f.1 < e.1 → f.2 ≠ e.2 := by
    decide +kernel
  exact fun hz' => h1 (y, c) (CodeTable.mem_presentCodes.2 h) hy (z, c) (CodeTable.mem_presentCodes.2 hz') hz rfl

theorem decLong_shape : decLong.Shape where
  depth := rfl
  fill := rfl
  cells := by
    intro i v h
    simp only [decLong, Memory.get?] at h
    split at h
    · obtain rfl := Option.some.inj h
      subst_vars
      decide
    · cases h
  novf := rfl
  longer := by decide
  sentinel := by decide
  distinct := by decide

/-- A code in OVF, the empty code, an index that holds the sentinel, one that holds a Symbol, a code of 256 bits. -/
theorem witness_ResolveLooksUpCodes : decLong.Shape ∧ decLong.depth.val < (true :: List.replicate 19 false).length ∧
    ([true] ≠ [] ∧ [true].length ≤ decLong.depth.val ∧ decLong.arr.read (index [true]) = decLong.sentinel) ∧
    ([false] ≠ [] ∧ [false].length ≤ decLong.depth.val ∧ decLong.arr.read (index [false]) ≠ decLong.sentinel) ∧
    255 < (List.replicate 256 true).length := ⟨decLong_shape, by decide, by decide, by decide, by rw [List.length_replicate]; decide⟩

/-- A code that resolves and the empty code, which does not. -/
theorem witness_ResolveWritesTheResult :
    (let s := coder 0 [2, 0, 1, 9]
     s.phase = .idle ∧ s.dec.valid = true ∧ [false, true].length ≤ 255 ∧
       (bytes [0, 1]).length = pathBytes s.dictRaw [false, true].length ∧
       readPath s.params s.dictRaw [false, true].length (bytes [0, 1]) = some [false, true] ∧
       s.inq = BitVec.ofNat 8 [false, true].length :: bytes [0, 1] ++ [9] ∧ s.dec.resolve [false, true] = some 0x63) ∧
    (let s := coder 1 [0]
     s.phase = .idle ∧ s.dec.valid = true ∧ ([] : Code).length ≤ 255 ∧
       (bytes []).length = pathBytes s.dictRaw ([] : Code).length ∧
       readPath s.params s.dictRaw ([] : Code).length (bytes []) = some [] ∧
       s.inq = BitVec.ofNat 8 ([] : Code).length :: bytes [] ++ [] ∧ s.dec.resolve [] = none) := by decide +kernel

theorem witness_ResolveStopsAtBadToken :
    let s := coder 0 [2, 0, 7]
    s.Waiting ∧ s.dec.valid = true ∧ s.dictRaw = false ∧ (∀ b ∈ bytes [0], b = s.params.token0 ∨ b = s.params.token1) ∧
      (7 : Byte) ≠ s.params.token0 ∧ (7 : Byte) ≠ s.params.token1 ∧ (bytes [0]).length < (2 : Byte).toNat ∧
      s.inq = 2 :: bytes [0] ++ 7 :: [] := by decide +kernel

theorem witness_WriteDictWritesTheRecords : (coder 0 []).phase = .idle ∧ (coder 0 []).codes.valid = true ∧
    (coder 0 []).codes.Ok ∧ (coder 0 []).params.token0 ≠ (coder 0 []).params.token1 := ⟨rfl, rfl, abcd_ok, by decide⟩

/-- A code of length 0, and one of length 256. -/
theorem witness_WriteDictRejectsBadLengths :
    (let t : CodeTable := { valid := true, code := [(0, [])], nsym := 1, maxlen := 0 }
     ({ base with codes := t } : State).Waiting ∧ t.codeOf 0 = some [] ∧ ([] : Code).length = 0 ∧
       ∀ z d, z < 0 → t.codeOf z = some d → 1 ≤ d.length ∧ d.length ≤ 255) ∧
    (let t : CodeTable := { valid := true, code := [(0, List.replicate 256 true)], nsym := 1, maxlen := 0 }
     ({ base with codes := t } : State).Waiting ∧ t.codeOf 0 = some (List.replicate 256 true) ∧
       255 < (List.replicate 256 true).length ∧
       ∀ z d, z < 0 → t.codeOf z = some d → 1 ≤ d.length ∧ d.length ≤ 255) :=
  ⟨⟨⟨rfl, rfl⟩, rfl, rfl, fun z _ h => absurd h (BitVec.not_lt_zero)⟩, ⟨rfl, rfl⟩, rfl, by rw [List.length_replicate]; decide,
    fun z _ h => absurd h (BitVec.not_lt_zero)⟩

/-- A record of one path bit (TOKEN). -/
def recordA : DictRecord := { sym := 0x61, code := [false], field := [0] }

theorem recordA_wf : recordA.wf params false := by unfold DictRecord.wf; decide +kernel

theorem witness_ReadDictRebuildsTheTable :
    let s := { base with inq := bytes [1, 0, 0x61, 0, 0xAA] }
    s.phase = .idle ∧ 9 < 2 ^ 64 ∧ (∀ r ∈ [recordA], r.wf s.params s.dictRaw) ∧ ([recordA].map DictRecord.sym).Nodup ∧
      (sectionBytes [recordA]).length ≤ 9 ∧ s.inq = sectionBytes [recordA] ++ [0xAA] :=
  ⟨rfl, by decide, fun r hr => by rw [List.mem_singleton.1 hr]; exact recordA_wf, by decide, by decide, by decide +kernel⟩

/-- LEN one short of the section with the LEN bytes alone in INQ (V36), and LEN = 0 with a byte of something else behind; a
second record of the same Symbol; a byte that is no token behind a good one. -/
theorem witness_ReadDictFaults :
    (∀ r ∈ [recordA], r.wf params false) ∧ ([recordA].map DictRecord.sym).Nodup ∧
    (3 < (sectionBytes [recordA]).length ∧
      ({ base with inq := bytes [1, 0, 0x61] } : State).inq = (sectionBytes [recordA]).take 3 ++ []) ∧
    (0 < (sectionBytes [recordA]).length ∧ ({ base with inq := [9] } : State).inq = (sectionBytes [recordA]).take 0 ++ [9]) ∧
    (recordA.wf params false ∧ recordA.sym ∈ [recordA].map DictRecord.sym ∧
      ({ base with inq := bytes [1, 0, 0x61, 1, 0, 0x61, 5] } : State).inq =
        [recordA].flatMap DictRecord.bytes ++ recordA.bytes ++ [5] ∧
      ([recordA].flatMap DictRecord.bytes ++ recordA.bytes).length ≤ 6) ∧
    (base.dictRaw = false ∧ (∀ b ∈ bytes [1], b = params.token0 ∨ b = params.token1) ∧ (2 : Byte) ≠ params.token0 ∧
      (2 : Byte) ≠ params.token1 ∧ (bytes [1]).length < (2 : Byte).toNat ∧
      ({ base with inq := bytes [1, 0, 0x61, 2, 1, 2, 5] } : State).inq =
        [recordA].flatMap DictRecord.bytes ++ 2 :: bytes [1] ++ 2 :: [5] ∧
      ([recordA].flatMap DictRecord.bytes ++ 2 :: bytes [1]).length + 1 ≤ 6) :=
  ⟨fun r hr => by rw [List.mem_singleton.1 hr]; exact recordA_wf, by decide, by decide +kernel,
    by decide +kernel, ⟨recordA_wf, by decide, by decide +kernel, by decide⟩, by decide +kernel⟩

theorem witness_DictionaryRoundTrip :
    let s := coder 0 []
    let r := { base with inq := bytes [3, 0, 0, 0, 0x61, 3, 0, 0, 1, 0x62, 2, 0, 1, 0x63, 1, 1, 0x64, 0, 4] }
    s.phase = .idle ∧ s.codes.valid = true ∧ s.codes.Ok ∧ s.params.token0 ≠ s.params.token1 ∧ r.phase = .idle ∧
      r.params = s.params ∧ r.dictRaw = s.dictRaw ∧ exec .writeDict s = .next (after .writeDict s) ∧
      ∃ D, (after .writeDict s).outq = s.outq ++ D ∧ D.length ≤ 18 ∧ r.inq = D ++ [4] :=
  ⟨rfl, rfl, abcd_ok, by decide, rfl, rfl, rfl, exec_after (by decide +kernel),
    bytes [3, 0, 0, 0, 0x61, 3, 0, 0, 1, 0x62, 2, 0, 1, 0x63, 1, 1, 0x64, 0], by decide +kernel, by decide, by decide⟩

theorem witness_PackingPlacesBitsAndUnpackingInverts :
    ([true, false, true, true, false, false, true, false] : Code).length = 8 ∧ 0 < 8 ∧ 7 < 8 ∧ (List.replicate 16 true).length = 8 * 2 := by decide

theorem x15_covered : abcd.Covers x15 := by unfold CodeTable.Covers; decide +kernel

theorem witness_EncodeSimpleWritesTheBody :
    let s := { coder 0 [] with inq := x15 ++ [9] }
    s.phase = .idle ∧ s.codes.valid = true ∧ s.bodyChunked = false ∧ s.codes.Covers x15 ∧ x15.length < 2 ^ 64 ∧
      s.inq = x15 ++ [9] := ⟨rfl, rfl, by decide, x15_covered, by decide, rfl⟩

theorem witness_EncodeChunkedWritesTheChunks :
    let s := { coder 2 [] with inq := x15 ++ [9] }
    s.phase = .idle ∧ s.params.wf ∧ s.codes.valid = true ∧ s.codes.Ok ∧ s.bodyChunked = true ∧ s.codes.Covers x15 ∧
      x15.length < 2 ^ 64 ∧ s.inq = x15 ++ [9] :=
  ⟨rfl, by decide, rfl, abcd_ok, by decide, x15_covered, by decide, rfl⟩

/-- V49; SIMPLE and CHUNKED. -/
theorem witness_EncodeStopsAtSymbolWithoutCode :
    let s := coder 0 [0x61, 0x7A, 0x61]
    s.Waiting ∧ s.params.wf ∧ s.codes.valid = true ∧ s.codes.Ok ∧ s.codes.Covers (bytes [0x61]) ∧ s.codes.codeOf 0x7A = none ∧
      (bytes [0x61]).length < 3 ∧ s.inq = bytes [0x61] ++ 0x7A :: bytes [0x61] ∧ s.bodyChunked = false ∧
      (coder 2 [0x61, 0x7A, 0x61]).bodyChunked = true :=
  ⟨⟨rfl, rfl⟩, by decide, rfl, abcd_ok, by unfold CodeTable.Covers; decide +kernel, by decide, by decide, by decide,
    by decide, by decide⟩

/-- A body that ends without a fault, and (strict, without TAIL_DISCARD) one that does not. -/
theorem witness_DecodeSimpleDecodesTheBits :
    (let s := coder 0x38 [4, 0xAA, 0xFF, 0x80]
     s.Waiting ∧ s.dec.valid = true ∧ s.bodyChunked = false ∧ s.inq = bytes [4, 0xAA, 0xFF, 0x80] ++ [] ∧
       (decodeSimple s.params.bitOrder s.dec s.strict s.tailDiscard s.inq).fault = none) ∧
    (let s := coder 4 [4, 0xAA, 0xFF, 0x80]
     s.Waiting ∧ (decodeSimple s.params.bitOrder s.dec s.strict s.tailDiscard s.inq).fault = some (.truncBody, 1)) := by
  decide +kernel

/-- A body that ends without a fault, and one with a bad count. -/
theorem witness_DecodeChunkedDecodesTheChunks :
    (let s := coder 2 [7, 4, 0xAA, 0xFF, 0x80]
     s.Waiting ∧ s.dec.valid = true ∧ s.bodyChunked = true ∧ s.inq = bytes [7, 4, 0xAA, 0xFF, 0x80] ++ [] ∧
       (decodeChunks s.params.bitOrder s.dec s.strict s.params.chunkBytes 5 s.inq).fault = none) ∧
    (let s := coder 2 [9, 0]
     s.Waiting ∧ (decodeChunks s.params.bitOrder s.dec s.strict s.params.chunkBytes 2 s.inq).fault = some (.badTrail, 0)) := by
  decide +kernel

/-- SIMPLE; CHUNKED, and CHUNKED with the bad count of V53. -/
theorem witness_LenientDecodeFaultsOnlyAtBadTrail :
    (let s := coder 0 [0x0F, 0xF0]
     s.Waiting ∧ s.dec.valid = true ∧ s.strict = false ∧ s.inq = bytes [0x0F, 0xF0] ++ [] ∧ s.bodyChunked = false) ∧
    (let s := coder 2 [0, 0x0F]
     s.Waiting ∧ s.dec.valid = true ∧ s.strict = false ∧ s.inq = bytes [0, 0x0F] ++ [] ∧ (after (.decode 2) s).phase = .idle) ∧
    (let s := coder 2 [9, 0]
     s.Waiting ∧ s.dec.valid = true ∧ s.strict = false ∧ s.inq = bytes [9, 0] ++ [] ∧
       ending (after (.decode 2) s) = (0x24, 0, 1, 0)) := by
  decide +kernel

/-- The two chunks of V47: eighty-five codes `001` fill the first, one stands in the second. -/
theorem witness_ChunksDecodeIndependently :
    let s := coder 2 []
    let k := bytes (1 :: (List.replicate 10 [0x24, 0x92, 0x49]).flatten ++ [0x24, 0x92])
    let l := bytes [5, 0x20]
    s.phase = .idle ∧ s.dec.valid = true ∧ s.bodyChunked = true ∧ [k, l].flatten.length < 2 ^ 64 ∧
      (∀ K ∈ [k, l].dropLast, K.length = 1 + s.params.chunkBytes) ∧
      (∀ K ∈ [k, l], 1 ≤ K.length ∧ K.length ≤ 1 + s.params.chunkBytes) ∧
      List.Forall₂ (fun K A => ∃ t, exec (.decode K.length) { s with inq := K } = .next t ∧ t.phase = .idle ∧
        t.outq = s.outq ++ A) [k, l] [List.replicate 85 0x62, [0x62]] := by
  refine ⟨rfl, rfl, by decide, by decide, by decide, by decide, .cons ?_ (.cons ?_ .nil)⟩
  · exact ⟨_, exec_after (by decide +kernel), by decide +kernel, by decide +kernel⟩
  · exact ⟨_, exec_after (by decide +kernel), by decide +kernel, by decide +kernel⟩

theorem built_abcd : decAbcd.BuiltFrom abcd := by
  let s : State := ({ base with codes := abcd } : State).begin (encode .buildDecoder)
  obtain ⟨d, idx, heq, hst, hdep, hsen, hmax⟩ := storeLoop_spec (s := s) rfl abcd_ok.1 abcd_injective
  have hd : (storeLoop (presentCodes s.codes.code) (buildStart s)).dec = decAbcd := by decide +kernel
  have hdv : ({ d with valid := true } : Decoder) = decAbcd := by rw [← hd, heq]; rfl
  obtain ⟨h1, h2⟩ := abcd.present_facts abcd_ok.1
  refine ⟨rfl, fun c y => ?_⟩
  rw [← hdv]
  change d.sentinel = BitVec.ofNat 9 (sentinelFor abcd.code) at hsen
  change d.Stores (presentCodes abcd.code) at hst
  exact (hst.resolve (presentCodes_length_le _) (by rw [hsen]; exact h1) h2 abcd_injective.snd_nodup c y).trans
    CodeTable.mem_presentCodes

/-- Eight codes `1`: a chunk, and a simple body, without a pad bit. -/
theorem witness_BodyRoundTrip :
    (let s := coder 2 (List.replicate 8 0x64)
     let r := coder 2 [0, 0xFF, 9]
     s.phase = .idle ∧ s.params.wf ∧ s.codes.valid = true ∧ s.codes.Ok ∧ s.codes.PrefixFree ∧
       s.codes.Covers (List.replicate 8 0x64) ∧ (List.replicate 8 (0x64 : Byte)).length < 2 ^ 64 ∧
       s.inq = List.replicate 8 0x64 ++ [] ∧ r.phase = .idle ∧ r.params = s.params ∧ r.dec.valid = true ∧
       r.dec.BuiltFrom s.codes ∧ r.bodyChunked = s.bodyChunked ∧ r.bodyChunked = true ∧
       exec (.encode 8) s = .next (after (.encode 8) s) ∧ (after (.encode 8) s).outq = s.outq ++ [0, 0xFF] ∧
       r.inq = [0, 0xFF] ++ [9]) ∧
    (let s := coder 0 (List.replicate 8 0x64)
     let r := coder 0 [0xFF, 9]
     exec (.encode 8) s = .next (after (.encode 8) s) ∧ (after (.encode 8) s).outq = s.outq ++ [0xFF] ∧
       r.inq = [0xFF] ++ [9] ∧ r.bodyChunked = false ∧ r.tailDiscard = (after (.encode 8) s).encTrail.toNat ∧
       r.tailDiscard = 0 ∧ r.strict = false) := by
  refine ⟨⟨rfl, by decide, rfl, abcd_ok, abcd_prefixFree, ?_, by decide, by decide, rfl, rfl, rfl, built_abcd, rfl,
    by decide, exec_after (by decide +kernel), by decide +kernel, by decide⟩, exec_after (by decide +kernel), by decide +kernel⟩
  unfold CodeTable.Covers
  decide +kernel

/-- One code `1`: seven pad bits. SIMPLE with TAIL_DISCARD = 7, SIMPLE with TAIL_DISCARD = 0, CHUNKED. -/
theorem witness_BodyRoundTrip_pads :
    abcd.Covers [0x64] ∧
    (let s := coder 0x38 [0x64]
     let t := after (.encode 1) s
     let r := { coder 0x38 [] with inq := t.outq ++ [9] }
     exec (.encode 1) s = .next t ∧ t.encTrail = 7 ∧ t.outq.length = 1 ∧ r.inq = t.outq ++ [9] ∧ r.bodyChunked = false ∧
       r.tailDiscard = t.encTrail.toNat) ∧
    (let s := coder 0 [0x64]
     let t := after (.encode 1) s
     let r := { coder 0 [] with inq := t.outq ++ [9] }
     exec (.encode 1) s = .next t ∧ t.encTrail = 7 ∧ t.outq.length = 1 ∧ r.inq = t.outq ++ [9] ∧ r.bodyChunked = false ∧
       r.tailDiscard = 0 ∧ r.strict = false) ∧
    (let s := coder 2 [0x64]
     let t := after (.encode 1) s
     let r := { coder 2 [] with inq := t.outq ++ [9] }
     exec (.encode 1) s = .next t ∧ t.encTrail = 7 ∧ t.outq.length = 2 ∧ r.inq = t.outq ++ [9] ∧ r.bodyChunked = true) :=
  ⟨by unfold CodeTable.Covers; decide +kernel,
    ⟨exec_after (by decide +kernel), by decide +kernel, by decide +kernel, rfl, by decide, by decide +kernel⟩,
    ⟨exec_after (by decide +kernel), by decide +kernel, by decide +kernel, rfl, by decide, by decide, by decide⟩,
    exec_after (by decide +kernel), by decide +kernel, by decide +kernel, rfl, by decide⟩

/-- One code `1`, in a chunk and in a simple body, with seven pad bits each. -/
theorem witness_ChunkedDecodesAsSimple :
    let s := coder 2 [0x64]
    let s' := coder 0 [0x64, 9]
    let r := coder 2 []
    let r' := coder 0x38 []
    s.phase = .idle ∧ s.params.wf ∧ s.codes.valid = true ∧ s.codes.Ok ∧ s.codes.PrefixFree ∧ s.codes.Covers [0x64] ∧
      s.inq = [0x64] ++ [] ∧ s.bodyChunked = true ∧ s'.phase = .idle ∧ s'.params = s.params ∧ s'.codes = s.codes ∧
      s'.inq = [0x64] ++ [9] ∧ s'.bodyChunked = false ∧ r.phase = .idle ∧ r.params = s.params ∧ r.dec.valid = true ∧
      r.dec.BuiltFrom s.codes ∧ r.bodyChunked = true ∧ r'.phase = .idle ∧ r'.params = s.params ∧ r'.dec.valid = true ∧
      r'.dec.BuiltFrom s.codes ∧ r'.bodyChunked = false ∧ r'.tailDiscard = (after (.encode 1) s').encTrail.toNat ∧
      (after (.encode 1) s).outq.length = 2 ∧ (after (.encode 1) s').outq.length = 1 :=
  ⟨rfl, by decide, rfl, abcd_ok, abcd_prefixFree, by unfold CodeTable.Covers; decide +kernel, rfl, by decide, rfl, rfl, rfl,
    rfl, by decide, rfl, rfl, rfl, built_abcd, by decide, rfl, rfl, rfl, built_abcd, by decide, by decide +kernel,
    by decide +kernel, by decide +kernel⟩

/-- Eighty-six codes `001`: two chunks (V47), the first with eighty-five of them and the second with one. -/
theorem witness_ChunkedDecodesAsSimple_two :
    let x := List.replicate 86 (0x62 : Byte)
    let s := { coder 2 [] with inq := x }
    let s' := { coder 0 [] with inq := x }
    let r' := coder 0x30 []
    abcd.Covers x ∧ x.length < 2 ^ 64 ∧ s.bodyChunked = true ∧ s'.bodyChunked = false ∧ r'.bodyChunked = false ∧
      (chunked (8 * s.params.chunkBytes) [] (s.codes.codesOf x)).map List.length = [255, 3] ∧
      (after (.encode 86) s).outq.length = 33 + 2 ∧ (after (.encode 86) s').outq.length = 33 ∧
      r'.tailDiscard = (after (.encode 86) s').encTrail.toNat :=
  ⟨by unfold CodeTable.Covers; decide +kernel, by decide, by decide, by decide, by decide, by decide +kernel,
    by decide +kernel, by decide +kernel, by decide +kernel⟩

/-- Eight times `a`, CHUNKED: the file is `01 00 61 00 | 00 00`; SIMPLE, with no pad bit: `01 00 61 00 | 00`. -/
theorem witness_CompressThenDecompressIsIdentity :
    (let x := List.replicate 8 (0x61 : Byte)
    let s := { base with cfg := 2, inq := x ++ x ++ [9] }
    let r := { base with cfg := 2, inq := bytes [1, 0, 0x61, 0, 0, 0, 9] }
    s.phase = .idle ∧ s.params.wf ∧ x ≠ [] ∧ x.length < 2 ^ 64 ∧ s.inq = x ++ x ++ [9] ∧
      (match compress x.length s with | .next t => t.outq | _ => []) = s.outq ++ bytes [1, 0, 0x61, 0, 0, 0] ∧
      r.phase = .idle ∧ r.params = s.params ∧ r.dictRaw = s.dictRaw ∧ r.bodyChunked = s.bodyChunked ∧ r.bodyChunked = true ∧
      r.inq = bytes [1, 0, 0x61, 0, 0, 0] ++ [9]) ∧
    (let x := List.replicate 8 (0x61 : Byte)
     let s := { base with inq := x ++ x ++ [9] }
     let r := { base with inq := bytes [1, 0, 0x61, 0, 0, 9] }
     s.inq = x ++ x ++ [9] ∧
       (match compress x.length s with | .next t => t.outq | _ => []) = s.outq ++ bytes [1, 0, 0x61, 0, 0] ∧
       (match compress x.length s with | .next t => t.encTrail.toNat | _ => 9) = r.tailDiscard ∧
       r.bodyChunked = s.bodyChunked ∧ r.bodyChunked = false ∧ r.inq = bytes [1, 0, 0x61, 0, 0] ++ [9]) := by
  decide +kernel

/-- COUNT and READ_DICT that end with bytes left. -/
theorem witness_CommandsOwnLenBytes :
    (let s := { base with inq := x15 }
     s.phase = .idle ∧ exec (.count 4) s = .next (after (.count 4) s) ∧ (after (.count 4) s).phase = .idle) ∧
    (let s := { base with inq := bytes [0, 7] }
     exec (.readDict 2) s = .next (after (.readDict 2) s) ∧ (after (.readDict 2) s).awaiting = false) :=
  ⟨⟨rfl, exec_after (by decide +kernel), by decide +kernel⟩, exec_after (by decide +kernel), by decide +kernel⟩

/-- A command that takes bytes and appends some, and ends. -/
theorem witness_QueuesAreFifoAndCounted :
    let s := coder 2 (List.replicate 8 0x64)
    Instr.encode 8 ≠ .clear ∧ s.phase = .idle ∧ exec (.encode 8) s = .next (after (.encode 8) s) ∧
      (after (.encode 8) s).awaiting = false ∧ (after (.encode 8) s).outq ≠ [] :=
  ⟨by decide, rfl, exec_after (by decide +kernel), by decide +kernel, by decide +kernel⟩

/-- The state after `n` steps. -/
def ran (n : Nat) (s : State) : State :=
  match runSteps n s with
  | .next t => t
  | _ => s

theorem runSteps_ran {n : Nat} {s : State} (h : (match runSteps n s with | .next _ => true | _ => false) = true) :
    runSteps n s = .next (ran n s) := by
  unfold ran
  cases hx : runSteps n s <;> simp_all

/-- A push, READ_DICT 1, WRITE_DICT and a pop: the empty dictionary comes in and goes out again. -/
def acts : List HostAct := [.push 0, .command 0x310000000000000001, .command 0x300000000000000000, .pop]

/-- The run, ended with the byte still in OUTQ and with it popped; it yields that byte both times. A run that ends in
FAULT: MERGE with no frequency table. A step that pops, and one that appends. -/
theorem witness_RunYieldsEveryByteAppended :
    (Run acts 5 7 (ran 3 (runStart acts 5 7)) ∧ (ran 3 (runStart acts 5 7)).outq = [0] ∧
      (ran 3 (runStart acts 5 7)).yield = [0]) ∧
    (Run acts 5 7 (ran 4 (runStart acts 5 7)) ∧ (ran 4 (runStart acts 5 7)).outq = [] ∧
      (ran 4 (runStart acts 5 7)).yield = [0] ∧ (ran 4 (runStart acts 5 7)).Waiting) ∧
    (let f := [HostAct.command 0x110000000000000000]
     Run f 0 0 (ran 1 (runStart f 0 0)) ∧ (ran 1 (runStart f 0 0)).phase = .fault) ∧
    (let s := ran 3 (runStart acts 5 7)
     step s = .next (stepped s) ∧ s.coreMoves = false ∧ (∀ rest, s.script ≠ .reset :: rest) ∧ .reset ∉ s.script ∧
       (stepped s).received = [0] ∧ runSteps 9 s = .next (ran 9 s)) ∧
    (let s := ran 2 (runStart acts 5 7)
     step s = .next (stepped s) ∧ s.coreMoves = false ∧ (∀ rest, s.script ≠ .reset :: rest) ∧ (stepped s).outq = [0]) := by
  have hs : ∀ k ≤ 4, (ran k (runStart acts 5 7)).script = acts.drop k := by decide +kernel
  have none : ∀ w, HostAct.command w ∉ [HostAct.pop] := by simp
  refine ⟨⟨⟨by decide, ⟨3, runSteps_ran (by decide +kernel)⟩, by decide +kernel, by rw [hs 3 (by decide)]; exact none⟩,
      by decide +kernel, by decide +kernel⟩,
    ⟨⟨by decide, ⟨4, runSteps_ran (by decide +kernel)⟩, by decide +kernel, by rw [hs 4 (by decide)]; exact fun w => by simp [acts]⟩,
      by decide +kernel, by decide +kernel, by decide +kernel⟩,
    ⟨⟨by decide, ⟨1, runSteps_ran (by decide +kernel)⟩, by decide +kernel, fun w h => ?_⟩, by decide +kernel⟩,
    ⟨step_stepped (by decide +kernel), by decide +kernel, ?_, ?_, by decide +kernel, runSteps_ran (by decide +kernel)⟩,
    step_stepped (by decide +kernel), by decide +kernel, ?_, by decide +kernel⟩
  · have hf : (ran 1 (runStart [HostAct.command 0x110000000000000000] 0 0)).script = [] := by decide +kernel
    rw [hf] at h
    cases h
  · rw [hs 3 (by decide)]; exact fun rest h => by cases h
  · rw [hs 3 (by decide)]; decide
  · rw [hs 2 (by decide)]; exact fun rest h => by cases h

theorem witness_StructuresAreWrittenByTheirOwnCommands : Instr.merge ≠ .clear ∧
    exec .merge { base with freqs := freq15 } = .next (after .merge { base with freqs := freq15 }) :=
  ⟨by decide, exec_after (by decide +kernel)⟩

/-! States that meet the invariant of the data model. -/

theorem decAbcd_shape : decAbcd.Shape where
  depth := rfl
  fill := rfl
  cells := by
    intro i v h
    simp only [decAbcd, Memory.get?] at h
    repeat' split at h
    all_goals first | cases h; done | (obtain rfl := Option.some.inj h; subst_vars; decide)
  novf := rfl
  longer := by decide
  sentinel := by decide
  distinct := by decide

/-- All four structures valid, X15 in INQ, a word offered. -/
def full : State :=
  { base with freqs := freq15, tree := tree15, codes := abcd, dec := decAbcd, inq := x15, script := [.command 0x10000000000000000F] }

theorem full_inv : full.Inv where
  params := by decide
  memories := ⟨by decide +kernel, by decide +kernel, by decide +kernel⟩
  err := by unfold State.ErrOk; decide +kernel
  notFatal := by decide
  freqs := freq15_ok
  tree := fun _ => ⟨htree15, tree15_holds⟩
  codes := abcd_ok
  dec := fun _ => decAbcd_shape
  held := trivial

theorem witness_CommandsEndWithEnoughInput : full.Inv ∧ full.phase = .idle ∧ 15 ≤ full.inq.length ∧
    exec (.decode 15) full = .next (after (.decode 15) full) ∧ exec (.encode 15) full = .next (after (.encode 15) full) :=
  ⟨full_inv, rfl, by decide, exec_after (by decide +kernel), exec_after (by decide +kernel)⟩

theorem witness_StepKeepsMemoriesCanonical : full.MemoriesOk ∧ step full = .next (stepped full) :=
  ⟨full_inv.memories, step_stepped (by decide +kernel)⟩

theorem witness_StepKeepsTheInvariant : full.Inv ∧ step full = .next (stepped full) ∧ (stepped full).phase = .idle :=
  ⟨full_inv, step_stepped (by decide +kernel), by decide +kernel⟩

theorem witness_StepNeverStops : full.Inv := full_inv

end Sys2Proof.Tests
end

section
/-!
PROOFS. O8: bytes that come while a command holds are taken as if they had been there when it was accepted (R12, R62).
`bodyOf_late` and `bodyOf_stands` say it of the pseudocode; here the common frame (R130) is put around it.
-/

namespace Sys2Proof.Machine

open Sys2Proof

theorem ready_withInq (i : Instr) (s : State) (q : List Byte) : ready i (s.withInq q) = ready i s := by
  cases i <;> rfl

/-- An accepted command ends, or holds at an `InByte` of its own. -/
theorem exec_stands {i : Instr} {s t : State} (hi : i ≠ .clear) (hp : s.phase = .idle) (h : exec i s = .next t) :
    Stands (roundOf i) t := by
  rcases exec_next hi h with ⟨hn, -⟩ | ⟨-, -, rfl⟩ | ⟨-, -, hb⟩
  · exact absurd hp hn
  · exact Stands.raise _ _ _ _
  · exact bodyOf_stands hi hb

/-- An accepted command that holds has left no byte in INQ. -/
theorem exec_holds {i : Instr} {s t : State} (hi : i ≠ .clear) (hp : s.phase = .idle) (h : exec i s = .next t)
    (hw : t.awaiting = true) : t.inq = [] := by
  rcases exec_next hi h with ⟨hn, -⟩ | ⟨-, -, rfl⟩ | ⟨-, -, hb⟩
  · exact absurd hp hn
  · simp at hw
  · exact bodyOf_holds hi hb hw

/-- Bytes behind those in INQ are taken by going on from where the command got to without them. -/
theorem exec_late {i : Instr} {s t : State} (hi : i ≠ .clear) (hp : s.phase = .idle) (b : List Byte)
    (h : exec i s = .next t) :
    exec i (s.withInq (s.inq ++ b)) = .next (pump (roundOf i) (t.inq ++ b) (t.withInq (t.inq ++ b))) := by
  have hp' : (s.withInq (s.inq ++ b)).phase = .idle := hp
  have hready := ready_withInq i s (s.inq ++ b)
  rcases exec_next hi h with ⟨hn, -⟩ | ⟨-, hr, rfl⟩ | ⟨-, hr, hb⟩
  · exact absurd hp hn
  · rw [exec_of_not_ready hp' (hready.trans hr), pump_of_not_awaiting (by simp)]
    rfl
  · rw [exec_of_ready hi hp' (hready.trans hr)]
    exact bodyOf_late hi b hb

/-- Settles O8: a command that holds has emptied INQ and resumes with its own pseudocode, so late bytes are taken as early
ones; a command that ends takes nothing more. -/
theorem lateBytesMakeNoDifference : Obligations.LateBytesMakeNoDifference := by
  intro i s t b hi hp h
  have hlate := exec_late hi hp b h
  refine ⟨fun hw => ?_, fun hw => ?_⟩
  · have hq := exec_holds hi hp h hw
    have hs : Stands (roundOf i) (t.withInq b) := (exec_stands hi hp h).of_phase rfl
    rw [hq, List.nil_append] at hlate
    refine ⟨hq, hlate.trans ?_⟩
    exact congrArg _ (hs.resume hw).symm
  · exact hlate.trans (congrArg _ (pump_of_not_awaiting hw))

end Sys2Proof.Machine
end

section
/-!
PROOFS. O52: what a run yields (R14). `StepTo` says once what a step can do; the yield, the host's script and the
invariant are followed through its cases.
-/

namespace Sys2Proof.Machine

open Sys2Proof Sys2Proof.Config

/-! ## What a step can do -/

/-- Everything a step can do (R12): the core goes on; or neither agent moves; or, the core standing still, the host does
its next act. -/
inductive StepTo (s : State) : State → Prop
  | resumes (hc : s.coreMoves = true) : StepTo s (resume s)
  | waits (hc : s.coreMoves = false)
      (hw : s.script = [] ∨ (∃ w rest, s.script = .command w :: rest ∧ s.portReady = false) ∨
        ∃ rest, s.script = .pop :: rest ∧ s.outq = []) : StepTo s s
  | commands {w : CmdWord} {rest : List HostAct} {i : Instr} {t : State} (hc : s.coreMoves = false)
      (hs : s.script = .command w :: rest) (hp : s.portReady = true) (hd : decode w = .ok i)
      (he : exec i (s.hosting rest) = .next t) : StepTo s t
  | illegal {w : CmdWord} {rest : List HostAct} {e : Illegal} (hc : s.coreMoves = false)
      (hs : s.script = .command w :: rest) (hp : s.portReady = true) (hd : decode w = .error e) :
      StepTo s (illegalWord w (s.hosting rest))
  | pushes {b : Byte} {rest : List HostAct} (hc : s.coreMoves = false) (hs : s.script = .push b :: rest) :
      StepTo s (hostPush b (s.hosting rest))
  | pops {b : Byte} {q : List Byte} {rest : List HostAct} (hc : s.coreMoves = false) (hs : s.script = .pop :: rest)
      (hq : s.outq = b :: q) : StepTo s (hostPop (s.hosting rest))
  | reads {r : Byte} {rest : List HostAct} (hc : s.coreMoves = false) (hs : s.script = .read r :: rest) :
      StepTo s (s.hosting rest)
  | resets {rest : List HostAct} (hc : s.coreMoves = false) (hs : s.script = .reset :: rest) :
      StepTo s (hardReset (s.hosting rest))

theorem stepTo_of_step {s t : State} (h : step s = .next t) : StepTo s t := by
  unfold step at h
  split at h
  · obtain rfl := Host.Outcome.next.inj h
    exact .resumes ‹_›
  · rename_i hc
    rw [Bool.not_eq_true] at hc
    unfold hostStep at h
    split at h
    · obtain rfl := Host.Outcome.next.inj h
      exact .waits hc (.inl ‹_›)
    · rename_i w rest hs
      split at h
      · unfold issue at h
        split at h
        · exact .commands hc hs ‹_› ‹_› h
        · obtain rfl := Host.Outcome.next.inj h
          exact .illegal hc hs ‹_› ‹_›
      · obtain rfl := Host.Outcome.next.inj h
        exact .waits hc (.inr (.inl ⟨w, rest, hs, Bool.eq_false_iff.2 ‹_›⟩))
    · obtain rfl := Host.Outcome.next.inj h
      exact .pushes hc ‹_›
    · split at h
      · obtain rfl := Host.Outcome.next.inj h
        exact .waits hc (.inr (.inr ⟨_, ‹_›, ‹_›⟩))
      · obtain ⟨b, q, hq⟩ := List.exists_cons_of_ne_nil ‹¬ s.outq = []›
        obtain rfl := Host.Outcome.next.inj h
        exact .pops hc ‹_› hq
    · obtain rfl := Host.Outcome.next.inj h
      exact .reads hc ‹_›
    · obtain rfl := Host.Outcome.next.inj h
      exact .resets hc ‹_›

/-! ## What a step yields -/

theorem illegalWord_received (w : CmdWord) (s : State) : (illegalWord w s).received = s.received := by
  unfold illegalWord; split <;> rfl

theorem illegalWord_outq (w : CmdWord) (s : State) : (illegalWord w s).outq = s.outq := by
  unfold illegalWord; split <;> rfl

theorem illegalWord_script (w : CmdWord) (s : State) : (illegalWord w s).script = s.script := by
  unfold illegalWord; split <;> rfl

/-- A step that is no reset appends bytes to OUTQ, or hands its head to the host. -/
theorem step_yields {s t : State} (h : step s = .next t) (hr : s.coreMoves = false → ∀ rest, s.script ≠ .reset :: rest) :
    (t.received = s.received ∧ ∃ out, t.outq = s.outq ++ out) ∨
      ∃ b, s.outq = b :: t.outq ∧ t.received = s.received ++ [b] := by
  cases stepTo_of_step h with
  | resumes => exact .inl (resume_yields s)
  | @commands _ rest _ _ _ _ _ _ he => exact .inl (exec_yields (s := s.hosting rest) he)
  | illegal => exact .inl ⟨illegalWord_received _ _, [], by rw [illegalWord_outq, List.append_nil, State.hosting_outq]⟩
  | @pops b _ _ _ _ hq => exact .inr ⟨b, by simp [hostPop, hq], by simp [hostPop, hq]⟩
  | waits | pushes | reads => exact .inl ⟨rfl, [], (List.append_nil _).symm⟩
  | resets hc hs => exact absurd hs (hr hc _)

/-- So what is yielded only grows. -/
theorem step_yield_grows {s t : State} (h : step s = .next t) (hr : .reset ∉ s.script) :
    ∃ out, t.yield = s.yield ++ out := by
  rcases step_yields h (fun _ rest hs => hr (hs ▸ List.mem_cons_self)) with ⟨hg, out, ho⟩ | ⟨b, ho, hg⟩
  · exact ⟨out, by rw [State.yield, State.yield, hg, ho, List.append_assoc]⟩
  · exact ⟨[], by simp [State.yield, hg, ho]⟩

/-! ## The host's script -/

/-- The pseudocode after an `InByte` keeps the frame of a command. -/
theorem afterByte_frame (pos : Pos) : ∃ i, ∀ b s, frameOf i (afterByte pos b s) = frameOf i s := by
  cases pos with
  | running => exact ⟨.clear, fun _ _ => rfl⟩
  | counting => exact ⟨_, countByte_frame 0⟩
  | dictLength | dictPath | dictSymbol => exact ⟨_, dictByte_frame 0⟩
  | lookupLength | lookupPath => exact ⟨_, lookupByte_frame⟩
  | encoding => exact ⟨_, encodeByte_frame 0⟩
  | decoding | chunkTrail | chunkPayload => exact ⟨_, decodeByte_frame 0⟩

theorem resume_script (s : State) : (resume s).script = s.script := by
  unfold resume
  split
  · rename_i pos _
    obtain ⟨i, hf⟩ := afterByte_frame pos
    exact pump_frame (m := State.script) (fun b s => frameOf_script (hf b s)) (fun _ _ => rfl) s.inq s
  · rfl

theorem exec_script {i : Instr} {s t : State} (h : exec i s = .next t) : t.script = s.script := by
  by_cases hi : i = .clear
  · subst hi
    simp only [exec, execClear] at h
    split at h <;> obtain rfl := Host.Outcome.next.inj h <;> rfl
  · by_cases hp : s.phase = .idle
    · exact frameOf_script (s := s.begin (encode i)) (exec_frame hi hp h)
    · rw [exec_of_not_idle hi hp] at h
      obtain rfl := Host.Outcome.next.inj h
      rfl

/-- What is left of the script is an end of it. -/
theorem step_script {s t : State} (h : step s = .next t) : t.script <:+ s.script := by
  have hcons {a : HostAct} {rest : List HostAct} (hs : s.script = a :: rest) : rest <:+ s.script :=
    hs ▸ List.suffix_cons a rest
  cases stepTo_of_step h with
  | resumes => rw [resume_script]
  | waits => exact List.suffix_refl _
  | commands _ hs _ _ he => rw [exec_script he]; exact hcons hs
  | illegal _ hs => rw [illegalWord_script]; exact hcons hs
  | pushes _ hs | pops _ hs | reads _ hs | resets _ hs => exact hcons hs

theorem step_noReset {s t : State} (hr : .reset ∉ s.script) (h : step s = .next t) : .reset ∉ t.script :=
  fun hm => hr ((step_script h).subset hm)

/-! ## The invariant of the data model, step by step -/

theorem params_wf : params.wf := by
  refine ⟨by decide, ?_, ?_⟩ <;> simp only [params, chunkBytes] <;> omega

theorem hardReset_inv {s : State} (h : s.params.wf) : (hardReset s).Inv where
  params := h
  memories := ⟨rfl, rfl, rfl⟩
  err := by simp [State.ErrOk, hardReset, State.reset]
  notFatal := by simp [hardReset, State.reset]
  freqs := by intro hv; cases hv
  tree := by intro hv; cases hv
  codes := ⟨(by intro _ _ hc; cases hc), (by intro hv; cases hv)⟩
  dec := by intro hv; cases hv
  held := trivial

theorem illegalWord_inv {s : State} (h : s.Inv) (w : CmdWord) : (illegalWord w s).Inv := by
  unfold illegalWord
  split
  · exact (h.begin ‹_› w).raise (by decide) _
  · exact h

theorem State.Inv.hosting {s : State} (h : s.Inv) (l : List HostAct) : (s.hosting l).Inv :=
  h.of_eq rfl rfl rfl rfl rfl rfl rfl rfl rfl rfl

/-- Every step keeps the invariant. -/
theorem step_inv {s t : State} (h : s.Inv) (e : step s = .next t) : t.Inv := by
  cases stepTo_of_step e with
  | resumes => exact resume_inv h
  | waits => exact h
  | @commands w rest i _ _ _ _ _ he =>
    obtain ⟨u, hu, hinv⟩ := exec_inv (i := i) (h.hosting rest)
    rw [he] at hu
    exact Host.Outcome.next.inj hu ▸ hinv
  | illegal => exact illegalWord_inv (h.hosting _) _
  | pushes | pops => exact h.of_eq rfl rfl rfl rfl rfl rfl rfl rfl rfl rfl
  | reads => exact h.hosting _
  | resets => exact hardReset_inv h.params

/-- The state a run begins in is a reset state with a host and counters. -/
theorem runStart_inv (acts : List HostAct) (ties draws : Nat) : (runStart acts ties draws).Inv :=
  hardReset_inv (s := runStart acts ties draws) params_wf

theorem Run.inv {acts : List HostAct} {ties draws : Nat} {t : State} (h : Run acts ties draws t) : t.Inv := by
  obtain ⟨n, hn⟩ := h.reached
  exact runSteps_induct (fun _ _ => step_inv) n (runStart_inv acts ties draws) hn

/-! ## Several steps, and the end of a run -/

theorem runSteps_noReset {n : Nat} {s t : State} (hr : .reset ∉ s.script) (h : runSteps n s = .next t) :
    .reset ∉ t.script :=
  runSteps_induct (P := fun s => .reset ∉ s.script) (fun _ _ => step_noReset) n hr h

theorem runSteps_yield_grows {n : Nat} {s t : State} (hr : .reset ∉ s.script) (h : runSteps n s = .next t) :
    ∃ out, t.yield = s.yield ++ out := by
  induction n generalizing s with
  | zero =>
    obtain rfl := Host.Outcome.next.inj h
    exact ⟨[], (List.append_nil _).symm⟩
  | succ n ih =>
    obtain ⟨u, hu, ht⟩ := runSteps_succ.1 h
    obtain ⟨a, ha⟩ := step_yield_grows hu hr
    obtain ⟨b, hb⟩ := ih (step_noReset hr hu) ht
    exact ⟨a ++ b, by rw [hb, ha, List.append_assoc]⟩

/-- Two states show the same: PHASE, the yield and every status register. -/
def SameShown (s t : State) : Prop := t.phase = s.phase ∧ t.yield = s.yield ∧ ∀ r, t.statusPort r = s.statusPort r

theorem SameShown.symm {s t : State} (h : SameShown s t) : SameShown t s :=
  ⟨h.1.symm, h.2.1.symm, fun r => (h.2.2 r).symm⟩

theorem SameShown.trans {s t u : State} (h : SameShown s t) (h' : SameShown t u) : SameShown s u :=
  ⟨h'.1.trans h.1, h'.2.1.trans h.2.1, fun r => (h'.2.2 r).trans (h.2.2 r)⟩

/-- A run that has ended stands still for any number of steps. -/
theorem RunEnded.runSteps {n : Nat} {s t : State} (h : s.RunEnded) (hr : .reset ∉ s.script)
    (e : runSteps n s = .next t) : t.RunEnded ∧ SameShown s t := by
  induction n generalizing s with
  | zero =>
    obtain rfl := Host.Outcome.next.inj e
    exact ⟨h, rfl, rfl, fun _ => rfl⟩
  | succ n ih =>
    obtain ⟨u, hu, ht⟩ := runSteps_succ.1 e
    obtain ⟨hend, hr', hshown⟩ := RunEnded.step h hr hu
    obtain ⟨htend, ht'⟩ := ih hend hr' ht
    exact ⟨htend, SameShown.trans hshown ht'⟩

/-- Of two numbers of steps that end a run, the further state is reached from the nearer one, which stands still. -/
theorem sameShown_of_le {n m : Nat} {s t u : State} (hr : .reset ∉ s.script) (ht : runSteps n s = .next t)
    (hend : t.RunEnded) (hu : runSteps m s = .next u) (hle : n ≤ m) : SameShown t u := by
  obtain ⟨k, rfl⟩ := Nat.exists_eq_add_of_le hle
  obtain ⟨v, hv, hvu⟩ := (runSteps_add n k).1 hu
  obtain rfl : t = v := Host.Outcome.next.inj (ht.symm.trans hv)
  exact (RunEnded.runSteps hend (runSteps_noReset hr ht) hvu).2

theorem Run.sameShown {acts : List HostAct} {ties draws : Nat} {t u : State} (ht : Run acts ties draws t)
    (hu : Run acts ties draws u) : SameShown t u := by
  obtain ⟨n, hn⟩ := ht.reached
  obtain ⟨m, hm⟩ := hu.reached
  rcases Nat.le_total n m with hle | hle
  · exact sameShown_of_le ht.noReset hn ht.ended hm hle
  · exact (sameShown_of_le ht.noReset hm hu.ended hn hle).symm

/-- A run ends in IDLE with no fault recorded, or in FAULT with one; it never ends in FATAL (R28, R257). -/
theorem Run.outcome {acts : List HostAct} {ties draws : Nat} {t : State} (h : Run acts ties draws t) :
    t.RunSucceeded ∨ t.phase = .fault ∧ t.errcode ≠ 0 := by
  have herr := h.inv.err
  unfold State.ErrOk at herr
  cases hp : t.phase with
  | idle => exact .inl ⟨h.ended, hp, by simpa [hp] using herr⟩
  | busy pos => simpa [hp] using h.ended.1
  | fault => exact .inr ⟨rfl, herr.2 (.inl hp)⟩
  | fatal => exact absurd hp h.inv.notFatal

/-- Settles O52: what one step yields, then what several do; an ended run stands still, so two ends of one run show the
same; and the invariant gives how it ends. -/
theorem runYieldsEveryByteAppended : Obligations.RunYieldsEveryByteAppended :=
  ⟨fun _ _ => step_yields, fun _ _ _ => runSteps_yield_grows, fun _ _ _ => RunEnded.runSteps,
    fun _ _ _ _ _ => Run.sameShown, fun _ _ _ _ => Run.outcome⟩

end Sys2Proof.Machine
end

section
/-!
PROOFS. The family of 10_state.md: the reset state and the status port (O11, O13, O14), the invariant of the data model
(O57, O58), the fault that is kept (O19), and who writes which structure (O53, O54).
-/

namespace Sys2Proof.Machine

open Sys2Proof

/-! ## The invariant of the data model (R52) -/

/-- Settles O58: `step_inv` follows the invariant through the cases of `StepTo`. -/
theorem stepKeepsTheInvariant : Obligations.StepKeepsTheInvariant := fun _ _ => step_inv

/-- Settles O57: the reset state is what hardware reset makes of itself. -/
theorem resetMeetsTheInvariant : Obligations.ResetMeetsTheInvariant := hardReset_inv (s := State.reset) params_wf

/-! ## The first fault (R28, R29) -/

/-- A word that decodes is the word of its command (R90, R94). -/
theorem eq_encode_of_decode {w : CmdWord} {i : Instr} (h : decode w = .ok i) : w = encode i := by
  obtain ⟨hop, harg, -⟩ := decode_ok h
  rw [← append_op_arg w, hop, harg, encode]

/-- A word that is no command is discarded outside IDLE (R265). -/
theorem illegalWord_of_not_idle {s : State} (hp : s.phase ≠ .idle) (w : CmdWord) : illegalWord w s = s := by
  unfold illegalWord
  split
  · exact absurd ‹_› hp
  · rfl

/-- CLEAR where the command port is ready (R231). -/
theorem exec_clear_of_portReady {s : State} (h : s.portReady = true) :
    exec .clear s = .next (s.begin (encode .clear)).cleared := if_pos h

/-- Of the two phases with a fault recorded, the port is ready in FAULT (R61). -/
theorem phase_eq_fault_of_portReady {s : State} (hf : s.phase = .fault ∨ s.phase = .fatal) (h : s.portReady = true) :
    s.phase = .fault := by
  rcases hf with hp | hp
  · exact hp
  · simp [State.portReady, hp] at h

/-- Settles O19: with a fault recorded the core stands still, and of what the host can do then only CLEAR and reset
write PHASE or the fault registers. -/
theorem firstFaultIsKept : Obligations.FirstFaultIsKept := by
  intro s t hf h
  have hb : s.phase.isBusy = false := by rcases hf with hp | hp <;> rw [hp] <;> rfl
  have hi : s.phase ≠ .idle := by rcases hf with hp | hp <;> rw [hp] <;> nofun
  cases stepTo_of_step h with
  | resumes hc => exact absurd hc (by simp [coreMoves_of_not_busy hb])
  | waits | pushes | pops | reads => exact .inl ⟨rfl, rfl, rfl⟩
  | @commands w rest i _ _ hs hr hd he =>
    by_cases hclear : i = .clear
    · subst hclear
      obtain rfl := Host.Outcome.next.inj ((exec_clear_of_portReady (s := s.hosting rest) hr).symm.trans he)
      obtain rfl := eq_encode_of_decode hd
      exact .inr ⟨rfl, rfl, rfl, .inl ⟨phase_eq_fault_of_portReady hf hr, rest, hs⟩⟩
    · rw [exec_of_not_idle (s := s.hosting rest) hclear hi] at he
      obtain rfl := Host.Outcome.next.inj he
      exact .inl ⟨rfl, rfl, rfl⟩
  | @illegal w rest =>
    rw [illegalWord_of_not_idle (s := s.hosting rest) hi]
    exact .inl ⟨rfl, rfl, rfl⟩
  | @resets rest _ hs => exact .inr ⟨rfl, rfl, rfl, .inr ⟨rest, hs⟩⟩

/-! ## Who writes which structure (R51)

What is in the frame of a command, one lemma per structure (Laws/Bodies.lean: `frameOf` blanks out what is not). -/

section Frame

variable {i : Instr} {s t : State} (h : frameOf i t = frameOf i s)

include h

theorem frameOf_freqs (hi : ∀ n, i ≠ .count n) : t.freqs = s.freqs := by
  have := congrArg State.freqs h
  cases i with
  | count n => exact absurd rfl (hi n)
  | _ => exact this

theorem frameOf_tree (hi : i ≠ .merge) : t.tree = s.tree := by
  have := congrArg State.tree h
  cases i with
  | merge => exact absurd rfl hi
  | _ => exact this

theorem frameOf_codes (hi : i ≠ .getCodes) (hi' : ∀ n, i ≠ .readDict n) : t.codes = s.codes := by
  have := congrArg State.codes h
  cases i with
  | getCodes => exact absurd rfl hi
  | readDict n => exact absurd rfl (hi' n)
  | _ => exact this

theorem frameOf_dec (hi : i ≠ .buildDecoder) : t.dec = s.dec := by
  have := congrArg State.dec h
  cases i with
  | buildDecoder => exact absurd rfl hi
  | _ => exact this

theorem frameOf_cfg (hi : ∀ v, i ≠ .setCfg v) : t.cfg = s.cfg := by
  have := congrArg State.cfg h
  cases i with
  | setCfg v => exact absurd rfl (hi v)
  | _ => exact this

theorem frameOf_result (hi : i ≠ .resolve) : t.result = s.result := by
  have := congrArg State.result h
  cases i with
  | resolve => exact absurd rfl hi
  | _ => exact this

theorem frameOf_encTrail (hi : ∀ n, i ≠ .encode n) : t.encTrail = s.encTrail := by
  have := congrArg State.encTrail h
  cases i with
  | encode n => exact absurd rfl (hi n)
  | _ => exact this

theorem frameOf_params : t.params = s.params := by
  have := congrArg State.params h
  cases i <;> exact this

end Frame

/-- Settles O53: outside IDLE a command does nothing, and in IDLE `exec_frame` says what it keeps. -/
theorem structuresAreWrittenByTheirOwnCommands : Obligations.StructuresAreWrittenByTheirOwnCommands := by
  intro i s t hi h
  by_cases hp : s.phase = .idle
  · have hf := exec_frame hi hp h
    exact ⟨(frameOf_freqs hf :), (frameOf_tree hf :), (frameOf_codes hf :), (frameOf_dec hf :), (frameOf_cfg hf :),
      (frameOf_result hf :), (frameOf_encTrail hf :), (frameOf_params hf :), (frameOf_script hf :),
      (frameOf_received hf :)⟩
  · rw [exec_of_not_idle hi hp] at h
    obtain rfl := Host.Outcome.next.inj h
    exact ⟨fun _ => rfl, fun _ => rfl, fun _ _ => rfl, fun _ => rfl, fun _ => rfl, fun _ => rfl, fun _ => rfl, rfl,
      rfl, rfl⟩

/-- The command whose pseudocode stands at a position, for its frame alone: LEN, which no frame depends on, is 0. At
`running` no byte is awaited, so nothing goes on; CLEAR's frame is the one that lets nothing change. -/
def Pos.command : Pos → Instr
  | .running => .clear
  | .counting => .count 0
  | .dictLength | .dictPath _ _ | .dictSymbol _ => .readDict 0
  | .lookupLength | .lookupPath _ => .resolve
  | .encoding _ => .encode 0
  | .decoding | .chunkTrail | .chunkPayload _ _ => .decode 0

/-- Going on keeps the frame of the command that held. -/
theorem resume_frame {s : State} {pos : Pos} (hp : s.phase = .busy pos) :
    frameOf pos.command (resume s) = frameOf pos.command s := by
  have hr : resume s = pump (afterByte pos) s.inq s := by simp [resume, hp]
  rw [hr]
  cases pos with
  | running => rw [pump_of_not_awaiting (by simp [State.awaiting, hp])]
  | counting => exact pump_frame (countByte_frame 0) (fun _ _ => rfl) _ _
  | dictLength | dictPath | dictSymbol => exact pump_frame (dictByte_frame 0) (fun _ _ => rfl) _ _
  | lookupLength | lookupPath => exact pump_frame lookupByte_frame (fun _ _ => rfl) _ _
  | encoding => exact pump_frame (encodeByte_frame 0) (fun _ _ => rfl) _ _
  | decoding | chunkTrail | chunkPayload => exact pump_frame (decodeByte_frame 0) (fun _ _ => rfl) _ _

theorem resume_of_not_busy {s : State} (h : s.phase.isBusy = false) : resume s = s := by
  unfold resume
  split
  · rename_i hp
    rw [hp] at h
    cases h
  · rfl

/-- No command that holds owns the tree, the decoder or CFG. -/
theorem Pos.command_ne (pos : Pos) :
    pos.command ≠ .merge ∧ pos.command ≠ .getCodes ∧ pos.command ≠ .buildDecoder ∧ ∀ v, pos.command ≠ .setCfg v := by
  cases pos <;> simp [Pos.command]

/-- Settles O54: outside BUSY nothing goes on; in BUSY `resume_frame` gives the frame, and a structure outside it is owned
by the command of the position. -/
theorem resumedCommandKeepsTheFrame : Obligations.ResumedCommandKeepsTheFrame := by
  intro s
  cases hb : s.phase.isBusy with
  | false =>
    rw [resume_of_not_busy hb]
    exact ⟨.inl rfl, rfl, .inl rfl, .inl rfl, .inl rfl, rfl, rfl, rfl, rfl, rfl, rfl⟩
  | true =>
    obtain ⟨pos, hp⟩ := State.isBusy_iff.1 hb
    have hf := resume_frame hp
    obtain ⟨hmerge, hget, hbuild, hcfg⟩ := pos.command_ne
    refine ⟨?_, frameOf_tree hf hmerge, ?_, ?_, ?_, frameOf_dec hf hbuild, frameOf_cfg hf hcfg, frameOf_cmd hf,
      frameOf_params hf, frameOf_script hf, frameOf_received hf⟩
    · cases pos with
      | counting => exact .inr hp
      | _ => exact .inl (frameOf_freqs hf nofun)
    · cases pos with
      | dictLength => exact .inr (.inl hp)
      | dictPath l c => exact .inr (.inr (.inl ⟨l, c, hp⟩))
      | dictSymbol c => exact .inr (.inr (.inr ⟨c, hp⟩))
      | _ => exact .inl (frameOf_codes hf hget nofun)
    · cases pos with
      | lookupLength => exact .inr (.inl hp)
      | lookupPath l => exact .inr (.inr ⟨l, hp⟩)
      | _ => exact .inl (frameOf_result hf nofun)
    · cases pos with
      | encoding k => exact .inr ⟨k, hp⟩
      | _ => exact .inl (frameOf_encTrail hf nofun)

/-! ## The reset state and the status port (R26, R27, R39, R50) -/

/-- Every status register is 0 in the reset state. -/
theorem reset_statusPort (r : Byte) : State.reset.statusPort r = 0 := by
  unfold State.statusPort
  split <;> rfl

/-- Settles O11: the registers by computation, and a step of a machine in IDLE whose script is empty waits. -/
theorem resetStateHasTheResetValues : Obligations.ResetStateHasTheResetValues :=
  ⟨rfl, rfl, rfl, rfl, rfl, rfl, reset_statusPort, rfl, rfl, rfl, rfl⟩

/-- Status register 0 is STATUS, zero-extended: the same bits, and zeros above them. -/
theorem statusPort_zero_getLsbD (s : State) (k : Nat) : (s.statusPort 0).getLsbD k = s.status.getLsbD k := by
  change (s.status.zeroExtend 64).getLsbD k = _
  rw [BitVec.getLsbD, BitVec.toNat_setWidth_of_le (by decide), BitVec.getLsbD]

/-- STATUS[1:0] is PHASE (R27). -/
theorem status_phase (s : State) : s.status.extractLsb' 0 2 = s.phase.code := BitVec.extractLsb'_append_eq_right

/-- The four flags are bits 2 to 5 of STATUS (R27). -/
theorem status_flags (s : State) :
    s.status.getLsbD 2 = s.freqs.valid ∧ s.status.getLsbD 3 = s.tree.valid ∧ s.status.getLsbD 4 = s.codes.valid ∧
      s.status.getLsbD 5 = s.dec.valid := by
  simp only [State.status, BitVec.getLsbD_append]
  simp

/-- Settles O13: STATUS from its parts, the other rows of the map as they are defined; DEPTH is below 14, so its 64-bit
value is the number. -/
theorem statusPortShowsTheRegisters : Obligations.StatusPortShowsTheRegisters := by
  intro s
  have hbit := statusPort_zero_getLsbD s
  obtain ⟨hfreqs, htree, hcodes, hdec⟩ := status_flags s
  have hphase : (s.statusPort 0).extractLsb' 0 2 = s.phase.code := by
    rw [← status_phase]
    apply BitVec.eq_of_getLsbD_eq
    intro k _
    rw [BitVec.getLsbD_extractLsb', BitVec.getLsbD_extractLsb', hbit]
  have hhigh (k : Nat) (hk : 6 ≤ k) : (s.statusPort 0).getLsbD k = false :=
    (hbit k).trans (BitVec.getLsbD_of_ge _ _ hk)
  have hdepth : (s.statusPort 11).toNat = s.dec.depth.val :=
    Nat.mod_eq_of_lt (s.dec.depth.isLt.trans (by decide))
  exact ⟨hphase, (hbit 2).trans hfreqs, (hbit 3).trans htree, (hbit 4).trans hcodes, (hbit 5).trans hdec, hhigh,
    reset_statusPort 0, rfl, fun _ => rfl, rfl, rfl, rfl, rfl, rfl, rfl, rfl, rfl, rfl, rfl, rfl, rfl, hdepth, rfl, rfl,
    rfl, rfl, rfl⟩

/-- A register number the map does not list reads 0 (R39). -/
theorem statusPort_of_reserved (s : State) {r : Byte} (h : 17 ≤ r.toNat) : s.statusPort r = 0 := by
  unfold State.statusPort
  split
  case h_18 => rfl
  all_goals exact absurd h (by decide)

/-- Settles O14: a status read in the host's turn is the host's act and nothing else. -/
theorem reservedRegistersReadZero : Obligations.ReservedRegistersReadZero :=
  fun s => ⟨fun _ => statusPort_of_reserved s, fun r rest hc hs => by simp [step, hc, hostStep, hs]⟩

end Sys2Proof.Machine
end

section
/-!
PROOFS. The family of 20_memory.md: the ports (O6, O7, O10), bits, bytes and the index of a code (O39, O28), the queues
(O51), COUNT on fewer bytes than its LEN (O22), and the memories in their canonical form (O56).
-/

namespace Sys2Proof.Machine

open Sys2Proof Sys2Proof.Config

/-! ## The ports (R61 to R63) -/

/-- Where the core does not move it is the host's turn (R12). -/
theorem step_of_not_coreMoves {s : State} (h : s.coreMoves = false) : step s = hostStep s := by simp [step, h]

/-- A word offered at a port that is ready is accepted (R61). -/
theorem hostStep_command_of_portReady {s : State} {w : CmdWord} {rest : List HostAct} (hr : s.portReady = true)
    (hs : s.script = .command w :: rest) : hostStep s = issue w (s.hosting rest) := by
  simp [hostStep, hs, hr, State.hosting]

/-- A word offered at a port that is not ready waits (R61). -/
theorem hostStep_command_of_not_portReady {s : State} {w : CmdWord} {rest : List HostAct} (hr : s.portReady = false)
    (hs : s.script = .command w :: rest) : hostStep s = .next s := by simp [hostStep, hs, hr]

theorem hostStep_push {s : State} {b : Byte} {rest : List HostAct} (hs : s.script = .push b :: rest) :
    hostStep s = .next (hostPush b (s.hosting rest)) := by simp [hostStep, hs, State.hosting]

theorem hostStep_pop {s : State} {rest : List HostAct} (hq : s.outq ≠ []) (hs : s.script = .pop :: rest) :
    hostStep s = .next (hostPop (s.hosting rest)) := by simp [hostStep, hs, hq, State.hosting]

/-- A word that decodes is executed (R94). -/
theorem issue_of_decode {w : CmdWord} {i : Instr} (h : decode w = .ok i) (s : State) : issue w s = exec i s := by
  simp [issue, h]

/-- Everything a word that is accepted can do (R94, R95). -/
theorem issue_next {w : CmdWord} {s t : State} (h : issue w s = .next t) :
    (∃ i, decode w = .ok i ∧ exec i s = .next t) ∨ t = illegalWord w s := by
  unfold issue at h
  split at h
  · exact .inl ⟨_, ‹_›, h⟩
  · exact .inr (Host.Outcome.next.inj h).symm

/-- The port is ready in IDLE and FAULT (R61). -/
theorem portReady_iff {s : State} : s.portReady = true ↔ s.phase = .idle ∨ s.phase = .fault := by
  cases hp : s.phase <;> simp [State.portReady, hp]

/-- A word accepted in IDLE is latched, whether it is a command or not (R22, R61). -/
theorem issue_cmd {w : CmdWord} {s t : State} (hp : s.phase = .idle) (h : issue w s = .next t) : t.cmd = w := by
  rcases issue_next h with ⟨i, hd, he⟩ | rfl
  · rw [exec_cmd hp he, eq_encode_of_decode hd]
  · simp [illegalWord, hp]

/-- Settles O6: it is the host's turn, the port is ready, and the word decodes. -/
theorem stepRunsDecodedCommand : Obligations.StepRunsDecodedCommand := by
  intro s w rest i hc hr hs hd
  rw [step_of_not_coreMoves hc, hostStep_command_of_portReady hr hs, issue_of_decode hd, State.hosting]

/-- Settles O7: readiness by PHASE, the wait from the host's act, the latch from `issue_cmd`. -/
theorem commandPortReadiness : Obligations.CommandPortReadiness := fun _ =>
  ⟨portReady_iff,
    fun _ _ hr hc hs => (step_of_not_coreMoves hc).trans (hostStep_command_of_not_portReady hr hs),
    fun _ _ => issue_cmd⟩

/-- Settles O10: each of the two acts in the host's turn. -/
theorem hostPushesAndPops : Obligations.HostPushesAndPops := by
  intro s hc
  refine ⟨fun b rest hs => ?_, fun b q rest hs hq => ?_⟩
  · rw [step_of_not_coreMoves hc, hostStep_push hs, hostPush, State.hosting]
  · rw [step_of_not_coreMoves hc, hostStep_pop (by simp [hq]) hs]
    simp [hostPop, State.hosting, hq]

/-! ## Bits and bytes (R65, R66) -/

/-- Settles O39: Laws/Bits.lean, clause by clause. -/
theorem packingPlacesBitsAndUnpackingInverts : Obligations.PackingPlacesBitsAndUnpackingInverts := fun o =>
  ⟨fun _ _ => packBits_getLsbD o, fun _ => unpackBits_packBits o, packBits_unpackBits o,
    fun m _ => unpackBytes_packBytes o m, unpackBytes_cons o⟩

/-! ## The index of a code (R70) -/

/-- One more bit doubles the value of a code and is its last binary digit. -/
theorem codeValue_append (c : Code) (b : Bool) : codeValue (c ++ [b]) = 2 * codeValue c + b.toNat := by
  have hinit : ((List.range c.length).map fun i => ((c ++ [b]).getD i false).toNat * 2 ^ (c.length - i)) =
      (List.range c.length).map fun i => 2 * ((c.getD i false).toNat * 2 ^ (c.length - 1 - i)) := by
    refine List.map_congr_left fun i hi => ?_
    have hlt := List.mem_range.1 hi
    rw [List.getD_append _ _ _ _ hlt, show c.length - i = c.length - 1 - i + 1 by omega, pow_succ]
    ring
  simp only [codeValue, List.length_append, List.length_singleton, Nat.add_sub_cancel, List.range_succ, List.map_append,
    List.sum_append, hinit, List.sum_map_mul_left]
  simp

theorem index_eq (c : Code) : index c = 2 ^ c.length - 1 + codeValue c := by
  induction c using List.reverseRecOn with
  | nil => rfl
  | append_singleton c b ih =>
    have hpos : 0 < 2 ^ c.length := Nat.two_pow_pos _
    rw [index_append, codeValue_append, List.length_append, List.length_singleton, pow_succ, ih]
    omega

theorem index_eq_zero_iff {c : Code} : index c = 0 ↔ c = [] := index_injective.eq_iff' index_nil

/-- Settles O28: the closed form by `index_eq`, the rest from Laws/Bits.lean. -/
theorem indexClosedForm : Obligations.IndexClosedForm := by
  refine ⟨index_nil, index_append, index_eq, fun c => ?_, fun _ _ h => index_injective h, fun _ => index_eq_zero_iff,
    fun _ => index_le_arrMax⟩
  obtain ⟨hlow, hhigh⟩ := index_bounds c
  exact ⟨Nat.sub_le_of_le_add hlow, Nat.le_sub_of_add_le hhigh⟩

/-! ## The queues (R62, R63, R75) -/

/-- INQ is in the frame of every command but those that take bytes. -/
theorem frameOf_inq {i : Instr} {s t : State} (h : frameOf i t = frameOf i s) :
    t.inq = s.inq ∨ i = .resolve ∨ ∃ n, i = .count n ∨ i = .readDict n ∨ i = .encode n ∨ i = .decode n := by
  have hq := congrArg State.inq h
  cases i with
  | resolve => exact .inr (.inl rfl)
  | count n => exact .inr (.inr ⟨n, .inl rfl⟩)
  | readDict n => exact .inr (.inr ⟨n, .inr (.inl rfl)⟩)
  | encode n => exact .inr (.inr ⟨n, .inr (.inr (.inl rfl))⟩)
  | decode n => exact .inr (.inr ⟨n, .inr (.inr (.inr rfl))⟩)
  | _ => exact .inl hq

/-- OUTQ is in the frame of every command but those that append bytes. -/
theorem frameOf_outq {i : Instr} {s t : State} (h : frameOf i t = frameOf i s) :
    t.outq = s.outq ∨ i = .writeDict ∨ ∃ n, i = .encode n ∨ i = .decode n := by
  have hq := congrArg State.outq h
  cases i with
  | writeDict => exact .inr (.inl rfl)
  | encode n => exact .inr (.inr ⟨n, .inl rfl⟩)
  | decode n => exact .inr (.inr ⟨n, .inr rfl⟩)
  | _ => exact .inl hq

/-- What an accepted command does to the queues and the counts, from its acceptance on. -/
theorem exec_flows {i : Instr} {s t : State} (hi : i ≠ .clear) (hp : s.phase = .idle) (h : exec i s = .next t) :
    Flows (s.begin (encode i)) t := by
  rcases exec_next hi h with ⟨hn, -⟩ | ⟨-, -, rfl⟩ | ⟨-, -, hb⟩
  · exact absurd hp hn
  · exact (Emits.raise _ _ _).flows
  · exact bodyOf_flows hi rfl hb

/-- Settles O51: the bytes and their counts from `exec_flows`, the counts starting at 0; which commands have them, from
the frame. -/
theorem queuesAreFifoAndCounted : Obligations.QueuesAreFifoAndCounted := by
  intro i s t hi hp h
  obtain ⟨x, out, hinq, houtq, hconsumed, hproduced, hended⟩ := exec_flows hi hp h
  have hframe := exec_frame hi hp h
  refine ⟨x, out, hinq, houtq, fun ha => ?_,
    fun hx => (frameOf_inq hframe).resolve_left fun he => hx ?_,
    fun ho => (frameOf_outq hframe).resolve_left fun he => ho ?_⟩
  · obtain ⟨hc, hr⟩ := hended.resolve_left (by simp [(exec_stands hi hp h).ended ha])
    exact ⟨hc.trans (hconsumed.trans (BitVec.zero_add _)), hr.trans (hproduced.trans (BitVec.zero_add _))⟩
  · rwa [he, List.self_eq_append_left] at hinq
  · rwa [he, List.self_eq_append_right] at houtq

/-! ## COUNT on fewer bytes than its LEN (R62, R131) -/

/-- The frequency table that COUNT starts from (R131). -/
def FreqTable.empty : FreqTable := { valid := false, freq := [], total := 0 }

theorem FreqTable.wf_empty : FreqTable.empty.wf := rfl

@[simp] theorem FreqTable.freqOf_empty (y : Nat) : FreqTable.empty.freqOf y = 0 := rfl

/-- COUNT's table counts every Symbol, as long as the counts fit 64 bits. -/
theorem FreqTable.toNat_freqOf_countAll_empty {x : List Byte} (hx : x.length < 2 ^ 64) (y : Byte) :
    ((FreqTable.empty.countAll x).freqOf y.toNat).toNat = x.count y := by
  rw [FreqTable.freqOf_countAll x y FreqTable.wf_empty, FreqTable.freqOf_empty, zero_add]
  exact Nat.mod_eq_of_lt (Nat.lt_of_le_of_lt List.count_le_length hx)

/-- COUNT n at the head of its loop: its word latched, its counters 0, its table empty (R131). -/
def State.countReady (n : Nat) (s : State) : State := { s.begin (encode (.count n)) with freqs := FreqTable.empty }

@[simp] theorem State.countReady_consumed (n : Nat) (s : State) : (s.countReady n).work.consumed = 0 := rfl

theorem State.countReady_len {n : Nat} (hn : n < 2 ^ 64) (s : State) : (s.countReady n).len.toNat = n := by
  change (s.begin (encode (.count n))).len.toNat = n
  rw [len_begin_encode]
  exact Nat.mod_eq_of_lt hn

/-- COUNT in IDLE is its loop from there. -/
theorem exec_count {s : State} (n : Nat) (hp : s.phase = .idle) :
    exec (.count n) s = .next (pump countByte s.inq (countLoop (s.countReady n))) :=
  exec_of_ready nofun hp rfl

/-- Settles O22: with fewer bytes than LEN the loop takes them all and holds (`pump_count_short`). -/
theorem countHoldsWhenStarved : Obligations.CountHoldsWhenStarved := by
  intro s n hp hn hlt
  have hq : s.inq.length < 2 ^ 64 := hlt.trans hn
  have hheld : pump countByte s.inq (countLoop (s.countReady n)) =
      ((s.countReady n).counted s.inq []).await .counting :=
    pump_count_short s.inq (s := s.countReady n) rfl (by simpa [State.countReady_len hn] using hlt)
  have hconsumed : ((s.countReady n).counted s.inq []).work.consumed.toNat = s.inq.length := by
    rw [State.counted, State.countReady_consumed, zero_add]
    exact Nat.mod_eq_of_lt hq
  exact ⟨FreqTable.empty.countAll s.inq, _, (exec_count n hp).trans (congrArg _ hheld), FreqTable.countAll_valid _ _,
    hconsumed, FreqTable.toNat_freqOf_countAll_empty hq⟩

/-! ## The memories (R69) -/

theorem exec_memories {i : Instr} {s t : State} (hs : s.MemoriesOk) (h : exec i s = .next t) : t.MemoriesOk := by
  by_cases hi : i = .clear
  · subst hi
    simp only [exec, execClear] at h
    split at h
    · obtain rfl := Host.Outcome.next.inj h
      exact ⟨rfl, rfl, rfl⟩
    · exact Host.Outcome.next.inj h ▸ hs
  · rcases exec_next hi h with ⟨-, rfl⟩ | ⟨-, -, rfl⟩ | ⟨-, -, hb⟩
    · exact hs
    · exact hs
    · exact bodyOf_memories (s := s.begin (encode i)) hs hb

theorem illegalWord_memories {s : State} (hs : s.MemoriesOk) (w : CmdWord) : (illegalWord w s).MemoriesOk := by
  unfold illegalWord
  split <;> exact hs

/-- Of the commands that hold only COUNT and READ_DICT write a memory: `Pos.command` says whose position it is. -/
theorem resume_memories {s : State} (hs : s.MemoriesOk) : (resume s).MemoriesOk := by
  cases hp : s.phase with
  | busy pos =>
    have hr : resume s = pump (afterByte pos) s.inq s := by simp [resume, hp]
    cases pos with
    | counting => exact hr ▸ pump_memories (fun b _ h => countLoop_memories (h.countUp b)) _ hs
    | dictLength | dictPath | dictSymbol => exact hr ▸ pump_memories (fun b _ => dictByte_memories b) _ hs
    | _ => exact hs.of_frame (resume_frame hp) (by simp [Pos.command])
  | _ => rwa [resume_of_not_busy (by rw [hp]; rfl)]

/-- Settles O56: the core's part by `resume_memories` and `exec_memories`; of the host's acts only reset writes the
memories, and lists nothing in them. -/
theorem stepKeepsMemoriesCanonical : Obligations.StepKeepsMemoriesCanonical := by
  intro s t hs h
  cases stepTo_of_step h with
  | resumes => exact resume_memories hs
  | @commands _ rest _ _ _ _ _ _ he => exact exec_memories (s := s.hosting rest) hs he
  | @illegal _ rest => exact illegalWord_memories (s := s.hosting rest) hs _
  | waits | pushes | pops | reads => exact hs
  | resets => exact ⟨rfl, rfl, rfl⟩

end Sys2Proof.Machine
end

section
/-!
PROOFS. The family of 30_encoding.md: the decoder, the encoder and the opcode table (O1 to O3, O5), the words that are
no command (O4), the two bodies ENCODE writes (O40, O41), and the bytes a command owns (O50).
-/

namespace Sys2Proof.Machine

open Sys2Proof Sys2Proof.Config

/-! ## The decoder and the encoder (R90 to R94) -/

/-- A word with the fields of a well-formed command decodes to it: its opcode picks the arm, and a format-Z arm finds
the operand zero. -/
theorem decode_of_fields {w : CmdWord} {i : Instr} (hop : opOf w = i.opcode) (harg : argOf w = i.operand)
    (hi : WellFormed i) : decode w = .ok i := by
  unfold decode
  rw [hop]
  cases i with
  | clear | merge | getCodes | buildDecoder | resolve | writeDict => exact if_pos harg
  | setCfg v => exact congrArg (fun a => Except.ok (Instr.setCfg a)) harg
  | count n | readDict n | encode n | decode n =>
    have hlt : n < 2 ^ 64 := of_decide_eq_true hi
    simpa [Instr.opcode, lenOf, harg, Instr.operand] using hlt

/-- The commands a word can decode to: at most one, the one whose fields it has. -/
theorem decode_eq_ok_iff {w : CmdWord} {i : Instr} :
    decode w = .ok i ↔ opOf w = i.opcode ∧ argOf w = i.operand ∧ WellFormed i :=
  ⟨decode_ok, fun ⟨hop, harg, hi⟩ => decode_of_fields hop harg hi⟩

/-- Settles O1: the fields of an encoded command are its opcode and its operand. -/
theorem encodedCommandDecodesBack : Obligations.EncodedCommandDecodesBack := fun i =>
  decode_of_fields (opOf_encode i) (argOf_encode i)

/-- Settles O2: a word is its opcode and its operand, and those of a word that decodes are its command's. -/
theorem decodedWordIsTheEncoding : Obligations.DecodedWordIsTheEncoding := fun _ _ h =>
  ⟨(decode_eq_ok_iff.1 h).2.2, (eq_encode_of_decode h).symm⟩

/-- Settles O5: each word is written out. -/
theorem sampleWordsDecode : Obligations.SampleWordsDecode := by
  unfold Obligations.SampleWordsDecode
  decide

/-! ## Which words are illegal (R95) -/

/-- The opcode of a word is none of the eleven, or is a format-Z opcode with an operand that is not zero. -/
def IllegalFields (op : Byte) (arg : Word64) : Prop :=
  op ∉ [0x01#8, 0x02, 0x10, 0x11, 0x12, 0x20, 0x21, 0x30, 0x31, 0x32, 0x33] ∨
    (op ∈ [0x01#8, 0x11, 0x12, 0x20, 0x21, 0x30] ∧ arg ≠ 0)

/-- A format-Z word is illegal exactly where its operand is not zero. -/
theorem formatZ_eq_error_iff {i : Instr} {w : CmdWord} : (∃ e, formatZ i w = .error e) ↔ argOf w ≠ 0 := by
  constructor
  · rintro ⟨e, he⟩ harg
    simp [formatZ, harg] at he
  · exact fun harg => ⟨_, if_neg harg⟩

/-- The illegal words, arm by arm of the decoder: a format-Z arm asks for the operand, the arms of formats C and N
accept every operand, and the last arm is reached by no opcode of the map. -/
theorem decode_eq_error_iff {w : CmdWord} : (∃ e, decode w = .error e) ↔ IllegalFields (opOf w) (argOf w) := by
  unfold decode IllegalFields
  split
  case h_1 hop | h_4 hop | h_5 hop | h_6 hop | h_7 hop | h_8 hop => simp [hop, formatZ_eq_error_iff]
  case h_2 hop | h_3 hop | h_9 hop | h_10 hop | h_11 hop => simp [hop]
  case h_12 => simp_all

/-! ## The opcode table (R94) -/

/-- The word of a command selects the command's row alone. -/
theorem encode_selects (i : Instr) : Laws.TableRow.Statement i := by
  cases i with
  | clear => exact Laws.TableRow.clear
  | setCfg v => exact Laws.TableRow.setCfg v
  | count n => exact Laws.TableRow.count n
  | merge => exact Laws.TableRow.merge
  | getCodes => exact Laws.TableRow.getCodes
  | buildDecoder => exact Laws.TableRow.buildDecoder
  | resolve => exact Laws.TableRow.resolve
  | writeDict => exact Laws.TableRow.writeDict
  | readDict n => exact Laws.TableRow.readDict n
  | encode n => exact Laws.TableRow.encode n
  | decode n => exact Laws.TableRow.decode n

/-- An illegal word selects no row: either every row asks for another opcode, or the one row of its opcode asks for the
operand zero. -/
theorem selects_none_of_illegalFields {w : CmdWord} (h : IllegalFields (opOf w) (argOf w)) :
    (opcodeTable.filter fun r => r.selects w) = [] := by
  rw [opcodeTable_eq]
  simp only [List.filter_cons, selects_iff, and_ones8, and_ones64, BitVec.and_zero, List.filter_nil]
  rcases h with hop | ⟨hop, harg⟩
  · simp only [List.mem_cons, List.not_mem_nil, or_false, not_or, BitVec.ofNat_eq_ofNat] at hop
    simp [hop]
  · simp only [List.mem_cons, List.not_mem_nil, or_false, BitVec.ofNat_eq_ofNat] at hop harg
    rcases hop with hop | hop | hop | hop | hop | hop <;> simp [hop, harg]

/-- Settles O3: a word that decodes is its command's word, and one that does not has illegal fields. -/
theorem decoderAgreesWithOpcodeTable : Obligations.DecoderAgreesWithOpcodeTable := fun _ =>
  ⟨fun i h => eq_encode_of_decode h ▸ encode_selects i,
    fun e h => selects_none_of_illegalFields (decode_eq_error_iff.1 ⟨e, h⟩)⟩

/-! ## What an illegal word does (R95, R265) -/

/-- A word that does not decode is handled as an illegal one. -/
theorem issue_of_decode_error {w : CmdWord} {e : Illegal} (h : decode w = .error e) (s : State) :
    issue w s = .next (illegalWord w s) := by
  simp [issue, h]

/-- An illegal word with no fault recorded raises E_ILLCMD before any byte is taken. -/
theorem illegalWord_of_waiting {s : State} (hs : s.Waiting) (w : CmdWord) :
    illegalWord w s =
      { s with
        phase := .fault, cmd := w, errcode := 0x40, errinfo := (opOf w).zeroExtend 64, consumedReg := 0,
        producedReg := 0, work := (s.begin w).work } := by
  obtain ⟨hp, he⟩ := hs
  simp [illegalWord, hp, State.raise, State.begin, he, Err.code, Err.phase]

/-- A fault raised before a command takes a byte, with none recorded. -/
theorem raise_begin_of_waiting {s : State} (hs : s.Waiting) {e : Err} (he : e ≠ .bounds) (i : Instr) (info : Word64) :
    (s.begin (encode i)).raise e info = s.faulted i e.code info 0 0 (s.begin (encode i)).work := by
  have hphase : e.phase = .fault := by
    cases e with
    | bounds => exact absurd rfl he
    | _ => rfl
  simp [State.raise, State.faulted, State.begin, hs.2, hphase]

/-- SET_CFG with `arg[63:6] ≠ 0` raises E_BADCFG (R232). -/
theorem exec_setCfg_of_reserved {s : State} (hs : s.Waiting) {v : Word64} (hv : v.extractLsb' 6 58 ≠ 0) :
    exec (.setCfg v) s = .next (s.faulted (.setCfg v) 0x42 v 0 0 (s.begin (encode (.setCfg v))).work) := by
  have hshift : v >>> 6 ≠ 0 := fun h => hv (by
    rw [BitVec.extractLsb', ← BitVec.toNat_ushiftRight, h]
    rfl)
  rw [exec_of_ready (i := .setCfg v) nofun hs.1 rfl]
  change Host.Outcome.next (setCfgBody v _) = _
  rw [setCfgBody, if_pos hshift, raise_begin_of_waiting hs (by decide)]
  rfl

/-- Settles O4: which words by `decode_eq_error_iff`; what they do in IDLE and in FAULT; and SET_CFG, which decodes with
any operand. -/
theorem illegalWordsRaiseIllcmd : Obligations.IllegalWordsRaiseIllcmd := by
  refine fun w => ⟨decode_eq_error_iff, fun e h => ⟨fun s hs => ?_, fun s hp => ?_⟩, fun hop hv => ?_⟩
  · exact ⟨_, (issue_of_decode_error h s).trans (congrArg _ (illegalWord_of_waiting hs w))⟩
  · rw [issue_of_decode_error h, illegalWord_of_not_idle (by rw [hp]; nofun)]
  · have hd : decode w = .ok (.setCfg (argOf w)) := decode_of_fields hop rfl rfl
    exact ⟨hd, fun s hs => ⟨_, (issue_of_decode hd s).trans (exec_setCfg_of_reserved hs hv)⟩⟩

/-! ## The bodies ENCODE writes (R106, R107) -/

/-- ENCODE n at the head of its loop: its word latched, its counters 0, nothing pending (R203). -/
def State.encodeReady (n : Nat) (s : State) : State := ((s.begin (encode (.encode n))).setAcc []).setChunk []

theorem State.encodeReady_len {n : Nat} (hn : n < 2 ^ 64) (s : State) : (s.encodeReady n).len.toNat = n := by
  change (s.begin (encode (.encode n))).len.toNat = n
  rw [len_begin_encode]
  exact Nat.mod_eq_of_lt hn

/-- ENCODE in IDLE, with its codes valid, is its loop from there. -/
theorem exec_encode {s : State} (n : Nat) (hp : s.phase = .idle) (hv : s.codes.valid = true) :
    exec (.encode n) s = .next (pump encodeByte s.inq (encodeLoop 0 (s.encodeReady n))) :=
  exec_of_ready nofun hp hv

/-- ENCODE's loop starts with all of LEN to come. -/
theorem State.encodeReady_left {n : Nat} (hn : n < 2 ^ 64) (s : State) :
    (s.encodeReady n).work.consumed.toNat + n = (s.encodeReady n).len.toNat := by
  rw [State.encodeReady_len hn]
  exact Nat.zero_add n

/-- The end of ENCODE from a state in which all of LEN is taken and `out` is written, the frame of the command kept. -/
theorem encodeEnd_of_frame {n m t : Nat} {s u : State} {out : List Byte}
    (hframe : u = { s.encodeReady n with inq := u.inq, outq := u.outq, work := u.work, draws := u.draws })
    (hout : u.outq = s.outq ++ out) (hconsumed : u.work.consumed = BitVec.ofNat 64 n)
    (hproduced : u.work.produced = BitVec.ofNat 64 m) :
    encodeEnd t u = { s.ended (.encode n) n m u.work with
      inq := u.inq, outq := s.outq ++ out, encTrail := BitVec.ofNat 8 t, draws := u.draws } := by
  rw [State.ended, ← hout, ← hconsumed, ← hproduced]
  exact congrArg (encodeEnd t) hframe

/-- Settles O40: the loop has written the whole bytes of the codes' bits (`pump_encode_simple`), the last byte is padded
with draws (`encodeEndSimple_spec`), and both make up the body (`simple_body`). -/
theorem encodeSimpleWritesTheBody : Obligations.EncodeSimpleWritesTheBody := by
  intro s x rest hp hv hb hcov hx hq
  have hloop := pump_encode_simple 0 rest x (s := s.encodeReady x.length) hb hcov hq (Nat.zero_lt_succ _)
    (s.encodeReady_left hx)
  obtain ⟨t, pad, ht, hpad, hdvd, hend⟩ :=
    encodeEndSimple_spec (s := (s.encodeReady x.length).encoded (s.codes.bitsOf x) x.length rest) (by
      change (List.drop _ _).length < 8
      rw [List.length_drop]
      omega)
  subst hpad
  obtain ⟨hbody, hfill⟩ := simple_body s.params.bitOrder (s.codes.bitsOf x) pad hdvd ht
  refine ⟨pad, _, (exec_encode x.length hp hv).trans (congrArg _ ((hloop.trans hend).trans
    (encodeEnd_of_frame rfl ?_ (BitVec.zero_add _) ?_))), Nat.le_of_lt_succ ht, hfill⟩
  · exact (List.append_assoc _ _ _).trans (congrArg _ hbody)
  · have hlen := congrArg List.length hbody
    simp only [List.length_append, packBytes_length] at hlen
    change 0#64 + BitVec.ofNat 64 _ + BitVec.ofNat 64 (packBytes _ _ _).length = _
    rw [BitVec.zero_add, packBytes_length, ← BitVec.ofNat_add]
    exact congrArg _ hlen

/-- The codes of a covered input are codes of the table. -/
theorem CodeTable.Covers.codeOf_of_mem {t : CodeTable} {x : List Byte} {c : Code} (h : t.Covers x)
    (hc : c ∈ t.codesOf x) : ∃ b, t.codeOf b = some c := by
  obtain ⟨b, hb, rfl⟩ := List.mem_map.1 hc
  obtain ⟨c, hc⟩ := Option.isSome_iff_exists.1 (h b hb)
  exact ⟨b, by rw [hc, Option.getD_some]⟩

/-- Settles O41: the loop has written the chunks of the codes (`pump_encode_chunked`); they hold whole codes
(`chunked_groups`) and look as R107 says (`ChunkRun.facts`). A code has 1 to 255 bits, and a chunk at least 256. -/
theorem encodeChunkedWritesTheChunks : Obligations.EncodeChunkedWritesTheChunks := by
  intro s x rest hp hpar hv hok hb hcov hx hq
  obtain ⟨-, hcap, -⟩ := hpar
  have hlen (y : Byte) (c : Code) (hc : s.codes.codeOf y = some c) :
      1 ≤ c.length ∧ c.length ≤ 255 ∧ c.length ≤ 8 * s.params.chunkBytes := by
    obtain ⟨hlow, hhigh⟩ := hok.1 y c hc
    exact ⟨hlow, hhigh, by omega⟩
  obtain ⟨ks, k, hrun, hend⟩ := pump_encode_chunked rest x 0 (s := s.encodeReady x.length) hb hcov hq
    (fun y c hc => ⟨(hlen y c hc).1, (hlen y c hc).2.2⟩) (Nat.zero_le _) (s.encodeReady_left hx)
  obtain ⟨gs, hflat, hgroups⟩ := chunked_groups (t := s.codes) (cap := 8 * s.params.chunkBytes) x [] hcov
    (fun y c hc => List.ne_nil_of_length_pos (hlen y c hc).1) (fun _ => rfl)
  obtain ⟨hwf, hfull, hlast⟩ := ChunkRun.facts (n := s.params.chunkBytes) hrun fun c hc =>
    (hcov.codeOf_of_mem hc).elim fun y hy => hlen y c hy
  exact ⟨ks, gs, _, _, (exec_encode x.length hp hv).trans (congrArg _ (hend.trans
    (encodeEnd_of_frame rfl rfl (BitVec.zero_add _) (BitVec.zero_add _)))), hflat, hrun.bits.trans hgroups, hwf, hfull,
    hlast, hrun.bits⟩

/-! ## The bytes a command owns (R92) -/

/-- The bytes taken are within LEN wherever a command stands. -/
theorem Within.consumed_le {op : Byte} {full : Prop} {s : State} (h : Within op full s) :
    s.work.consumed.toNat ≤ s.len.toNat := by
  unfold Within at h
  split at h
  · omega
  · exact h.1
  · exact h

/-- They are all of LEN where a command that takes all of it has ended without a fault. -/
theorem Within.consumed_of_idle {op : Byte} {s : State} (h : Within op True s) (hp : s.phase = .idle) :
    s.work.consumed.toNat = s.len.toNat := by
  rw [Within, hp] at h
  exact h.2 trivial

/-- Where an accepted command stands, LEN is its byte count. -/
theorem exec_len {i : Instr} {n : Nat} {s t : State} (hi : i.operand = BitVec.ofNat 64 n) (hn : n < 2 ^ 64)
    (hp : s.phase = .idle) (h : exec i s = .next t) : t.len.toNat = n := by
  rw [State.len, exec_cmd hp h, argOf_encode, hi]
  exact Nat.mod_eq_of_lt hn

/-- CONSUMED of a command that has ended is its counter (R30). -/
theorem exec_consumedReg {i : Instr} {s t : State} (hi : i ≠ .clear) (hp : s.phase = .idle) (h : exec i s = .next t)
    (ha : t.awaiting = false) : t.consumedReg = t.work.consumed := by
  obtain ⟨_, _, _, _, _, _, hended⟩ := exec_flows hi hp h
  exact (hended.resolve_left (by simp [(exec_stands hi hp h).ended ha])).1

/-- COUNT, ENCODE and DECODE take all of LEN where they end without a fault; one whose prerequisite fails does not end
so. -/
theorem exec_took {i : Instr} {n : Nat} {s t : State} (hi : i = .count n ∨ i = .encode n ∨ i = .decode n)
    (hp : s.phase = .idle) (h : exec i s = .next t) (ht : t.phase = .idle) :
    Took i.opcode True (s.begin (encode i)) t := by
  have hclear : i ≠ .clear := by rcases hi with rfl | rfl | rfl <;> nofun
  rcases exec_next hclear h with ⟨hn, -⟩ | ⟨-, -, rfl⟩ | ⟨-, -, hbody⟩
  · exact absurd hp hn
  · cases ht
  · rcases hi with rfl | rfl | rfl <;> obtain rfl := Host.Outcome.next.inj hbody
    · exact count_took rfl
    · exact encode_took rfl rfl
    · exact decode_took rfl rfl

/-- READ_DICT, which has no prerequisite, takes no byte beyond LEN. -/
theorem exec_readDict_took {n : Nat} {s t : State} (hp : s.phase = .idle) (h : exec (.readDict n) s = .next t) :
    Took 0x31 False (s.begin (encode (.readDict n))) t := by
  rw [exec_of_ready (i := .readDict n) nofun hp rfl] at h
  obtain rfl := Host.Outcome.next.inj h
  exact dict_took rfl

/-- Settles O50: `Took` says which bytes are taken and how many of LEN they are, and CONSUMED of a command that has
ended is their number. -/
theorem commandsOwnLenBytes : Obligations.CommandsOwnLenBytes := by
  intro s t n hp hn
  refine ⟨fun i hi h ht => ?_, fun h => ?_⟩
  · have hi : i = .count n ∨ i = .encode n ∨ i = .decode n := by simpa using hi
    have hop : i ≠ .clear ∧ i.operand = BitVec.ofNat 64 n := by
      rcases hi with rfl | rfl | rfl <;> exact ⟨nofun, rfl⟩
    obtain ⟨hwithin, x, hq, hx⟩ := exec_took hi hp h ht
    have hall : t.work.consumed.toNat = n := (hwithin.consumed_of_idle ht).trans (exec_len hop.2 hn hp h)
    exact ⟨x, hq, hx.symm.trans hall, by rw [exec_consumedReg hop.1 hp h (awaiting_of_idle ht), hall]⟩
  · obtain ⟨hwithin, x, hq, hx⟩ := exec_readDict_took hp h
    have hle : x.length ≤ n := hx ▸ exec_len rfl hn hp h ▸ hwithin.consumed_le
    exact ⟨x, hq, hle, fun ha => by rw [exec_consumedReg (i := .readDict n) nofun hp h ha, hx]⟩

end Sys2Proof.Machine
end

section
/-!
PROOFS. The family of 41_tree_builder.md: COUNT (O21), MERGE (O23 to O25), and that a command with its LEN bytes in INQ
ends (O55).
-/

namespace Sys2Proof.Machine

open Sys2Proof

/-! ## COUNT on its LEN bytes (R131) -/

/-- The words of COUNT's table add up to the number of bytes, as long as that fits 64 bits (R137). -/
theorem FreqTable.sum_countAll_empty {x : List Byte} (hx : x.length < 2 ^ 64) :
    (FreqTable.empty.countAll x).sum = x.length := by
  have hsum : FreqTable.empty.sum = 0 := FreqTable.sum_empty _ _
  rw [FreqTable.sum_countAll x FreqTable.wf_empty (by rwa [hsum, Nat.zero_add]), hsum, Nat.zero_add]

/-- Settles O21: the loop takes exactly the LEN bytes (`pump_count`), and its table counts them from an empty one. -/
theorem countCountsEveryByte : Obligations.CountCountsEveryByte := by
  intro s x rest hp hx hq
  have hlen := s.countReady_len hx
  have hloop : pump countByte s.inq (countLoop (s.countReady x.length)) =
      countEnd ((s.countReady x.length).counted x rest) :=
    pump_count x rest (s := s.countReady x.length) hq (by simp [hlen])
  have hconsumed : ((s.countReady x.length).counted x rest).work.consumed = BitVec.ofNat 64 x.length :=
    BitVec.zero_add _
  refine ⟨{ FreqTable.empty.countAll x with total := (s.countReady x.length).len, valid := true },
    ((s.countReady x.length).counted x rest).work, (exec_count x.length hp).trans (congrArg _ (hloop.trans ?_)), rfl,
    hlen, FreqTable.toNat_freqOf_countAll_empty hx, (FreqTable.sum_countAll_empty hx).trans hlen.symm⟩
  rw [State.ended, ← hconsumed]
  rfl

/-! ## MERGE (R133) -/

/-- MERGE in IDLE, with a valid table, is its pseudocode. -/
theorem exec_merge {s : State} (hp : s.phase = .idle) (hv : s.freqs.valid = true) :
    exec .merge s = .next (mergeBody (s.begin (encode .merge))) :=
  exec_of_ready nofun hp hv

/-- MERGE on a table with a present Symbol, whose words have a 64-bit sum (R137): the tree, and nothing else. -/
theorem exec_merge_of_present {s : State} (hp : s.phase = .idle) (hv : s.freqs.valid = true)
    (h : s.freqs.present ≠ []) (hsum : s.freqs.sum < 2 ^ 64) :
    ∃ (a : TreeArena) (w : Work) (n : Nat) (T : HTree),
      exec .merge s = .next { s.ended .merge 0 0 w with tree := a, ties := n } ∧ MergedTree s.freqs a T := by
  obtain ⟨a, heap, n, T, hmerged, hbody⟩ := mergeBody_spec (s := s.begin (encode .merge)) h hsum
  exact ⟨a, { s.work with consumed := 0, produced := 0, heap := heap }, n, T,
    (exec_merge hp hv).trans (congrArg _ hbody), hmerged⟩

/-- Settles O23: the table's sum is TOTAL, so it fits 64 bits, and is the root's frequency. -/
theorem mergeBuildsTheTree : Obligations.MergeBuildsTheTree := by
  rintro s hp hv hok ⟨y, hy⟩
  have hpresent : s.freqs.present ≠ [] := fun h => hy (FreqTable.present_eq_nil.1 h y)
  have htotal : s.freqs.sum = s.freqs.total.toNat := hok hv
  obtain ⟨a, w, n, T, hexec, hmerged⟩ := exec_merge_of_present hp hv hpresent (htotal ▸ s.freqs.total.isLt)
  exact ⟨a, w, n, T, hexec, hmerged, BitVec.eq_of_toNat_eq (hmerged.total.trans htotal)⟩

/-- The machine with the empty tree and the empty queue that MERGE starts from where no Symbol is present. -/
def State.unmerged (s : State) : State :=
  { s with
    tree := { s.tree with valid := false, node := [], nnodes := 0 }
    work := { s.work with heap := [] } }

theorem mergeStart_begin_of_present_eq_nil {s : State} (h : s.freqs.present = []) (w : CmdWord) :
    mergeStart (s.begin w) = s.unmerged.begin w := by
  have hleaves : s.freqs.leaves = [] := by rw [FreqTable.leaves_eq, h, List.map_nil]
  simp [mergeStart, State.unmerged, State.begin, hleaves]

/-- Settles O24: the queue is empty, so the fault is raised with nothing written but NODE, NNODES and TREE_VALID. -/
theorem mergeOfNothingRaisesEmpty : Obligations.MergeOfNothingRaisesEmpty := by
  intro s hs hv hzero
  have hpresent : s.freqs.present = [] := FreqTable.present_eq_nil.2 hzero
  refine ⟨s.unmerged.tree, (s.unmerged.begin (encode .merge)).work, ?_, rfl, rfl, rfl⟩
  rw [exec_merge hs.1 hv, mergeBody_empty (s := s.begin (encode .merge)) hpresent,
    mergeStart_begin_of_present_eq_nil hpresent, raise_begin_of_waiting (s := s.unmerged) hs (by decide)]
  rfl

/-- The one present Symbol with its frequency, where exactly one word of the table is not zero. -/
theorem FreqTable.present_eq_singleton {f : FreqTable} {y : Byte} (h : ∀ z : Byte, f.freqOf z.toNat ≠ 0 ↔ z = y) :
    f.present = [(y, f.freqOf y.toNat)] := by
  refine List.perm_singleton.1 ((List.perm_ext_iff_of_nodup f.present_nodup.of_map (List.nodup_singleton _)).2 ?_)
  rintro ⟨z, w⟩
  rw [FreqTable.mem_present, List.mem_singleton, Prod.mk.injEq]
  constructor
  · rintro ⟨rfl, hz⟩
    obtain rfl := (h z).1 hz
    exact ⟨rfl, rfl⟩
  · rintro ⟨rfl, rfl⟩
    exact ⟨rfl, (h z).2 rfl⟩

/-- Settles O25: the tree of one present Symbol has `2 · 1 - 1` nodes, and the first is its leaf. -/
theorem mergeOfOneSymbolIsItsLeaf : Obligations.MergeOfOneSymbolIsItsLeaf := by
  intro s y hp hv hone
  have hpresent := FreqTable.present_eq_singleton hone
  have hsum : s.freqs.sum = (s.freqs.freqOf y.toNat).toNat := by simp [← FreqTable.sum_present, hpresent]
  obtain ⟨a, w, n, T, hexec, hmerged⟩ :=
    exec_merge_of_present hp hv (by simp [hpresent]) (hsum ▸ (s.freqs.freqOf y.toNat).isLt)
  obtain ⟨hvalid, hholds, -, -, hnnodes, hroot, hleaf, -, -⟩ := hmerged
  simp only [hpresent, List.length_singleton, List.map_singleton] at hnnodes hroot hleaf
  have hlen : a.node.length = 1 := hholds.size.symm.trans hnnodes
  rw [List.take_of_length_le hlen.le] at hleaf
  exact ⟨a, w, n, hexec, hvalid, hleaf, BitVec.eq_of_toNat_eq hnnodes, BitVec.eq_of_toNat_eq hroot⟩

/-! ## Commands with enough input (R138, R189, R220) -/

/-- What the commands that own LEN bytes have taken where they are BUSY; one whose prerequisite fails is not. -/
theorem exec_took_of_busy {i : Instr} {n : Nat} {s t : State}
    (hi : i = .count n ∨ i = .readDict n ∨ i = .encode n ∨ i = .decode n) (hp : s.phase = .idle)
    (h : exec i s = .next t) (hb : t.phase.isBusy = true) :
    ∃ full, Took i.opcode full (s.begin (encode i)) t := by
  have hclear : i ≠ .clear := by rcases hi with rfl | rfl | rfl | rfl <;> nofun
  rcases exec_next hclear h with ⟨hn, -⟩ | ⟨-, -, rfl⟩ | ⟨-, -, hbody⟩
  · exact absurd hp hn
  · cases hb
  · rcases hi with rfl | rfl | rfl | rfl <;> obtain rfl := Host.Outcome.next.inj hbody
    · exact ⟨_, count_took rfl⟩
    · exact ⟨_, dict_took rfl⟩
    · exact ⟨_, encode_took rfl rfl⟩
    · exact ⟨_, decode_took rfl rfl⟩

/-- A command that is BUSY still needs a byte of its LEN. -/
theorem Within.consumed_lt_of_busy {op : Byte} {full : Prop} {s : State} (h : Within op full s)
    (hb : s.phase.isBusy = true) : s.work.consumed.toNat < s.len.toNat := by
  obtain ⟨pos, hp⟩ := State.isBusy_iff.1 hb
  rw [Within, hp] at h
  obtain ⟨-, hleast, hle⟩ := h
  omega

/-- A command that owns LEN bytes is BUSY only where INQ had fewer: it has taken all of them. -/
theorem inq_length_lt_of_busy {i : Instr} {n : Nat} {s t : State}
    (hi : i = .count n ∨ i = .readDict n ∨ i = .encode n ∨ i = .decode n) (hp : s.phase = .idle) (hn : n < 2 ^ 64)
    (h : exec i s = .next t) (hb : t.phase.isBusy = true) : s.inq.length < n := by
  obtain ⟨hclear, hoperand⟩ : i ≠ .clear ∧ i.operand = BitVec.ofNat 64 n := by
    rcases hi with rfl | rfl | rfl | rfl <;> exact ⟨nofun, rfl⟩
  obtain ⟨full, hwithin, x, hq, hx⟩ := exec_took_of_busy hi hp h hb
  have hawait : t.awaiting = true := by
    by_contra ha
    rw [(exec_stands hclear hp h).ended (Bool.eq_false_iff.2 ha)] at hb
    cases hb
  have hall : s.inq = x := hq.trans (by rw [exec_holds hclear hp h hawait, List.append_nil])
  calc s.inq.length = t.work.consumed.toNat := hall ▸ hx.symm
    _ < t.len.toNat := hwithin.consumed_lt_of_busy hb
    _ = n := exec_len hoperand hn hp h

/-- Settles O55: the invariant gives the next state and keeps it out of FATAL; it is not BUSY, for then INQ would have
had fewer bytes than LEN. -/
theorem commandsEndWithEnoughInput : Obligations.CommandsEndWithEnoughInput := by
  intro s n hinv hp hn hle i hi
  have hi : i = .count n ∨ i = .readDict n ∨ i = .encode n ∨ i = .decode n := by simpa using hi
  obtain ⟨t, ht, htinv⟩ := exec_inv (i := i) hinv
  refine ⟨t, ht, ?_⟩
  cases hphase : t.phase with
  | idle => exact .inl rfl
  | fault => exact .inr rfl
  | fatal => exact absurd hphase htinv.notFatal
  | busy pos => exact absurd (inq_length_lt_of_busy hi hp hn ht (by rw [hphase]; rfl)) (Nat.not_lt.2 hle)

end Sys2Proof.Machine
end

section
/-!
PROOFS. The family of 42_code_extractor.md: the table GET_CODES writes (O26), and that no code of it begins another and
the codes are complete (O27).
-/

namespace Sys2Proof.Machine

open Sys2Proof

/-! ## The table after a list of codes is written (R35, R152, R186) -/

/-- The table that GET_CODES and READ_DICT end with where the codes `l` are what they write. -/
def State.codesWritten (l : List (Byte × Code)) (s : State) : CodeTable := (codesEnd ((codesStart s).putAll l)).codes

/-- GET_CODES in IDLE on a tree in NODE: the table, and nothing else. -/
theorem exec_getCodes {s : State} {T : HTree} (hp : s.phase = .idle) (hv : s.tree.valid = true) (hT : s.tree.Holds T) :
    ∃ w : Work, exec .getCodes s = .next { s.ended .getCodes 0 0 w with codes := s.codesWritten T.table } := by
  obtain ⟨path, stack, down, hbody⟩ :=
    getCodesBody_spec (s := s.begin (encode .getCodes)) hT.placed hT.root hT.symbols
  exact ⟨{ s.work with consumed := 0, produced := 0, path := path, stack := stack, goingDown := down },
    (exec_of_ready (i := .getCodes) nofun hp hv).trans hbody⟩

section Written

variable {l : List (Byte × Code)} (hn : (l.map Prod.fst).Nodup) (s : State)

include hn

theorem State.codeOf_codesWritten (y : Byte) (c : Code) : (s.codesWritten l).codeOf y = some c ↔ (y, c) ∈ l :=
  CodeTable.codeOf_putAll_iff (t := (codesStart s).codes) hn fun _ => rfl

/-- The present Symbols in ascending order are those written, in another order. -/
theorem State.presentCodes_codesWritten_perm : (presentCodes (s.codesWritten l).code).Perm l :=
  (List.perm_ext_iff_of_nodup (presentCodes_nodup _).of_map hn.of_map).2 fun (y, c) =>
    CodeTable.mem_presentCodes.trans (s.codeOf_codesWritten hn y c)

theorem State.nsym_codesWritten : (s.codesWritten l).nsym.toNat = l.length :=
  (CodeTable.nsym_ofNat _).trans (s.presentCodes_codesWritten_perm hn).length_eq

theorem State.maxlen_codesWritten (hl : ∀ y c, (y, c) ∈ l → 1 ≤ c.length ∧ c.length ≤ 255) :
    (s.codesWritten l).maxlen.toNat = maxLength l :=
  calc (s.codesWritten l).maxlen.toNat
    _ = maxLength (presentCodes (s.codesWritten l).code) :=
      CodeTable.maxlen_ofNat (t := (s.codesWritten l)) fun y c h => hl y c ((s.codeOf_codesWritten hn y c).1 h)
    _ = maxLength l := ((s.presentCodes_codesWritten_perm hn).map _).foldr_eq 0

end Written

theorem HTree.nodup_table_symbols {T : HTree} (hs : (T.leaves.map Prod.fst).Nodup) : (T.table.map Prod.fst).Nodup :=
  T.table_symbols ▸ hs

theorem HTree.length_table (T : HTree) : T.table.length = T.leaves.length := by
  simpa using congrArg List.length T.table_symbols

/-- A tree that NODE holds has one node fewer than twice its leaves. -/
theorem TreeArena.Holds.nnodes_eq {a : TreeArena} {T : HTree} (h : a.Holds T) :
    a.nnodes.toNat + 1 = 2 * T.leaves.length := by
  rw [h.size, ← h.covers, T.length_nodes]

/-- Settles O26: the words of CODE are those of `T.table` (`exec_getCodes`), and its Symbols are the leaves of `T`. -/
theorem getCodesWritesThePaths : Obligations.GetCodesWritesThePaths := by
  intro s T hp hv hT
  obtain ⟨w, hexec⟩ := exec_getCodes hp hv hT
  have hn := HTree.nodup_table_symbols hT.symbols
  have hnsym : (s.codesWritten T.table).nsym.toNat = T.leaves.length := (s.nsym_codesWritten hn).trans T.length_table
  exact ⟨s.codesWritten T.table, w, hexec, rfl, s.codeOf_codesWritten hn, hnsym, hnsym ▸ hT.nnodes_eq.symm,
    s.maxlen_codesWritten hn fun _ _ => HTree.table_length hT.symbols⟩

/-! ## The beginnings of an infinite bit sequence -/

theorem map_range_prefix (f : Nat → Bool) {m n : Nat} (h : m ≤ n) : (List.range m).map f <+: (List.range n).map f := by
  rw [← Nat.add_sub_of_le h, List.range_add, List.map_append]
  exact List.prefix_append _ _

theorem eq_map_range_of_prefix {f : Nat → Bool} {c : Code} {n : Nat} (h : c <+: (List.range n).map f) :
    c = (List.range c.length).map f := by
  have hlen : c.length ≤ n := by simpa using h.length_le
  exact (List.prefix_of_prefix_length_le h (map_range_prefix f hlen) (by simp)).eq_of_length (by simp)

/-- Codes that are apart do not both begin one sequence. -/
theorem Apart.not_both_begin {c d : Code} (h : Apart c d) {f : Nat → Bool} (hc : c = (List.range c.length).map f)
    (hd : d = (List.range d.length).map f) : False := by
  rcases Nat.le_total c.length d.length with hle | hle
  · exact h.1 (hc ▸ hd ▸ map_range_prefix f hle)
  · exact h.2 (hc ▸ hd ▸ map_range_prefix f hle)

/-! ## The table of a tree as a code (R154) -/

theorem HTree.table_of_two_leaves {T : HTree} (h : 2 ≤ T.leaves.length) : T.table = T.codes [] := by
  cases T with
  | leaf => exact absurd h (by simp [HTree.leaves])
  | branch => rfl

theorem HTree.table_of_one_leaf {T : HTree} (h : T.leaves.length = 1) : ∃ y, T.table = [(y, [false])] := by
  cases T with
  | leaf i y f => exact ⟨y, rfl⟩
  | branch i f l r =>
    have hl := l.leaves_pos
    have hr := r.leaves_pos
    simp only [HTree.leaves, List.length_append] at h
    omega

section TableOfTree

variable {t : CodeTable} {T : HTree} (ht : ∀ y c, t.codeOf y = some c ↔ (y, c) ∈ T.table)

include ht

/-- R154 (a). -/
theorem CodeTable.isSome_codeOf_iff_leaf (y : Byte) : (t.codeOf y).isSome = true ↔ y ∈ T.leaves.map Prod.fst := by
  simp [Option.isSome_iff_exists, ht, ← T.table_symbols]

/-- R154 (c). -/
theorem CodeTable.prefixFree_of_table : t.PrefixFree := by
  intro y z c d hy hz hne
  have hsymm : Std.Symm fun a b : Byte × Code => Apart a.2 b.2 := ⟨fun _ _ => Apart.symm⟩
  exact T.table_apart.forall ((ht y c).1 hy) ((ht z d).1 hz) fun h => hne (congrArg Prod.fst h)

/-- R154 (e): the code is the path that the sequence takes from the root to a leaf. -/
theorem CodeTable.exists_code_beginning (h : 2 ≤ T.leaves.length) (f : Nat → Bool) :
    ∃ y c, t.codeOf y = some c ∧ c = (List.range c.length).map f := by
  obtain ⟨y, c, hmem, hbegin⟩ := T.codes_complete [] ((List.range T.height).map f) (by simp)
  exact ⟨y, c, (ht y c).2 (HTree.table_of_two_leaves h ▸ hmem), eq_map_range_of_prefix hbegin⟩

/-- R154 (e), for the alphabet of size 1. -/
theorem CodeTable.not_begins_of_one_leaf (h : T.leaves.length = 1) {f : Nat → Bool} (hf : f 0 = true) {y : Byte}
    {c : Code} (hy : t.codeOf y = some c) : c ≠ (List.range c.length).map f := by
  obtain ⟨z, htable⟩ := HTree.table_of_one_leaf h
  obtain ⟨-, rfl⟩ : y = z ∧ c = [false] := by simpa [htable] using (ht y c).1 hy
  simp [hf]

end TableOfTree

/-- R154 (d). -/
theorem CodeTable.PrefixFree.injective {t : CodeTable} (h : t.PrefixFree) : t.Injective := by
  intro y z c hy hz
  by_contra hne
  exact (h y z c c hy hz hne).ne rfl

/-- Settles O27: O26 gives the table, and every clause is about the table of a tree with distinct Symbols. -/
theorem extractedCodesArePrefixFreeAndComplete : Obligations.ExtractedCodesArePrefixFreeAndComplete := by
  intro s t T hp hv hT hexec
  obtain ⟨c, w, hnext, -, hcodes, hnsym, -, -⟩ := getCodesWritesThePaths s T hp hv hT
  obtain rfl := Host.Outcome.next.inj (hexec.symm.trans hnext)
  have hfree := CodeTable.prefixFree_of_table hcodes
  refine ⟨CodeTable.isSome_codeOf_iff_leaf hcodes, fun y p hy => HTree.table_length hT.symbols ((hcodes y p).1 hy), hfree,
    hfree.injective, fun htwo f => ?_,
    fun hone _ hf _ _ => CodeTable.not_begins_of_one_leaf hcodes (hnsym.symm.trans hone) hf⟩
  obtain ⟨y, p, hy, hbegin⟩ := CodeTable.exists_code_beginning hcodes (hnsym ▸ htwo) f
  refine ⟨y, p, hy, hbegin, fun z q hz hq => ?_⟩
  by_contra hne
  exact (hfree z y q p hz hy hne).not_both_begin hq hbegin

end Sys2Proof.Machine
end

section
/-!
PROOFS. The family of 43_compact_decoder.md: BUILD_DECODER on a table of distinct codes (O29) and of equal ones (O30), the
lookup of a code (O31), RESOLVE (O32).
-/

namespace Sys2Proof.Machine

open Sys2Proof

/-! ## The lookup (R166) -/

section Lookup

variable {d : Decoder} {c : Code}

/-- A code longer than DEPTH is looked up in OVF. -/
theorem Decoder.resolve_of_long (hc : d.depth.val < c.length) :
    d.resolve c = (d.overflow.find? fun e => e.code = c).map fun e => e.sym := if_pos hc

/-- Index 0 is reserved: the empty code is not found. -/
@[simp] theorem Decoder.resolve_nil (d : Decoder) : d.resolve [] = none := by
  simp [Decoder.resolve, Decoder.lookup, Decoder.idxFor]

/-- Any other code is looked up in ARR, at its index. -/
theorem Decoder.resolve_of_short (hne : c ≠ []) (hc : c.length ≤ d.depth.val) :
    d.resolve c =
      if d.arr.read (index c) = d.sentinel then none else some ((d.arr.read (index c)).truncate 8) := by
  have hidx : (BitVec.ofNat 14 (index c)).toNat = index c := toNat_idx (hc.trans (Nat.le_of_lt_succ d.depth.isLt))
  have hzero : BitVec.ofNat 14 (index c) ≠ 0 := fun h =>
    (index_pos hne).ne' (hidx.symm.trans (congrArg BitVec.toNat h))
  rw [Decoder.resolve, Decoder.idxFor, if_pos hc, Decoder.lookup, if_neg (Nat.not_lt.2 hc), if_neg hzero, hidx]

/-- Every entry of OVF is in use (R36, R44). -/
theorem Decoder.Shape.overflow_eq (h : d.Shape) : d.overflow = d.ovf := by
  rw [Decoder.overflow, h.novf, List.take_length]

/-- The lookup in OVF is by exact match. -/
theorem Decoder.Shape.resolve_of_long (h : d.Shape) (hc : d.depth.val < c.length) (y : Byte) :
    d.resolve c = some y ↔ { code := c, sym := y } ∈ d.overflow := by
  rw [Decoder.resolve_of_long hc]
  exact mem_find?_code (h.overflow_eq ▸ h.distinct)

/-- No entry of OVF is longer than 255 bits. -/
theorem Decoder.Shape.resolve_eq_none_of_gt (h : d.Shape) (hc : 255 < c.length) : d.resolve c = none := by
  have hdepth := d.depth.isLt
  refine Option.eq_none_iff_forall_ne_some.2 fun y hy => ?_
  have hmem := (h.resolve_of_long (by omega) y).1 hy
  have hle : c.length ≤ d.maxlen.toNat := (h.longer _ (h.overflow_eq ▸ hmem)).2
  have hmax := d.maxlen.isLt
  omega

end Lookup

/-- Settles O31: by the length of the code, the case of `Resolve` that it falls under. -/
theorem resolveLooksUpCodes : Obligations.ResolveLooksUpCodes := by
  refine fun d c h => ⟨fun hc y => h.resolve_of_long hc y, ?_, fun hne hc hr => ?_, fun hne hc hr => ?_,
    h.resolve_eq_none_of_gt⟩
  · rintro rfl
    exact d.resolve_nil
  · rw [Decoder.resolve_of_short hne hc, if_pos hr]
  · rw [Decoder.resolve_of_short hne hc, if_neg hr]

/-! ## RESOLVE (R168) -/

/-- RESULT of a hit (R38): HIT above the Symbol. -/
theorem resultWord_some (y : Byte) : resultWord (some y) = 1#1 ++ y := rfl

/-- RESOLVE with its operand taken: its word latched, the code in `cand`, `n` bytes gone from INQ. -/
def State.lookupReady (c : Code) (n : Nat) (rest : List Byte) (s : State) : State :=
  ((s.begin (encode .resolve)).setCand c).ate n rest

@[simp] theorem State.lookupReady_consumed (c : Code) (n : Nat) (rest : List Byte) (s : State) :
    (s.lookupReady c n rest).work.consumed = BitVec.ofNat 64 n := BitVec.zero_add _

/-- RESOLVE on an operand that reads as the code `c` takes it (`lookupStart_spec`) and looks `c` up. -/
theorem exec_resolve_of_operand {s : State} {c : Code} {field rest : List Byte} (hp : s.phase = .idle)
    (hv : s.dec.valid = true) (hc : c.length ≤ 255) (hlen : field.length = pathBytes s.dictRaw c.length)
    (hread : readPath s.params s.dictRaw c.length field = some c)
    (hq : s.inq = BitVec.ofNat 8 c.length :: field ++ rest) :
    exec .resolve s = .next (lookupEnd (s.lookupReady c (1 + field.length) rest)) :=
  (exec_of_ready (i := .resolve) nofun hp hv).trans
    (congrArg _ (lookupStart_spec (s := s.begin (encode .resolve)) hc hlen hread hq))

/-- Settles O32: the operand is taken and its code looked up; a hit is the bit above the Symbol in RESULT. -/
theorem resolveWritesTheResult : Obligations.ResolveWritesTheResult := by
  intro s c field rest hp hv hc hlen hread hq
  refine ⟨resultWord (s.dec.resolve c), ((s.lookupReady c (1 + field.length) rest).loadIdx c).work,
    (exec_resolve_of_operand hp hv hc hlen hread hq).trans (congrArg _ ?_), fun y hy => ?_, fun hnone => hnone ▸ rfl⟩
  · rw [lookupEnd_eq, State.ended, ← hlen, ← State.lookupReady_consumed c _ rest s]
    rfl
  · rw [hy, resultWord_some, BitVec.getLsbD_append]
    exact ⟨rfl, BitVec.extractLsb'_append_eq_right⟩

/-! ## What a decoder holds after the store loop (R163) -/

section Stored

variable {done : List (Byte × Code)} {d : Decoder} (h : d.Stores done)

include h

/-- DEC_VALID is none of what the store loop writes. -/
theorem Decoder.Stores.validated : ({ d with valid := true } : Decoder).Stores done :=
  ⟨h.fill, h.wf, h.slots, h.ovf, h.novf⟩

/-- A stored code that is not too long stands in ARR at its index. -/
theorem Decoder.Stores.read_index {y : Byte} {c : Code} (hm : (y, c) ∈ done) (hc : c.length ≤ d.depth.val) :
    d.arr.read (index c) = y.zeroExtend 9 := by
  rw [Slots.read, Memory.read, (h.slots _ _).2 ⟨y, c, hm, hc, rfl, rfl⟩, Option.getD_some]

/-- A word of ARR that is no stored code's holds the sentinel. -/
theorem Decoder.Stores.read_of_forall_ne {i : Nat} (hi : ∀ y c, (y, c) ∈ done → index c ≠ i) :
    d.arr.read i = d.sentinel := by
  have hnone : d.arr.cells.get? i = none := Option.eq_none_iff_forall_ne_some.2 fun v hv => by
    obtain ⟨y, c, hm, -, hix, -⟩ := (h.slots i v).1 hv
    exact hi y c hm hix
  rw [Slots.read, Memory.read, hnone, Option.getD_none, h.fill]

/-- OVF holds the stored codes that are longer than DEPTH (R165). -/
theorem Decoder.Stores.mem_ovf {e : OvfEntry} :
    e ∈ d.ovf ↔ d.depth.val < e.code.length ∧ (e.sym, e.code) ∈ done := by
  rw [h.ovf, List.mem_map]
  constructor
  · rintro ⟨⟨y, c⟩, hm, rfl⟩
    exact (List.mem_filter.1 hm).symm.imp_left of_decide_eq_true
  · rintro ⟨hc, hm⟩
    exact ⟨(e.sym, e.code), List.mem_filter.2 ⟨hm, decide_eq_true hc⟩, rfl⟩

end Stored

/-- SENTINEL has nine bits (R162). -/
theorem toNat_sentinel (m : Memory Code) : (BitVec.ofNat 9 (sentinelFor m)).toNat = sentinelFor m := by
  rw [BitVec.toNat_ofNat, Nat.mod_eq_of_lt (by have := (sentinelFor_spec m).1; omega)]

/-- Every value below SENTINEL is a present Symbol (R162). -/
theorem CodeTable.exists_symbol_of_lt_sentinel (t : CodeTable) {v : Nat} (hv : v < sentinelFor t.code) :
    ∃ y : Byte, y.toNat = v ∧ (t.codeOf y).isSome = true := by
  have h256 : v < 256 := hv.trans_le (sentinelFor_spec t.code).1
  have hy : (BitVec.ofNat 8 v).toNat = v := by rw [BitVec.toNat_ofNat, Nat.mod_eq_of_lt h256]
  exact ⟨BitVec.ofNat 8 v, hy, by rw [CodeTable.codeOf, hy]; exact sentinelFor_least hv h256⟩

/-! ## BUILD_DECODER (R163) -/

/-- BUILD_DECODER in IDLE, with its codes valid, is its store loop. -/
theorem exec_buildDecoder {s : State} (hp : s.phase = .idle) (hv : s.codes.valid = true) :
    exec .buildDecoder s =
      .next (storeLoop (presentCodes s.codes.code) (buildStart (s.begin (encode .buildDecoder)))) :=
  exec_of_ready (i := .buildDecoder) nofun hp hv

/-- On a table of distinct codes the store loop stores every present code (`storeLoop_spec`). -/
theorem exec_buildDecoder_of_injective {s : State} (hp : s.phase = .idle) (hv : s.codes.valid = true)
    (hok : s.codes.Ok) (hinj : s.codes.Injective) :
    ∃ (d : Decoder) (w : Work), exec .buildDecoder s = .next { s.ended .buildDecoder 0 0 w with dec := d } ∧
      d.valid = true ∧ d.Stores (presentCodes s.codes.code) ∧ d.depth = depthFor s.codes.maxlen ∧
      d.sentinel = BitVec.ofNat 9 (sentinelFor s.codes.code) ∧ d.maxlen = s.codes.maxlen := by
  obtain ⟨d, idx, hloop, hstores, hdepth, hsentinel, hmaxlen⟩ :=
    storeLoop_spec (s := s.begin (encode .buildDecoder)) rfl hok.1 hinj
  exact ⟨{ d with valid := true }, { (s.begin (encode .buildDecoder)).work with idx := idx },
    (exec_buildDecoder hp hv).trans (congrArg _ hloop), rfl, hstores.validated, hdepth, hsentinel, hmaxlen⟩

/-- Settles O29: each clause is one of what a decoder holds that stores the whole table. -/
theorem buildDecoderStoresEveryCode : Obligations.BuildDecoderStoresEveryCode := by
  intro s hp hv hok hinj
  obtain ⟨d, w, hexec, hvalid, hstores, hdepth, hsentinel, hmaxlen⟩ := exec_buildDecoder_of_injective hp hv hok hinj
  obtain ⟨hsymbols, hnonempty⟩ := s.codes.present_facts hok.1
  obtain ⟨hoverflow, hnovf⟩ := hstores.overflow (presentCodes_length_le _)
  have hsen : d.sentinel.toNat = sentinelFor s.codes.code := hsentinel ▸ toNat_sentinel _
  have hspec := sentinelFor_spec s.codes.code
  have hnodup := hinj.snd_nodup
  refine ⟨d, w, hexec, hvalid, congrArg Fin.val hdepth, hmaxlen, hsen ▸ hspec.1,
    fun y hy => hsen ▸ (hspec.2 y hy).symm, fun v hv => s.codes.exists_symbol_of_lt_sentinel (hsen ▸ hv),
    fun y c hy hc => hstores.read_index (CodeTable.mem_presentCodes.2 hy) hc,
    fun i _ _ hi => hstores.read_of_forall_ne fun y c hm => hi y c (CodeTable.mem_presentCodes.1 hm),
    fun e => ?_, hoverflow ▸ hnovf, hoverflow ▸ hstores.codes_nodup hnodup, hmaxlen, fun c y => ?_⟩
  · rw [hoverflow, hstores.mem_ovf, CodeTable.mem_presentCodes]
  · rw [hstores.resolve (presentCodes_length_le _) (hsentinel ▸ hsymbols) hnonempty hnodup,
      CodeTable.mem_presentCodes]

/-- The store loop reaches a present Symbol after the present Symbols below it. -/
theorem CodeTable.presentCodes_split {t : CodeTable} {y : Byte} {c : Code} (hy : t.codeOf y = some c) :
    ∃ l rest, presentCodes t.code = l ++ (y, c) :: rest ∧ ∀ z b, (z, b) ∈ l ↔ z < y ∧ t.codeOf z = some b := by
  obtain ⟨l, rest, hl⟩ := List.append_of_mem (CodeTable.mem_presentCodes.2 hy)
  have hasc := presentCodes_ascending t.code
  rw [hl, List.pairwise_append, List.pairwise_cons] at hasc
  obtain ⟨-, ⟨hafter, -⟩, hbefore⟩ := hasc
  refine ⟨l, rest, hl, fun z b => ?_⟩
  rw [← CodeTable.mem_presentCodes, hl, List.mem_append, List.mem_cons, Prod.mk.injEq]
  constructor
  · exact fun hm => ⟨hbefore _ hm _ List.mem_cons_self, .inl hm⟩
  · rintro ⟨hlt, hm | ⟨rfl, -⟩ | hm⟩
    · exact hm
    · exact absurd hlt (BitVec.lt_irrefl _)
    · exact absurd (hafter _ hm) (BitVec.lt_asymm hlt)

/-- Settles O30: below the later Symbol of the first pair the codes are distinct, so the store loop gets as far as that
Symbol and finds its code stored (`storeLoop_dup`). -/
theorem buildDecoderRejectsEqualCodes : Obligations.BuildDecoderRejectsEqualCodes := by
  intro s y z c hs hv hok hzy hy hz hfirst
  obtain ⟨l, rest, hl, hmem⟩ := CodeTable.presentCodes_split hy
  have hasc : l.Pairwise fun a b => a.1 < b.1 :=
    (List.pairwise_append.1 (hl ▸ presentCodes_ascending s.codes.code)).1
  have hnodup : (l.map Prod.snd).Nodup := by
    refine List.pairwise_map.2 (hasc.imp_of_mem fun {a b} ha hb hlt heq => ?_)
    obtain ⟨-, hacode⟩ := (hmem a.1 a.2).1 ha
    obtain ⟨hby, hbcode⟩ := (hmem b.1 b.2).1 hb
    exact hfirst b.1 a.1 b.2 hby hlt hbcode (heq ▸ hacode)
  have hdup : c ∈ l.map Prod.snd := List.mem_map.2 ⟨(z, c), (hmem z c).2 ⟨hzy, hz⟩, rfl⟩
  obtain ⟨d, idx, hloop, hvalid, -⟩ :=
    storeLoop_dup (s := s.begin (encode .buildDecoder)) rfl hok.1 hl hnodup hdup
  refine ⟨d, { (s.begin (encode .buildDecoder)).work with idx := idx },
    (exec_buildDecoder hs.1 hv).trans (congrArg _ (hloop.trans ?_)), hvalid⟩
  exact raise_begin_of_waiting (s := { s with dec := d, work := { s.work with idx := idx } }) hs (by decide) _ _

end Sys2Proof.Machine
end

section
/-!
PROOFS. The family of 44_dictionary.md: RESOLVE at a byte that is no token (O33), WRITE_DICT (O34, O35), READ_DICT (O36,
O37), the round trip (O38).
-/

namespace Sys2Proof.Machine

open Sys2Proof Sys2Proof.Config

/-- A fault other than E_BOUNDS, raised with `n` bytes taken and none recorded before (R262). -/
theorem raise_ate_begin_of_waiting {s : State} (hs : s.Waiting) {e : Err} (he : e ≠ .bounds) (i : Instr) (info : Word64)
    (n : Nat) (rest : List Byte) :
    ∃ w : Work, ((s.begin (encode i)).ate n rest).raise e info = { s.faulted i e.code info n 0 w with inq := rest } := by
  have htaken : ((s.begin (encode i)).ate n rest).raise e info =
      { (s.begin (encode i)).raise e info with
        inq := rest, consumedReg := 0#64 + BitVec.ofNat 64 n, work := ((s.begin (encode i)).ate n rest).work } := rfl
  rw [htaken, raise_begin_of_waiting hs he, BitVec.zero_add]
  exact ⟨_, rfl⟩

/-! ## RESOLVE (R183) -/

/-- Settles O33: the bytes up to the bad one are taken (`lookupStart_bad`), its offset counted from the operand's start. -/
theorem resolveStopsAtBadToken : Obligations.ResolveStopsAtBadToken := by
  intro s l bad good rest hs hv hraw hgood hbad0 hbad1 hl hq
  obtain ⟨c, hloop⟩ := lookupStart_bad (s := s.begin (encode .resolve)) hraw hgood hbad0 hbad1 hl hq
  rw [show (s.begin (encode .resolve)).work.consumed = 0#64 from rfl, BitVec.zero_add] at hloop
  obtain ⟨w, hraise⟩ := raise_ate_begin_of_waiting (s := s.setCand c) hs (by decide : Err.badToken ≠ .bounds) .resolve
    (BitVec.ofNat 64 (1 + good.length)) (2 + good.length) rest
  exact ⟨w, (exec_of_ready (i := .resolve) nofun hs.1 hv).trans (congrArg _ (hloop.trans hraise))⟩

/-! ## WRITE_DICT (R184) -/

/-- WRITE_DICT in IDLE, with its codes valid, is its pseudocode. -/
theorem exec_writeDict {s : State} (hp : s.phase = .idle) (hv : s.codes.valid = true) :
    exec .writeDict s = .next (writeDictBody (s.begin (encode .writeDict))) :=
  exec_of_ready nofun hp hv

/-- Settles O35: the first loop stops at that Symbol (`writeDictBody_badLength`), with nothing written. -/
theorem writeDictRejectsBadLengths : Obligations.WriteDictRejectsBadLengths := by
  intro s y c hs hv hy hbelow
  have hexec (hc : c.length = 0 ∨ 255 < c.length) := (exec_writeDict hs.1 hv).trans
    (congrArg _ (writeDictBody_badLength (s := s.begin (encode .writeDict)) hy hc hbelow))
  refine ⟨fun hc => ⟨(s.begin (encode .writeDict)).work, (hexec (.inl hc)).trans (congrArg _ ?_)⟩,
    fun hc => ⟨(s.begin (encode .writeDict)).work, (hexec (.inr hc)).trans (congrArg _ ?_)⟩⟩
  · rw [if_pos hc]
    exact raise_begin_of_waiting hs (by decide) _ _
  · rw [if_neg (by omega)]
    exact raise_begin_of_waiting hs (by decide) _ _

/-- A record has a length byte and a symbol byte beside its path field (R101). -/
theorem DictRecord.wf.length_bytes {p : Params} {raw : Bool} {r : DictRecord} (h : r.wf p raw) :
    r.bytes.length = 2 + pathBytes raw r.code.length := by
  obtain ⟨-, -, hfield, -⟩ := h
  rw [DictRecord.bytes, List.length_append, List.length_cons, hfield, List.length_singleton]
  omega

/-- The size of a section (R100, R105). -/
theorem length_sectionBytes {p : Params} {raw : Bool} {rs : List DictRecord} (h : ∀ r ∈ rs, r.wf p raw) :
    (sectionBytes rs).length = 1 + (rs.map fun r => 2 + pathBytes raw r.code.length).sum := by
  rw [sectionBytes, List.length_append, List.length_flatMap, List.map_congr_left fun r hr => (h r hr).length_bytes,
    List.length_singleton, Nat.add_comm]

/-- The records WRITE_DICT writes, in the order of their Symbols. -/
def State.writtenRecords (s : State) : List DictRecord :=
  (presentCodes s.codes.code).map (writtenRecord s.params s.dictRaw)

theorem State.mem_writtenRecords {s : State} {r : DictRecord} :
    r ∈ s.writtenRecords ↔ s.codes.codeOf r.sym = some r.code ∧ r.field = pathField s.params s.dictRaw r.code := by
  rw [← CodeTable.mem_presentCodes, State.writtenRecords, List.mem_map]
  constructor
  · rintro ⟨e, he, rfl⟩
    exact ⟨he, rfl⟩
  · rintro ⟨hr, hfield⟩
    exact ⟨_, hr, by rw [writtenRecord, ← hfield]⟩

theorem State.writtenRecords_ascending (s : State) : (s.writtenRecords.map DictRecord.sym).Pairwise (· < ·) := by
  rw [State.writtenRecords, List.map_map]
  exact List.pairwise_map.2 (presentCodes_ascending _)

theorem State.writtenRecords_wf {s : State} (hok : s.codes.Ok) (htok : s.params.token0 ≠ s.params.token1) :
    ∀ r ∈ s.writtenRecords, r.wf s.params s.dictRaw := by
  intro r hr
  obtain ⟨e, he, rfl⟩ := List.mem_map.1 hr
  obtain ⟨hlow, hhigh⟩ := hok.1 e.1 e.2 (CodeTable.mem_presentCodes.1 he)
  exact writtenRecord_wf htok _ hlow hhigh

/-- WRITE_DICT on a table without a bad length appends the section of its records. -/
theorem exec_writeDict_of_ok {s : State} (hp : s.phase = .idle) (hv : s.codes.valid = true) (hok : s.codes.Ok) :
    ∃ w : Work, exec .writeDict s =
      .next { s.ended .writeDict 0 (sectionBytes s.writtenRecords).length w with
        outq := s.outq ++ sectionBytes s.writtenRecords } := by
  refine ⟨((s.begin (encode .writeDict)).outBytes (sectionBytes s.writtenRecords)).work,
    (exec_writeDict hp hv).trans (congrArg _ ((writeDictBody_spec (s := s.begin (encode .writeDict)) hok.1).trans ?_))⟩
  rw [dictSection_eq, State.ended, ← BitVec.zero_add (BitVec.ofNat 64 (sectionBytes s.writtenRecords).length)]
  rfl

/-- Settles O34: the records are those of `State.writtenRecords`, whose path fields are what `EmitPath` writes. -/
theorem writeDictWritesTheRecords : Obligations.WriteDictWritesTheRecords := by
  intro s hp hv hok htok
  have hwf := State.writtenRecords_wf hok htok
  obtain ⟨w, hexec⟩ := exec_writeDict_of_ok hp hv hok
  rw [length_sectionBytes hwf] at hexec
  refine ⟨s.writtenRecords, w, hexec, s.writtenRecords_ascending, fun y c => ⟨fun hy => ?_, ?_⟩, hwf, fun hraw r hr => ?_,
    fun hraw r hr => ?_⟩
  · exact ⟨writtenRecord s.params s.dictRaw (y, c), State.mem_writtenRecords.2 ⟨hy, rfl⟩, rfl, rfl⟩
  · rintro ⟨r, hr, rfl, rfl⟩
    exact (State.mem_writtenRecords.1 hr).1
  · rw [(State.mem_writtenRecords.1 hr).2, hraw]
    rfl
  · have hsize := ceil8_spec r.code.length
    rw [(State.mem_writtenRecords.1 hr).2, hraw, pathField, if_pos rfl]
    exact unpackBytes_packBytes _ _ (by rw [List.length_append, List.length_replicate]; omega)

/-! ## READ_DICT on a section (R186) -/

/-- READ_DICT n at the head of its loop: its word latched, its counters 0, no Symbol present (R186). -/
def State.readDictReady (n : Nat) (s : State) : State := codesStart (s.begin (encode (.readDict n)))

theorem State.readDictReady_len {n : Nat} (hn : n < 2 ^ 64) (s : State) : (s.readDictReady n).len.toNat = n := by
  change (s.begin (encode (.readDict n))).len.toNat = n
  rw [len_begin_encode]
  exact Nat.mod_eq_of_lt hn

/-- READ_DICT's loop starts with all of LEN to come. -/
theorem State.readDictReady_left {n : Nat} (hn : n < 2 ^ 64) (s : State) :
    (s.readDictReady n).work.consumed.toNat + n = (s.readDictReady n).len.toNat := by
  rw [State.readDictReady_len hn]
  exact Nat.zero_add n

/-- READ_DICT in IDLE is its loop from there. -/
theorem exec_readDict {s : State} (n : Nat) (hp : s.phase = .idle) :
    exec (.readDict n) s = .next (readOn .dictLength (s.readDictReady n)) :=
  exec_of_ready (i := .readDict n) nofun hp rfl

theorem dictEntries_symbols (rs : List DictRecord) : (dictEntries rs).map Prod.fst = rs.map DictRecord.sym := by
  simp [dictEntries]

theorem mem_dictEntries {rs : List DictRecord} {y : Byte} {c : Code} :
    (y, c) ∈ dictEntries rs ↔ ∃ r ∈ rs, r.sym = y ∧ r.code = c := by
  simp [dictEntries]

/-- READ_DICT on a section within LEN takes it and writes the codes of its records. -/
theorem exec_readDict_section {s : State} {n : Nat} {rs : List DictRecord} {rest : List Byte} (hp : s.phase = .idle)
    (hn : n < 2 ^ 64) (hwf : ∀ r ∈ rs, r.wf s.params s.dictRaw) (hsyms : (rs.map DictRecord.sym).Nodup)
    (hlen : (sectionBytes rs).length ≤ n) (hq : s.inq = sectionBytes rs ++ rest) :
    ∃ w : Work, exec (.readDict n) s = .next { s.ended (.readDict n) (sectionBytes rs).length 0 w with
      codes := s.codesWritten (dictEntries rs), inq := rest } := by
  have hloop := readOn_section rest rs (s := s.readDictReady n) hwf hsyms (fun _ _ => rfl) hq
    (by have := s.readDictReady_left hn; omega)
  refine ⟨((s.readDictReady n).ate (sectionBytes rs).length rest).work,
    (exec_readDict n hp).trans (congrArg _ (hloop.trans ?_))⟩
  rw [State.ended, ← BitVec.zero_add (BitVec.ofNat 64 (sectionBytes rs).length)]
  rfl

/-- Settles O36: the table holds the codes of the records (`State.codesWritten`), whose Symbols are distinct. -/
theorem readDictRebuildsTheTable : Obligations.ReadDictRebuildsTheTable := by
  intro s n rs rest hp hn hwf hsyms hlen hq
  obtain ⟨w, hexec⟩ := exec_readDict_section hp hn hwf hsyms hlen hq
  have hnodup : ((dictEntries rs).map Prod.fst).Nodup := dictEntries_symbols rs ▸ hsyms
  have hlengths (y : Byte) (c : Code) (h : (y, c) ∈ dictEntries rs) : 1 ≤ c.length ∧ c.length ≤ 255 := by
    obtain ⟨r, hr, -, rfl⟩ := mem_dictEntries.1 h
    obtain ⟨hlow, hhigh, -⟩ := hwf r hr
    exact ⟨hlow, hhigh⟩
  have hmaxlen : maxLength (dictEntries rs) = (rs.map fun r => r.code.length).foldr max 0 := by
    rw [maxLength, dictEntries, List.map_map]
    rfl
  exact ⟨s.codesWritten (dictEntries rs), w, hexec, rfl,
    fun y c => (s.codeOf_codesWritten hnodup y c).trans mem_dictEntries,
    (s.nsym_codesWritten hnodup).trans (List.length_map _), (s.maxlen_codesWritten hnodup hlengths).trans hmaxlen⟩

/-! ## The faults of READ_DICT (R183, R186) -/

/-- READ_DICT that raises a fault with `k` bytes taken and the codes `l` written. -/
theorem exec_readDict_of_raise {s : State} (hs : s.Waiting) {e : Err} (he : e ≠ .bounds) {info : Word64} {n k : Nat}
    {l : List (Byte × Code)} {rest : List Byte}
    (h : readOn .dictLength (s.readDictReady n) = State.raise e info (((s.readDictReady n).putAll l).ate k rest)) :
    ∃ (c : CodeTable) (w : Work), exec (.readDict n) s =
      .next { s.faulted (.readDict n) e.code info k 0 w with codes := c, inq := rest } ∧ c.valid = false := by
  obtain ⟨w, hraise⟩ := raise_ate_begin_of_waiting (s := (codesStart s).putAll l) hs he (.readDict n) info k rest
  exact ⟨(codesStart s).codes.putAll l, w, (exec_readDict n hs.1).trans (congrArg _ (h.trans hraise)),
    CodeTable.putAll_valid _ _⟩

/-- READ_DICT n with the records `rs` read and `rest` behind them in INQ. -/
def State.recordsRead (n : Nat) (rs : List DictRecord) (rest : List Byte) (s : State) : State :=
  ((s.readDictReady n).putAll (dictEntries rs)).ate (rs.flatMap DictRecord.bytes).length rest

theorem State.recordsRead_consumed (n : Nat) (rs : List DictRecord) (rest : List Byte) (s : State) :
    (s.recordsRead n rs rest).work.consumed = BitVec.ofNat 64 (rs.flatMap DictRecord.bytes).length := BitVec.zero_add _

theorem State.toNat_recordsRead_consumed {n : Nat} {rs : List DictRecord} (hn : n < 2 ^ 64)
    (hlen : (rs.flatMap DictRecord.bytes).length ≤ n) (rest : List Byte) (s : State) :
    (s.recordsRead n rs rest).work.consumed.toNat = (rs.flatMap DictRecord.bytes).length := by
  rw [State.recordsRead_consumed]
  exact Nat.mod_eq_of_lt (hlen.trans_lt hn)

theorem State.recordsRead_len {n : Nat} (hn : n < 2 ^ 64) (rs : List DictRecord) (rest : List Byte) (s : State) :
    (s.recordsRead n rs rest).len.toNat = n := s.readDictReady_len hn

theorem State.recordsRead_ate (n k : Nat) (rs : List DictRecord) (rest rest' : List Byte) (s : State) :
    (s.recordsRead n rs rest).ate k rest' =
      ((s.readDictReady n).putAll (dictEntries rs)).ate ((rs.flatMap DictRecord.bytes).length + k) rest' :=
  State.ate_ate _ _ _ _ _

/-- READ_DICT on whole records within LEN, in front of what follows. -/
theorem readOn_readDictReady {s : State} {n : Nat} {rs : List DictRecord} {rest : List Byte} (hn : n < 2 ^ 64)
    (hwf : ∀ r ∈ rs, r.wf s.params s.dictRaw) (hsyms : (rs.map DictRecord.sym).Nodup)
    (hlen : (rs.flatMap DictRecord.bytes).length ≤ n) (hq : s.inq = rs.flatMap DictRecord.bytes ++ rest) :
    readOn .dictLength (s.readDictReady n) = readOn .dictLength (s.recordsRead n rs rest) :=
  readOn_records rest rs (s := s.readDictReady n) hwf hsyms (fun _ _ => rfl) hq
    (by have := s.readDictReady_left hn; omega)

section Faults

variable {s : State} {n : Nat} {rs : List DictRecord} {rest : List Byte} (hs : s.Waiting) (hn : n < 2 ^ 64)
  (hwf : ∀ r ∈ rs, r.wf s.params s.dictRaw) (hsyms : (rs.map DictRecord.sym).Nodup)

include hs hn hwf hsyms

/-- LEN runs out inside a section (E_TRUNC_DICT). -/
theorem exec_readDict_truncated (hlen : n < (sectionBytes rs).length) (hq : s.inq = (sectionBytes rs).take n ++ rest) :
    ∃ (c : CodeTable) (w : Work), exec (.readDict n) s =
      .next { s.faulted (.readDict n) 0x20 (BitVec.ofNat 64 n) n 0 w with codes := c, inq := rest } ∧
        c.valid = false := by
  obtain ⟨l, hloop⟩ := readOn_section_trunc rest rs n (s := s.readDictReady n) hwf hsyms (fun _ _ => rfl) hq
    (s.readDictReady_left hn) hlen
  rw [show (s.readDictReady n).len = BitVec.ofNat 64 n from len_begin_encode s (.readDict n)] at hloop
  exact exec_readDict_of_raise hs (by decide) hloop

/-- A Symbol comes twice (E_DUPSYM). -/
theorem exec_readDict_repeated {r : DictRecord} (hr : r.wf s.params s.dictRaw) (hmem : r.sym ∈ rs.map DictRecord.sym)
    (hq : s.inq = rs.flatMap DictRecord.bytes ++ r.bytes ++ rest)
    (hlen : (rs.flatMap DictRecord.bytes ++ r.bytes).length ≤ n) :
    ∃ (c : CodeTable) (w : Work), exec (.readDict n) s =
      .next { s.faulted (.readDict n) 0x22 (r.sym.zeroExtend 64) (rs.flatMap DictRecord.bytes ++ r.bytes).length 0 w with
        codes := c, inq := rest } ∧ c.valid = false := by
  rw [List.length_append] at hlen ⊢
  rw [List.append_assoc] at hq
  have hold : ((s.recordsRead n rs (r.bytes ++ rest)).codes.codeOf r.sym).isSome = true := by
    obtain ⟨r', hr', hsym⟩ := List.mem_map.1 hmem
    exact Option.isSome_of_eq_some (CodeTable.codeOf_putAll (dictEntries_symbols rs ▸ hsyms)
      (mem_dictEntries.2 ⟨r', hr', hsym, rfl⟩))
  have hdup := readOn_dup (s := s.recordsRead n rs (r.bytes ++ rest)) hr rfl
    (by rw [State.recordsRead_len hn, State.toNat_recordsRead_consumed hn (by omega)]; exact hlen) hold
  rw [State.recordsRead_ate] at hdup
  exact exec_readDict_of_raise hs (by decide) ((readOn_readDictReady hn hwf hsyms (by omega) hq).trans hdup)

/-- A byte of a TOKEN path field is neither token (E_BADTOKEN). -/
theorem exec_readDict_badToken {l bad : Byte} {good : List Byte} (hraw : s.dictRaw = false)
    (hgood : ∀ b ∈ good, b = s.params.token0 ∨ b = s.params.token1) (hbad0 : bad ≠ s.params.token0)
    (hbad1 : bad ≠ s.params.token1) (hl : good.length < l.toNat)
    (hq : s.inq = rs.flatMap DictRecord.bytes ++ l :: good ++ bad :: rest)
    (hlen : (rs.flatMap DictRecord.bytes ++ l :: good).length + 1 ≤ n) :
    ∃ (c : CodeTable) (w : Work), exec (.readDict n) s =
      .next { s.faulted (.readDict n) 0x21 (BitVec.ofNat 64 (rs.flatMap DictRecord.bytes ++ l :: good).length)
        ((rs.flatMap DictRecord.bytes ++ l :: good).length + 1) 0 w with codes := c, inq := rest } ∧ c.valid = false := by
  have hoffset : (rs.flatMap DictRecord.bytes ++ l :: good).length =
      (rs.flatMap DictRecord.bytes).length + (1 + good.length) := by
    rw [List.length_append, List.length_cons, Nat.add_comm 1]
  rw [hoffset] at hlen ⊢
  rw [List.append_assoc] at hq
  have hbad := readOn_bad (s := s.recordsRead n rs (l :: good ++ bad :: rest)) hraw hgood hbad0 hbad1 hl rfl
    (by rw [State.recordsRead_len hn, State.toNat_recordsRead_consumed hn (by omega)]; omega)
  rw [State.recordsRead_consumed, ← BitVec.ofNat_add, State.recordsRead_ate,
    show 2 + good.length = 1 + good.length + 1 by omega, ← Nat.add_assoc _ (1 + good.length) 1] at hbad
  exact exec_readDict_of_raise hs (by decide) ((readOn_readDictReady hn hwf hsyms (by omega) hq).trans hbad)

end Faults

/-- Settles O37: each of the three faults stops the loop behind whole records. -/
theorem readDictFaults : Obligations.ReadDictFaults := fun _ _ _ _ hs hn hwf hsyms =>
  ⟨exec_readDict_truncated hs hn hwf hsyms, fun _ => exec_readDict_repeated hs hn hwf hsyms,
    fun _ _ _ => exec_readDict_badToken hs hn hwf hsyms⟩

/-! ## The round trip (R188) -/

/-- Settles O38: the two bodies invert each other (`readDict_writeDict`), and each is what its command does in IDLE. -/
theorem dictionaryRoundTrip : Obligations.DictionaryRoundTrip := by
  intro s r n rest hp hv hok htok hpr hparams hraw
  refine ⟨_, dictSection s.params s.dictRaw (presentCodes s.codes.code),
    (exec_writeDict hp hv).trans (congrArg _ (writeDictBody_spec (s := s.begin (encode .writeDict)) hok.1)), rfl,
    fun hlen hn hq => ?_⟩
  obtain ⟨-, u, hread, hphase, -, hconsumed, hinq, hvalid, hcodes, hnsym, hmaxlen⟩ :=
    readDict_writeDict (s := s.begin (encode .writeDict)) (r := r.begin (encode (.readDict n))) hv hok htok rfl hparams
      hraw rfl (hlen.trans_eq (r.readDictReady_len hn).symm) hq
  refine ⟨u, (exec_readDict n hpr).trans (congrArg _ hread), hphase, ?_, hinq, hcodes, hvalid, hnsym, hmaxlen⟩
  rw [hconsumed]
  exact Nat.mod_eq_of_lt (hlen.trans_lt hn)

end Sys2Proof.Machine
end

section
/-!
PROOFS. The family of 45_bitstream.md: ENCODE at a Symbol without a code (O42), DECODE of a simple body (O43), of a body
of chunks (O44), in lenient mode (O45) and chunk by chunk (O46), and what it makes of a body that ENCODE wrote (O47,
O48).
-/

namespace Sys2Proof.Machine

open Sys2Proof Sys2Proof.Config

/-! ## How a command that takes and appends bytes ends (R130, R262) -/

section Frame

variable {s u : State} {i : Instr} {n m : Nat}
  (hframe : u = { s.begin (encode i) with inq := u.inq, outq := u.outq, work := u.work, draws := u.draws })
  (hconsumed : u.work.consumed = BitVec.ofNat 64 n) (hproduced : u.work.produced = BitVec.ofNat 64 m)

include hframe hconsumed hproduced

/-- Without a fault, from a state that keeps the command's frame. -/
theorem complete_of_frame :
    u.complete = { s.ended i n m u.work with inq := u.inq, outq := u.outq, draws := u.draws } := by
  rw [State.ended, ← hconsumed, ← hproduced]
  exact congrArg State.complete hframe

/-- By a fault other than E_BOUNDS, with none recorded before. -/
theorem raise_of_frame (hs : s.Waiting) {e : Err} (he : e ≠ .bounds) (info : Word64) :
    u.raise e info =
      { s.faulted i e.code info n m u.work with inq := u.inq, outq := u.outq, draws := u.draws } := by
  have hbegin := raise_begin_of_waiting hs he i info
  rw [State.faulted] at hbegin ⊢
  rw [← hconsumed, ← hproduced]
  calc u.raise e info
      = { (s.begin (encode i)).raise e info with
          inq := u.inq, outq := u.outq, consumedReg := u.work.consumed, producedReg := u.work.produced, work := u.work,
          draws := u.draws } := congrArg (State.raise e info) hframe
    _ = _ := by rw [hbegin]

end Frame

/-! ## ENCODE at a Symbol without a code (R208) -/

/-- A code is no longer than a length byte can say, and fits into a chunk. -/
theorem CodeTable.Ok.length_le {t : CodeTable} (h : t.Ok) {p : Params} (hp : p.wf) (y : Byte) (c : Code)
    (hc : t.codeOf y = some c) : c.length ≤ 255 ∧ c.length ≤ 8 * p.chunkBytes := by
  obtain ⟨-, hcap, -⟩ := hp
  obtain ⟨-, hle⟩ := h.1 y c hc
  exact ⟨hle, by omega⟩

/-- Settles O42: the loop stops at the byte with the whole bytes of the bits before it (`pump_encode_simple_stop`) or
the chunks closed before it (`pump_encode_chunked_stop`) written. -/
theorem encodeStopsAtSymbolWithoutCode : Obligations.EncodeStopsAtSymbolWithoutCode := by
  intro s n x b rest hs hpar hv hok hcov hb hlt hn hq
  have hleft : (s.encodeReady n).work.consumed.toNat + x.length < (s.encodeReady n).len.toNat := by
    have := s.encodeReady_left hn
    omega
  cases hchunked : s.bodyChunked with
  | false =>
    have hloop := pump_encode_simple_stop 0 b rest x (s := s.encodeReady n) hchunked hcov hb hq (Nat.zero_lt_succ _) hleft
    refine ⟨packBytes s.params.bitOrder ((s.codes.bitsOf x).length / 8) (s.codes.bitsOf x), _, _,
      (exec_encode n hs.1 hv).trans (congrArg _ (hloop.trans (raise_of_frame rfl ?_ ?_ hs (by decide) _))),
      fun _ => rfl, nofun⟩
    · change 0#64 + BitVec.ofNat 64 x.length + BitVec.ofNat 64 1 = _
      rw [BitVec.zero_add, ← BitVec.ofNat_add]
    · rw [packBytes_length]
      exact BitVec.zero_add _
  | true =>
    obtain ⟨ks, chunk, k, hbits, hwf, hloop⟩ := pump_encode_chunked_stop b rest x 0 (s := s.encodeReady n) hchunked hcov hb
      hq (fun y c hc => ⟨(hok.1 y c hc).1, (hok.length_le hpar y c hc).2⟩) (Nat.zero_le _) hleft
    exact ⟨renderAll s.params.bitOrder ks, _, _, (exec_encode n hs.1 hv).trans (congrArg _ (hloop.trans
      (raise_of_frame rfl (BitVec.zero_add _) (BitVec.zero_add _) hs (by decide) _))), nofun,
      fun _ => ⟨ks, rfl, hbits, hwf⟩⟩

/-! ## What DECODE reads of a body (R213) -/

/-- What the body `y` gives in the body format, the mode and with the decoder of `s`. -/
def State.bodyRead (y : List Byte) (s : State) : Body :=
  if s.bodyChunked then decodeChunks s.params.bitOrder s.dec s.strict s.params.chunkBytes y.length y
  else decodeSimple s.params.bitOrder s.dec s.strict s.tailDiscard y

theorem State.bodyRead_simple {s : State} (hb : s.bodyChunked = false) (y : List Byte) :
    s.bodyRead y = decodeSimple s.params.bitOrder s.dec s.strict s.tailDiscard y := by
  simp [State.bodyRead, hb]

theorem State.bodyRead_chunked {s : State} (hb : s.bodyChunked = true) (y : List Byte) :
    s.bodyRead y = decodeChunks s.params.bitOrder s.dec s.strict s.params.chunkBytes y.length y := if_pos hb

/-- What a body gives is `out`, and no fault. -/
structure Body.Gives (out : List Byte) (b : Body) : Prop where
  sound : b.fault = none
  emits : b.out = out

/-- A body that gives no fault is taken whole. -/
theorem State.bodyRead_used {s : State} {y : List Byte} (hf : (s.bodyRead y).fault = none) :
    (s.bodyRead y).used = y.length := by
  cases hb : s.bodyChunked with
  | false =>
    rw [State.bodyRead_simple hb] at hf ⊢
    exact decodeSimple_used hf
  | true =>
    rw [State.bodyRead_chunked hb] at hf ⊢
    exact decodeChunks_used _ _ (Nat.le_refl _) hf

theorem State.bodyRead_fault_ne_bounds {s : State} {y : List Byte} {f : Err × Nat} (hf : (s.bodyRead y).fault = some f) :
    f.1 ≠ .bounds := by
  cases hb : s.bodyChunked with
  | false =>
    rw [State.bodyRead_simple hb] at hf
    rcases decodeFrom_fault_kind hf with h | h <;> simp [h]
  | true =>
    rw [State.bodyRead_chunked hb] at hf
    rcases decodeChunks_fault_kind _ _ hf with h | h | h <;> simp [h]

/-- In lenient mode a byte gives at most eight, and the only fault is a bad count of a chunk (R213, R217). -/
theorem State.bodyRead_lenient {s : State} (hst : s.strict = false) (y : List Byte) :
    (s.bodyRead y).out.length ≤ 8 * y.length ∧ ((s.bodyRead y).fault = none ∨
      s.bodyChunked = true ∧ ∃ k, (s.bodyRead y).fault = some (.badTrail, k) ∧ (s.bodyRead y).used = k + 1 ∧
        BadCount s.params.chunkBytes y k) := by
  cases hb : s.bodyChunked with
  | false =>
    rw [State.bodyRead_simple hb, hst]
    refine ⟨(decodeFrom_out_le _ _ _ _).trans ?_, .inl (decodeFrom_lenient _ _ _)⟩
    rw [List.length_take, unpackBytes_length]
    exact Nat.min_le_right _ _
  | true =>
    rw [State.bodyRead_chunked hb, hst]
    obtain ⟨hout, hfault⟩ := decodeChunks_lenient s.params.bitOrder s.dec s.params.chunkBytes y.length y
    exact ⟨hout, hfault.imp_right fun h => ⟨rfl, h⟩⟩

/-! ## DECODE of a body in INQ (R213) -/

section Decode

variable {s : State} {y rest : List Byte} (hp : s.phase = .idle) (hv : s.dec.valid = true) (hy : y.length < 2 ^ 64)
  (hq : s.inq = y ++ rest)

include hp hv hy hq

/-- DECODE in IDLE, with its decoder valid, emits, takes and raises what the body gives. -/
theorem exec_decode :
    ∃ (cand : Code) (idx : BitVec 14), exec (.decode y.length) s = .next
      (((s.begin (encode (.decode y.length))).decoded (s.bodyRead y).out (s.bodyRead y).used
        (s.inq.drop (s.bodyRead y).used) cand idx).endedBy (s.bodyRead y).fault State.complete) := by
  have hlen : y.length = (s.begin (encode (.decode y.length))).len.toNat := by
    rw [len_begin_encode]
    exact (Nat.mod_eq_of_lt hy).symm
  have hexec := exec_of_ready (i := .decode y.length) nofun hp hv
  cases hb : s.bodyChunked with
  | false =>
    rw [State.bodyRead_simple hb]
    obtain ⟨r, cand, idx, rfl, hloop⟩ :=
      decodeStart_simple (s := s.begin (encode (.decode y.length))) rfl hb hq rfl hlen
    exact ⟨cand, idx, hexec.trans (congrArg _ hloop)⟩
  | true =>
    rw [State.bodyRead_chunked hb]
    obtain ⟨r, cand, idx, rfl, hloop⟩ := decodeStart_chunked (s := s.begin (encode (.decode y.length))) hb hq rfl hlen
    exact ⟨cand, idx, hexec.trans (congrArg _ hloop)⟩

theorem exec_decode_of_none (hf : (s.bodyRead y).fault = none) :
    ∃ w : Work, exec (.decode y.length) s =
      .next { s.ended (.decode y.length) y.length (s.bodyRead y).out.length w with
        inq := rest, outq := s.outq ++ (s.bodyRead y).out } := by
  obtain ⟨cand, idx, hexec⟩ := exec_decode hp hv hy hq
  have hrest : s.inq.drop y.length = rest := by rw [hq, List.drop_left]
  rw [hf, State.bodyRead_used hf, hrest] at hexec
  exact ⟨_, hexec.trans (congrArg _ (complete_of_frame rfl (BitVec.zero_add _) (BitVec.zero_add _)))⟩

theorem exec_decode_of_some (herr : s.errcode = 0) {f : Err × Nat} (hf : (s.bodyRead y).fault = some f) :
    ∃ w : Work, exec (.decode y.length) s =
      .next { s.faulted (.decode y.length) f.1.code (BitVec.ofNat 64 f.2) (s.bodyRead y).used
          (s.bodyRead y).out.length w with
        inq := s.inq.drop (s.bodyRead y).used, outq := s.outq ++ (s.bodyRead y).out } := by
  obtain ⟨cand, idx, hexec⟩ := exec_decode hp hv hy hq
  rw [hf] at hexec
  exact ⟨_, hexec.trans (congrArg _ (raise_of_frame rfl (BitVec.zero_add _) (BitVec.zero_add _) ⟨hp, herr⟩
    (State.bodyRead_fault_ne_bounds hf) _))⟩

/-- Both ways a body ends, with one name for what the working registers hold. -/
theorem exec_decode_of_waiting (herr : s.errcode = 0) :
    ∃ w : Work, ((s.bodyRead y).fault = none → exec (.decode y.length) s =
        .next { s.ended (.decode y.length) y.length (s.bodyRead y).out.length w with
          inq := rest, outq := s.outq ++ (s.bodyRead y).out }) ∧
      ∀ e k, (s.bodyRead y).fault = some (e, k) → exec (.decode y.length) s =
        .next { s.faulted (.decode y.length) e.code (BitVec.ofNat 64 k) (s.bodyRead y).used
            (s.bodyRead y).out.length w with
          inq := s.inq.drop (s.bodyRead y).used, outq := s.outq ++ (s.bodyRead y).out } := by
  cases hf : (s.bodyRead y).fault with
  | none =>
    obtain ⟨w, hexec⟩ := exec_decode_of_none hp hv hy hq hf
    exact ⟨w, fun _ => hexec, nofun⟩
  | some f =>
    obtain ⟨w, hexec⟩ := exec_decode_of_some hp hv hy hq herr hf
    refine ⟨w, nofun, fun e k he => ?_⟩
    obtain rfl := Option.some.inj he
    exact hexec

/-- A body that gives `out` without a fault. -/
theorem exec_decode_of_gives {out : List Byte} (hr : (s.bodyRead y).Gives out) :
    ∃ t, exec (.decode y.length) s = .next t ∧ t.phase = .idle ∧ t.outq = s.outq ++ out ∧ t.inq = rest := by
  obtain ⟨w, hexec⟩ := exec_decode_of_none hp hv hy hq hr.sound
  exact ⟨_, hexec, rfl, congrArg _ hr.emits, rfl⟩

/-- Where DECODE has ended in IDLE, its body gave no fault. -/
theorem gives_of_exec_decode {t : State} {out : List Byte} (h : exec (.decode y.length) s = .next t)
    (ht : t.phase = .idle) (hout : t.outq = s.outq ++ out) : (s.bodyRead y).Gives out := by
  obtain ⟨cand, idx, hexec⟩ := exec_decode hp hv hy hq
  obtain rfl := Host.Outcome.next.inj (h.symm.trans hexec)
  cases hf : (s.bodyRead y).fault with
  | none =>
    rw [hf] at hout
    exact ⟨hf, List.append_cancel_left hout⟩
  | some f =>
    rw [hf] at ht
    have hfault := (Err.phase_eq_fault f.1).2 (State.bodyRead_fault_ne_bounds hf)
    exact absurd (hfault.symm.trans ht) nofun

end Decode

/-- Settles O43: DECODE of a SIMPLE body is what `decodeSimple` gives. -/
theorem decodeSimpleDecodesTheBits : Obligations.DecodeSimpleDecodesTheBits := by
  intro s y rest hs hv hb hy hq
  obtain ⟨w, hnone, hsome⟩ := exec_decode_of_waiting hs.1 hv hy hq hs.2
  rw [State.bodyRead_simple hb] at hnone hsome
  exact ⟨_, w, rfl, hnone, fun e k hf => ⟨hsome e k hf, decodeFrom_fault_kind hf⟩⟩

/-- Settles O44: DECODE of a CHUNKED body is what `decodeChunks` gives. -/
theorem decodeChunkedDecodesTheChunks : Obligations.DecodeChunkedDecodesTheChunks := by
  intro s y rest hs hv hb hy hq
  obtain ⟨w, hnone, hsome⟩ := exec_decode_of_waiting hs.1 hv hy hq hs.2
  rw [State.bodyRead_chunked hb] at hnone hsome
  exact ⟨_, w, rfl, hnone, fun e k hf => ⟨hsome e k hf, decodeChunks_fault_kind _ _ hf⟩⟩

/-- Settles O45: what a body gives in lenient mode (`State.bodyRead_lenient`) is what DECODE does. -/
theorem lenientDecodeFaultsOnlyAtBadTrail : Obligations.LenientDecodeFaultsOnlyAtBadTrail := by
  intro s y rest hs hv hst hy hq
  obtain ⟨w, hnone, hsome⟩ := exec_decode_of_waiting hs.1 hv hy hq hs.2
  obtain ⟨hout, hf | ⟨hb, k, hf, hused, count, hcount, hbad⟩⟩ := State.bodyRead_lenient hst y
  · exact ⟨_, w, hout, .inl (hnone hf)⟩
  · have hexec := hsome _ _ hf
    rw [hused] at hexec
    exact ⟨_, w, hout, .inr ⟨hb, k, count, hcount, hbad, hexec⟩⟩

/-! ## Chunk by chunk (R216) -/

section Chunks

variable {o : BitOrder} {d : Decoder} {strict : Bool} {n : Nat}

/-- A chunk that decodes alone without a fault decodes so in front of a body, if the body leaves it its payload. -/
theorem decodeChunks_chunk_append {t : Byte} {p rest : List Byte} (hp : min n (p.length + rest.length) = p.length)
    (hf : (decodeChunks o d strict n (p.length + 1) (t :: p)).fault = none) (fuel : Nat) :
    decodeChunks o d strict n (fuel + 1) (t :: (p ++ rest)) =
      (decodeChunks o d strict n fuel rest).behind (decodeChunks o d strict n (p.length + 1) (t :: p)).out
        (1 + p.length) := by
  have hmin : min n p.length = p.length := by omega
  simp only [decodeChunks, hmin, List.take_length, List.drop_length, List.length_append, hp, List.take_left,
    List.drop_left] at hf ⊢
  split at hf
  case isTrue => cases hf
  case isFalse ht =>
    rw [if_neg ht, if_neg ht]
    split at hf
    case h_1 => cases hf
    case h_2 =>
      have hnil : (decodeChunks o d strict n p.length []).out = [] := by cases p <;> rfl
      simp [Body.behind, hnil]

/-- Chunks one after another, all but the last of full payload, that each decode alone without a fault. -/
theorem decodeChunks_flatten {Ks outs : List (List Byte)}
    (h : List.Forall₂ (fun K A => (decodeChunks o d strict n K.length K).Gives A) Ks outs)
    (hfull : ∀ K ∈ Ks.dropLast, K.length = 1 + n) (hsize : ∀ K ∈ Ks, 1 ≤ K.length ∧ K.length ≤ 1 + n) {fuel : Nat}
    (hfuel : Ks.length ≤ fuel) :
    (decodeChunks o d strict n fuel Ks.flatten).Gives outs.flatten := by
  induction h generalizing fuel with
  | nil => cases fuel <;> exact ⟨rfl, rfl⟩
  | @cons K A Ks outs hK _ ih =>
    obtain ⟨hf, rfl⟩ := hK
    obtain ⟨fuel, rfl⟩ : ∃ k, fuel = k + 1 := ⟨fuel - 1, by rw [List.length_cons] at hfuel; omega⟩
    obtain ⟨t, p, rfl⟩ : ∃ t p, K = t :: p := List.exists_cons_of_length_pos (hsize K (by simp)).1
    have hle := (hsize (t :: p) (by simp)).2
    rw [List.length_cons] at hle
    have hpayload : min n (p.length + Ks.flatten.length) = p.length := by
      by_cases hKs : Ks = []
      · rw [hKs, List.flatten_nil, List.length_nil]
        omega
      · have := hfull (t :: p) (by simp [List.dropLast_cons_of_ne_nil hKs])
        rw [List.length_cons] at this
        omega
    obtain ⟨ihf, iho⟩ := ih (fun K hK => hfull K (by
        rw [List.dropLast_cons_of_ne_nil (List.ne_nil_of_mem (List.dropLast_subset _ hK))]
        exact List.mem_cons_of_mem _ hK))
      (fun K hK => hsize K (List.mem_cons_of_mem _ hK)) (Nat.le_of_succ_le_succ hfuel)
    rw [List.flatten_cons, List.flatten_cons, List.cons_append, decodeChunks_chunk_append hpayload hf]
    exact ⟨by rw [Body.behind, ihf]; rfl, by rw [Body.behind, iho]; rfl⟩

end Chunks

/-- Settles O46: DECODE of a chunk tells what it decodes to alone (`gives_of_exec_decode`), and that is what it
decodes to in the body (`decodeChunks_flatten`). -/
theorem chunksDecodeIndependently : Obligations.ChunksDecodeIndependently := by
  intro s Ks outs rest hp hv hb hlen hfull hsize hall
  have halone : List.Forall₂ (fun K A =>
      (decodeChunks s.params.bitOrder s.dec s.strict s.params.chunkBytes K.length K).Gives A) Ks outs := by
    have hlengths (K : List Byte) (hK : K ∈ Ks) := (List.sublist_flatten_of_mem hK).length_le.trans_lt hlen
    refine ((List.forall₂_and_left _ _).2 ⟨hlengths, hall⟩).imp ?_
    rintro K A ⟨hK, t, hexec, hphase, hout⟩
    rw [← State.bodyRead_chunked hb]
    exact gives_of_exec_decode (s := { s with inq := K }) (rest := []) hp hv hK (List.append_nil K).symm hexec hphase hout
  have hcount : Ks.length ≤ Ks.flatten.length := by
    have := List.length_le_sum_of_one_le (Ks.map List.length) (by simpa using fun K hK => (hsize K hK).1)
    rwa [List.length_map, ← List.length_flatten] at this
  have hread := decodeChunks_flatten halone hfull hsize hcount
  rw [← State.bodyRead_chunked hb] at hread
  exact exec_decode_of_gives (s := { s with inq := Ks.flatten ++ rest }) hp hv hlen rfl hread

/-! ## What ENCODE hands to DECODE (R106, R107) -/

/-- ENCODE, SIMPLE: the packed bits of the codes with their pad bits, ENC_TRAIL the number of these. -/
theorem exec_encode_simple {s : State} {x rest : List Byte} (hp : s.phase = .idle) (hv : s.codes.valid = true)
    (hb : s.bodyChunked = false) (hcov : s.codes.Covers x) (hx : x.length < 2 ^ 64) (hq : s.inq = x ++ rest) :
    ∃ (t : State) (pad : Code) (m : Nat), exec (.encode x.length) s = .next t ∧ t.phase = .idle ∧
      t.outq = s.outq ++ packBytes s.params.bitOrder m (s.codes.bitsOf x ++ pad) ∧ t.encTrail.toNat = pad.length ∧
      pad.length ≤ 7 ∧ (s.codes.bitsOf x).length + pad.length = 8 * m := by
  obtain ⟨pad, w, hexec, hpad, hfill⟩ := encodeSimpleWritesTheBody s x rest hp hv hb hcov hx hq
  exact ⟨_, pad, _, hexec, rfl, rfl, Nat.mod_eq_of_lt (by omega), hpad, hfill⟩

/-- ENCODE, CHUNKED: the chunks of the codes. -/
theorem exec_encode_chunked {s : State} {x rest : List Byte} (hp : s.phase = .idle) (hpar : s.params.wf)
    (hv : s.codes.valid = true) (hok : s.codes.Ok) (hb : s.bodyChunked = true) (hcov : s.codes.Covers x)
    (hx : x.length < 2 ^ 64) (hq : s.inq = x ++ rest) :
    ∃ (t : State) (ks : List Chunk), exec (.encode x.length) s = .next t ∧ t.phase = .idle ∧
      t.outq = s.outq ++ renderAll s.params.bitOrder ks ∧
      ChunkRun (8 * s.params.chunkBytes) s.params.chunkBytes [] (s.codes.codesOf x) ks := by
  obtain ⟨ks, k, hrun, hloop⟩ := pump_encode_chunked rest x 0 (s := s.encodeReady x.length) hb hcov hq
    (fun y c hc => ⟨(hok.1 y c hc).1, (hok.length_le hpar y c hc).2⟩) (Nat.zero_le _) (s.encodeReady_left hx)
  exact ⟨_, ks, (exec_encode x.length hp hv).trans (congrArg _ hloop), rfl, rfl, hrun⟩

/-- A decoder built from a table whose codes are apart inverts it: no code is longer than its MAXLEN. -/
theorem Decoder.BuiltFrom.inverts {d : Decoder} {t : CodeTable} (h : d.BuiltFrom t) (hv : t.valid = true) (hok : t.Ok)
    (hfree : t.PrefixFree) : Inverts d t where
  resolves := h.2
  free := hfree
  nonempty y c hc := (hok.1 y c hc).1
  fits y c hc := by
    rw [h.1, (hok.2 hv).2]
    exact le_maxLength (CodeTable.mem_presentCodes.2 hc)

theorem Chunk.length_render (o : BitOrder) (k : Chunk) : (k.render o).length = 1 + k.bytes := by
  rw [Chunk.render, List.length_cons, packBytes_length, Nat.add_comm]

theorem length_le_renderAll (o : BitOrder) (ks : List Chunk) : ks.length ≤ (renderAll o ks).length := by
  induction ks with
  | nil => exact Nat.zero_le _
  | cons k ks ih =>
    rw [renderAll_cons, List.length_cons, List.length_cons, List.length_append]
    omega

/-! ## The round trip of the body (R218) -/

section RoundTrip

variable {r : State} {t : CodeTable} (h : Inverts r.dec t) {x : List Byte} (hcov : t.Covers x)

include h hcov

/-- R218 (a). -/
theorem Inverts.gives_chunked {ks : List Chunk} (hb : r.bodyChunked = true)
    (hlen : ∀ y c, t.codeOf y = some c → c.length ≤ 255 ∧ c.length ≤ 8 * r.params.chunkBytes)
    (hrun : ChunkRun (8 * r.params.chunkBytes) r.params.chunkBytes [] (t.codesOf x) ks) :
    (r.bodyRead (renderAll r.params.bitOrder ks)).Gives x := by
  rw [State.bodyRead_chunked hb, h.decodeChunks _ _ hcov hlen hrun (length_le_renderAll _ ks)]
  exact ⟨rfl, rfl⟩

section Simple

variable {pad : Code} {m : Nat} (hb : r.bodyChunked = false) (hfill : (t.bitsOf x).length + pad.length = 8 * m)

include hb hfill

/-- R218 (b). -/
theorem Inverts.gives_simple (htail : r.tailDiscard = pad.length) :
    (r.bodyRead (packBytes r.params.bitOrder m (t.bitsOf x ++ pad))).Gives x := by
  rw [State.bodyRead_simple hb, htail, h.decodeSimple_exact _ _ hcov hfill]
  exact ⟨rfl, rfl⟩

/-- R218 (c). -/
theorem Inverts.gives_lenient (htail : r.tailDiscard = 0) (hst : r.strict = false) :
    ∃ extra, extra.length ≤ pad.length ∧
      (r.bodyRead (packBytes r.params.bitOrder m (t.bitsOf x ++ pad))).Gives (x ++ extra) := by
  obtain ⟨extra, hextra, hread⟩ := h.decodeSimple_lenient r.params.bitOrder hcov hfill
  refine ⟨extra, hextra, ?_⟩
  rw [State.bodyRead_simple hb, htail, hst, hread]
  exact ⟨rfl, rfl⟩

end Simple

end RoundTrip

/-- Settles O47: the body that ENCODE writes (`exec_encode_simple`, `exec_encode_chunked`) reads back as the input. -/
theorem bodyRoundTrip : Obligations.BodyRoundTrip := by
  intro s r x rest rest' hp hpar hv hok hfree hcov hx hq hpr hparams hvr hbuilt hformat
  have hinv := hbuilt.inverts hv hok hfree
  cases hb : s.bodyChunked with
  | true =>
    rw [hb] at hformat
    obtain ⟨t, ks, hexec, ht, hout, hrun⟩ := exec_encode_chunked hp hpar hv hok hb hcov hx hq
    refine ⟨t, _, hexec, ht, hout, fun hY hqr => ⟨fun _ => ?_, fun hsimple => ?_⟩⟩
    · rw [← hparams] at hrun hpar hY hqr ⊢
      exact exec_decode_of_gives hpr hvr hY hqr (hinv.gives_chunked hcov hformat (hok.length_le hpar) hrun)
    · exact absurd (hformat.symm.trans hsimple) nofun
  | false =>
    rw [hb] at hformat
    obtain ⟨t, pad, m, hexec, ht, hout, htrail, hpad, hfill⟩ := exec_encode_simple hp hv hb hcov hx hq
    refine ⟨t, _, hexec, ht, hout, ?_⟩
    rw [htrail, ← hparams]
    refine fun hY hqr => ⟨fun htail => ?_, fun _ htail hst => ?_⟩
    · exact exec_decode_of_gives hpr hvr hY hqr
        (hinv.gives_simple hcov hformat hfill (htail.resolve_left (by simp [hformat])))
    · obtain ⟨extra, hextra, hread⟩ := hinv.gives_lenient hcov hformat hfill htail hst
      obtain ⟨u, hdecode, hu, huout, huinq⟩ := exec_decode_of_gives hpr hvr hY hqr hread
      exact ⟨u, extra, hdecode, hu, by rw [huout, List.append_assoc], huinq, hextra, hpad⟩

/-! ## Chunked decoding and simple decoding (R219) -/

/-- The chunks of an input: each has a payload, all but the last a full one (R206). -/
theorem ChunkRun.payloads {n : Nat} {codes : List Code} {ks : List Chunk} (h : ChunkRun (8 * n) n [] codes ks)
    (hc : ∀ c ∈ codes, 1 ≤ c.length ∧ c.length ≤ 255 ∧ c.length ≤ 8 * n) :
    (∀ k ∈ ks.dropLast, k.bytes = n) ∧ ∀ k ∈ ks, 1 ≤ k.bytes ∧ k.bytes ≤ n := by
  obtain ⟨hwf, hfull, hlast⟩ := h.facts hc
  refine ⟨fun k hk => (hfull k hk).1, fun k hk => ⟨?_, ?_⟩⟩
  · obtain ⟨hfill, hne⟩ := hwf k hk
    have := List.length_pos_iff.2 hne
    rw [Chunk.wf] at hfill
    omega
  · have hne := List.ne_nil_of_mem hk
    rw [← List.dropLast_append_getLast hne, List.mem_append, List.mem_singleton] at hk
    rcases hk with hk | rfl
    · exact (hfull k hk).1.le
    · exact (hlast _ (List.getLast?_eq_some_getLast hne)).2.1

/-- Each chunk of an input, decoded alone, gives its part of the input (R216). -/
theorem Inverts.exec_decode_alone {r : State} {t : CodeTable} (h : Inverts r.dec t) {x : List Byte} (hcov : t.Covers x)
    (hp : r.phase = .idle) (hv : r.dec.valid = true) (hb : r.bodyChunked = true)
    (hlen : ∀ y c, t.codeOf y = some c → c.length ≤ 255 ∧ c.length ≤ 8 * r.params.chunkBytes) {ks : List Chunk}
    (hrun : ChunkRun (8 * r.params.chunkBytes) r.params.chunkBytes [] (t.codesOf x) ks)
    (hY : (renderAll r.params.bitOrder ks).length < 2 ^ 64) :
    ∃ gs : List (List Byte), gs.flatten = x ∧
      List.Forall₂ (fun K out => ∃ v, exec (.decode K.length) { r with inq := K } = .next v ∧ v.phase = .idle ∧
        v.outq = r.outq ++ out) (ks.map (Chunk.render r.params.bitOrder)) gs := by
  obtain ⟨hok, gs, hgs, hall⟩ := h.chunks r.strict hcov hlen hrun
  have hchunks (k : Chunk) (hk : k ∈ ks) :
      ChunksOk r.params.chunkBytes [k] ∧ (k.render r.params.bitOrder).length < 2 ^ 64 :=
    ⟨hok.single k hk, (List.sublist_flatten_of_mem (List.mem_map_of_mem hk)).length_le.trans_lt hY⟩
  refine ⟨gs, hgs, List.forall₂_map_left_iff.2 (((List.forall₂_and_left _ _).2 ⟨hchunks, hall⟩).imp ?_)⟩
  rintro k g ⟨⟨hone, hk⟩, hdecode⟩
  have hread := decodeChunks_render (o := r.params.bitOrder) hone (length_le_renderAll r.params.bitOrder [k])
    (.cons hdecode .nil)
  rw [renderAll_singleton, List.flatten_singleton, ← State.bodyRead_chunked hb] at hread
  obtain ⟨v, hexec, hphase, hout, -⟩ := exec_decode_of_gives (s := { r with inq := k.render r.params.bitOrder })
    (rest := []) (out := g) hp hv hk (List.append_nil _).symm ⟨congrArg Body.fault hread, congrArg Body.out hread⟩
  exact ⟨v, hexec, hphase, hout⟩

/-- Settles O48: the chunks alone (`Inverts.exec_decode_alone`), the chunks together and the simple body all read back
as the input. -/
theorem chunkedDecodesAsSimple : Obligations.ChunkedDecodesAsSimple := by
  intro s s' r r' x rest rest' hp hpar hv hok hfree hcov hx hq hb hp' hparams' hcodes' hq' hb' hpr hparams hvr hbuilt hbr
    hpr' hparamsr' hvr' hbuilt' hbr'
  obtain ⟨t, ks, hexec, ht, hout, hrun⟩ := exec_encode_chunked hp hpar hv hok hb hcov hx hq
  obtain ⟨t', pad, m, hexec', ht', hout', htrail, -, hfill⟩ :=
    exec_encode_simple hp' (hcodes' ▸ hv) hb' (hcodes' ▸ hcov) hx hq'
  rw [hcodes', hparams', ← hparamsr'] at hout'
  rw [hcodes'] at hfill
  have hcodes (c : Code) (hc : c ∈ s.codes.codesOf x) :
      1 ≤ c.length ∧ c.length ≤ 255 ∧ c.length ≤ 8 * s.params.chunkBytes :=
    (hcov.codeOf_of_mem hc).elim fun y hy => ⟨(hok.1 y c hy).1, hok.length_le hpar y c hy⟩
  obtain ⟨hfull, hsize⟩ := hrun.payloads hcodes
  refine ⟨t, t', ks, _, _, hexec, ht, hout, hrun, rfl, fun k hk => ?_, fun k hk => ?_, hexec', ht', hout', ?_⟩
  · rw [Chunk.length_render, hfull k hk]
  · have := hsize k hk
    rw [Chunk.length_render]
    omega
  · intro hY hY' htail after after'
    rw [← hparams] at hrun hpar hY ⊢
    have hinv := hbuilt.inverts hv hok hfree
    have hinv' := hbuilt'.inverts hv hok hfree
    obtain ⟨gs, hgs, halone⟩ := hinv.exec_decode_alone hcov hpr hvr hbr (hok.length_le hpar) hrun hY
    obtain ⟨u, hu, huphase, huout, -⟩ :=
      exec_decode_of_gives (s := { r with inq := renderAll r.params.bitOrder ks ++ after }) hpr hvr hY rfl
        (hinv.gives_chunked hcov hbr (hok.length_le hpar) hrun)
    obtain ⟨u', hu', huphase', huout', -⟩ :=
      exec_decode_of_gives
        (s := { r' with inq := packBytes r'.params.bitOrder m (s.codes.bitsOf x ++ pad) ++ after' }) hpr' hvr' hY' rfl
        (hinv'.gives_simple hcov hbr' hfill (htail.trans htrail))
    exact ⟨gs, x, x, u, u', halone, hu, huphase, huout, hu', huphase', huout', hgs, rfl, rfl⟩

end Sys2Proof.Machine
end

section
/-!
PROOFS. The family of 46_system.md: CLEAR (O15) and SET_CFG (O16), and that DECOMPRESS inverts COMPRESS (O49).
-/

namespace Sys2Proof.Machine

open Sys2Proof

/-! ## CLEAR (R231) -/

/-- Of the status registers only CFG, number 3, is not what reset makes it. -/
theorem cleared_statusPort (s : State) {r : Byte} (hr : r ≠ 3) : s.cleared.statusPort r = 0 := by
  unfold State.statusPort
  split
  case h_1 => exact reset_statusPort 0
  case h_4 => exact absurd rfl hr
  all_goals rfl

/-- Settles O15: the port is ready in both phases, so CLEAR runs; what it leaves is `State.cleared`. -/
theorem clearResetsAllButCfgAndOutq : Obligations.ClearResetsAllButCfgAndOutq := by
  intro s hs
  have hready : s.portReady = true := by rcases hs with hp | hp <;> rw [State.portReady, hp]
  exact ⟨_, exec_clear_of_portReady hready, rfl, fun _ => cleared_statusPort _, rfl, rfl, rfl, rfl, rfl⟩

/-! ## SET_CFG (R232) -/

/-- SET_CFG with `arg[63:6] = 0` writes CFG and nothing else. -/
theorem exec_setCfg_of_legal {s : State} (hp : s.phase = .idle) {v : Word64} (hv : v.extractLsb' 6 58 = 0) :
    exec (.setCfg v) s =
      .next { s.ended (.setCfg v) 0 0 (s.begin (encode (.setCfg v))).work with cfg := v.extractLsb' 0 6 } := by
  have hshift : v >>> 6 = 0 := by
    rw [BitVec.ushiftRight_eq_extractLsb'_of_lt (by decide), hv]
    rfl
  rw [exec_of_ready (i := .setCfg v) nofun hp rfl]
  change Host.Outcome.next (setCfgBody v _) = _
  rw [setCfgBody, if_neg (not_not_intro hshift), BitVec.truncate, BitVec.setWidth_eq_extractLsb' (by decide)]
  rfl

/-- Settles O16: the fields of CFG are bits of the operand. -/
theorem setCfgWritesCfgOrFaults : Obligations.SetCfgWritesCfgOrFaults := by
  refine fun s v hs => ⟨fun hv => ⟨_, _, exec_setCfg_of_legal hs.1 hv, rfl, ?_, ?_, ?_, ?_⟩,
    fun hv => ⟨_, exec_setCfg_of_reserved hs hv⟩⟩
  · exact BitVec.getLsbD_extractLsb' ..
  · exact BitVec.getLsbD_extractLsb' ..
  · exact BitVec.getLsbD_extractLsb' ..
  · exact congrArg BitVec.toNat (BitVec.extractLsb'_extractLsb'_of_le (by decide))

/-! ## Commands one after another (R236 to R238) -/

theorem compress_of_commands {n : Nat} {s a u v t : State} (htree : buildTree n s = .next a)
    (hget : exec .getCodes a = .next u) (hwrite : exec .writeDict u = .next v)
    (hencode : exec (.encode n) v = .next t) : compress n s = .next t := by
  obtain ⟨_, hcount, hmerge⟩ := thenDo_next.1 htree
  exact thenDo_next.2 ⟨_, hcount, thenDo_next.2 ⟨_, hmerge, thenDo_next.2 ⟨_, hget,
    thenDo_next.2 ⟨_, hwrite, hencode⟩⟩⟩⟩

theorem decompress_of_commands {n d : Nat} {r a b u : State} (hread : exec (.readDict n) r = .next a)
    (hd : a.consumedReg.toNat = d) (hbuild : exec .buildDecoder a = .next b)
    (hdecode : exec (.decode (n - d)) b = .next u) : decompress n r = .next u := by
  subst hd
  exact thenDo_next.2 ⟨_, hread, thenDo_next.2 ⟨_, hbuild, hdecode⟩⟩

/-- What commands without a fault leave of `s` beside the structures they write: PHASE is IDLE again, the parameters and
CFG are kept, INQ is `q`, and `out` is appended to OUTQ. -/
structure Ran (s : State) (q out : List Byte) (u : State) : Prop where
  idle : u.phase = .idle
  params : u.params = s.params
  cfg : u.cfg = s.cfg
  inq : u.inq = q
  outq : u.outq = s.outq ++ out

section Formats

variable {s u : State} {q out : List Byte} (h : Ran s q out u)

include h

theorem Ran.dictRaw : u.dictRaw = s.dictRaw := congrArg (·.getLsbD 0) h.cfg

theorem Ran.bodyChunked : u.bodyChunked = s.bodyChunked := congrArg (·.getLsbD 1) h.cfg

theorem Ran.tailDiscard : u.tailDiscard = s.tailDiscard := congrArg (fun c => (c.extractLsb' 3 3).toNat) h.cfg

end Formats

/-! ## The table of an input (R131, R133, R152) -/

/-- What ENCODE needs of a table for an input (R203): it is valid and in order (R52 (c), (d)), its codes are apart (R154
(c)), and each byte of the input has one. -/
structure CodeTable.Fits (t : CodeTable) (x : List Byte) : Prop where
  valid : t.valid = true
  ok : t.Ok
  free : t.PrefixFree
  covers : t.Covers x

/-- A table written from distinct Symbols with codes of 1 to 255 bits is in order. -/
theorem State.codesWritten_ok {l : List (Byte × Code)} (hn : (l.map Prod.fst).Nodup)
    (hl : ∀ y c, (y, c) ∈ l → 1 ≤ c.length ∧ c.length ≤ 255) (s : State) : (s.codesWritten l).Ok := by
  have hperm := s.presentCodes_codesWritten_perm hn
  refine ⟨fun y c hy => hl y c ((s.codeOf_codesWritten hn y c).1 hy), fun _ => ⟨?_, ?_⟩⟩
  · rw [s.nsym_codesWritten hn, hperm.length_eq]
  · rw [s.maxlen_codesWritten hn hl]
    exact ((hperm.map _).foldr_eq 0).symm

/-- The table of a tree fits an input whose bytes are Symbols of its leaves. -/
theorem State.codesWritten_fits {a : TreeArena} {T : HTree} (hT : a.Holds T) {x : List Byte}
    (hx : ∀ y ∈ x, y ∈ T.leaves.map Prod.fst) (s : State) : (s.codesWritten T.table).Fits x := by
  have hn := HTree.nodup_table_symbols hT.symbols
  exact ⟨rfl, s.codesWritten_ok hn fun _ _ => HTree.table_length hT.symbols,
    CodeTable.prefixFree_of_table (s.codeOf_codesWritten hn),
    fun y hy => (CodeTable.isSome_codeOf_iff_leaf (s.codeOf_codesWritten hn) y).2 (hx y hy)⟩

/-- BUILD_TREE on a non-empty input takes it and leaves a tree whose leaves have the Symbols of the input. -/
theorem buildTree_of_input {s : State} {x rest : List Byte} (hp : s.phase = .idle) (hne : x ≠ [])
    (hx : x.length < 2 ^ 64) (hq : s.inq = x ++ rest) :
    ∃ (a : State) (T : HTree), buildTree x.length s = .next a ∧ Ran s rest [] a ∧ a.tree.valid = true ∧
      a.tree.Holds T ∧ ∀ y, y ∈ T.leaves.map Prod.fst ↔ y ∈ x := by
  obtain ⟨f, w, hcount, hvalid, -, hfreq, hsum⟩ := countCountsEveryByte s x rest hp hx hq
  have hmem (y : Byte) : f.freqOf y.toNat ≠ 0 ↔ y ∈ x := by
    rw [← List.count_pos_iff, ← hfreq y, Nat.pos_iff_ne_zero, ← BitVec.toNat_inj.ne]
    rfl
  obtain ⟨y, hy⟩ := List.exists_mem_of_ne_nil x hne
  obtain ⟨a, w, n, T, hmerge, hT, -⟩ := mergeBuildsTheTree
    { s.ended (.count x.length) x.length 0 w with freqs := f, inq := rest } rfl hvalid (fun _ => hsum)
    ⟨y, (hmem y).2 hy⟩
  refine ⟨_, T, thenDo_next.2 ⟨_, hcount, hmerge⟩, ⟨rfl, rfl, rfl, rfl, (List.append_nil _).symm⟩, hT.valid, hT.holds,
    fun y => ?_⟩
  rw [(hT.leaves.map Prod.fst).mem_iff, ← hmem y]
  simp [FreqTable.mem_present]

/-- COMPRESS of a non-empty input, up to ENCODE: the input is taken once, and the section of a table that fits it is
written. -/
theorem compress_of_input {s : State} {x rest : List Byte} (hp : s.phase = .idle) (hne : x ≠ [])
    (hx : x.length < 2 ^ 64) (hq : s.inq = x ++ rest) :
    ∃ v : State, (∀ t, exec (.encode x.length) v = .next t → compress x.length s = .next t) ∧
      Ran s rest (sectionBytes v.writtenRecords) v ∧ v.codes.Fits x := by
  obtain ⟨a, T, htree, hran, hvalid, hT, hleaves⟩ := buildTree_of_input hp hne hx hq
  obtain ⟨w, hget⟩ := exec_getCodes hran.idle hvalid hT
  have hfits := State.codesWritten_fits hT (fun y hy => (hleaves y).2 hy) a
  obtain ⟨w', hwrite⟩ := exec_writeDict_of_ok
    (s := { a.ended .getCodes 0 0 w with codes := a.codesWritten T.table }) rfl hfits.valid hfits.ok
  exact ⟨_, fun t => compress_of_commands htree hget hwrite,
    ⟨rfl, hran.params, hran.cfg, hran.inq, congrArg (· ++ _) (hran.outq.trans (List.append_nil _))⟩, hfits⟩

/-- ENCODE of an input that the table fits takes it and appends some body. -/
theorem exec_encode_of_fits {s : State} {x rest : List Byte} (hp : s.phase = .idle) (hpar : s.params.wf)
    (hfits : s.codes.Fits x) (hx : x.length < 2 ^ 64) (hq : s.inq = x ++ rest) :
    ∃ (t : State) (Y : List Byte), exec (.encode x.length) s = .next t ∧ Ran s rest Y t := by
  obtain ⟨hv, hok, -, hcov⟩ := hfits
  cases hb : s.bodyChunked with
  | false =>
    obtain ⟨pad, w, hexec, -⟩ := encodeSimpleWritesTheBody s x rest hp hv hb hcov hx hq
    exact ⟨_, _, hexec, rfl, rfl, rfl, rfl, rfl⟩
  | true =>
    obtain ⟨ks, -, w, k, hexec, -⟩ := encodeChunkedWritesTheChunks s x rest hp hpar hv hok hb hcov hx hq
    exact ⟨_, _, hexec, rfl, rfl, rfl, rfl, rfl⟩

/-! ## The decoder that the section of a table gives (R186, R163) -/

theorem State.dictEntries_writtenRecords (s : State) : dictEntries s.writtenRecords = presentCodes s.codes.code :=
  dictEntries_written _ _ _

/-- The present codes of a table, written again, are the codes of the table. -/
theorem State.codeOf_codesWritten_present (t : CodeTable) (s : State) (y : Byte) :
    (s.codesWritten (presentCodes t.code)).codeOf y = t.codeOf y :=
  Option.ext fun c => (s.codeOf_codesWritten (presentCodes_nodup _) y c).trans CodeTable.mem_presentCodes

/-- Valid tables of the same codes have the same MAXLEN (R35). -/
theorem CodeTable.maxlen_congr {t t' : CodeTable} (hok : t.Ok) (hok' : t'.Ok) (hv : t.valid = true)
    (hv' : t'.valid = true) (h : ∀ y, t'.codeOf y = t.codeOf y) : t'.maxlen = t.maxlen :=
  BitVec.eq_of_toNat_eq <|
    calc t'.maxlen.toNat = maxLength (presentCodes t'.code) := (hok'.2 hv').2
      _ = maxLength (presentCodes t.code) := congrArg maxLength (presentCodes_congr h)
      _ = t.maxlen.toNat := (hok.2 hv).2.symm

theorem CodeTable.PrefixFree.congr {t t' : CodeTable} (hfree : t.PrefixFree) (h : ∀ y, t'.codeOf y = t.codeOf y) :
    t'.PrefixFree := by
  simpa only [CodeTable.PrefixFree, h] using hfree

/-- A decoder does not tell the table it was built from from another of the same codes and MAXLEN. -/
theorem Decoder.BuiltFrom.congr {d : Decoder} {t t' : CodeTable} (hbuilt : d.BuiltFrom t')
    (h : ∀ y, t'.codeOf y = t.codeOf y) (hmax : t'.maxlen = t.maxlen) : d.BuiltFrom t := by
  simpa only [Decoder.BuiltFrom, h, hmax] using hbuilt

/-- READ_DICT and BUILD_DECODER on the section that WRITE_DICT writes for the table of `s`: a decoder of that table. -/
theorem decoder_of_section {s r : State} {n : Nat} {x rest : List Byte} (hfits : s.codes.Fits x)
    (htok : s.params.token0 ≠ s.params.token1) (hp : r.phase = .idle) (hparams : r.params = s.params)
    (hraw : r.dictRaw = s.dictRaw) (hn : n < 2 ^ 64)
    (hlen : (sectionBytes s.writtenRecords).length ≤ n) (hq : r.inq = sectionBytes s.writtenRecords ++ rest) :
    ∃ a b : State, exec (.readDict n) r = .next a ∧ a.consumedReg.toNat = (sectionBytes s.writtenRecords).length ∧
      exec .buildDecoder a = .next b ∧ Ran r rest [] b ∧ b.dec.valid = true ∧ b.dec.BuiltFrom s.codes := by
  obtain ⟨hv, hok, hfree, -⟩ := hfits
  obtain ⟨w, hread⟩ := exec_readDict_section hp hn (by rw [hparams, hraw]; exact State.writtenRecords_wf hok htok)
    (s.writtenRecords_ascending.imp BitVec.ne_of_lt) hlen hq
  rw [s.dictEntries_writtenRecords] at hread
  have hcodes := State.codeOf_codesWritten_present s.codes r
  have hok' := r.codesWritten_ok (presentCodes_nodup s.codes.code) fun y c hy =>
    hok.1 y c (CodeTable.mem_presentCodes.1 hy)
  obtain ⟨d, w', hbuild, hvalid, -, -, -, -, -, -, -, -, -, -, hbuilt⟩ := buildDecoderStoresEveryCode
    { r.ended (.readDict n) (sectionBytes s.writtenRecords).length 0 w with
      codes := r.codesWritten (presentCodes s.codes.code), inq := rest } rfl rfl hok' (hfree.congr hcodes).injective
  exact ⟨_, _, hread, Nat.mod_eq_of_lt (hlen.trans_lt hn), hbuild, ⟨rfl, rfl, rfl, rfl, (List.append_nil _).symm⟩,
    hvalid, hbuilt.congr hcodes (CodeTable.maxlen_congr hok hok' hv rfl hcodes)⟩

/-! ## The end-to-end law (R239) -/

/-- Settles O49: the file is the section of a table that fits the input (`compress_of_input`) and a body. READ_DICT and
BUILD_DECODER make a decoder of that table from the section (`decoder_of_section`), and with it DECODE inverts ENCODE
(`bodyRoundTrip`). -/
theorem compressThenDecompressIsIdentity : Obligations.CompressThenDecompressIsIdentity := by
  intro s x rest hp hpar hne hx hq
  obtain ⟨v, hcompress, hwriter, hfits⟩ := compress_of_input hp hne hx (hq.trans (List.append_assoc _ _ _))
  rw [← hwriter.params] at hpar
  obtain ⟨t, Y, hencode, hfile⟩ := exec_encode_of_fits hwriter.idle hpar hfits hx hwriter.inq
  refine ⟨t, sectionBytes v.writtenRecords ++ Y, hcompress t hencode, hfile.idle, hfile.inq,
    by rw [hfile.outq, hwriter.outq, List.append_assoc], fun r rest' hpr hparams hraw hformat htail hF hqr => ?_⟩
  rw [← hwriter.params] at hparams
  rw [← hwriter.dictRaw] at hraw
  rw [← hwriter.bodyChunked] at hformat
  obtain ⟨a, b, hread, hconsumed, hbuild, hreader, hvalid, hbuilt⟩ :=
    decoder_of_section hfits hpar.1 hpr hparams hraw hF (by simp) (hqr.trans (List.append_assoc _ _ _))
  obtain ⟨t', Y', hencode', -, hout, hbody⟩ := bodyRoundTrip v b x rest rest' hwriter.idle hpar hfits.valid hfits.ok
    hfits.free hfits.covers hx hwriter.inq hreader.idle (hreader.params.trans hparams) hvalid hbuilt
    (hreader.bodyChunked.trans hformat)
  obtain rfl := Host.Outcome.next.inj (hencode.symm.trans hencode')
  obtain rfl := List.append_cancel_left (hfile.outq.symm.trans hout)
  have hlen := List.length_append (as := sectionBytes v.writtenRecords) (bs := Y)
  rw [← hreader.bodyChunked, ← hreader.tailDiscard] at htail
  obtain ⟨u, hdecode, hu, huout, huinq⟩ := (hbody (by omega) hreader.inq).1 htail
  refine ⟨u, decompress_of_commands hread hconsumed hbuild ?_, hu, ?_, huinq⟩
  · rwa [hlen, Nat.add_sub_cancel_left]
  · rw [huout, hreader.outq, List.append_nil]

end Sys2Proof.Machine
end

section
/-!
PROOFS. The family of 60_exceptions.md: a command that holds (O9), the prerequisites (O17), no step stops (O59), what is
discarded in FAULT (O18), and the codes of the faults (O20).
-/

namespace Sys2Proof.Machine

open Sys2Proof

/-! ## No step stops (R257) -/

/-- A word that is accepted answers a next state. -/
theorem exists_issue_next {s : State} (h : s.Inv) (w : CmdWord) : ∃ t, issue w s = .next t := by
  cases hd : decode w with
  | ok i =>
    obtain ⟨t, ht, -⟩ := exec_inv (i := i) h
    exact ⟨t, (issue_of_decode hd s).trans ht⟩
  | error e => exact ⟨_, issue_of_decode_error hd s⟩

/-- So does the host's next act: each but a word at a ready port is a next state as it is defined. -/
theorem exists_hostStep_next {s : State} (h : s.Inv) : ∃ t, hostStep s = .next t := by
  unfold hostStep
  split
  case h_2 w rest _ =>
    split
    · exact exists_issue_next (h.hosting rest) w
    · exact ⟨_, rfl⟩
  case h_4 => split <;> exact ⟨_, rfl⟩
  all_goals exact ⟨_, rfl⟩

/-- Settles O59: going on always answers a next state, the host's acts do by `exists_hostStep_next`, and the invariant,
which the step keeps, excludes FATAL. -/
theorem stepNeverStops : Obligations.StepNeverStops := by
  intro s h
  obtain ⟨t, ht⟩ : ∃ t, step s = .next t := by
    cases hc : s.coreMoves with
    | true => exact ⟨resume s, if_pos hc⟩
    | false =>
      rw [step_of_not_coreMoves hc]
      exact exists_hostStep_next h
  exact ⟨t, ht, (step_inv h ht).notFatal⟩

/-! ## Prerequisites (R258) -/

/-- A command whose prerequisite fails, with no fault recorded, raises E_SEQ with its opcode and does nothing else. -/
theorem exec_seq_of_waiting {i : Instr} {s : State} (hs : s.Waiting) (hr : ready i s = false) :
    exec i s = .next (s.faulted i 0x41 (i.opcode.zeroExtend 64) 0 0 (s.begin (encode i)).work) :=
  (exec_of_not_ready hs.1 hr).trans (congrArg _ (raise_begin_of_waiting hs (by decide : Err.seq ≠ .bounds) i _))

/-- Another fault than E_SEQ does not put E_SEQ's code in ERRCODE. -/
theorem raise_errcode_ne_seq {s : State} (h : s.errcode ≠ Err.seq.code) {e : Err} (he : e ≠ .seq) (info : Word64) :
    (s.raise e info).errcode ≠ Err.seq.code := by
  have hcode : e.code ≠ Err.seq.code := by
    cases e with
    | seq => exact absurd rfl he
    | _ => decide
  rw [State.raise_errcode]
  split
  · exact hcode
  · exact h

theorem setCfgBody_errcode_ne_seq {s : State} (h : s.errcode ≠ Err.seq.code) (v : Word64) :
    (setCfgBody v s).errcode ≠ Err.seq.code := by
  unfold setCfgBody
  split
  · exact raise_errcode_ne_seq h (by decide) v
  · exact h

/-- COUNT raises no fault. -/
theorem countLoop_errcode (s : State) : (countLoop s).errcode = s.errcode := by
  unfold countLoop
  split <;> rfl

theorem pump_count_errcode (q : List Byte) (s : State) : (pump countByte q s).errcode = s.errcode :=
  pump_frame (f := countByte) (fun _ _ => countLoop_errcode _) (fun _ _ => rfl) q s

theorem dictNext_errcode_ne_seq {s : State} (h : s.errcode ≠ Err.seq.code) (pos : Pos) :
    (dictNext pos s).errcode ≠ Err.seq.code := by
  unfold dictNext
  split
  · exact raise_errcode_ne_seq h (by decide) _
  · exact h

/-- Of READ_DICT's faults, E_TRUNC_DICT, E_BADTOKEN and E_DUPSYM, none is E_SEQ. -/
theorem dictByte_errcode_ne_seq {s : State} (h : s.errcode ≠ Err.seq.code) (b : Byte) :
    (dictByte b s).errcode ≠ Err.seq.code := by
  unfold dictByte
  split
  · split
    · exact h
    · exact dictNext_errcode_ne_seq h _
  · split
    · exact raise_errcode_ne_seq h (by decide) _
    · split <;> exact dictNext_errcode_ne_seq h _
  · split
    · exact raise_errcode_ne_seq h (by decide) _
    · exact dictNext_errcode_ne_seq (s := s.setCode b _) h _
  · exact h

theorem pump_dict_errcode_ne_seq {s : State} (h : s.errcode ≠ Err.seq.code) :
    (pump dictByte s.inq s).errcode ≠ Err.seq.code :=
  pump_keeps inqFree_dict (P := fun s => s.errcode ≠ Err.seq.code)
    (fun b rest u _ _ hu => dictByte_errcode_ne_seq (s := u.inByte rest) hu b) rfl h

/-- The four commands without a prerequisite never answer E_SEQ. -/
theorem exec_errcode_ne_seq {i : Instr} {s t : State} (hs : s.Waiting)
    (hi : i = .clear ∨ (∃ v, i = .setCfg v) ∨ (∃ n, i = .count n) ∨ ∃ n, i = .readDict n) (h : exec i s = .next t) :
    t.errcode ≠ Err.seq.code := by
  have herr : s.errcode ≠ Err.seq.code := by
    rw [hs.2]
    decide
  rcases hi with rfl | ⟨v, rfl⟩ | ⟨n, rfl⟩ | ⟨n, rfl⟩
  · rw [exec_clear_of_portReady (portReady_iff.2 (.inl hs.1))] at h
    obtain rfl := Host.Outcome.next.inj h
    exact (by decide : (0 : BitVec 8) ≠ Err.seq.code)
  · obtain rfl := Host.Outcome.next.inj ((exec_of_ready (i := .setCfg v) nofun hs.1 rfl).symm.trans h)
    exact setCfgBody_errcode_ne_seq (s := s.begin _) herr v
  · obtain rfl := Host.Outcome.next.inj ((exec_of_ready (i := .count n) nofun hs.1 rfl).symm.trans h)
    rw [pump_count_errcode, countStart, countLoop_errcode]
    exact herr
  · obtain rfl := Host.Outcome.next.inj ((exec_of_ready (i := .readDict n) nofun hs.1 rfl).symm.trans h)
    rw [← dictStart_inq]
    exact pump_dict_errcode_ne_seq (dictNext_errcode_ne_seq (s := codesStart (s.begin _)) herr .dictLength)

/-- Settles O17: the first seven clauses are `exec_seq_of_waiting`, the flag being the command's prerequisite. -/
theorem unmetPrerequisiteRaisesSeq : Obligations.UnmetPrerequisiteRaisesSeq := fun _ hs =>
  ⟨fun hv => ⟨_, exec_seq_of_waiting hs hv⟩, fun hv => ⟨_, exec_seq_of_waiting hs hv⟩,
    fun hv => ⟨_, exec_seq_of_waiting hs hv⟩, fun hv => ⟨_, exec_seq_of_waiting hs hv⟩,
    fun hv => ⟨_, exec_seq_of_waiting hs hv⟩, fun hv _ => ⟨_, exec_seq_of_waiting hs hv⟩,
    fun hv _ => ⟨_, exec_seq_of_waiting hs hv⟩, fun _ _ hi h => exec_errcode_ne_seq hs hi h⟩

/-! ## A command that holds (R277, R293) -/

/-- No command is accepted while one holds (R61). -/
theorem portReady_of_awaiting {s : State} (h : s.awaiting = true) : s.portReady = false := by
  obtain ⟨pos, hp⟩ := State.awaiting_busy h
  simp [State.portReady, hp]

/-- On an empty INQ the core does not go on (R62). -/
theorem coreMoves_of_inq_nil {s : State} (h : s.inq = []) : s.coreMoves = false := by simp [State.coreMoves, h]

/-- Settles O9: the core waits for a byte and accepts no word, so of the cases of `StepTo` a wait, a pop and a status read
are left. -/
theorem heldCommandKeepsItsState : Obligations.HeldCommandKeepsItsState := by
  intro s t hw hq h hpush hreset
  cases stepTo_of_step h with
  | resumes hc => exact absurd hc (by simp [coreMoves_of_inq_nil hq])
  | commands _ _ hp | illegal _ _ hp => exact absurd hp (by simp [portReady_of_awaiting hw])
  | pushes _ hs => exact absurd hs (hpush _ _)
  | resets _ hs => exact absurd hs (hreset _)
  | waits => exact ⟨s.script, s.outq, [], by rw [List.append_nil], rfl, .inl rfl⟩
  | @reads _ rest => exact ⟨rest, s.outq, [], by rw [List.append_nil]; rfl, rfl, .inl rfl⟩
  | @pops b q rest _ hs ho => exact ⟨rest, q, [b], by simp [hostPop, State.hosting, ho], ho, .inr ⟨hs, rfl⟩⟩

/-! ## In FAULT (R265) -/

/-- A word accepted outside IDLE that is not CLEAR's changes nothing: it is no command, or one that does nothing there. -/
theorem issue_of_not_idle {s : State} {w : CmdWord} (hp : s.phase ≠ .idle) (hw : w ≠ encode .clear) :
    issue w s = .next s := by
  cases hd : decode w with
  | ok i =>
    have hi : i ≠ .clear := by
      rintro rfl
      exact hw (eq_encode_of_decode hd)
    exact (issue_of_decode hd s).trans (exec_of_not_idle hi hp)
  | error e => rw [issue_of_decode_error hd, illegalWord_of_not_idle hp]

/-- Settles O18: the port is ready in FAULT (`portReady_iff`), and the word named is CLEAR's. -/
theorem faultDiscardsAllButClear : Obligations.FaultDiscardsAllButClear := fun _ _ hp hw =>
  ⟨portReady_iff.2 (.inr hp), issue_of_not_idle (by rw [hp]; nofun) hw⟩

/-! ## The codes of the faults (R251) -/

/-- Settles O20: as `Err.code` defines them. -/
theorem faultCodes : Obligations.FaultCodes :=
  ⟨rfl, rfl, rfl, rfl, rfl, rfl, rfl, rfl, rfl, rfl, rfl, rfl, rfl, rfl, rfl⟩

end Sys2Proof.Machine
end

section
/-!
PROOFS. The family of 70_reset_and_hazards.md: what the reset input does (O12).
-/

namespace Sys2Proof.Machine

open Sys2Proof

/-- In the host's turn a reset is one step, whatever the phase (R280). -/
theorem step_reset {s : State} {rest : List HostAct} (hc : s.coreMoves = false) (hs : s.script = .reset :: rest) :
    step s = .next (hardReset (s.hosting rest)) := by
  rw [step_of_not_coreMoves hc]
  simp [hostStep, hs, State.hosting]

/-- What `hardReset` keeps is no status register: the port shows what it shows in the reset state. -/
theorem hardReset_statusPort (s : State) (r : Byte) : (hardReset s).statusPort r = State.reset.statusPort r := rfl

/-- Settles O12: the step is `hardReset`, whose status port is that of the reset state, all zeros. -/
theorem resetInputGivesTheResetState : Obligations.ResetInputGivesTheResetState := fun s rest hc hs =>
  ⟨hardReset (s.hosting rest), step_reset hc hs, rfl,
    fun r => (hardReset_statusPort _ r).trans (reset_statusPort r), rfl, rfl, rfl, rfl⟩

end Sys2Proof.Machine
end
